-- ==== Sys2Proof/Word.lean ====
section
/-! DEFINITION. The words, samples and numbers of things of the RG340, and the indexed tables the state is made of. -/

namespace Sys2Proof

/-- One byte of a console message or of a link frame. -/
abbrev Byte := BitVec 8

/-- Two bytes: a serial, a check, a frame's sample field. -/
abbrev Word := BitVec 16

/-- A voice sample, −8192…+8191: the 14-bit two's-complement value of R208. -/
abbrev Sample := BitVec 14

/-- Risers S0–S7. -/
abbrev Riser := Fin 8

/-- Handset addresses 0–31 on a riser. -/
abbrev Addr := Fin 32

/-- Voice slots 0–3 of a riser frame. -/
abbrev Slot := Fin 4

/-- Entrance panels P0–P5. -/
abbrev Panel := Fin 6

/-- Call records 0–15. -/
abbrev Rec := Fin 16

/-- Directory entries 0–383. -/
abbrev EntryIx := Fin 384

/-- Directory pages 0–23. -/
abbrev PageIx := Fin 24

/-- Nonvolatile units 0–25. -/
abbrev UnitIx := Fin 26

/-- A handset, known by its riser and its address. -/
structure Handset where
  riser : Riser
  addr  : Addr
  deriving DecidableEq, Repr

/-- A frame as it stands on a panel link (R212). -/
structure PanelFrame where
  sync   : Byte
  sample : Word
  code   : Byte
  param  : Word
  check  : Word
  deriving DecidableEq, Repr

/-- A frame as it stands on the console link (R209): `flags` and `byte` are the control field. -/
structure ConsoleFrame where
  sync   : Byte
  sample : Word
  flags  : Byte
  byte   : Byte
  check  : Word
  deriving DecidableEq, Repr

/-- One item of a WRITE-ENTRIES list, with the widths of its 24-bit layout (R210). -/
structure WriteItem where
  valid : Bool
  code  : BitVec 14
  riser : BitVec 4
  addr  : BitVec 5
  deriving DecidableEq, Repr

/-- The fixed part of a WRITE-ENTRIES body (R64, R210); the item count is that of the list beside it. -/
structure WriteHead where
  gain    : Byte
  page    : BitVec 5
  release : Bool
  monitor : Bool
  dnd     : Bool
  start   : BitVec 5
  group   : BitVec 5
  deriving DecidableEq, Repr

/-- The outputs of the Mixer (R145): four slot outputs a riser, one a panel, and the console's. -/
inductive OutputId where
  | slot (r : Riser) (k : Slot)
  | panel (p : Panel)
  | console
  deriving DecidableEq, Repr

/-- The entry of a table at an index. -/
def vget {α : Type} {n : Nat} (v : Vector α n) (i : Fin n) : α := v[i.val]

/-- The table with the entry at one index replaced. -/
def vset {α : Type} {n : Nat} (v : Vector α n) (i : Fin n) (x : α) : Vector α n := v.set i.val x

/-- The table with a function applied to every entry. -/
def vmap {α β : Type} {n : Nat} (f : α → β) (v : Vector α n) : Vector β n :=
  ⟨⟨v.toList.map f⟩, by simp⟩

/-- The table whose entry at each index is given by a function. -/
def vtab {α : Type} {n : Nat} (f : Fin n → α) : Vector α n :=
  ⟨⟨(List.finRange n).map f⟩, by simp⟩

end Sys2Proof
end

