-- ==== Sys2Proof/Syntax.lean ====
section
/-! DEFINITION. The commands of the RG340: one constructor for each row of spec/opcode_table.json. -/

namespace Sys2Proof

/-- A command: an event of the part's surroundings or of its own timers, or the arrival of one whole request message
(whose first operand is then the message's tag, and the others the fields of its body as R210 lays them out). -/
inductive Instr where
  | powerOn
  | powerLoss
  | resetAssert
  | resetRelease
  | unitLoaded
  | lockChange (asserted : Bool)
  | wakePulse (r : Riser)
  | orderSelection (r : Riser)
  | answerArrival (r : Riser) (word : Option (BitVec 12))
  | riserFrameBoundary (r : Riser) (voice : List (Addr × Sample))
  | reversalPhaseEnd (r : Riser)
  | reversalTimerExpiry (r : Riser)
  | quietTimerExpiry (r : Riser)
  | wakeTimerExpiry (r : Riser)
  | ringTimerExpiry (i : Rec)
  | talkTimerExpiry (i : Rec)
  | waitTimerExpiry (i : Rec)
  | queueTimeoutExpiry (i : Rec)
  | strikeTimerExpiry (i : Rec)
  | pageTimerExpiry
  | endToneExpiry (p : Panel)
  | storeCompletion
  | windowEnd (o : OutputId)
  | noticeEnd
  | panelFrameArrival (p : Panel) (frame : PanelFrame)
  | panelWindowClose (p : Panel)
  | panelTransmitBoundary (p : Panel)
  | consoleFrameArrival (frame : ConsoleFrame)
  | consoleWindowClose
  | consoleTransmitBoundary
  | invalidMessage (message : List Byte)
  | read (tag table riser : Byte) (start : Word) (count : Byte)
  | status (tag part : Byte)
  | writeEntries (tag : Byte) (head : WriteHead) (items : List WriteItem)
  | clearCounters (tag page : Byte)
  | protect (tag : Byte) (mask : BitVec 32)
  | panelSet (tag panel installed gain ring : Byte) (talk : Word) (strike : Byte)
  | consoleSet (tag gain pageGain ring : Byte) (talk queue : Word) (page wait : Byte)
  | riserSet (tag riser enable quiet reversal mute : Byte)
  | mixSet (tag clip floor : Byte)
  | serviceEnter (tag : Byte)
  | serviceLeave (tag : Byte)
  | toneWrite (tag wave start level : Byte) (samples : List Word)
  | store (tag unit : Byte)
  | answerNext (tag : Byte)
  | callFlat (tag : Byte) (code : Word)
  | hangUp (tag : Byte)
  | listen (tag record : Byte) (serial : Word)
  | barge (tag record : Byte) (serial : Word)
  | leave (tag : Byte)
  | clearCall (tag record : Byte) (serial : Word)
  | pageStart (tag group : Byte)
  | pageEnd (tag : Byte)
  deriving DecidableEq, Repr

end Sys2Proof
end

