-- ==== Sys2Proof/Decode.lean ====
section
/-! DEFINITION. The commands that a word spells by the table's bits. No row of spec/opcode_table.json gives bits, so no word
spells a command; the console messages' own byte layouts are read in Machine/Operands.lean. -/

namespace Sys2Proof

/-- No row of the table gives bits (spec/98_reader.md: n_rows_with_fixed 0), so every word is refused. -/
def decodeTableWord (_nbits _w : Nat) : Option Instr := none

end Sys2Proof
end

