-- ==== Sys2Proof/Config.lean ====
section
/-! DEFINITION. The numbers the RG340 fixes (its capacities and rates), and the values its manual leaves open. -/

namespace Sys2Proof.Config

/-- Frames in one second on every link (R76); the model's unit of time is one frame period, 125 µs. -/
def framesPerSecond : Nat := 8000

/-- The wake timer's 20 ms (R94), in frame periods. -/
def wakeFrames : Nat := 160

/-- The end tone's 3 s (R113). -/
def endToneSeconds : Nat := 3

/-- Frames of the SWAP phase of a polarity reversal (R97). -/
def swapFrames : Nat := 8

/-- Places in the Wait Queue and in the Console Queue (R41, R119). -/
def queuePlaces : Nat := 8

/-- Places in the reply queue (R179). -/
def replyPlaces : Nat := 4

/-- Places in the report queue (R182). -/
def reportPlaces : Nat := 16

/-- Places in a panel's send queue (R110). -/
def sendPlaces : Nat := 8

/-- Samples a receive FIFO holds, and the fill that ends its priming (R106). -/
def fifoPlaces : Nat := 16
def fifoPrimed : Nat := 8

/-- Consecutive good frames that bring a link UP, and bad ones that take it down (R104, R105). -/
def goodToUp : Nat := 3
def badToHunt : Nat := 4

/-- Consecutive misses that make a handset ABSENT (R85). -/
def missesToAbsent : Nat := 3

/-- Strikes allowed in one call (R19). -/
def strikesPerCall : Nat := 3

/-- Computations in one window of auto-trim, and clean windows that give one step back (R157, R159). -/
def windowLength : Nat := 1024
def cleanWindows : Nat := 8

/-- Frames a NOTICE plays (R166). -/
def noticeFrames : Nat := 1600

/-- The greatest dial code (Table 0.2), and the greatest body length of a console message. -/
def maxDialCode : Nat := 9999
def maxBody : Nat := 64

/-- The sync byte of panel and console link frames (R209, R212). -/
def syncByte : Byte := 0x5C

/-- UNVERIFIED, a free value: what byte 34 of a CALLS item holds while the listen gain is absent. R208 gives a gain no
absent code and Table 10.5 only clears the presence bit, so nothing is known of the byte (log entry 13). -/
opaque absentGainByte : Nat → Byte

end Sys2Proof.Config
end

