-- ==== Sys2Proof/Machine/Records.lean ====
section
/-! DEFINITION. The records the RG340's blocks hold: calls, schedules, riser, panel and console units, the page, the
Directory, the settings, the tones and the reports, each as plain data. -/

namespace Sys2Proof.Machine

open Sys2Proof

/-! ## Timers (R22) -/

/-- A timer of the part; the number is the time left, in frame periods of 125 µs. -/
inductive Timer where
  | stopped
  | running (left : Nat)
  | frozen (left : Nat)
  deriving DecidableEq, Repr

/-! ## Calls (Tables 1.1 to 1.4 and 1.7) -/

inductive CallKind where
  | entry | desk | concierge
  deriving DecidableEq, Repr

inductive Origin where
  | panel (p : Panel)
  | console
  | handset (h : Handset)
  deriving DecidableEq, Repr

/-- The states of a record that holds a call; a FREE record holds none (R1). -/
inductive CallState where
  | queued | ringing | connected | held | waitingDesk | clearing
  deriving DecidableEq, Repr

inductive LegState where
  | ringing | answered | dropped
  deriving DecidableEq, Repr

inductive Monitor where
  | none | listen | barge
  deriving DecidableEq, Repr

inductive EndCause where
  | hungUp | cancelled | noAnswer | talkTimeout | waitTimeout | queueFull | unknown | busy
  | linkLost | handsetLost | riserOff | cleared | deskGone
  deriving DecidableEq, Repr

/-- A leg record (Table 1.2). -/
structure Leg where
  entry   : Option EntryIx
  handset : Handset
  release : Bool
  monitor : Bool
  state   : LegState
  deriving DecidableEq, Repr

/-- A call record that is not FREE (Table 1.1). Its slots field is not held twice: it is read off the staged schedules
(R33), see `State.slotsOf`. -/
structure Call where
  serial      : Word
  kind        : CallKind
  origin      : Origin
  code        : Option Nat
  state       : CallState
  legs        : List Leg
  answered    : Option Nat
  listenGain  : Option Nat
  strikes     : Nat
  strikeTimer : Timer
  ringTimer   : Timer
  talkTimer   : Timer
  waitTimer   : Timer
  sequence    : Option Nat
  held        : Bool
  monitor     : Monitor
  endCause    : Option EndCause
  deriving DecidableEq, Repr

/-! ## Mixer outputs and tones (chapter 7) -/

/-- The state of an output that exists (R153) but for its configured gain, which is read at its source (R154).
`endTaken` is the model's own: the computation just made has already taken the window's end (log entry 6). -/
structure Output where
  working  : Nat
  tally    : Nat
  clean    : Nat
  position : Nat
  endTaken : Bool
  deriving DecidableEq, Repr

/-- Whose voice a slot output carries (R155). -/
inductive Holder where
  | call (i : Rec) (serial : Word)
  | page
  deriving DecidableEq, Repr

structure SlotOutput where
  holder : Holder
  out    : Output
  deriving DecidableEq, Repr

/-- The tones of Table 7.4. -/
inductive Tone where
  | ringback | busy | unknown | notice
  deriving DecidableEq, Repr

/-- A tone cursor (R163). -/
structure Cursor where
  tone  : Tone
  phase : Nat
  deriving DecidableEq, Repr

/-- The NOTICE record while it is not none (R166). -/
structure Notice where
  record : Rec
  serial : Word
  count  : Nat
  deriving DecidableEq, Repr

inductive MixerMode where
  | normal | service
  deriving DecidableEq, Repr

/-- The tone table and its levels (R162). -/
structure Tones where
  waves  : Vector (Vector Sample 40) 4
  levels : Vector Nat 4
  deriving DecidableEq, Repr

/-! ## Risers (chapters 2 and 4) -/

/-- A slot entry (Table 2.1): IDLE, RESERVED(record), CARRYING(record, CALL), CARRYING(PAGE). -/
inductive SlotEntry where
  | idle
  | reserved (i : Rec)
  | carrying (i : Rec)
  | page
  deriving DecidableEq, Repr

inductive RiserState where
  | off | active | quiet | waking | draining
  deriving DecidableEq, Repr

inductive SubState where
  | normal | preMute | swap | postMute
  deriving DecidableEq, Repr

inductive Polarity where
  | reference | reversed
  deriving DecidableEq, Repr

/-- The orders an order queue entry can hold (Table 4.1 less POLL; REJECT is the refusal mark, R82). -/
inductive Order where
  | ringOn | ringOff
  | assign (k : Slot)
  | unassign | drop
  | pageOn (k : Slot)
  | pageOff
  deriving DecidableEq, Repr

/-- An order queue entry (R81). `changed` says that the entry was replaced or marked since it was selected (R83). -/
structure OrderEntry where
  addr     : Addr
  order    : Option Order
  refusal  : Bool
  inFlight : Bool
  changed  : Bool
  deriving DecidableEq, Repr

/-- A presence record (R84). -/
structure Presence where
  present : Bool
  offHook : Bool
  misses  : Nat
  deriving DecidableEq, Repr

/-- The condition a handset holds (R79). -/
inductive Condition where
  | idle | ringing
  | talking (k : Slot)
  | page (k : Slot)
  deriving DecidableEq, Repr

/-- What the uplink halves of a frame find at an address: the condition its handset held when the frame opened, and whether
its presence record said PRESENT then. The halves precede the frame's signalling slot, so nothing that slot delivers counts
in them (R76, R77; log entry 12). -/
structure Heard where
  condition : Condition
  present   : Bool
  deriving DecidableEq, Repr

/-- What the signalling slot of the frame in progress carried and to whom; `order` is none for POLL and REJECT. -/
structure Sent where
  addr  : Addr
  order : Option Order
  deriving DecidableEq, Repr

/-- The reversal sequence (R97): its sub-state, the frames of the phase in progress, how many of them are counted off,
and whether the reversal timer has expired and the sequence starts at the next boundary. `endTaken` is the model's own:
the last boundary has already taken the end of a phase (log entry 6). -/
structure Reversal where
  sub      : SubState
  length   : Nat
  done     : Nat
  due      : Bool
  endTaken : Bool
  deriving DecidableEq, Repr

/-- A Riser Line Unit, the handsets' conditions on its line (now, and as the uplink halves of the frame in progress find them),
and its four slot outputs in the Mixer. -/
structure RiserUnit where
  state         : RiserState
  live          : Vector SlotEntry 4
  staged        : Vector SlotEntry 4
  presence      : Vector Presence 32
  conditions    : Vector Condition 32
  heard         : Vector Heard 32
  queue         : List OrderEntry
  pollPointer   : Addr
  polarity      : Polarity
  reversal      : Reversal
  reversalTimer : Timer
  quietTimer    : Timer
  wakeTimer     : Timer
  sent          : Option Sent
  orderWord     : Option Word
  uplink        : Vector Sample 4
  mixed         : Vector Sample 4
  outputs       : Vector (Option SlotOutput) 4
  deriving DecidableEq, Repr

/-! ## Links (chapters 5 and 8) -/

inductive LinkState where
  | down | hunt | up
  deriving DecidableEq, Repr

/-- A link's state and its runs of good and bad frames (Tables 5.1 and 8.1). -/
structure Link where
  state : LinkState
  good  : Nat
  bad   : Nat
  deriving DecidableEq, Repr

/-- A receive FIFO with its phase, the uplink sample it feeds and its empty-take run (R106, R107, R173). -/
structure Fifo where
  samples : List Sample
  running : Bool
  uplink  : Sample
  empties : Nat
  deriving DecidableEq, Repr

/-- The messages the part sends to a panel (Table 5.3). -/
inductive PanelMsg where
  | ringing | connected
  | ended (cause : EndCause)
  | strike (seconds : Nat)
  | reject
  deriving DecidableEq, Repr

/-- The two waveforms an end tone can have (R113). -/
inductive EndWave where
  | busy | unknown
  deriving DecidableEq, Repr

/-- An end tone that runs, with the time it has left (R113). -/
structure EndTone where
  wave  : EndWave
  timer : Timer
  deriving DecidableEq, Repr

/-- A Panel Link Unit (Table 5.1), its panel output and tone cursor in the Mixer, and the frame it last sent. -/
structure PanelUnit where
  link      : Link
  fifo      : Fifo
  underrun  : Bool
  current   : Option Rec
  endTone   : Option EndTone
  sendQueue : List PanelMsg
  output    : Option Output
  cursor    : Option Cursor
  frame     : Option PanelFrame
  deriving DecidableEq, Repr

inductive Receiver where
  | waiting | assembling | skipping
  deriving DecidableEq, Repr

inductive Result where
  | done | adjusted | refused
  deriving DecidableEq, Repr

inductive Reason where
  | none | busy | locked | range | state | stale | noSlot | denied | mode | check | length | unknownKind
  deriving DecidableEq, Repr

/-- A reply waiting to be sent (R178); `data` are the body's bytes after result and reason. -/
structure Reply where
  tag    : Byte
  result : Result
  reason : Reason
  data   : List Byte
  deriving DecidableEq, Repr

/-- The riser's page slot and its lender (Table 6.4). -/
structure Served where
  slot   : Slot
  lender : Option (Rec × Word)
  deriving DecidableEq, Repr

/-- What PAGE-START's reply and its STARTED report tell of a page (R136). -/
structure PageInfo where
  group   : Nat
  served  : Vector (Option Served) 8
  skipped : List Riser
  members : Nat
  deriving DecidableEq, Repr

inductive PageCause where
  | pageEnd | timeout | linkLost | risersGone
  deriving DecidableEq, Repr

/-- The events of CALL reports with their further fields (Table 1.8). -/
inductive CallEvent where
  | queued (code : Nat)
  | waiting (h : Handset)
  | ringing (code : Nat) (legs : Nat)
  | connected (h : Handset) (sequence : Nat)
  | held (r : Riser) (k : Slot)
  | resumed (r : Riser) (k : Slot)
  | strike (count : Nat) (seconds : Nat)
  | ended (cause : EndCause) (held : Bool)
  deriving DecidableEq, Repr

inductive LinkEvent where
  | up | lost | removed
  deriving DecidableEq, Repr

inductive RiserEvent where
  | enabled | drained | off
  deriving DecidableEq, Repr

inductive StartCause where
  | powerOn | resetLine
  deriving DecidableEq, Repr

/-- The reports of Table 8.4. In a CALL report the state is none for FREE; in a LINK report the panel is none for the console. -/
inductive Report where
  | call (event : CallEvent) (record : Option (Rec × Word)) (kind : CallKind) (origin : Origin) (state : Option CallState)
  | link (event : LinkEvent) (panel : Option Panel) (record : Option (Rec × Word))
  | riser (event : RiserEvent) (r : Riser)
  | handset (present : Bool) (h : Handset)
  | pageStarted (info : PageInfo)
  | pageDropped (r : Riser)
  | pageEnded (group : Nat) (cause : PageCause)
  | store (unit : UnitIx)
  | startup (cause : StartCause) (torn : List UnitIx)
  deriving DecidableEq, Repr

/-- The message in transmission and how many of its bytes are sent (Table 8.1). -/
structure Outgoing where
  bytes    : List Byte
  sent     : Nat
  isReport : Bool
  deriving DecidableEq, Repr

/-- The Console Link Unit (Table 8.1), the console output and tone cursor in the Mixer, and the frame it last sent. -/
structure ConsoleUnit where
  link      : Link
  fifo      : Fifo
  receiver  : Receiver
  buffer    : List Byte
  replies   : List Reply
  outgoing  : Option Outgoing
  reports   : List Report
  gap       : Bool
  output    : Option Output
  cursor    : Option Cursor
  frame     : Option ConsoleFrame
  deriving DecidableEq, Repr

/-! ## The console and the page (chapter 6) -/

inductive ConsoleState where
  | idle
  | talk (i : Rec)
  | listen (i : Rec)
  | barge (i : Rec)
  | paging
  deriving DecidableEq, Repr

/-- The page record while it is ACTIVE (Table 6.4). Members stand in ascending riser and address. -/
structure PageRecord where
  group   : Nat
  served  : Vector (Option Served) 8
  skipped : List Riser
  members : List Handset
  timer   : Timer
  deriving DecidableEq, Repr

/-! ## The Directory, the settings and the Settings Store (chapters 3, 8 and 9) -/

/-- A VALID directory entry (Table 3.1). -/
structure EntryData where
  code    : Nat
  handset : Handset
  gain    : Nat
  group   : Nat
  release : Bool
  monitor : Bool
  dnd     : Bool
  counter : BitVec 12
  deriving DecidableEq, Repr

/-- A directory entry: none is EMPTY, whose fields are all 0 and clear (R55). -/
abbrev Entry := Option EntryData

/-- A directory page of 16 entries. -/
abbrev DirPage := Vector Entry 16

/-- A panel profile (Table 5.4). -/
structure PanelProfile where
  installed : Bool
  gain      : Nat
  ring      : Nat
  talk      : Nat
  strike    : Nat
  deriving DecidableEq, Repr

/-- The console profile (Table 6.6). -/
structure ConsoleProfile where
  gain     : Nat
  pageGain : Nat
  ring     : Nat
  talk     : Nat
  queue    : Nat
  page     : Nat
  deriving DecidableEq, Repr

/-- A riser profile (section 4.5). -/
structure RiserProfile where
  enable   : Bool
  quiet    : Nat
  reversal : Nat
  mute     : Nat
  deriving DecidableEq, Repr

/-- The content of the settings unit (Table 9.1): the settings of Table 8.7 and the protection map. -/
structure Settings where
  panels     : Vector PanelProfile 6
  console    : ConsoleProfile
  wait       : Nat
  risers     : Vector RiserProfile 8
  clip       : Nat
  floor      : Nat
  protection : BitVec 24
  deriving DecidableEq, Repr

/-- A stored unit: its content and its check, none while the check is erased (R195). -/
structure Stored (α : Type) where
  content : α
  check   : Option Word
  deriving DecidableEq, Repr

/-- The Settings Store's 26 units (R194). -/
structure Store where
  pages    : Vector (Stored DirPage) 24
  settings : Stored Settings
  tones    : Stored Tones
  deriving DecidableEq, Repr

/-- The store state WRITING with the unit's number and the store buffer (R196); IDLE is the absence of one. -/
inductive Writing where
  | page (p : PageIx) (content : DirPage)
  | settings (content : Settings)
  | tones (content : Tones)
  deriving DecidableEq, Repr

/-- Where the part stands between power, reset and running (R200, R201). -/
inductive Stage where
  /-- Power is absent, or RESET is held: the part is quiescent (R200). -/
  | held
  /-- Start-up is loading the units; this one is next. -/
  | loading (next : UnitIx)
  /-- Start-up has ended: every block takes events. -/
  | running
  deriving DecidableEq, Repr

end Sys2Proof.Machine
end

