-- ==== Sys2Proof/Machine/Formats.lean ====
section
/-! DEFINITION. How numbers, codes, checks, frames and words stand on the RG340's links (R176, R208, R209, R212), the
factory content of its stored units (R162, R206) and the checks those units carry (R195). -/

namespace Sys2Proof.Machine

open Sys2Proof

/-! ## Bytes (R208) -/

/-- A number sent as one byte. -/
def byteOf (n : Nat) : Byte := BitVec.ofNat 8 n

/-- A 16-bit number as two bytes, most significant first. -/
def wordBytes (w : Word) : List Byte := [w.extractLsb' 8 8, w.extractLsb' 0 8]

/-- A number sent as two bytes. -/
def wordOf (n : Nat) : List Byte := wordBytes (BitVec.ofNat 16 n)

/-- The 16-bit number that two bytes carry. -/
def wordFrom (hi lo : Byte) : Word := hi ++ lo

/-- A bit as a number. -/
def bit (b : Bool) : Nat := if b then 1 else 0

/-- The sample a two-byte field carries: its bits 15–2. -/
def sampleFrom (w : Word) : Sample := w.extractLsb' 2 14

/-- The two-byte field that carries a sample on a link; bits 1–0 are unused. -/
def sampleField (x : Sample) : Word := x ++ (0 : BitVec 2)

/-- A handset byte: riser in bits 7–5, address in bits 4–0. -/
def handsetByte (h : Handset) : Byte := byteOf (h.riser.val * 32 + h.addr.val)

/-- A set of risers as a mask, bit n for riser Sn. -/
def riserMask (rs : List Riser) : Byte := rs.foldl (fun m r => m ||| (1 : Byte) <<< r.val) 0

/-- Four bytes, most significant first. -/
def longBytes (w : BitVec 32) : List Byte :=
  [w.extractLsb' 24 8, w.extractLsb' 16 8, w.extractLsb' 8 8, w.extractLsb' 0 8]

/-! ## The check of messages, frames and units (R176, R195) -/

/-- 16-bit ones'-complement addition: the carry out of the top bit is added back into the lowest. -/
def onesAdd (a b : Word) : Word :=
  let t := a.toNat + b.toNat
  BitVec.ofNat 16 (t % 65536 + t / 65536)

/-- The ones'-complement sum of bytes paired in order, an odd last byte padded with a zero byte. -/
def onesSum : List Byte → Word → Word
  | [], acc => acc
  | [a], acc => onesAdd acc (wordFrom a 0)
  | a :: b :: rest, acc => onesSum rest (onesAdd acc (wordFrom a b))

/-- The check formed over bytes: the complement of their sum. -/
def checkOf (bytes : List Byte) : Word := ~~~ (onesSum bytes 0)

/-- Bytes pass with a check when their sum and the check add to 0xFFFF. -/
def checkPasses (bytes : List Byte) (check : Word) : Bool := onesAdd (onesSum bytes 0) check == 0xFFFF

/-! ## Value codes (Table 10.1) -/

def CallKind.code : CallKind → Nat
  | .entry => 0 | .desk => 1 | .concierge => 2

def CallState.code : CallState → Nat
  | .queued => 1 | .ringing => 2 | .connected => 3 | .held => 4 | .waitingDesk => 5 | .clearing => 6

def LegState.code : LegState → Nat
  | .ringing => 0 | .answered => 1 | .dropped => 2

def Monitor.code : Monitor → Nat
  | .none => 0 | .listen => 1 | .barge => 2

def EndCause.code : EndCause → Nat
  | .hungUp => 1 | .cancelled => 2 | .noAnswer => 3 | .talkTimeout => 4 | .waitTimeout => 5 | .queueFull => 6
  | .unknown => 7 | .busy => 8 | .linkLost => 9 | .handsetLost => 10 | .riserOff => 11 | .cleared => 12 | .deskGone => 13

def RiserState.code : RiserState → Nat
  | .off => 0 | .active => 1 | .quiet => 2 | .waking => 3 | .draining => 4

def SubState.code : SubState → Nat
  | .normal => 0 | .preMute => 1 | .swap => 2 | .postMute => 3

def Polarity.code : Polarity → Nat
  | .reference => 0 | .reversed => 1

def LinkState.code : LinkState → Nat
  | .down => 0 | .hunt => 1 | .up => 2

def MixerMode.code : MixerMode → Nat
  | .normal => 0 | .service => 1

def Result.code : Result → Nat
  | .done => 0 | .adjusted => 1 | .refused => 2

def Reason.code : Reason → Nat
  | .none => 0 | .busy => 1 | .locked => 2 | .range => 3 | .state => 4 | .stale => 5 | .noSlot => 6 | .denied => 7
  | .mode => 8 | .check => 9 | .length => 10 | .unknownKind => 11

def PageCause.code : PageCause → Nat
  | .pageEnd => 0 | .timeout => 1 | .linkLost => 2 | .risersGone => 3

/-- The origin's type code and value (Table 10.1). -/
def Origin.typeCode : Origin → Nat
  | .panel _ => 0 | .console => 1 | .handset _ => 2

def Origin.value : Origin → Byte
  | .panel p => byteOf p.val | .console => 0 | .handset h => handsetByte h

/-- The code of an order (Table 10.8). -/
def Order.code : Order → Nat
  | .ringOn => 1 | .ringOff => 2 | .assign _ => 3 | .unassign => 4 | .drop => 5 | .pageOn _ => 6 | .pageOff => 7

/-- The slot bits of an order word: the slot of ASSIGN and PAGE-ON, 0 otherwise. -/
def Order.slotBits : Order → Nat
  | .assign k => k.val | .pageOn k => k.val | _ => 0

/-- The condition a delivered order sets (Table 4.1). -/
def Order.condition : Order → Condition
  | .ringOn => .ringing | .ringOff => .idle | .assign k => .talking k | .unassign => .idle | .drop => .idle
  | .pageOn k => .page k | .pageOff => .idle

/-! ## Riser signalling words (R212) -/

/-- The sum of a word's nibbles. -/
def nibbleSum (n : Nat) : Nat := n % 16 + n / 16 % 16 + n / 256 % 16 + n / 4096 % 16

/-- An order word from its address, code, slot bits and refusal mark, its check making the nibbles sum to 15 modulo 16. -/
def makeOrderWord (a : Addr) (code slot : Nat) (refusal : Bool) : Word :=
  let head := a.val * 2048 + code * 128 + slot * 32 + bit refusal * 16
  BitVec.ofNat 16 (head + (31 - nibbleSum head % 16) % 16)

/-- The word an order queue entry is sent as: order none is code 8 with the mark (R82, R212). -/
def OrderEntry.word (e : OrderEntry) : Word :=
  match e.order with
  | some o => makeOrderWord e.addr o.code o.slotBits e.refusal
  | none => makeOrderWord e.addr 8 0 true

/-- The word of a POLL. -/
def pollWord (a : Addr) : Word := makeOrderWord a 0 0 false

inductive Key where
  | none | release | concierge
  deriving DecidableEq, Repr

/-- What a valid answer reports (R80). -/
structure Answer where
  offHook : Bool
  key     : Key
  deriving DecidableEq, Repr

/-- The answer an answer word carries to the address the order went to; none when the word is no valid answer. -/
def readAnswer (a : Addr) (w : BitVec 12) : Option Answer :=
  if nibbleSum w.toNat % 16 = 15 ∧ (w.extractLsb' 7 5).toNat = a.val then
    some { offHook := w.getLsbD 6
           key := match (w.extractLsb' 4 2).toNat with
             | 1 => .release
             | 2 => .concierge
             | _ => .none }
  else none

/-! ## Link frames (R209, R212) -/

/-- The bytes a panel frame's check covers: sample and control field. -/
def panelFrameBytes (f : PanelFrame) : List Byte := wordBytes f.sample ++ [f.code] ++ wordBytes f.param

/-- A good panel frame: the sync field is found and the check passes (R102). -/
def panelFrameGood (f : PanelFrame) : Bool := f.sync == Config.syncByte && checkPasses (panelFrameBytes f) f.check

/-- A panel frame the part sends. -/
def makePanelFrame (x : Sample) (code : Byte) (param : Word) : PanelFrame :=
  let f : PanelFrame := { sync := Config.syncByte, sample := sampleField x, code := code, param := param, check := 0 }
  { f with check := checkOf (panelFrameBytes f) }

/-- The message code and parameter of a panel message (R212). DESIGN CHOICE (log entry 30): the high byte of ENDED's and STRIKE's
parameter is 0; R212 gives the cause and the duration the low byte and says nothing of the other. -/
def PanelMsg.control : PanelMsg → Byte × Word
  | .ringing => (0x81, 0)
  | .connected => (0x82, 0)
  | .ended c => (0x83, BitVec.ofNat 16 c.code)
  | .strike n => (0x84, BitVec.ofNat 16 n)
  | .reject => (0x85, 0)

/-- The bytes a console frame's check covers: sample and control field. -/
def consoleFrameBytes (f : ConsoleFrame) : List Byte := wordBytes f.sample ++ [f.flags, f.byte]

/-- A good console frame (R171). -/
def consoleFrameGood (f : ConsoleFrame) : Bool := f.sync == Config.syncByte && checkPasses (consoleFrameBytes f) f.check

/-- A console frame the part sends: an empty control field, or a byte with its first flag. DESIGN CHOICE (log entry 30): an empty
control field is sent with the first flag clear and byte 0, which the receiver ignores (R209). -/
def makeConsoleFrame (x : Sample) (control : Option (Bool × Byte)) : ConsoleFrame :=
  let f : ConsoleFrame :=
    match control with
    | none => { sync := Config.syncByte, sample := sampleField x, flags := 0, byte := 0, check := 0 }
    | some (first, b) =>
      { sync := Config.syncByte, sample := sampleField x, flags := if first then 0xC0 else 0x80, byte := b, check := 0 }
  { f with check := checkOf (consoleFrameBytes f) }

/-- A whole console message: kind, tag, length, body and check (R209). -/
def makeMessage (kind tag : Byte) (body : List Byte) : List Byte :=
  let head := kind :: tag :: byteOf body.length :: body
  head ++ wordBytes (checkOf head)

/-! ## Defaults (Table 8.7, R162, R206) -/

def PanelProfile.standard : PanelProfile := { installed := true, gain := 64, ring := 30, talk := 180, strike := 5 }

def ConsoleProfile.standard : ConsoleProfile :=
  { gain := 64, pageGain := 64, ring := 30, talk := 180, queue := 90, page := 30 }

def RiserProfile.standard : RiserProfile := { enable := true, quiet := 60, reversal := 120, mute := 16 }

/-- The defaults of Table 8.7 and an empty protection map. -/
def Settings.standard : Settings :=
  { panels := Vector.replicate 6 .standard, console := .standard, wait := 20, risers := Vector.replicate 8 .standard
    clip := 8, floor := 16, protection := 0 }

/-- A sample of the built-in triangle (R162). -/
def builtInSample (p : Fin 40) : Sample :=
  let i : Int := p.val
  BitVec.ofInt 14 (if p.val ≤ 9 then 400 * i else if p.val ≤ 30 then 4000 - 400 * (i - 10) else -4000 + 400 * (i - 30))

/-- The number of a tone in Table 7.4. -/
def Tone.number : Tone → Fin 4
  | .ringback => 0 | .busy => 1 | .unknown => 2 | .notice => 3

/-- The built-in tones and levels. -/
def Tones.builtIn : Tones :=
  { waves := vtab fun _ => vtab builtInSample, levels := vtab fun w => if w = Tone.notice.number then 16 else 32 }

/-- A page of 16 EMPTY entries. -/
def DirPage.empty : DirPage := Vector.replicate 16 none

/-! ## The bytes of stored units (log entry 9: the manual gives the check but not the layout it covers) -/

/-- DESIGN CHOICE: a stored entry is its state, then the fields of Table 3.1 in their order. -/
def entryBytes : Entry → List Byte
  | none => [0, 0, 0, 0, 0, 0, 0, 0]
  | some d => byteOf (128 + bit d.release * 64 + bit d.monitor * 32 + bit d.dnd * 16 + d.group) :: wordOf d.code
      ++ [byteOf d.handset.riser.val, byteOf d.handset.addr.val, byteOf d.gain] ++ wordOf d.counter.toNat

def pageBytes (p : DirPage) : List Byte := p.toList.flatMap entryBytes

/-- DESIGN CHOICE: the settings stand in the order of Table 8.7, in the widths of Table 10.3, then the protection map. -/
def settingsBytes (s : Settings) : List Byte :=
  s.panels.toList.flatMap (fun p => [byteOf (bit p.installed), byteOf p.gain, byteOf p.ring] ++ wordOf p.talk ++ [byteOf p.strike])
  ++ [byteOf s.console.gain, byteOf s.console.pageGain, byteOf s.console.ring] ++ wordOf s.console.talk
  ++ wordOf s.console.queue ++ [byteOf s.console.page, byteOf s.wait]
  ++ s.risers.toList.flatMap (fun r => [byteOf (bit r.enable), byteOf r.quiet, byteOf r.reversal, byteOf r.mute])
  ++ [byteOf s.clip, byteOf s.floor] ++ longBytes (s.protection.setWidth 32)

/-- DESIGN CHOICE: the tones stand in the order of R169's indices. -/
def tonesBytes (t : Tones) : List Byte :=
  t.waves.toList.flatMap (fun w => w.toList.flatMap fun x => wordBytes (sampleField x)) ++ t.levels.toList.map byteOf

/-- A unit written whole, with the check formed over its content (R199). -/
def Stored.whole {α : Type} (bytes : α → List Byte) (content : α) : Stored α :=
  { content := content, check := some (checkOf (bytes content)) }

/-- A unit whose writing has begun: its check is erased (R195). The old content is kept; no part uses it. -/
def Stored.erased {α : Type} (u : Stored α) : Stored α := { u with check := none }

/-- The test of a unit at loading (R195): an erased check fails. -/
def Stored.passes {α : Type} (bytes : α → List Byte) (u : Stored α) : Bool :=
  match u.check with
  | some c => checkPasses (bytes u.content) c
  | none => false

/-- The number of the unit being written (R194). -/
def Writing.unit : Writing → UnitIx
  | .page p _ => ⟨p.val, by omega⟩
  | .settings _ => 24
  | .tones _ => 25

/-- The store at delivery (R206). -/
def Store.factory : Store :=
  { pages := Vector.replicate 24 (Stored.whole pageBytes .empty)
    settings := Stored.whole settingsBytes .standard
    tones := Stored.whole tonesBytes .builtIn }

end Sys2Proof.Machine
end

