-- ==== Sys2Proof/Machine/Rest.lean ====
section
/-! DEFINITION. The blocks of the RG340 at rest: the values their rules give while RESET is held and after its release. -/

namespace Sys2Proof.Machine

open Sys2Proof

/-- A presence record as R84 sets it: ABSENT, hook ON, no miss. -/
def Presence.absent : Presence := { present := false, offHook := false, misses := 0 }

/-- The sub-state NORMAL with no sequence under way. -/
def Reversal.none : Reversal := { sub := .normal, length := 0, done := 0, due := false, endTaken := false }

/-- A handset that holds condition IDLE and is ABSENT. -/
def Heard.silent : Heard := { condition := .idle, present := false }

/-- A riser in OFF (R52, R81, R84, R88, R96). DESIGN CHOICE (log entry 28): the poll pointer 0 and the reversal sub-state NORMAL
of a riser that has been OFF since reset, which R78 and R89 give only at its entry to ACTIVE; and samples, words and handsets'
conditions at rest, which the manual gives no reset value. -/
def RiserUnit.atRest : RiserUnit :=
  { state := .off, live := Vector.replicate 4 .idle, staged := Vector.replicate 4 .idle
    presence := Vector.replicate 32 .absent, conditions := Vector.replicate 32 .idle
    heard := Vector.replicate 32 .silent, queue := [], pollPointer := 0
    polarity := .reference, reversal := .none, reversalTimer := .stopped, quietTimer := .stopped, wakeTimer := .stopped
    sent := none, orderWord := none, uplink := Vector.replicate 4 0, mixed := Vector.replicate 4 0
    outputs := Vector.replicate 4 none }

/-- A receive FIFO that is empty and PRIMING. -/
def Fifo.primed : Fifo := { samples := [], running := false, uplink := 0, empties := 0 }

/-- A panel link in DOWN (Table 5.1). -/
def PanelUnit.atRest : PanelUnit :=
  { link := { state := .down, good := 0, bad := 0 }, fifo := .primed, underrun := false, current := none, endTone := none
    sendQueue := [], output := none, cursor := none, frame := none }

/-- The console link in DOWN (Table 8.1). -/
def ConsoleUnit.atRest : ConsoleUnit :=
  { link := { state := .down, good := 0, bad := 0 }, fifo := .primed, receiver := .waiting, buffer := [], replies := []
    outgoing := none, reports := [], gap := false, output := none, cursor := none, frame := none }

end Sys2Proof.Machine
end

