-- ==== Sys2Proof/Machine/State.lean ====
section
/-! DEFINITION. The state of the RG340, the stops of a step (there is none the manual asks for), and the state after reset. -/

namespace Sys2Proof.Machine

open Sys2Proof

/-- The faults of a step: NONE. The manual gives every command of the table an effect in every state (an event that
reaches a block which takes none there has no effect), so no meaning stops with a fault. -/
inductive Fault where
  deriving DecidableEq, Repr

/-- The refusals of a step. -/
inductive Refusal where
  /-- Raised by an arm of exec whose command has no meaning yet: safe, the model stops. No arm raises it. -/
  | notModelled (mnemonic : String)
  deriving DecidableEq, Repr

/-! ## The state -/

/-- The whole part, its stored units, its RESET and LOCK lines, and the commands that wait. -/
structure State where
  /-- The commands that wait, first in first out. -/
  pending       : List Instr
  /-- Whether power is applied (R200). -/
  power         : Bool
  /-- Whether the RESET line is asserted (R200). -/
  resetLine     : Bool
  stage         : Stage
  /-- The level of the LOCK pin, and the LOCK state the Directory holds (R74). -/
  lockLine      : Bool
  lockHeld      : Bool
  /-- The nonvolatile units (R194), the writing under way with its buffer (R196). -/
  store         : Store
  writing       : Option Writing
  /-- Whether power was absent since the last start-up that reached its end (R204). -/
  powerLost     : Bool
  /-- The units found torn in the current loading (R202), and the STARTUP report held pending (R204). -/
  torn          : List UnitIx
  startup       : Option (StartCause × List UnitIx)
  /-- The running copies (Table 9.1). -/
  directory     : Vector DirPage 24
  settings      : Settings
  tones         : Tones
  /-- The call table, none for a FREE record, and its counters (R1, R2, R4). -/
  calls         : Vector (Option Call) 16
  serialNext    : Word
  sequenceNext  : Nat
  waitQueue     : List Rec
  consoleQueue  : List Rec
  console       : ConsoleState
  /-- The page record, none in state NONE (R133). -/
  page          : Option PageRecord
  risers        : Vector RiserUnit 8
  panels        : Vector PanelUnit 6
  clu           : ConsoleUnit
  mixer         : MixerMode
  notice        : Option Notice
  /-- The model's own: how many free values have been drawn (log entry 13). -/
  draws         : Nat
  deriving DecidableEq, Repr

/-- The part right after reset: at delivery (R206), power applied and RESET just released, so that start-up has begun and
unit 0 is the next to be loaded (R201). DESIGN CHOICE: power is applied with the RESET line deasserted, and the LOCK line is
deasserted (log entries 1 and 2); what the spec gives no reset value has that of log entry 28. -/
def State.reset : State :=
  { pending := [], power := true, resetLine := false, stage := .loading 0, lockLine := false, lockHeld := false, store := .factory
    writing := none, powerLost := true, torn := [], startup := none
    directory := Vector.replicate 24 .empty, settings := .standard, tones := .builtIn
    calls := Vector.replicate 16 none, serialNext := 0, sequenceNext := 0, waitQueue := [], consoleQueue := []
    console := .idle, page := none, risers := Vector.replicate 8 .atRest, panels := Vector.replicate 6 .atRest
    clu := .atRest, mixer := .normal, notice := none, draws := 0 }

end Sys2Proof.Machine
end

