-- ==== Sys2Proof/Machine/Ops.lean ====
section
/-! DEFINITION. The named operations every command is made of: reading and replacing a block, timers, reports, handset
orders, panel messages, tones, and the edits of the staged schedules with the free counts they move. -/

namespace Sys2Proof.Machine

open Sys2Proof

/-! ## The numbers of things -/

def allRisers : List Riser := List.finRange 8
def allSlots : List Slot := List.finRange 4
def allAddrs : List Addr := List.finRange 32
def allPanels : List Panel := List.finRange 6
def allRecs : List Rec := List.finRange 16
def allEntries : List EntryIx := List.finRange 384
def allPages : List PageIx := List.finRange 24

/-! ## Timers (R22) -/

/-- A timer started with a duration in seconds. -/
def Timer.start (seconds : Nat) : Timer := .running (seconds * Config.framesPerSecond)

/-- A riser timer started at its period; a period of 0 keeps it stopped (R92, R96). -/
def Timer.period (seconds : Nat) : Timer := if seconds = 0 then .stopped else .start seconds

def Timer.isRunning : Timer → Bool
  | .running _ => true
  | _ => false

def Timer.isFrozen : Timer → Bool
  | .frozen _ => true
  | _ => false

/-- The time left kept unchanged while the timer is frozen. -/
def Timer.freeze : Timer → Timer
  | .running n => .frozen n
  | t => t

/-- A frozen timer runs on from the time it has left. -/
def Timer.resume : Timer → Timer
  | .frozen n => .running n
  | t => t

/-- One frame period passes. -/
def Timer.tick : Timer → Timer
  | .running n => .running (n - 1)
  | t => t

/-- The time left in whole seconds, rounded up; 0 for a stopped timer (R208). -/
def Timer.seconds : Timer → Nat
  | .stopped => 0
  | .running n => (n + (Config.framesPerSecond - 1)) / Config.framesPerSecond
  | .frozen n => (n + (Config.framesPerSecond - 1)) / Config.framesPerSecond

/-! ## Reading and replacing a block -/

def State.riser (s : State) (r : Riser) : RiserUnit := vget s.risers r
def State.panel (s : State) (p : Panel) : PanelUnit := vget s.panels p
def State.call (s : State) (i : Rec) : Option Call := vget s.calls i
def State.riserProfile (s : State) (r : Riser) : RiserProfile := vget s.settings.risers r
def State.panelProfile (s : State) (p : Panel) : PanelProfile := vget s.settings.panels p

def State.setRiser (s : State) (r : Riser) (u : RiserUnit) : State := { s with risers := vset s.risers r u }
def State.setPanel (s : State) (p : Panel) (u : PanelUnit) : State := { s with panels := vset s.panels p u }
def State.setCall (s : State) (i : Rec) (c : Option Call) : State := { s with calls := vset s.calls i c }
def State.setClu (s : State) (c : ConsoleUnit) : State := { s with clu := c }
def State.setConsole (s : State) (c : ConsoleState) : State := { s with console := c }
def State.setPage (s : State) (p : Option PageRecord) : State := { s with page := p }
def State.setNotice (s : State) (n : Option Notice) : State := { s with notice := n }
def State.setDirectory (s : State) (d : Vector DirPage 24) : State := { s with directory := d }
def State.setSettings (s : State) (c : Settings) : State := { s with settings := c }

def State.modPanel (s : State) (p : Panel) (f : PanelUnit → PanelUnit) : State := s.setPanel p (f (s.panel p))
def State.modClu (s : State) (f : ConsoleUnit → ConsoleUnit) : State := s.setClu (f s.clu)

/-- A call record changed; a FREE record stays FREE. -/
def State.modCall (s : State) (i : Rec) (f : Call → Call) : State := s.setCall i ((s.call i).map f)

/-- Every block at the values its rules give while RESET is held and until start-up ends, with the running copies at
their units' defaults (log entry 8); the stored units, the pins and the waiting commands are what they were (R200). -/
def State.quiesced (s : State) : State :=
  { s with
    writing := none, torn := [], startup := none
    directory := Vector.replicate 24 .empty, settings := .standard, tones := .builtIn
    calls := Vector.replicate 16 none, serialNext := 0, sequenceNext := 0, waitQueue := [], consoleQueue := []
    console := .idle, page := none, risers := Vector.replicate 8 .atRest, panels := Vector.replicate 6 .atRest
    clu := .atRest, mixer := .normal, notice := none }

/-- An event reaches a block only while the part runs; until then no block takes an event (R200, R201). -/
def State.whenRunning (s : State) (f : State → State) : State :=
  match s.stage with
  | .running => f s
  | _ => s

/-! ## The quiet timer follows its conditions (R92) -/

/-- The three conditions under which the quiet timer runs, in ACTIVE. -/
def RiserUnit.calm (u : RiserUnit) : Bool :=
  u.state == .active && u.queue.isEmpty && u.live.toList.all (· == .idle) && u.staged.toList.all (· == .idle)
    && u.presence.toList.all fun p => !p.offHook

/-- The quiet timer after a change of the riser: stopped when a condition fails, started at the full period when all hold
once more, and otherwise as the change leaves it. -/
def RiserUnit.retimed (period : Nat) (old new : RiserUnit) : RiserUnit :=
  if new.calm then
    if old.calm then new else { new with quietTimer := .period period }
  else { new with quietTimer := .stopped }

/-- A riser changed, its quiet timer following. -/
def State.modRiser (s : State) (r : Riser) (f : RiserUnit → RiserUnit) : State :=
  s.setRiser r (.retimed (s.riserProfile r).quiet (s.riser r) (f (s.riser r)))

/-! ## Reports (R182) -/

/-- A report joins the report queue; a full queue first loses its oldest report and gap pending is set. -/
def ConsoleUnit.posted (c : ConsoleUnit) (rep : Report) : ConsoleUnit :=
  if c.reports.length < Config.reportPlaces then { c with reports := c.reports ++ [rep] }
  else { c with reports := c.reports.drop 1 ++ [rep], gap := true }

def State.post (s : State) (rep : Report) : State := s.modClu fun c => c.posted rep

/-- A CALL report about a record, read at this moment (R32). -/
def State.postCall (s : State) (i : Rec) (event : CallEvent) : State :=
  match s.call i with
  | some c => s.post (.call event (some (i, c.serial)) c.kind c.origin (some c.state))
  | none => s

/-! ## Handset orders (R82) -/

/-- What a new order does to the entry its address already has: REJECT marks it, any other order replaces its order. -/
def OrderEntry.retaken (o : Option Order) (e : OrderEntry) : OrderEntry :=
  match o with
  | none => { e with refusal := true, changed := true }
  | some _ => { e with order := o, changed := true }

/-- An order joins the queue of its riser; none stands for REJECT. -/
def enqueued (a : Addr) (o : Option Order) (q : List OrderEntry) : List OrderEntry :=
  if q.any (fun e => e.addr == a) then q.map fun e => if e.addr = a then e.retaken o else e
  else q ++ [{ addr := a, order := o, refusal := o.isNone, inFlight := false, changed := false }]

/-- Whether a riser takes part in calls and orders: neither OFF nor DRAINING. -/
def RiserUnit.inService (u : RiserUnit) : Bool :=
  match u.state with
  | .off => false
  | .draining => false
  | _ => true

def State.presence (s : State) (h : Handset) : Presence := vget (s.riser h.riser).presence h.addr

/-- The Call Controller enqueues an order for a handset. -/
def State.enqueue (s : State) (h : Handset) (o : Option Order) : State :=
  if (s.riser h.riser).inService && (s.presence h).present then
    s.modRiser h.riser fun u => { u with queue := enqueued h.addr o u.queue }
  else s

def State.order (s : State) (h : Handset) (o : Order) : State := s.enqueue h (some o)
def State.reject (s : State) (h : Handset) : State := s.enqueue h none

/-! ## Panel messages and end tones (R110, R113) -/

/-- A message handed to a PLU whose link is UP. -/
def sendQueued (m : PanelMsg) (q : List PanelMsg) : List PanelMsg :=
  if m = .reject ∧ PanelMsg.reject ∈ q then q
  else if q.length < Config.sendPlaces then q ++ [m]
  else q.drop 1 ++ [m]

def PanelUnit.handed (m : PanelMsg) (u : PanelUnit) : PanelUnit :=
  if u.link.state = .up then { u with sendQueue := sendQueued m u.sendQueue } else u

def State.hand (s : State) (p : Panel) (m : PanelMsg) : State := s.modPanel p (·.handed m)

/-- The end-tone waveform a cause selects (R29). -/
def EndCause.wave : EndCause → Option EndWave
  | .busy => some .busy
  | .queueFull => some .busy
  | .waitTimeout => some .busy
  | .noAnswer => some .busy
  | .unknown => some .unknown
  | _ => none

def EndWave.tone : EndWave → Tone
  | .busy => .busy
  | .unknown => .unknown

/-- The end tone starts with the cause's waveform when the link is UP, its cursor at the start of the cadence (R113, R165). -/
def PanelUnit.endToned (cause : EndCause) (u : PanelUnit) : PanelUnit :=
  match cause.wave with
  | some w =>
    if u.link.state = .up then
      { u with
        endTone := some { wave := w, timer := .start Config.endToneSeconds }
        cursor := some { tone := w.tone, phase := 0 } }
    else u
  | none => u

/-- The end tone stops and its cursor is cleared (R114, R165). -/
def PanelUnit.endToneStopped (u : PanelUnit) : PanelUnit :=
  match u.endTone with
  | some _ => { u with endTone := none, cursor := none }
  | none => u

/-! ## Slots (R33 to R39) -/

/-- Whether an entry names a call record. -/
def SlotEntry.names (i : Rec) : SlotEntry → Bool
  | .reserved j => i == j
  | .carrying j => i == j
  | _ => false

/-- A slot is free when it is IDLE in both schedules. -/
def RiserUnit.slotFree (u : RiserUnit) (k : Slot) : Bool := vget u.live k == .idle && vget u.staged k == .idle

/-- The free count of a riser (R36). -/
def RiserUnit.freeCount (u : RiserUnit) : Nat := if u.inService then allSlots.countP u.slotFree else 0

/-- The lowest-numbered free slot of a riser in service. -/
def RiserUnit.lowestFree (u : RiserUnit) : Option Slot := if u.inService then allSlots.find? u.slotFree else none

/-- A QUIET riser wakes (R94). -/
def RiserUnit.woken (u : RiserUnit) : RiserUnit :=
  if u.state = .quiet then { u with state := .waking, wakeTimer := .running Config.wakeFrames } else u

/-- An edit of one staged entry; one that makes it non-IDLE wakes a QUIET riser (R34, R39). -/
def State.edit (s : State) (r : Riser) (k : Slot) (e : SlotEntry) : State :=
  s.modRiser r fun u =>
    let u' := { u with staged := vset u.staged k e }
    if e = .idle then u' else u'.woken

/-- The staged entries of a riser that name a record are released (R48). -/
def State.releaseOn (s : State) (i : Rec) (r : Riser) : State :=
  if (s.riser r).staged.toList.any (·.names i) then
    s.modRiser r fun u => { u with staged := vmap (fun e => if e.names i then .idle else e) u.staged }
  else s

/-- Every staged entry that names a record is released (R28). -/
def State.releaseAll (s : State) (i : Rec) : State := allRisers.foldl (fun s r => s.releaseOn i r) s

/-- The staged slot of a record on a riser. -/
def RiserUnit.slotOf (u : RiserUnit) (i : Rec) : Option Slot := allSlots.find? fun k => (vget u.staged k).names i

/-- The slots field of a record: the (riser, slot) pairs whose staged entry names it (R33). -/
def State.slotsOf (s : State) (i : Rec) : List (Riser × Slot) :=
  allRisers.flatMap fun r => (allSlots.filter fun k => (vget (s.riser r).staged k).names i).map fun k => (r, k)

/-- Whether a live entry of any riser names a record. -/
def State.liveNames (s : State) (i : Rec) : Bool := allRisers.any fun r => (s.riser r).live.toList.any (·.names i)

/-! ## Legs (R5, R6) -/

/-- The unDROPPED legs of a call. -/
def Call.liveLegs (c : Call) : List Leg := c.legs.filter fun l => l.state ≠ .dropped

/-- The riser set of a call: the distinct risers of its legs that are not DROPPED (R5). -/
def Call.riserSet (c : Call) : List Riser := allRisers.filter fun r => c.liveLegs.any fun l => l.handset.riser = r

def Call.hasLive (c : Call) (h : Handset) : Bool := c.legs.any fun l => l.handset = h && l.state ≠ .dropped
def Call.hasDropped (c : Call) (h : Handset) : Bool := c.legs.any fun l => l.handset = h && l.state = .dropped

/-- The record in which a handset is an unDROPPED leg; there is at most one (R6). -/
def State.liveRecord (s : State) (h : Handset) : Option Rec :=
  allRecs.find? fun i => match s.call i with
    | some c => c.hasLive h
    | none => false

/-- Whether a handset is a DROPPED leg of a record that is not FREE. -/
def State.droppedSomewhere (s : State) (h : Handset) : Bool :=
  allRecs.any fun i => match s.call i with
    | some c => c.hasDropped h
    | none => false

/-- The answered leg of a call. -/
def Call.answeredLeg (c : Call) : Option Leg := c.answered.bind fun n => c.legs[n]?

/-- Whether a handset is in the member set of the page. -/
def State.isMember (s : State) (h : Handset) : Bool :=
  match s.page with
  | some p => p.members.contains h
  | none => false

end Sys2Proof.Machine
end

