-- ==== Sys2Proof/Machine/Directory.lean ====
section
/-! DEFINITION. The Directory: its entries, the lookup by dial code, the group listing, the answer's reading, and the
changes WRITE-ENTRIES, CLEAR-COUNTERS and PROTECT make (chapter 3). -/

namespace Sys2Proof.Machine

open Sys2Proof

/-- The page an entry lies in and its position there: index = page × 16 + position. -/
def pageOf (e : EntryIx) : PageIx := ⟨e.val / 16, by omega⟩
def positionOf (e : EntryIx) : Fin 16 := ⟨e.val % 16, by omega⟩

def State.dirPage (s : State) (p : PageIx) : DirPage := vget s.directory p
def State.entry (s : State) (e : EntryIx) : Entry := vget (s.dirPage (pageOf e)) (positionOf e)

def State.setDirPage (s : State) (p : PageIx) (q : DirPage) : State := s.setDirectory (vset s.directory p q)
def State.setEntry (s : State) (e : EntryIx) (x : Entry) : State :=
  s.setDirPage (pageOf e) (vset (s.dirPage (pageOf e)) (positionOf e) x)

/-- The VALID entries a test picks, in ascending entry index. -/
def State.validEntries (s : State) (pick : EntryData → Bool) : List (EntryIx × EntryData) :=
  allEntries.filterMap fun e => match s.entry e with
    | some d => if pick d then some (e, d) else none
    | none => none

/-- Of entries that name the same handset the first is kept (R58). -/
def distinctHandsets : List (EntryIx × EntryData) → List (EntryIx × EntryData)
  | [] => []
  | x :: rest => x :: (distinctHandsets rest).filter fun y => y.2.handset ≠ x.2.handset

/-- The tests that exclude an entry whose handset cannot be rung (R59). -/
def State.excluded (s : State) (d : EntryData) : Bool :=
  d.dnd || ((s.riser d.handset.riser).inService && !(s.presence d.handset).present)
    || (s.liveRecord d.handset).isSome || s.isMember d.handset

/-- What a lookup hands the Call Controller (R60). -/
inductive Lookup where
  | unknown
  | busy
  | targets (list : List (EntryIx × EntryData))

/-- The first step of a lookup: the first four VALID entries that hold the code (R57). -/
def State.collected (s : State) (code : Nat) : List (EntryIx × EntryData) :=
  (s.validEntries fun d => d.code == code).take 4

/-- The lookup: collection, duplicate removal, exclusion and verdict (R57 to R60). -/
def State.lookup (s : State) (code : Nat) : Lookup :=
  match s.collected code with
  | [] => .unknown
  | found =>
    match (distinctHandsets found).filter fun x => !s.excluded x.2 with
    | [] => .busy
    | list => .targets list

/-- The handsets of a page group, distinct, in ascending entry index (R62). -/
def State.groupHandsets (s : State) (group : Nat) : List Handset :=
  (distinctHandsets (s.validEntries fun d => d.group == group)).map fun x => x.2.handset

/-- The answer's reading of the answered leg's entry: the listen gain, and the counter raised by 1 (R14, R63). -/
def State.answerRead (s : State) (e : Option EntryIx) : Nat × State :=
  match e with
  | none => (64, s)
  | some e =>
    match s.entry e with
    | none => (64, s)
    | some d => (d.gain, s.setEntry e (some { d with counter := d.counter + 1 }))

/-! ## Protection (R72) -/

/-- A page is guarded when it is in the map and LOCK is asserted. -/
def State.guarded (s : State) (page : Nat) : Bool := s.lockHeld && s.settings.protection.getLsbD page

/-! ## WRITE-ENTRIES (R64 to R69) -/

/-- Whether an item passes validation (R65); the address field holds 0–31. -/
def WriteItemOk (w : WriteItem) : Bool := !w.valid || (w.code.toNat ≤ Config.maxDialCode && w.riser.toNat ≤ 7)

/-- The entry an item and the common part give its position (R69). -/
def writtenEntry (h : WriteHead) (w : WriteItem) : Entry :=
  if w.valid then
    some { code := w.code.toNat
           handset := { riser := Fin.ofNat 8 w.riser.toNat, addr := Fin.ofNat 32 w.addr.toNat }
           gain := h.gain.toNat, group := h.group.toNat, release := h.release, monitor := h.monitor, dnd := h.dnd
           counter := 0 }
  else none

/-- The first failing test of validation, as the reply's detail byte (R65, R210). -/
def writeFault (h : WriteHead) (items : List WriteItem) : Option Byte :=
  if 23 < h.page.toNat then some 0xF0
  else if 15 < h.start.toNat then some 0xF1
  else if 15 < h.group.toNat then some 0xF2
  else (items.findIdx? fun w => !WriteItemOk w).map byteOf

/-- Items written at consecutive positions of a page, wrapping from position 15 to position 0 (R67). -/
def writeRun (h : WriteHead) : Nat → List WriteItem → DirPage → DirPage
  | _, [], q => q
  | at_, w :: rest, q => writeRun h (at_ + 1) rest (vset q (Fin.ofNat 16 at_) (writtenEntry h w))

/-- The first position written and the items written: a list of more than 16 is written by its last 16 (R68). -/
def writeFirst (h : WriteHead) (items : List WriteItem) : Nat := (h.start.toNat + (items.length - 16)) % 16
def writeItems (items : List WriteItem) : List WriteItem := items.drop (items.length - 16)

/-- The counters of a page set to 0 (R71). -/
def zeroCounters (q : DirPage) : DirPage := vmap (Option.map fun d => { d with counter := 0 }) q

/-- The number of VALID entries (R75). -/
def State.validCount (s : State) : Nat := (s.validEntries fun _ => true).length

end Sys2Proof.Machine
end

