-- ==== Sys2Proof/Machine/Calls.lean ====
section
/-! DEFINITION. The Call Controller's shared steps: taking and ending a call, reservation, ringing, the Wait Queue scan, the
answer and the events of handsets (chapters 1 and 2, and sections 6.2 and 6.5). -/

namespace Sys2Proof.Machine

open Sys2Proof

/-! ## Records (R2, R4) -/

/-- A call record as it is created (R2); its state is set by the rule that creates the call. -/
def Call.fresh (serial : Word) (kind : CallKind) (origin : Origin) (code : Option Nat) (state : CallState) : Call :=
  { serial := serial, kind := kind, origin := origin, code := code, state := state, legs := [], answered := none
    listenGain := none, strikes := 0, strikeTimer := .stopped, ringTimer := .stopped, talkTimer := .stopped
    waitTimer := .stopped, sequence := none, held := false, monitor := .none, endCause := none }

/-- The lowest-numbered FREE record. -/
def State.freeRecord (s : State) : Option Rec := allRecs.find? fun i => (s.call i).isNone

/-- A record is taken: it receives the serial counter's value, and the counter moves on, from 65535 to 0. -/
def State.takeRecord (s : State) (i : Rec) (kind : CallKind) (origin : Origin) (code : Option Nat) (state : CallState) : State :=
  { s.setCall i (some (.fresh s.serialNext kind origin code state)) with serialNext := s.serialNext + 1 }

/-- Whether a call is CONNECTED or HELD, and so holds a place in the order of connection (R4). -/
def Call.inTalk (c : Call) : Bool := c.state == .connected || c.state == .held

/-- How many CONNECTED or HELD calls stand before a connect sequence. -/
def State.rank (s : State) (q : Nat) : Nat :=
  allRecs.countP fun i => match s.call i with
    | some c => c.inTalk && (match c.sequence with | some n => n < q | none => false)
    | none => false

/-- The renumbering of R4: connected calls receive 0, 1, 2, … in the order they have, and the counter follows them. -/
def State.renumbered (s : State) : State :=
  { s with
    calls := vmap (Option.map fun c => if c.inTalk then { c with sequence := c.sequence.map s.rank } else c) s.calls
    sequenceNext := allRecs.countP fun i => match s.call i with
      | some c => c.inTalk
      | none => false }

/-- A connect sequence is given out, after a renumbering when the counter stands at 65535. -/
def State.takeSequence (s : State) : Nat × State :=
  let s' := if 65535 ≤ s.sequenceNext then s.renumbered else s
  (s'.sequenceNext, { s' with sequenceNext := s'.sequenceNext + 1 })

/-! ## Ending a call (R28 to R31) -/

/-- What CLEARING makes of the record itself. -/
def Call.cleared (cause : EndCause) (c : Call) : Call :=
  { c with
    state := .clearing, endCause := some cause, strikeTimer := .stopped, ringTimer := .stopped, talkTimer := .stopped
    waitTimer := .stopped, legs := c.legs.map (fun l => { l with state := .dropped }), monitor := .none }

/-- The order a leg's handset is sent when its call enters CLEARING. -/
def State.endLeg (s : State) (l : Leg) : State :=
  if (s.presence l.handset).present then
    match l.state with
    | .ringing => s.order l.handset .ringOff
    | .answered => if (s.presence l.handset).offHook then s.order l.handset .drop else s.order l.handset .unassign
    | .dropped => s
  else s

/-- A record leaves the queue it stands in. -/
def State.leaveQueues (s : State) (i : Rec) : State :=
  { s with waitQueue := s.waitQueue.filter (· ≠ i), consoleQueue := s.consoleQueue.filter (· ≠ i) }

/-- Whether the console state names a record. -/
def ConsoleState.names (i : Rec) : ConsoleState → Bool
  | .talk j => i == j
  | .listen j => i == j
  | .barge j => i == j
  | _ => false

/-- A console state that names an ending record returns to IDLE; a RINGBACK to the console stops with it (R28, R164). -/
def State.consoleForget (s : State) (i : Rec) : State :=
  if s.console.names i then (s.setConsole .idle).modClu fun c => { c with cursor := none } else s

/-- The NOTICE record becomes none when its record leaves CONNECTED (R166). -/
def State.noticeForget (s : State) (i : Rec) : State :=
  match s.notice with
  | some n => if n.record = i then s.setNotice none else s
  | none => s

/-- What the ending of a call does at its origin panel (R29). -/
def State.panelEnded (s : State) (origin : Origin) (cause : EndCause) : State :=
  match origin with
  | .panel p => s.modPanel p fun u => ({ u with current := none, cursor := none }.handed (.ended cause)).endToned cause
  | _ => s

/-- A record in CLEARING that no live schedule entry names becomes FREE (R31). -/
def State.freeIfUnnamed (s : State) (i : Rec) : State :=
  match s.call i with
  | some c => if c.state = .clearing ∧ s.liveNames i = false then (s.noticeForget i).setCall i none else s
  | none => s

/-- A call ends: its record enters CLEARING, and is tested for FREE. A record that is FREE or in CLEARING takes no
further ending cause (R28, R30). -/
def State.endCall (s : State) (i : Rec) (cause : EndCause) : State :=
  match s.call i with
  | none => s
  | some c =>
    if c.state = .clearing then s
    else
      let s1 := (s.setCall i (some (c.cleared cause))).leaveQueues i
      let s2 := c.legs.foldl State.endLeg s1
      let s3 := ((s2.releaseAll i).consoleForget i).noticeForget i
      let s4 := (s3.panelEnded c.origin cause).postCall i (.ended cause c.held)
      s4.freeIfUnnamed i

/-! ## Reservation (R37, R38) -/

inductive Grant where
  | off | refused | granted
  deriving DecidableEq

/-- The Slot Allocator's test of a set of risers. -/
def State.testRisers (s : State) (rs : List Riser) : Grant :=
  if rs.any fun r => !(s.riser r).inService then .off
  else if rs.any fun r => (s.riser r).freeCount = 0 then .refused
  else .granted

/-- The reservation of a record's slots: on each riser the lowest-numbered free one. -/
def State.reserveOn (i : Rec) (s : State) (r : Riser) : State :=
  match (s.riser r).lowestFree with
  | some k => s.edit r k (.reserved i)
  | none => s

def State.reserve (s : State) (i : Rec) (rs : List Riser) : State := rs.foldl (State.reserveOn i) s

/-! ## Ringing (R11) -/

/-- The timeouts a call takes from its origin's profile (R10, R11, R13). -/
def State.ringSeconds (s : State) (o : Origin) : Nat :=
  match o with
  | .panel p => (s.panelProfile p).ring
  | _ => s.settings.console.ring

def State.talkSeconds (s : State) (o : Origin) : Nat :=
  match o with
  | .panel p => (s.panelProfile p).talk
  | _ => s.settings.console.talk

/-- What the entry to RINGING does at the caller: the panel is sent RINGING, and the caller's RINGBACK cursor starts (R164). -/
def State.callerRinging (s : State) (i : Rec) (o : Origin) : State :=
  match o with
  | .panel p => s.modPanel p fun u => ({ u with cursor := some { tone := .ringback, phase := 0 } }.handed .ringing)
  | _ => if s.console = .talk i then s.modClu fun c => { c with cursor := some { tone := .ringback, phase := 0 } } else s

/-- A call enters RINGING with its slots reserved. -/
def State.enterRinging (s : State) (i : Rec) : State :=
  match s.call i with
  | none => s
  | some c =>
    let s1 := (c.legs.filter fun l => l.state = .ringing).foldl (fun s l => s.order l.handset .ringOn) s
    let s2 := s1.setCall i (some { c with state := .ringing, waitTimer := .stopped, ringTimer := .start (s.ringSeconds c.origin) })
    (s2.callerRinging i c.origin).postCall i (.ringing (c.code.getD 0) c.legs.length)

/-! ## The Wait Queue (R41 to R46) -/

/-- A record joins the tail of the Wait Queue (R41, R46). -/
def State.joinWait (s : State) (i : Rec) : State :=
  let s1 := s.modCall i fun c => { c with state := .queued, waitTimer := .start s.settings.wait }
  let s2 := { s1 with waitQueue := s1.waitQueue ++ [i] }
  s2.postCall i (.queued (((s.call i).bind (·.code)).getD 0))

/-- One record of the Wait Queue is tested by a scan (R44). -/
def State.scanOne (s : State) (i : Rec) : State :=
  match s.call i with
  | none => s
  | some c =>
    if c.state = .queued ∧ s.testRisers c.riserSet = .granted then
      (({ s with waitQueue := s.waitQueue.filter (· ≠ i) }).reserve i c.riserSet).enterRinging i
    else s

/-- A scan of the Wait Queue, head to tail, in one pass. -/
def State.scan (s : State) : State := s.waitQueue.foldl State.scanOne s

/-- The scan that follows an event which raised the free count of a riser, once the event is carried out in full (R43). -/
def State.settled (before after : State) : State :=
  if allRisers.any fun r => (before.riser r).freeCount < (after.riser r).freeCount then after.scan else after

/-- An event carried out in full, and the scan it may start. -/
def State.event (s : State) (f : State → State) : State := State.settled s (f s)

/-! ## Setup (R5, R8, R9) -/

/-- A leg made from a target (R5). -/
def legOf (x : EntryIx × EntryData) : Leg :=
  { entry := some x.1, handset := x.2.handset, release := x.2.release, monitor := x.2.monitor, state := .ringing }

/-- With its legs created, a call asks for its slots (R9). -/
def State.askSlots (s : State) (i : Rec) (c : Call) : State :=
  match s.testRisers c.riserSet with
  | .off => s.endCall i .riserOff
  | .granted => (s.reserve i c.riserSet).enterRinging i
  | .refused => if s.waitQueue.length < Config.queuePlaces then s.joinWait i else s.endCall i .queueFull

/-- The rest of the setup of a call that has taken its record: lookup and reservation. -/
def State.setup (s : State) (i : Rec) (code : Nat) : State :=
  match s.lookup code with
  | .unknown => s.endCall i .unknown
  | .busy => s.endCall i .busy
  | .targets list =>
    match s.call i with
    | none => s
    | some c =>
      let c' := { c with legs := list.map legOf }
      (s.setCall i (some c')).askSlots i c'

/-- A panel CALL (R7, R8). DEDUCED (log entry 11): the record-less BUSY report has its held flag clear; R32 gives an ENDED report
that field, and no rule gives its value where there is no record. -/
def State.panelCall (s : State) (p : Panel) (code : Nat) : State :=
  match (s.panel p).current with
  | some _ => s.hand p .reject
  | none =>
    let s1 := s.modPanel p (·.endToneStopped)
    if Config.maxDialCode < code then s1.hand p .reject
    else
      match s1.freeRecord with
      | none =>
        (s1.modPanel p fun u => (u.handed (.ended .busy)).endToned .busy).post
          (.call (.ended .busy false) none .entry (.panel p) none)
      | some i =>
        let s2 := (s1.takeRecord i .entry (.panel p) (some code) .queued).modPanel p fun u => { u with current := some i }
        s2.setup i code

/-- A panel CANCEL (R26). -/
def State.panelCancel (s : State) (p : Panel) : State :=
  match (s.panel p).current with
  | some i => s.endCall i .cancelled
  | none => s

/-! ## The answer (R13, R14) -/

/-- The legs after an answer: leg n has won, every other RINGING leg is dropped. -/
def wonLegs (n : Nat) (legs : List Leg) : List Leg :=
  legs.mapIdx fun m l => if m = n then { l with state := .answered } else if l.state = .ringing then { l with state := .dropped } else l

/-- On the answered riser the reserved slot becomes CARRYING(record, CALL). -/
def State.carryAnswer (s : State) (i : Rec) (r : Riser) : State :=
  s.modRiser r fun u => { u with staged := vmap (fun e => if e = .reserved i then .carrying i else e) u.staged }

/-- The other RINGING legs of an answered call, in leg order. -/
def losers (n : Nat) (legs : List Leg) : List Leg :=
  (legs.zipIdx.filter fun x => x.2 ≠ n && x.1.state = .ringing).map Prod.fst

/-- What the answer does at the caller: a RINGBACK stops, and the panel is sent CONNECTED. -/
def State.callerAnswered (s : State) (i : Rec) (o : Origin) : State :=
  match o with
  | .panel p => s.modPanel p fun u => ({ u with cursor := none }.handed .connected)
  | _ => if s.console = .talk i then s.modClu fun c => { c with cursor := none } else s

/-- The ASSIGN of the answered handset, naming the slot its call holds on its riser. -/
def State.assignTo (s : State) (i : Rec) (h : Handset) : State :=
  match (s.riser h.riser).slotOf i with
  | some k => s.order h (.assign k)
  | none => s

/-- Leg n of a RINGING call wins the answer. -/
def State.answer (s : State) (i : Rec) (c : Call) (n : Nat) (l : Leg) : State :=
  let got := s.takeSequence
  let read := got.2.answerRead l.entry
  let s1 := read.2.setCall i (some { c with
    state := .connected, legs := wonLegs n c.legs, answered := some n, sequence := some got.1, listenGain := some read.1
    ringTimer := .stopped, talkTimer := .start (s.talkSeconds c.origin) })
  let s2 := (s1.carryAnswer i l.handset.riser).assignTo i l.handset
  let s3 := (losers n c.legs).foldl (fun s m => s.order m.handset .ringOff) s2
  let s4 := (c.riserSet.filter (· ≠ l.handset.riser)).foldl (fun s r => s.releaseOn i r) s3
  (s4.callerAnswered i c.origin).postCall i (.connected l.handset got.1)

/-- The unDROPPED leg of a handset in a call, with its index. -/
def Call.findLeg (c : Call) (h : Handset) : Option (Leg × Nat) :=
  c.legs.zipIdx.find? fun x => x.1.handset = h && x.1.state ≠ .dropped

/-! ## Page members (R137) -/

/-- A handset leaves the member set. -/
def State.leavePage (s : State) (h : Handset) : State :=
  match s.page with
  | some p => s.setPage (some { p with members := p.members.filter (· ≠ h) })
  | none => s

/-! ## Hook events (R15, R25, R122) -/

/-- An off-hook event, resolved in the order of R15. -/
def State.offHook (s : State) (h : Handset) : State :=
  match s.liveRecord h with
  | some i =>
    match s.call i with
    | none => s
    | some c =>
      match c.findLeg h with
      | some (l, n) => if c.state = .ringing ∧ l.state = .ringing then s.answer i c n l else s
      | none => s
  | none =>
    if s.isMember h then (s.order h .pageOff).leavePage h
    else if s.droppedSomewhere h then s.order h .drop
    else s

/-- An on-hook event. -/
def State.onHook (s : State) (h : Handset) : State :=
  match s.liveRecord h with
  | none => s
  | some i =>
    match s.call i with
    | none => s
    | some c =>
      match c.state with
      | .connected => s.endCall i .hungUp
      | .held => s.endCall i .hungUp
      | .waitingDesk => s.endCall i .deskGone
      | _ => s

/-! ## Keys (R19, R20, R120, R121) -/

/-- The four conditions under which a RELEASE key is not refused (R19). -/
def Call.mayStrike (c : Call) (l : Leg) : Bool :=
  c.state == .connected && c.kind == .entry && l.state == .answered && l.release && c.strikes < Config.strikesPerCall

/-- A STRIKE is sent to the origin panel, for the duration its profile gives at this moment. -/
def State.strike (s : State) (i : Rec) (c : Call) (p : Panel) : State :=
  let d := (s.panelProfile p).strike
  let s1 := (s.hand p (.strike d)).setCall i (some { c with strikes := c.strikes + 1, strikeTimer := .start d })
  s1.postCall i (.strike (c.strikes + 1) d)

/-- A RELEASE key. -/
def State.releaseKey (s : State) (h : Handset) : State :=
  match s.liveRecord h with
  | none => s
  | some i =>
    match s.call i with
    | none => s
    | some c =>
      match c.findLeg h, c.origin with
      | some (l, _), .panel p =>
        if c.mayStrike l then
          if c.strikeTimer.isRunning then s else s.strike i c p
        else s.reject h
      | _, _ => s.reject h

/-- The record of a CONCIERGE request that is taken (R121). -/
def State.queueConcierge (s : State) (i : Rec) (h : Handset) : State :=
  let s1 := s.takeRecord i .concierge (.handset h) none .waitingDesk
  let s2 := s1.modCall i fun c => { c with
    legs := [{ entry := none, handset := h, release := false, monitor := false, state := .answered }]
    answered := some 0
    waitTimer := .start s.settings.console.queue }
  ({ s2 with consoleQueue := s2.consoleQueue ++ [i] }).postCall i (.waiting h)

/-- A CONCIERGE key (R120). -/
def State.conciergeKey (s : State) (h : Handset) : State :=
  match s.liveRecord h with
  | some i =>
    match s.call i with
    | some c => if c.state = .waitingDesk then s else s.reject h
    | none => s
  | none =>
    if (s.presence h).offHook then
      match s.freeRecord with
      | some i => if s.consoleQueue.length < Config.queuePlaces then s.queueConcierge i h else s.reject h
      | none => s.reject h
    else s.reject h

/-! ## A handset is lost (R17, R122, R137) -/

/-- The loss of a RINGING leg: it is DROPPED; a RINGING call gives up a slot no leg needs; the last leg ends the call. -/
def State.dropLeg (s : State) (i : Rec) (c : Call) (h : Handset) : State :=
  let c' := { c with legs := c.legs.map fun l => if l.handset = h ∧ l.state = .ringing then { l with state := .dropped } else l }
  let s1 := s.setCall i (some c')
  let s2 := if c.state = .ringing ∧ h.riser ∉ c'.riserSet then s1.releaseOn i h.riser else s1
  if c'.liveLegs.isEmpty then s2.endCall i .handsetLost else s2

/-- The Call Controller takes a handset loss. -/
def State.handsetLost (s : State) (h : Handset) : State :=
  let s1 := s.leavePage h
  match s1.liveRecord h with
  | none => s1
  | some i =>
    match s1.call i with
    | none => s1
    | some c =>
      match c.findLeg h with
      | some (l, _) => if l.state = .ringing then s1.dropLeg i c h else s1.endCall i .handsetLost
      | none => s1

end Sys2Proof.Machine
end

