-- ==== Sys2Proof/Machine/Paging.lean ====
section
/-! DEFINITION. The page's shared steps: its candidates, the slots it takes or is lent, its end, and the drop of a riser
(section 6.5). -/

namespace Sys2Proof.Machine

open Sys2Proof

/-- Every handset, in ascending riser and address. -/
def allHandsets : List Handset := allRisers.flatMap fun r => allAddrs.map fun a => { riser := r, addr := a }

/-- Whether a handset of the group can be paged (R134): its riser in service, PRESENT, on-hook, and no live leg. -/
def State.isCandidate (s : State) (h : Handset) : Bool :=
  (s.riser h.riser).inService && (s.presence h).present && !(s.presence h).offHook && (s.liveRecord h).isNone

/-- The candidates of a group, in ascending riser and address. -/
def State.candidates (s : State) (group : Nat) : List Handset :=
  let listed := s.groupHandsets group
  allHandsets.filter fun h => listed.contains h && s.isCandidate h

/-- The CONNECTED call carried in staged on a riser that has the highest connect sequence, with its slot (R135). -/
def State.youngest (s : State) (r : Riser) : Option (Rec × Call × Slot) :=
  allSlots.foldl (fun best k =>
    match vget (s.riser r).staged k with
    | .carrying i =>
      match s.call i with
      | some c =>
        if c.state = .connected then
          match best with
          | some (_, b, _) => if b.sequence.getD 0 < c.sequence.getD 0 then some (i, c, k) else best
          | none => some (i, c, k)
        else best
      | none => best
    | _ => best) none

/-- What PAGE-START decides for a riser that holds candidates (R135). -/
inductive PagePlan where
  | take (k : Slot)
  | lend (i : Rec) (serial : Word) (k : Slot)
  | skip

def State.pagePlan (s : State) (r : Riser) : PagePlan :=
  match (s.riser r).lowestFree with
  | some k => .take k
  | none =>
    match s.youngest r with
    | some (i, c, k) => .lend i c.serial k
    | none => .skip

/-- A call's slot is lent to the page and the call becomes HELD (R135, R138). -/
def State.lend (s : State) (r : Riser) (i : Rec) (k : Slot) : State :=
  let s1 := (s.edit r k .page).modCall i fun c => { c with state := .held, held := true, talkTimer := c.talkTimer.freeze }
  (s1.noticeForget i).postCall i (.held r k)

/-- The decision for one riser carried out, the page record so far beside it. -/
def State.planOne (x : State × PageRecord) (r : Riser) : State × PageRecord :=
  match x.1.pagePlan r with
  | .take k => (x.1.edit r k .page, { x.2 with served := vset x.2.served r (some { slot := k, lender := none }) })
  | .lend i serial k => (x.1.lend r i k, { x.2 with served := vset x.2.served r (some { slot := k, lender := some (i, serial) }) })
  | .skip => (x.1, { x.2 with skipped := x.2.skipped ++ [r] })

def PageRecord.serves (p : PageRecord) (r : Riser) : Bool := (vget p.served r).isSome

def PageRecord.info (p : PageRecord) : PageInfo :=
  { group := p.group, served := p.served, skipped := p.skipped, members := p.members.length }

/-- The PAGE-ON of one member. -/
def State.pageOn (p : PageRecord) (s : State) (h : Handset) : State :=
  match vget p.served h.riser with
  | some v => s.order h (.pageOn v.slot)
  | none => s

/-- The slot of a served riser at the page's end: restored to a lender that is still HELD, released otherwise (R141). -/
def State.returnSlot (p : PageRecord) (s : State) (r : Riser) : State :=
  match vget p.served r with
  | none => s
  | some v =>
    match v.lender with
    | none => s.edit r v.slot .idle
    | some (i, serial) =>
      match s.call i with
      | none => s.edit r v.slot .idle
      | some c =>
        if c.state = .held ∧ c.serial = serial then
          ((s.edit r v.slot (.carrying i)).setCall i
            (some { c with state := .connected, held := false, talkTimer := c.talkTimer.resume })).postCall i (.resumed r v.slot)
        else s.edit r v.slot .idle

/-- The page ends (R141). -/
def State.endPage (s : State) (cause : PageCause) : State :=
  match s.page with
  | none => s
  | some p =>
    let s1 := p.members.foldl (fun s h => s.order h .pageOff) s
    let s2 := allRisers.foldl (State.returnSlot p) s1
    ((s2.setPage none).setConsole .idle).post (.pageEnded p.group cause)

/-- The page drops a riser that is disabled; with no riser left it ends (R140). -/
def State.dropRiser (s : State) (r : Riser) : State :=
  match s.page with
  | none => s
  | some p =>
    match vget p.served r with
    | none => s
    | some v =>
      let p' := { p with served := vset p.served r none, members := p.members.filter fun h => h.riser ≠ r }
      let s1 := ((s.edit r v.slot .idle).setPage (some p')).post (.pageDropped r)
      if allRisers.any p'.serves then s1 else s1.endPage .risersGone

end Sys2Proof.Machine
end

