-- ==== Sys2Proof/Machine/Risers.lean ====
section
/-! DEFINITION. The Riser Line Unit's shared steps: enable and disable, quiet and wake, order selection, the settling of an
answer, the frame boundary's copy, and the reversal sequence (chapter 4, sections 2.1, 2.4 and 2.5). -/

namespace Sys2Proof.Machine

open Sys2Proof

/-! ## Riser states (R88 to R95) -/

/-- A riser just enabled (R89): all at rest, in ACTIVE, its quiet and reversal timers started. -/
def RiserUnit.enabled (profile : RiserProfile) : RiserUnit :=
  { RiserUnit.atRest with
    state := .active, quietTimer := .period profile.quiet, reversalTimer := .period profile.reversal }

/-- An enable reaches a riser (R89): only one in OFF takes it. -/
def State.enableRiser (s : State) (r : Riser) : State :=
  if (s.riser r).state = .off then (s.setRiser r (.enabled (s.riserProfile r))).post (.riser .enabled r) else s

/-- The reversal sequence is abandoned and its timer stops (R98). -/
def RiserUnit.reversalAbandoned (u : RiserUnit) : RiserUnit := { u with reversal := .none, reversalTimer := .stopped }

/-- The handsets as the uplink halves of a frame that opens now find them (R77). -/
def RiserUnit.hearing (u : RiserUnit) : Vector Heard 32 :=
  vtab fun a => { condition := vget u.conditions a, present := (vget u.presence a).present }

/-- The riser in OFF; its conditions are IDLE since the carrier is gone (R52, R79, R84, R91). DESIGN CHOICE (log entry 28): the
poll pointer keeps its value, since R78 sets it only at the next entry to ACTIVE. -/
def RiserUnit.switchedOff (u : RiserUnit) : RiserUnit :=
  { RiserUnit.atRest with staged := u.staged, pollPointer := u.pollPointer, polarity := u.polarity }

/-- The calls that a disable of a riser ends (R18). -/
def State.callOnRiser (s : State) (r : Riser) (i : Rec) : Bool :=
  match s.call i with
  | none => false
  | some c => c.state != .clearing
      && (c.legs.any (fun l => l.handset.riser = r && l.state ≠ .dropped) || (s.riser r).staged.toList.any (·.names i))

/-- The Call Controller learns of a disable: it ends the calls on the riser and drops the page there (R18, R51, R140). -/
def State.riserGone (s : State) (r : Riser) : State :=
  ((allRecs.filter (s.callOnRiser r)).foldl (fun s i => s.endCall i .riserOff) s).dropRiser r

/-- Each record in CLEARING is tested for FREE (R31, R35). -/
def State.testClearing (s : State) : State := allRecs.foldl State.freeIfUnnamed s

/-- The riser enters OFF: live is cleared, the records it named are tested (R52), and a RISER report is posted. -/
def State.riserOff (s : State) (r : Riser) (event : RiserEvent) : State :=
  ((s.setRiser r (s.riser r).switchedOff).testClearing).post (.riser event r)

/-- A disable reaches a riser (R90, R91). -/
def State.disableRiser (s : State) (r : Riser) : State :=
  match (s.riser r).state with
  | .active =>
    (s.setRiser r { (s.riser r).reversalAbandoned with
      state := .draining, quietTimer := .stopped, queue := [], sent := none }).riserGone r
  | .quiet => ((s.setRiser r { (s.riser r) with state := .off, queue := [] }).riserGone r).riserOff r .off
  | .waking => ((s.setRiser r { (s.riser r) with state := .off, queue := [] }).riserGone r).riserOff r .off
  | _ => s

/-- The riser enters QUIET: its frames stop, the reversal sequence is abandoned, the carrier goes off, and the next frame will
find every handset IDLE (R79, R93). -/
def RiserUnit.quieted (u : RiserUnit) : RiserUnit :=
  { u.reversalAbandoned with
    state := .quiet, quietTimer := .stopped, sent := none, orderWord := none
    conditions := Vector.replicate 32 .idle
    heard := vmap (fun p => { condition := .idle, present := p.present }) u.presence
    uplink := Vector.replicate 4 0, mixed := Vector.replicate 4 0 }

/-- The wake ends and the riser enters ACTIVE (R95). -/
def RiserUnit.wakeEnded (profile : RiserProfile) (u : RiserUnit) : RiserUnit :=
  { u with state := .active, reversal := .none, reversalTimer := .period profile.reversal }

/-! ## Order selection (R78) -/

/-- Whether the signalling slot of the frame is silent. -/
def RiserUnit.silent (u : RiserUnit) : Bool := u.state != .active || u.reversal.sub == .swap

/-- What the signalling slot carries, in a riser that generates frames. -/
def RiserUnit.selected (u : RiserUnit) : RiserUnit :=
  if u.silent then { u with sent := none, orderWord := none }
  else
    match u.queue with
    | e :: rest =>
      { u with
        queue := { e with inFlight := true, changed := false } :: rest
        sent := some { addr := e.addr, order := e.order }
        orderWord := some e.word }
    | [] =>
      { u with
        sent := some { addr := u.pollPointer, order := none }
        orderWord := some (pollWord u.pollPointer)
        pollPointer := u.pollPointer + 1 }

/-- Whether a riser generates frames (R76). -/
def RiserUnit.frames (u : RiserUnit) : Bool :=
  match u.state with
  | .active => true
  | .waking => true
  | .draining => true
  | _ => false

/-! ## The answer (R80, R83 to R87) -/

/-- The entry in flight is settled by a hit: removed, or kept for sending again when it changed since selection (R83). -/
def settledByHit (a : Addr) (q : List OrderEntry) : List OrderEntry :=
  q.filterMap fun e =>
    if e.addr = a ∧ e.inFlight = true then
      if e.changed then some { e with inFlight := false, changed := false } else none
    else some e

/-- The entry in flight is settled by a miss: it moves to the tail (R83). -/
def settledByMiss (a : Addr) (q : List OrderEntry) : List OrderEntry :=
  q.filter (fun e => !(e.addr = a && e.inFlight))
    ++ (q.filter fun e => e.addr = a && e.inFlight).map fun e => { e with inFlight := false, changed := false }

/-- A presence record of the table replaced. -/
def RiserUnit.withPresence (u : RiserUnit) (a : Addr) (p : Presence) : RiserUnit := { u with presence := vset u.presence a p }

/-- A delivered order sets the whole condition of its handset; POLL and REJECT leave it (R79). -/
def RiserUnit.delivered (u : RiserUnit) (x : Sent) : RiserUnit :=
  match x.order with
  | some o => { u with conditions := vset u.conditions x.addr o.condition }
  | none => u

/-- A miss of the frame sent to an address (R83, R85). -/
def State.miss (s : State) (r : Riser) (x : Sent) : State :=
  let u := s.riser r
  let p := vget u.presence x.addr
  if p.present then
    if p.misses + 1 < Config.missesToAbsent then
      s.modRiser r fun u => ({ u with sent := none, queue := settledByMiss x.addr u.queue }).withPresence x.addr
        { p with misses := p.misses + 1 }
    else
      let h : Handset := { riser := r, addr := x.addr }
      ((s.modRiser r fun u => ({ u with sent := none, queue := u.queue.filter fun e => e.addr ≠ x.addr }).withPresence
          x.addr .absent).post (.handset false h)).event fun s => s.handsetLost h
  else s.modRiser r fun u => { u with sent := none, queue := settledByMiss x.addr u.queue }

/-- The hook event of a hit (R87): the record takes the new hook state, and the Call Controller the event. -/
def State.hookEvent (s : State) (h : Handset) (off : Bool) : State :=
  let p := s.presence h
  if p.offHook = off then s
  else
    (s.modRiser h.riser fun u => u.withPresence h.addr { p with offHook := off }).event fun s =>
      if off then s.offHook h else s.onHook h

/-- The key event of a hit (R87). -/
def State.keyEvent (s : State) (h : Handset) (k : Key) : State :=
  match k with
  | .none => s
  | .release => s.event fun s => s.releaseKey h
  | .concierge => s.event fun s => s.conciergeKey h

/-- A hit of the frame sent to an address: the order is settled, the handset is PRESENT, and its events are handed, hook
before key (R83, R86, R87). -/
def State.hit (s : State) (r : Riser) (x : Sent) (w : Answer) : State :=
  let h : Handset := { riser := r, addr := x.addr }
  let p := s.presence h
  let s1 := s.modRiser r fun u =>
    (({ u with sent := none, queue := settledByHit x.addr u.queue }).delivered x).withPresence x.addr
      { p with present := true, misses := 0 }
  let s2 := if p.present then s1 else s1.post (.handset true h)
  (s2.hookEvent h w.offHook).keyEvent h w.key

/-! ## The frame boundary (R35, R49, R77, R97, R155) -/

/-- What the riser and the Mixer need of the rest of the part at a boundary: who holds an entry, and its configured gain. -/
def State.holderOf (s : State) (e : SlotEntry) : Option Holder :=
  match e with
  | .carrying i => (s.call i).map fun c => .call i c.serial
  | .page => some .page
  | _ => none

/-- The configured gain of a holder's output (R154). -/
def State.holderGain (s : State) (h : Holder) : Nat :=
  match h with
  | .call i _ => ((s.call i).bind (·.listenGain)).getD 64
  | .page => s.settings.console.pageGain

/-- An output at its creation or reset: its working gain is its configured gain (R153, R156). -/
def Output.fresh (gain : Nat) : Output := { working := gain, tally := 0, clean := 0, position := 0, endTaken := false }

/-- The slot output after a copy: kept for the same holder, created afresh for another, discarded when the entry carries
nothing (R153, R155). -/
def State.assigned (s : State) (e : SlotEntry) (old : Option SlotOutput) : Option SlotOutput :=
  match s.holderOf e with
  | none => none
  | some h =>
    match old with
    | some o => if o.holder = h then some o else some { holder := h, out := .fresh (s.holderGain h) }
    | none => some { holder := h, out := .fresh (s.holderGain h) }

/-- Whether a schedule entry carries voice. -/
def SlotEntry.carries : SlotEntry → Bool
  | .carrying _ => true
  | .page => true
  | _ => false

/-- The handsets TALKING on a slot in the uplink halves of the frame, as it found them when it opened (R77, R79): those on the
line, which were PRESENT or send a sample in this frame (log entry 12). -/
def RiserUnit.talkers (u : RiserUnit) (voice : List (Addr × Sample)) (k : Slot) : List Addr :=
  allAddrs.filter fun a =>
    (vget u.heard a).condition = .talking k && ((vget u.heard a).present || voice.any fun x => x.1 == a)

/-- The sample a handset sends in a frame, 0 when it sends none. -/
def sampleOf (voice : List (Addr × Sample)) (a : Addr) : Sample :=
  match voice.find? fun x => x.1 == a with
  | some x => x.2
  | none => 0

/-- The slot uplink of the frame that ends: the sample of the one handset TALKING on the slot, 0 when none or more than one is
(R77), 0 while live does not carry (R146). -/
def RiserUnit.received (u : RiserUnit) (voice : List (Addr × Sample)) (k : Slot) : Sample :=
  if (vget u.live k).carries then
    match u.talkers voice k with
    | [a] => sampleOf voice a
    | _ => 0
  else 0

/-- Staged is copied into live; the slot outputs follow their holders, the frame's uplinks reach the Mixer (0 while the
riser mutes), the frame is over, and the next one finds the handsets as they now are (R35, R76, R77, R146, R155). -/
def State.copied (s : State) (r : Riser) (voice : List (Addr × Sample)) : State :=
  s.modRiser r fun u =>
    { u with
      live := u.staged
      outputs := vtab fun k => s.assigned (vget u.staged k) (vget u.outputs k)
      uplink := vtab fun k =>
        if (vget u.staged k).carries ∧ u.reversal.sub = .normal then u.received voice k else 0
      heard := u.hearing
      sent := none }

/-- The wake that ends at a boundary after its timer expired (R95), and the closing boundary of a draining riser (R90),
after which a riser whose setting is 1 is enabled again (R89). -/
def State.boundaryState (s : State) (r : Riser) : State :=
  match (s.riser r).state with
  | .waking =>
    if (s.riser r).wakeTimer = .stopped then s.modRiser r (·.wakeEnded (s.riserProfile r)) else s
  | .draining =>
    let s1 := s.riserOff r .drained
    if (s1.riserProfile r).enable then s1.enableRiser r else s1
  | _ => s

/-- Polarity flips at the boundary that begins SWAP (R97). -/
def Polarity.flipped : Polarity → Polarity
  | .reference => .reversed
  | .reversed => .reference

/-- The phase that begins is the sub-state with this many frames, none of them counted off yet. -/
def Reversal.phase (sub : SubState) (length : Nat) : Reversal :=
  { sub := sub, length := length, done := 0, due := false, endTaken := false }

/-- A riser returns to NORMAL and its reversal timer starts again (R96, R97). -/
def RiserUnit.reversalOver (m : RiserProfile) (u : RiserUnit) : RiserUnit :=
  { u with reversal := .none, reversalTimer := .period m.reversal }

/-- POST-MUTE begins; a phase of 0 frames is passed through. -/
def RiserUnit.beginPostMute (m : RiserProfile) (u : RiserUnit) : RiserUnit :=
  if m.mute = 0 then u.reversalOver m else { u with reversal := .phase .postMute m.mute }

/-- SWAP begins: the polarity flips. -/
def RiserUnit.beginSwap (u : RiserUnit) : RiserUnit :=
  { u with polarity := u.polarity.flipped, reversal := .phase .swap Config.swapFrames }

/-- PRE-MUTE begins; a phase of 0 frames is passed through. -/
def RiserUnit.beginPreMute (m : RiserProfile) (u : RiserUnit) : RiserUnit :=
  if m.mute = 0 then u.beginSwap else { u with reversal := .phase .preMute m.mute }

/-- The phase in progress ends (R97). -/
def RiserUnit.phaseEnded (m : RiserProfile) (u : RiserUnit) : RiserUnit :=
  match u.reversal.sub with
  | .normal => u
  | .preMute => u.beginSwap
  | .swap => u.beginPostMute m
  | .postMute => u.reversalOver m

/-- The boundary's part in the reversal sequence: it starts the sequence that is due, or counts off a frame of the phase and
takes the phase's end when its frames are out (R97). -/
def RiserUnit.reversalCounted (m : RiserProfile) (u : RiserUnit) : RiserUnit :=
  if u.state = .active then
    if u.reversal.sub = .normal then
      if u.reversal.due then u.beginPreMute m else { u with reversal := { u.reversal with endTaken := false } }
    else if u.reversal.done + 1 < u.reversal.length then
      { u with reversal := { u.reversal with done := u.reversal.done + 1, endTaken := false } }
    else
      let u' := u.phaseEnded m
      { u' with reversal := { u'.reversal with endTaken := true } }
  else u

/-- While the sub-state mutes the line every uplink reaches the Mixer as 0 (R77). -/
def RiserUnit.muted (u : RiserUnit) : RiserUnit :=
  if u.reversal.sub = .normal then u else { u with uplink := Vector.replicate 4 0 }

/-- The sample the downlink half of a slot carries in the frame that begins (R77). -/
def RiserUnit.downlink (u : RiserUnit) (k : Slot) : Sample :=
  if u.frames ∧ u.reversal.sub = .normal ∧ (vget u.live k).carries then vget u.mixed k else 0

end Sys2Proof.Machine
end

