-- ==== Sys2Proof/Machine/Mixer.lean ====
section
/-! DEFINITION. The Mixer: contributions, the arithmetic of one sample, auto-trim and tones (chapter 7). -/

namespace Sys2Proof.Machine

open Sys2Proof

/-! ## The arithmetic of one sample (R151, R152) -/

/-- One contribution: floor((x × g + 32) / 64). -/
def contribution (x : Sample) (g : Nat) : Int := (x.toInt * (g : Int) + 32) / 64

/-- A sum limited to the range of a sample. -/
def limited (t : Int) : Int := if 8191 < t then 8191 else if t < -8192 then -8192 else t

def saturated (t : Int) : Sample := BitVec.ofInt 14 (limited t)

/-- Whether a sum lay outside the sample range. -/
def clips (t : Int) : Bool := decide (8191 < t) || decide (t < -8192)

/-- The sum of the voice contributions at the working gain and a tone's contribution. -/
def mixSum (voices : List Sample) (working : Nat) (tone : Int) : Int :=
  (voices.map fun x => contribution x working).sum + tone

/-! ## Auto-trim (R157 to R160) -/

/-- A working gain lowered a step, not below the floor (R158). -/
def trimmed (floor w : Nat) : Nat := if floor < w then max floor (w - max 1 (w / 8)) else w

/-- What a window end makes of an output (R158, R159); the tally and the position return to 0 (R157). -/
def Output.windowEnded (clip floor configured : Nat) (o : Output) : Output :=
  if clip ≤ o.tally then { working := trimmed floor o.working, tally := 0, clean := 0, position := 0, endTaken := false }
  else if o.tally = 0 then
    if o.clean + 1 < Config.cleanWindows then { o with clean := o.clean + 1, position := 0, endTaken := false }
    else
      { working := if o.working < configured then o.working + 1 else o.working, tally := 0, clean := 0, position := 0
        endTaken := false }
  else { o with tally := 0, clean := 0, position := 0, endTaken := false }

/-- One computation counted: a saturation into the tally, the frame into the window, whose end it may be (R152, R157). -/
def Output.counted (clip floor configured : Nat) (sat : Bool) (o : Output) : Output :=
  let o' := { o with tally := o.tally + bit sat, position := o.position + 1, endTaken := false }
  if o'.position < Config.windowLength then o'
  else { o'.windowEnded clip floor configured with endTaken := true }

/-- A working gain below the smaller of the floor and its configured gain is raised to it (R160). -/
def Output.raised (floor configured : Nat) (o : Output) : Output := { o with working := max o.working (min floor configured) }

/-! ## Tones (R162, R163, R167) -/

/-- On frames and cycle frames of the repeating tones (Table 7.4). -/
def Tone.onFrames : Tone → Nat
  | .ringback => 8000 | .busy => 4000 | .unknown => 2000 | .notice => 1600

def Tone.cycle : Tone → Nat
  | .ringback => 32000 | .busy => 8000 | .unknown => 4000 | .notice => 1600

/-- The contribution of a tone's sample at a position, silent in SERVICE (R151, R167). -/
def State.toneSample (s : State) (t : Tone) (position : Nat) : Int :=
  match s.mixer with
  | .service => 0
  | .normal => contribution (vget (vget s.tones.waves t.number) (Fin.ofNat 40 position)) (vget s.tones.levels t.number)

/-- The contribution a cursor's phase gives: nothing in the off part of its cadence (R163). -/
def State.cursorTone (s : State) (c : Option Cursor) (tone : Tone) : Int :=
  match c with
  | some c => if c.tone = tone ∧ c.phase % tone.cycle < tone.onFrames then s.toneSample tone (c.phase % 40) else 0
  | none => 0

/-- A cursor's phase after a computation. -/
def Cursor.advanced (c : Cursor) : Cursor := { c with phase := c.phase + 1 }

/-! ## Inputs (R146) -/

/-- The uplink of the answered handset of a call: that of its slot on the answered riser, while live carries the call. -/
def State.handsetUplink (s : State) (i : Rec) (c : Call) : Sample :=
  match c.answeredLeg with
  | none => 0
  | some l =>
    let u := s.riser l.handset.riser
    match allSlots.find? fun k => vget u.live k = .carrying i with
    | some k => vget u.uplink k
    | none => 0

/-- The origin uplink of a call. -/
def State.originUplink (s : State) (c : Call) : Sample :=
  match c.origin with
  | .panel p => (s.panel p).fifo.uplink
  | _ => s.clu.fifo.uplink

/-- The console uplink where the operator has joined a call. -/
def State.bargeUplink (s : State) (c : Call) : List Sample := if c.monitor = .barge then [s.clu.fifo.uplink] else []

/-! ## Contributions by situation (Table 7.1) -/

/-- Whether the NOTICE plays into the slot output of a call (R166). -/
def State.noticeFor (s : State) (i : Rec) (c : Call) : Option Notice :=
  match s.notice with
  | some n => if n.record = i ∧ n.serial = c.serial ∧ c.state = .connected then some n else none
  | none => none

/-- The voice contributions of a slot output (R147, R148). -/
def State.slotVoices (s : State) (e : SlotEntry) : List Sample :=
  match e with
  | .carrying i =>
    match s.call i with
    | some c =>
      match c.state with
      | .connected => s.originUplink c :: s.bargeUplink c
      | .held => [s.originUplink c]
      | _ => []
    | none => []
  | .page => if s.page.isSome then [s.clu.fifo.uplink] else []
  | _ => []

/-- The NOTICE that a slot output plays. -/
def State.slotNotice (s : State) (e : SlotEntry) : Option Notice :=
  match e with
  | .carrying i => (s.call i).bind fun c => s.noticeFor i c
  | _ => none

/-- The NOTICE record after a computation that played it: none when its count reaches 1600 (R166). -/
def Notice.advanced (n : Notice) : Option Notice :=
  if n.count + 1 < Config.noticeFrames then some { n with count := n.count + 1 } else none

/-- One slot output is computed (R145, R147, R148); a slot without one carries 0. -/
def State.mixSlot (r : Riser) (s : State) (k : Slot) : State :=
  let u := s.riser r
  match vget u.outputs k with
  | none => s.setRiser r { u with mixed := vset u.mixed k 0 }
  | some o =>
    let e := vget u.live k
    let tone := match s.slotNotice e with
      | some n => s.toneSample .notice (n.count % 40)
      | none => 0
    let t := mixSum (s.slotVoices e) o.out.working tone
    let o' := { o with out := o.out.counted s.settings.clip s.settings.floor (s.holderGain o.holder) (clips t) }
    let s' := s.setRiser r { u with mixed := vset u.mixed k (saturated t), outputs := vset u.outputs k (some o') }
    match s.slotNotice e with
    | some n => s'.setNotice n.advanced
    | none => s'

/-- The voice contributions of a panel output (R149). -/
def State.panelVoices (s : State) (u : PanelUnit) : List Sample :=
  match u.current with
  | none => []
  | some i =>
    match s.call i with
    | some c => if c.state = .connected then s.handsetUplink i c :: s.bargeUplink c else []
    | none => []

/-- The tone contribution of a panel output: RINGBACK of a RINGING call, or the end tone's waveform (R149). -/
def State.panelTone (s : State) (u : PanelUnit) : Int :=
  match u.current with
  | some i =>
    match s.call i with
    | some c => if c.state = .ringing then s.cursorTone u.cursor .ringback else 0
    | none => 0
  | none =>
    match u.endTone with
    | some e => s.cursorTone u.cursor e.wave.tone
    | none => 0

/-- The panel output is computed: its sample, and the panel unit after the computation. -/
def State.mixPanel (s : State) (p : Panel) : Sample × PanelUnit :=
  let u := s.panel p
  match u.output with
  | none => (0, u)
  | some o =>
    let t := mixSum (s.panelVoices u) o.working (s.panelTone u)
    (saturated t, { u with
      output := some (o.counted s.settings.clip s.settings.floor (s.panelProfile p).gain (clips t))
      cursor := u.cursor.map (·.advanced) })

/-- The voice contributions of the console output (R150). -/
def State.consoleVoices (s : State) : List Sample :=
  match s.console with
  | .talk i =>
    match s.call i with
    | some c => if c.state = .connected then [s.handsetUplink i c] else []
    | none => []
  | .listen i =>
    match s.call i with
    | some c => [s.originUplink c, s.handsetUplink i c]
    | none => []
  | .barge i =>
    match s.call i with
    | some c => [s.originUplink c, s.handsetUplink i c]
    | none => []
  | _ => []

/-- The tone contribution of the console output: RINGBACK while the operator's DESK call rings (R150). -/
def State.consoleTone (s : State) : Int :=
  match s.console with
  | .talk i =>
    match s.call i with
    | some c => if c.state = .ringing then s.cursorTone s.clu.cursor .ringback else 0
    | none => 0
  | _ => 0

/-- The console output is computed: its sample, and the console unit after the computation. -/
def State.mixConsole (s : State) : Sample × ConsoleUnit :=
  match s.clu.output with
  | none => (0, s.clu)
  | some o =>
    let t := mixSum s.consoleVoices o.working s.consoleTone
    (saturated t, { s.clu with
      output := some (o.counted s.settings.clip s.settings.floor s.settings.console.gain (clips t))
      cursor := s.clu.cursor.map (·.advanced) })

/-! ## Changes of gain and floor (R156, R160) -/

/-- Every page slot output that exists is reset to a new page gain (R156). -/
def RiserUnit.pageGained (gain : Nat) (u : RiserUnit) : RiserUnit :=
  { u with outputs := vmap (Option.map fun o => if o.holder = .page then { o with out := .fresh gain } else o) u.outputs }

/-- Every existing output is raised to the bound of a new floor (R160). -/
def State.raisedAll (s : State) (floor : Nat) : State :=
  { s with
    risers := vmap (fun u => { u with
      outputs := vmap (Option.map fun o => { o with out := o.out.raised floor (s.holderGain o.holder) }) u.outputs }) s.risers
    panels := vtab fun p => let u := s.panel p; { u with output := u.output.map (·.raised floor (s.panelProfile p).gain) }
    clu := { s.clu with output := s.clu.output.map (·.raised floor s.settings.console.gain) } }

/-! ## TONE-WRITE (R168) -/

/-- A 16-bit sample written as the nearer end of the sample range. -/
def toneLimited (w : Word) : Sample := saturated w.toInt

/-- Samples written at consecutive positions of a waveform, wrapping from 39 to 0. -/
def toneRun : Nat → List Word → Vector Sample 40 → Vector Sample 40
  | _, [], v => v
  | at_, w :: rest, v => toneRun (at_ + 1) rest (vset v (Fin.ofNat 40 at_) (toneLimited w))

end Sys2Proof.Machine
end

