-- ==== Sys2Proof/Machine/Links.lean ====
section
/-! DEFINITION. The panel and console links: the receive FIFO, the runs of good and bad frames, entry to UP and the loss of a
link (chapter 5, section 8.1, section 6.6). -/

namespace Sys2Proof.Machine

open Sys2Proof

/-! ## The receive FIFO (R106, R107, R173) -/

/-- The arrival of a good frame's sample. -/
def Fifo.arrived (x : Sample) (f : Fifo) : Fifo :=
  if f.samples.length < Config.fifoPlaces then
    { f with samples := f.samples ++ [x], running := f.running || f.samples.length + 1 == Config.fifoPrimed }
  else f

/-- One take. -/
def Fifo.taken (f : Fifo) : Fifo :=
  if f.running then
    match f.samples with
    | x :: rest => { f with samples := rest, uplink := x, empties := 0 }
    | [] => if f.empties = 0 then { f with empties := 1 } else { f with uplink := 0, empties := 2 }
  else { f with uplink := 0 }

/-- Whether a take finds the FIFO empty in phase RUNNING (R107, R108). -/
def Fifo.underruns (f : Fifo) : Bool := f.running && f.samples.isEmpty

/-- The FIFO emptied when a link leaves UP; its phase stays until the next entry to UP (R105, R106). -/
def Fifo.emptied (f : Fifo) : Fifo := { f with samples := [], uplink := 0 }

/-! ## Panel links -/

/-- A frame of HUNT is sent: sample 0 and the empty mark (R101; its parameter 0: log entry 30). -/
def PanelUnit.sendsSilence (u : PanelUnit) : PanelUnit := { u with frame := some (makePanelFrame 0 0x00 0) }

/-- A DOWN panel enters HUNT (R103), and the first transmit frame begins with the entry (R101). -/
def PanelUnit.hunting (u : PanelUnit) : PanelUnit :=
  ({ u with link := { u.link with state := .hunt, good := 0 } }).sendsSilence

/-- Entry to UP (R104, R156). -/
def PanelUnit.up (gain : Nat) (u : PanelUnit) : PanelUnit :=
  { u with
    link := { state := .up, good := u.link.good, bad := 0 }, fifo := .primed, sendQueue := []
    output := some (.fresh gain) }

/-- The link leaves UP for HUNT (R105), or leaves UP or HUNT for DOWN when its panel is removed (R103, R189); in HUNT there is no
call, output, tone or queue left to end. -/
def State.panelLost (s : State) (p : Panel) (target : LinkState) (event : LinkEvent) : State :=
  let s1 := s.modPanel p fun u => ({ u with link := { u.link with state := target }, output := none }).endToneStopped
  let ended := (s.panel p).current.bind fun i => (s.call i).map fun c => (i, c.serial)
  let s2 := match (s.panel p).current with
    | some i => s1.endCall i .linkLost
    | none => s1
  (s2.modPanel p fun u => { u with
    link := { u.link with good := 0, bad := 0 }, sendQueue := [], fifo := u.fifo.emptied }).post (.link event (some p) ended)

/-- A bad frame on a panel link (R102, R104, R105). -/
def State.panelBad (s : State) (p : Panel) : State :=
  match (s.panel p).link.state with
  | .down => s
  | .hunt => s.modPanel p fun u => { u with link := { u.link with good := 0 } }
  | .up =>
    if (s.panel p).link.bad + 1 < Config.badToHunt then
      s.modPanel p fun u => { u with link := { u.link with bad := u.link.bad + 1 } }
    else s.event fun s => s.panelLost p .hunt .lost

/-- The message a good frame's control field carries (R109, R212). -/
def State.panelControl (s : State) (p : Panel) (code : Byte) (param : Word) : State :=
  if code = 0x01 then s.event fun s => s.panelCall p param.toNat
  else if code = 0x02 then s.event fun s => s.panelCancel p
  else s

/-- A good frame on a panel link (R102, R104, R106, R109). -/
def State.panelGood (s : State) (p : Panel) (f : PanelFrame) : State :=
  match (s.panel p).link.state with
  | .down => s
  | .hunt =>
    if (s.panel p).link.good + 1 < Config.goodToUp then
      s.modPanel p fun u => { u with link := { u.link with good := u.link.good + 1 } }
    else (s.modPanel p (·.up (s.panelProfile p).gain)).post (.link .up (some p) none)
  | .up =>
    (s.modPanel p fun u => { u with
      link := { u.link with bad := 0 }, fifo := u.fifo.arrived (sampleFrom f.sample) }).panelControl p f.code f.param

/-! ## The console link -/

/-- Entry of the console link to UP (R171, R156): the report queue and gap pending keep what they hold. -/
def ConsoleUnit.up (gain : Nat) (c : ConsoleUnit) : ConsoleUnit :=
  { c with
    link := { state := .up, good := c.link.good, bad := 0 }, fifo := .primed, receiver := .waiting, buffer := []
    output := some (.fresh gain) }

/-- The pending STARTUP report is posted at the first entry to UP after a start-up (R204). -/
def State.postStartup (s : State) : State :=
  match s.startup with
  | some (cause, torn) => { s.post (.startup cause torn) with startup := none }
  | none => s

def State.consoleUp (s : State) : State :=
  ((s.modClu (·.up s.settings.console.gain)).post (.link .up none none)).postStartup

/-- The CLU's own part of the loss, steps 1 to 4 of R172; the console output is discarded (R153). -/
def ConsoleUnit.lost (c : ConsoleUnit) : ConsoleUnit :=
  { c with
    link := { state := .hunt, good := 0, bad := 0 }, receiver := .waiting, buffer := [], replies := [], outgoing := none
    gap := c.gap || !c.reports.isEmpty || (match c.outgoing with | some m => m.isReport | none => false)
    reports := [], fifo := c.fifo.emptied, output := none }

/-- A record's monitor returns to NONE (R132, R143). -/
def State.unmonitor (s : State) (i : Rec) : State := s.modCall i fun c => { c with monitor := .none }

/-- The DESK calls and a CONCIERGE call in TALK end LINK-LOST at the console link's loss (R143). -/
def State.endsWithConsole (s : State) (i : Rec) : Bool :=
  match s.call i with
  | none => false
  | some c => c.kind == .desk || (c.kind == .concierge && s.console == .talk i)

/-- The console's activities end (R143). -/
def State.consoleGone (s : State) : State :=
  let s1 := (allRecs.filter s.endsWithConsole).foldl (fun s i => s.endCall i .linkLost) s
  let s2 := match s1.console with
    | .listen i => s1.unmonitor i
    | .barge i => s1.unmonitor i
    | _ => s1
  (s2.endPage .linkLost).setConsole .idle

/-- The console link leaves UP (R172). -/
def State.consoleLost (s : State) : State := ((s.modClu (·.lost)).consoleGone).post (.link .lost none none)

/-- A bad frame on the console link (R171). -/
def State.consoleBad (s : State) : State :=
  match s.clu.link.state with
  | .down => s
  | .hunt => s.modClu fun c => { c with link := { c.link with good := 0 } }
  | .up =>
    if s.clu.link.bad + 1 < Config.badToHunt then
      s.modClu fun c => { c with link := { c.link with bad := c.link.bad + 1 } }
    else s.event State.consoleLost

end Sys2Proof.Machine
end

