-- ==== Sys2Proof/Machine/Operands.lean ====
section
/-! DEFINITION. The requests of the console link, and how they stand in a message's bytes (R177, R209, R210). -/

namespace Sys2Proof.Machine

open Sys2Proof

/-- A request with the fields of its body as R210 lays them out. -/
inductive Request where
  | read (table riser : Byte) (start : Word) (count : Byte)
  | status (part : Byte)
  | writeEntries (head : WriteHead) (items : List WriteItem)
  | clearCounters (page : Byte)
  | protect (mask : BitVec 32)
  | panelSet (panel installed gain ring : Byte) (talk : Word) (strike : Byte)
  | consoleSet (gain pageGain ring : Byte) (talk queue : Word) (page wait : Byte)
  | riserSet (riser enable quiet reversal mute : Byte)
  | mixSet (clip floor : Byte)
  | serviceEnter
  | serviceLeave
  | toneWrite (wave start level : Byte) (samples : List Word)
  | store (unit : Byte)
  | answerNext
  | callFlat (code : Word)
  | hangUp
  | listen (record : Byte) (serial : Word)
  | barge (record : Byte) (serial : Word)
  | leave
  | clearCall (record : Byte) (serial : Word)
  | pageStart (group : Byte)
  | pageEnd
  deriving DecidableEq, Repr

/-! ## Writing a request (Tables 10.2 and 10.3) -/

/-- The kind code of a request. -/
def Request.kind : Request → Byte
  | .read _ _ _ _ => 0x01
  | .status _ => 0x02
  | .writeEntries _ _ => 0x03
  | .clearCounters _ => 0x04
  | .protect _ => 0x05
  | .panelSet _ _ _ _ _ _ => 0x06
  | .consoleSet _ _ _ _ _ _ _ => 0x07
  | .riserSet _ _ _ _ _ => 0x08
  | .mixSet _ _ => 0x09
  | .serviceEnter => 0x0A
  | .serviceLeave => 0x0B
  | .toneWrite _ _ _ _ => 0x0C
  | .store _ => 0x0D
  | .answerNext => 0x10
  | .hangUp => 0x11
  | .callFlat _ => 0x12
  | .listen _ _ => 0x13
  | .barge _ _ => 0x14
  | .leave => 0x15
  | .clearCall _ _ => 0x16
  | .pageStart _ => 0x17
  | .pageEnd => 0x18

/-- The three bytes of a WRITE-ENTRIES item: state, dial code, riser, address from the top bit down. -/
def itemBytes (w : WriteItem) : List Byte :=
  let v : BitVec 24 := BitVec.ofBool w.valid ++ w.code ++ w.riser ++ w.addr
  [v.extractLsb' 16 8, v.extractLsb' 8 8, v.extractLsb' 0 8]

/-- The four header bytes of a WRITE-ENTRIES body. -/
def headBytes (h : WriteHead) (n : BitVec 5) : List Byte :=
  let b1 : Byte := h.page ++ BitVec.ofBool h.release ++ BitVec.ofBool h.monitor ++ BitVec.ofBool h.dnd
  let w : Word := h.start ++ h.group ++ n ++ (0 : BitVec 1)
  [h.gain, b1] ++ wordBytes w

/-- The body of a request. -/
def Request.body : Request → List Byte
  | .read table riser start count => [table, riser] ++ wordBytes start ++ [count]
  | .status part => [part]
  | .writeEntries head items => headBytes head (BitVec.ofNat 5 items.length) ++ items.flatMap itemBytes
  | .clearCounters page => [page]
  | .protect mask => longBytes mask
  | .panelSet panel installed gain ring talk strike => [panel, installed, gain, ring] ++ wordBytes talk ++ [strike]
  | .consoleSet gain pageGain ring talk queue page wait =>
    [gain, pageGain, ring] ++ wordBytes talk ++ wordBytes queue ++ [page, wait]
  | .riserSet riser enable quiet reversal mute => [riser, enable, quiet, reversal, mute]
  | .mixSet clip floor => [clip, floor]
  | .serviceEnter => []
  | .serviceLeave => []
  | .toneWrite wave start level samples => [wave, start, level, byteOf samples.length] ++ samples.flatMap wordBytes
  | .store unit => [unit]
  | .answerNext => []
  | .callFlat code => wordBytes code
  | .hangUp => []
  | .listen record serial => record :: wordBytes serial
  | .barge record serial => record :: wordBytes serial
  | .leave => []
  | .clearCall record serial => record :: wordBytes serial
  | .pageStart group => [group]
  | .pageEnd => []

/-- The whole message of a request. -/
def Request.message (tag : Byte) (q : Request) : List Byte := makeMessage q.kind tag q.body

/-- A request a message can carry: at most 20 items, at most 30 samples (R210). -/
def Request.fits : Request → Bool
  | .writeEntries _ items => items.length ≤ 20
  | .toneWrite _ _ _ samples => samples.length ≤ 30
  | _ => true

/-! ## Reading a request (R177) -/

/-- What the tests of kind and body length make of a message. -/
inductive Parsed where
  | unknownKind
  | badLength
  | request (q : Request)
  deriving DecidableEq, Repr

/-- A WRITE-ENTRIES item from its three bytes. -/
def itemFrom (a b c : Byte) : WriteItem :=
  let v : BitVec 24 := a ++ b ++ c
  { valid := v.getLsbD 23, code := v.extractLsb' 9 14, riser := v.extractLsb' 5 4, addr := v.extractLsb' 0 5 }

/-- The items of a WRITE-ENTRIES body, three bytes each. -/
def itemsFrom : List Byte → List WriteItem
  | a :: b :: c :: rest => itemFrom a b c :: itemsFrom rest
  | _ => []

/-- The samples of a TONE-WRITE body, two bytes each. -/
def wordsFrom : List Byte → List Word
  | a :: b :: rest => wordFrom a b :: wordsFrom rest
  | _ => []

/-- The WRITE-ENTRIES a body carries, its length following from the items it declares. -/
def parseWrite (gain b1 b2 b3 : Byte) (rest : List Byte) : Parsed :=
  let w := wordFrom b2 b3
  let n := (w.extractLsb' 1 5).toNat
  if n ≤ 20 ∧ rest.length = 3 * n then
    .request (.writeEntries
      { gain := gain, page := b1.extractLsb' 3 5, release := b1.getLsbD 2, monitor := b1.getLsbD 1, dnd := b1.getLsbD 0
        start := w.extractLsb' 11 5, group := w.extractLsb' 6 5 }
      (itemsFrom rest))
  else .badLength

/-- The TONE-WRITE a body carries, its length following from the samples it declares. -/
def parseTone (wave start level n : Byte) (rest : List Byte) : Parsed :=
  if n.toNat ≤ 30 ∧ rest.length = 2 * n.toNat then .request (.toneWrite wave start level (wordsFrom rest)) else .badLength

/-- The tests of kind and body length (R177 steps 3 and 4), and the request of a message that passes them. -/
def parseRequest (kind : Byte) (body : List Byte) : Parsed :=
  match kind.toNat with
  | 0x01 => match body with
    | [t, r, a, b, c] => .request (.read t r (wordFrom a b) c)
    | _ => .badLength
  | 0x02 => match body with
    | [p] => .request (.status p)
    | _ => .badLength
  | 0x03 => match body with
    | a :: b :: c :: d :: rest => parseWrite a b c d rest
    | _ => .badLength
  | 0x04 => match body with
    | [p] => .request (.clearCounters p)
    | _ => .badLength
  | 0x05 => match body with
    | [a, b, c, d] => .request (.protect (a ++ b ++ c ++ d))
    | _ => .badLength
  | 0x06 => match body with
    | [p, i, g, r, a, b, s] => .request (.panelSet p i g r (wordFrom a b) s)
    | _ => .badLength
  | 0x07 => match body with
    | [g, p, r, a, b, c, d, t, w] => .request (.consoleSet g p r (wordFrom a b) (wordFrom c d) t w)
    | _ => .badLength
  | 0x08 => match body with
    | [r, e, q, v, m] => .request (.riserSet r e q v m)
    | _ => .badLength
  | 0x09 => match body with
    | [c, f] => .request (.mixSet c f)
    | _ => .badLength
  | 0x0A => match body with
    | [] => .request .serviceEnter
    | _ => .badLength
  | 0x0B => match body with
    | [] => .request .serviceLeave
    | _ => .badLength
  | 0x0C => match body with
    | w :: s :: l :: n :: rest => parseTone w s l n rest
    | _ => .badLength
  | 0x0D => match body with
    | [u] => .request (.store u)
    | _ => .badLength
  | 0x10 => match body with
    | [] => .request .answerNext
    | _ => .badLength
  | 0x11 => match body with
    | [] => .request .hangUp
    | _ => .badLength
  | 0x12 => match body with
    | [a, b] => .request (.callFlat (wordFrom a b))
    | _ => .badLength
  | 0x13 => match body with
    | [r, a, b] => .request (.listen r (wordFrom a b))
    | _ => .badLength
  | 0x14 => match body with
    | [r, a, b] => .request (.barge r (wordFrom a b))
    | _ => .badLength
  | 0x15 => match body with
    | [] => .request .leave
    | _ => .badLength
  | 0x16 => match body with
    | [r, a, b] => .request (.clearCall r (wordFrom a b))
    | _ => .badLength
  | 0x17 => match body with
    | [g] => .request (.pageStart g)
    | _ => .badLength
  | 0x18 => match body with
    | [] => .request .pageEnd
    | _ => .badLength
  | _ => .unknownKind

/-- The parts of a complete message: kind, tag, body and check; none for bytes that are no complete message (R175). -/
structure MessageParts where
  kind  : Byte
  tag   : Byte
  body  : List Byte
  check : Word
  /-- The bytes the check covers (R176). -/
  head  : List Byte
  deriving DecidableEq, Repr

def messageParts (bytes : List Byte) : Option MessageParts :=
  match bytes with
  | kind :: tag :: n :: rest =>
    if n.toNat ≤ Config.maxBody ∧ rest.length = n.toNat + 2 then
      match rest.drop n.toNat with
      | [a, b] =>
        some { kind := kind, tag := tag, body := rest.take n.toNat, check := wordFrom a b
               head := kind :: tag :: n :: rest.take n.toNat }
      | _ => none
    else none
  | _ => none

end Sys2Proof.Machine
end

