-- ==== Sys2Proof/Machine/Flags.lean ====
section
/-! DEFINITION. The flag bytes, items, STATUS sections and report bodies in which the part's state is told (R42, R56, R84, R161,
R169, R183, R187, R193, R211 and Tables 10.5 to 10.7). -/

namespace Sys2Proof.Machine

open Sys2Proof

/-! ## Fields that may be absent (R208) -/

def recordByte (i : Option Rec) : Byte :=
  match i with
  | some i => byteOf i.val
  | none => 0xFF

def serialWord (w : Option Word) : List Byte := wordBytes (w.getD 0xFFFF)

/-- A record index with its serial, or absent. -/
def recordBytes (x : Option (Rec × Word)) : List Byte := recordByte (x.map Prod.fst) :: serialWord (x.map Prod.snd)

/-- Slot numbers, two bits per riser, S0 in bits 15–14; a riser without a slot gives 0. -/
def slotBits (slots : List (Riser × Slot)) : List Byte :=
  wordOf ((slots.map fun x => x.2.val * 4 ^ (7 - x.1.val)).sum)

/-! ## READ items (R211) -/

def State.directoryItem (s : State) (e : EntryIx) : List Byte :=
  match s.entry e with
  | none => [0, 0, 0, 0, 0, 0]
  | some d => byteOf (128 + bit d.release * 64 + bit d.monitor * 32 + bit d.dnd * 16 + d.group) :: wordOf d.code
      ++ [byteOf d.handset.riser.val, byteOf d.handset.addr.val, byteOf d.gain]

def State.counterItem (s : State) (e : EntryIx) : List Byte :=
  match s.entry e with
  | none => [0, 0]
  | some d => wordOf d.counter.toNat

/-- One leg of a CALLS item. -/
def legBytes (l : Leg) : List Byte :=
  wordBytes (match l.entry with | some e => BitVec.ofNat 16 e.val | none => 0xFFFF)
    ++ [byteOf l.handset.riser.val, byteOf l.handset.addr.val, byteOf (bit l.release * 2 + bit l.monitor), byteOf l.state.code]

/-- The four legs of a CALLS item; unused ones are all 0xFF. -/
def legsBytes (legs : List Leg) : List Byte :=
  ((legs.take 4).flatMap legBytes) ++ List.replicate (6 * (4 - legs.length)) 0xFF

/-- The timer whose remaining time a CALLS item gives in each state. -/
def Call.stateTimer (c : Call) : Timer :=
  match c.state with
  | .queued => c.waitTimer
  | .waitingDesk => c.waitTimer
  | .ringing => c.ringTimer
  | .connected => c.talkTimer
  | .held => c.talkTimer
  | .clearing => .stopped

/-- Bytes 40 to 42 of a CALLS item: the riser mask and the slot numbers of the slots field, which is present while the record
holds reservations or a carrying slot and absent otherwise (Table 1.1, R2, R208). DEDUCED (log entry 14): the field that R28 and
R138 call empty, in CLEARING and HELD, is absent too. -/
def slotsBytes (slots : List (Riser × Slot)) : List Byte :=
  if slots.isEmpty then [0xFF, 0xFF, 0xFF] else riserMask (slots.map Prod.fst) :: slotBits slots

/-- A CALLS item (Table 10.5); `draw` is the number of the free value drawn for an absent listen gain (log entry 13). A FREE
record's fields are absent, 0xFF. -/
def State.callItem (s : State) (draw : Nat) (i : Rec) : List Byte :=
  match s.call i with
  | none => byteOf i.val :: 0 :: List.replicate 44 0xFF
  | some c =>
    [byteOf i.val, byteOf c.state.code] ++ wordBytes c.serial
      ++ [byteOf (c.kind.code * 16 + c.origin.typeCode), c.origin.value]
      ++ wordBytes (match c.code with | some n => BitVec.ofNat 16 n | none => 0xFFFF)
      ++ [byteOf c.legs.length] ++ legsBytes c.legs
      ++ [match c.answered with | some n => byteOf n | none => 0xFF,
          match c.listenGain with | some g => byteOf g | none => Config.absentGainByte draw,
          byteOf (bit c.held * 128 + bit c.listenGain.isSome * 64 + bit c.sequence.isSome * 32
            + bit c.strikeTimer.isRunning * 16 + bit c.talkTimer.isFrozen * 8 + c.monitor.code)]
      ++ wordBytes (match c.sequence with | some n => BitVec.ofNat 16 n | none => 0xFFFF)
      ++ [byteOf c.strikes, match c.endCause with | some e => byteOf e.code | none => 0xFF]
      ++ slotsBytes (s.slotsOf i) ++ wordOf c.stateTimer.seconds ++ [byteOf c.strikeTimer.seconds]

/-- A presence record with its queued order (R84). -/
def State.presenceItem (s : State) (r : Riser) (a : Addr) : List Byte :=
  let p := vget (s.riser r).presence a
  [byteOf (bit p.present * 128 + bit p.offHook * 64 + p.misses),
   match (s.riser r).queue.find? fun e => e.addr == a with
   | none => 0xF0
   | some e => match e.order with
     | some o => byteOf (o.code * 16 + bit e.refusal * 8)
     | none => byteOf (8 * 16 + 8)]

/-- One queue position: 0–7 of the Wait Queue, 8–15 of the Console Queue (R187). -/
def State.queueItem (s : State) (ix : Nat) : List Byte :=
  let empty : List Byte := List.replicate 6 0xFF
  if ix < 8 then
    match s.waitQueue[ix]? with
    | none => empty
    | some i =>
      match s.call i with
      | none => empty
      | some c => byteOf i.val :: wordBytes c.serial ++ [riserMask c.riserSet] ++ wordOf c.waitTimer.seconds
  else
    match s.consoleQueue[ix - 8]? with
    | none => empty
    | some i =>
      match s.call i with
      | none => empty
      | some c => byteOf i.val :: wordBytes c.serial ++ [c.origin.value] ++ wordOf c.waitTimer.seconds

/-- The fields of each profile in request layout (R187, R211). -/
def panelFields (p : PanelProfile) : List Byte :=
  [byteOf (bit p.installed), byteOf p.gain, byteOf p.ring] ++ wordOf p.talk ++ [byteOf p.strike]

def consoleFields (c : ConsoleProfile) (wait : Nat) : List Byte :=
  [byteOf c.gain, byteOf c.pageGain, byteOf c.ring] ++ wordOf c.talk ++ wordOf c.queue ++ [byteOf c.page, byteOf wait]

def riserFields (r : RiserProfile) : List Byte := [byteOf (bit r.enable), byteOf r.quiet, byteOf r.reversal, byteOf r.mute]

def mixFields (s : Settings) : List Byte := [byteOf s.clip, byteOf s.floor]

def State.profileItem (s : State) (ix : Nat) : List Byte :=
  if h : ix < 6 then panelFields (s.panelProfile ⟨ix, h⟩)
  else if ix = 6 then consoleFields s.settings.console s.settings.wait
  else if ix < 15 then riserFields (s.riserProfile (Fin.ofNat 8 (ix - 7)))
  else mixFields s.settings

/-- A slot entry's form and record index (Table 10.1). -/
def entryPair (e : SlotEntry) : List Byte :=
  match e with
  | .idle => [0, 0xFF]
  | .reserved i => [1, byteOf i.val]
  | .carrying i => [2, byteOf i.val]
  | .page => [3, 0xFF]

/-- State, sub-state and polarity of a riser in one byte. -/
def RiserUnit.stateByte (u : RiserUnit) : Byte :=
  byteOf (u.state.code * 32 + u.reversal.sub.code * 8 + u.polarity.code)

/-- The configured and working gain of a slot output (R161). -/
def State.gainPair (s : State) (o : Option SlotOutput) : List Byte :=
  match o with
  | none => [0, 0]
  | some o => [byteOf (s.holderGain o.holder), byteOf o.out.working]

def State.riserItem (s : State) (r : Riser) : List Byte :=
  let u := s.riser r
  [u.stateByte, byteOf u.freeCount] ++ u.live.toList.flatMap entryPair ++ u.staged.toList.flatMap entryPair
    ++ u.outputs.toList.flatMap s.gainPair

/-- A sample in a console message body: a full 16-bit number. -/
def wideSample (x : Sample) : List Byte := wordBytes (x.signExtend 16)

/-- One index of the TONE table; in NORMAL every index returns 0 (R169). -/
def State.toneItem (s : State) (ix : Nat) : List Byte :=
  match s.mixer with
  | .normal => [0, 0]
  | .service =>
    if ix < 160 then wideSample (vget (vget s.tones.waves (Fin.ofNat 4 (ix / 40))) (Fin.ofNat 40 (ix % 40)))
    else wordOf (vget s.tones.levels (Fin.ofNat 4 (ix - 160)))

/-! ## STATUS sections (Table 10.7) -/

def ConsoleState.code : ConsoleState → Nat
  | .idle => 0 | .talk _ => 1 | .listen _ => 2 | .barge _ => 3 | .paging => 4

/-- The record a console state names. -/
def ConsoleState.record : ConsoleState → Option Rec
  | .talk i => some i | .listen i => some i | .barge i => some i | _ => none

/-- A record with its serial as it stands. -/
def State.named (s : State) (i : Rec) : Rec × Option Word := (i, (s.call i).map (·.serial))

/-- Page state in bit 7, group in bits 3–0; 0 in NONE. -/
def State.pageByte (s : State) : Byte :=
  match s.page with
  | some p => byteOf (128 + p.group)
  | none => 0

def gainByte (o : Option Output) : Byte :=
  match o with
  | some o => byteOf o.working
  | none => 0xFF

def State.partSection (s : State) : List Byte :=
  byteOf s.console.code :: recordByte s.console.record :: serialWord (s.console.record.bind fun i => (s.call i).map (·.serial))
    ++ [byteOf s.waitQueue.length, byteOf s.consoleQueue.length, s.pageByte, byteOf s.mixer.code, byteOf s.settings.clip,
        byteOf s.settings.floor, gainByte s.clu.output, byteOf (bit s.lockHeld)]
    ++ (longBytes (s.settings.protection.setWidth 32)).drop 1 ++ wordOf s.validCount
    ++ [match s.writing with | some w => byteOf w.unit.val | none => 0xFF, byteOf s.clu.reports.length]

def PanelUnit.statusBytes (u : PanelUnit) : List Byte :=
  [byteOf (u.link.state.code * 64 + bit u.fifo.running * 32 + bit u.underrun * 16 + bit u.endTone.isSome * 8),
   byteOf u.fifo.samples.length, recordByte u.current, gainByte u.output]

def State.panelsSection (s : State) : List Byte := s.panels.toList.flatMap PanelUnit.statusBytes

/-- How many Wait Queue records name a riser in their riser set (R54). -/
def State.waitersOn (s : State) (r : Riser) : Nat :=
  s.waitQueue.countP fun i => match s.call i with
    | some c => c.riserSet.contains r
    | none => false

def State.risersSection (s : State) : List Byte :=
  allRisers.flatMap fun r =>
    [(s.riser r).stateByte, byteOf (s.riser r).freeCount, byteOf (s.waitersOn r),
     byteOf ((s.riser r).presence.toList.countP (·.present))]

/-- The served risers with their slots and lenders, the skipped risers and the number of members (R133, R136). -/
def servedBytes (served : Vector (Option Served) 8) (skipped : List Riser) (members : Nat) : List Byte :=
  riserMask (allRisers.filter fun r => (vget served r).isSome)
    :: slotBits (allRisers.filterMap fun r => (vget served r).map fun v => (r, v.slot))
    ++ allRisers.flatMap (fun r => recordBytes ((vget served r).bind (·.lender)))
    ++ [riserMask skipped] ++ wordOf members

def PageInfo.bytes (p : PageInfo) : List Byte := byteOf p.group :: servedBytes p.served p.skipped p.members

def State.pageSection (s : State) : List Byte :=
  match s.page with
  | some p => s.pageByte :: servedBytes p.served p.skipped p.members.length
  | none => s.pageByte :: servedBytes (Vector.replicate 8 none) [] 0

/-- A section of STATUS (R193). -/
def State.section_ (s : State) (part : Nat) : List Byte :=
  match part with
  | 0 => s.partSection
  | 1 => s.panelsSection
  | 2 => s.risersSection
  | _ => s.pageSection

/-! ## READ (R185, R186) -/

/-- The number of indices of each table of READ, by its code (Tables 8.6 and 10.3). -/
def tableSize (table : Nat) : Option Nat :=
  match table with
  | 0 => some 384 | 1 => some 384 | 2 => some 16 | 3 => some 32 | 4 => some 16 | 5 => some 16 | 6 => some 8
  | 7 => some 164 | 8 => some 4
  | _ => none

/-- One item of a table, as it stands when the READ is executed. -/
def State.item (s : State) (table : Nat) (r : Riser) (ix : Nat) : List Byte :=
  match table with
  | 0 => s.directoryItem (Fin.ofNat 384 ix)
  | 1 => s.counterItem (Fin.ofNat 384 ix)
  | 2 => s.callItem s.draws (Fin.ofNat 16 ix)
  | 3 => s.presenceItem r (Fin.ofNat 32 ix)
  | 4 => s.queueItem ix
  | 5 => s.profileItem ix
  | 6 => s.riserItem (Fin.ofNat 8 ix)
  | 7 => s.toneItem ix
  | _ => s.section_ ix

/-- The items of a READ from an index on, with wrap, while they fit the room that is left: their number and their bytes. -/
def State.items (s : State) (table : Nat) (r : Riser) (size : Nat) : Nat → Nat → Nat → Nat × List Byte
  | 0, _, _ => (0, [])
  | n + 1, ix, room =>
    let item := s.item table r ix
    if item.length ≤ room then
      let rest := s.items table r size n ((ix + 1) % size) (room - item.length)
      (rest.1 + 1, item ++ rest.2)
    else (0, [])

/-- The bytes left for the items of a READ's reply (R210). -/
def readRoom : Nat := 55

/-! ## Reports (Table 10.6) -/

def CallEvent.code : CallEvent → Nat
  | .queued _ => 0 | .waiting _ => 1 | .ringing _ _ => 2 | .connected _ _ => 3 | .held _ _ => 4 | .resumed _ _ => 5
  | .strike _ _ => 6 | .ended _ _ => 7

def CallEvent.fields : CallEvent → List Byte
  | .queued code => wordOf code
  | .waiting h => [handsetByte h]
  | .ringing code legs => wordOf code ++ [byteOf legs]
  | .connected h n => handsetByte h :: wordOf n
  | .held r k => [byteOf r.val, byteOf k.val]
  | .resumed r k => [byteOf r.val, byteOf k.val]
  | .strike n d => [byteOf n, byteOf d]
  | .ended c h => [byteOf c.code, byteOf (bit h)]

def LinkEvent.code : LinkEvent → Nat
  | .up => 0 | .lost => 1 | .removed => 2

def RiserEvent.code : RiserEvent → Nat
  | .enabled => 0 | .drained => 1 | .off => 2

def StartCause.code : StartCause → Nat
  | .powerOn => 0 | .resetLine => 1

/-- A set of units as a mask, bit n for unit n. -/
def unitMask (us : List UnitIx) : BitVec 32 := us.foldl (fun m u => m ||| (1 : BitVec 32) <<< u.val) 0

/-- The kind code of a report (Table 10.2). -/
def Report.kind : Report → Byte
  | .call _ _ _ _ _ => 0x41
  | .link _ _ _ => 0x42
  | .riser _ _ => 0x43
  | .handset _ _ => 0x44
  | .pageStarted _ => 0x45
  | .pageDropped _ => 0x45
  | .pageEnded _ _ => 0x45
  | .store _ => 0x46
  | .startup _ _ => 0x47

def Report.eventCode : Report → Nat
  | .call e _ _ _ _ => e.code
  | .link e _ _ => e.code
  | .riser e _ => e.code
  | .handset present _ => bit present
  | .pageStarted _ => 0
  | .pageDropped _ => 1
  | .pageEnded _ _ => 2
  | .store _ => 0
  | .startup _ _ => 0

/-- The bytes of a report's body after byte 0 (Table 10.6). DEDUCED (log entry 29): a CALL report's kind and origin type share one
byte, kind in bits 7–4 and origin type in bits 3–0, as in byte 4 of a CALLS item (Table 10.5). -/
def Report.fields : Report → List Byte
  | .call e rec kind origin st =>
    recordBytes rec ++ [byteOf (kind.code * 16 + origin.typeCode), origin.value,
      match st with | some st => byteOf st.code | none => 0] ++ e.fields
  | .link _ p rec => (match p with | some p => byteOf p.val | none => 6) :: recordBytes rec
  | .riser _ r => [byteOf r.val]
  | .handset _ h => [handsetByte h]
  | .pageStarted info => info.bytes
  | .pageDropped r => [byteOf r.val]
  | .pageEnded g c => [byteOf g, byteOf c.code]
  | .store u => [byteOf u.val]
  | .startup c torn => byteOf c.code :: longBytes (unitMask torn)

/-- A report as it is sent: byte 0 of its body holds the gap flag and the event code, its tag is 0 (R182, R183, R211). -/
def Report.message (gap : Bool) (rep : Report) : List Byte :=
  makeMessage rep.kind 0 (byteOf (bit gap * 128 + rep.eventCode) :: rep.fields)

/-- A reply as it is sent (R178, R210). -/
def Reply.message (x : Reply) : List Byte :=
  makeMessage 0x40 x.tag ([byteOf x.result.code, byteOf x.reason.code] ++ x.data)

end Sys2Proof.Machine
end

