-- ==== Sys2Proof/Machine/Management.lean ====
section
/-! DEFINITION. The management requests as the Management Engine carries them out: READ, STATUS, the Directory's, the settings',
the Mixer's and STORE (chapters 3, 7, 8 and 9). -/

namespace Sys2Proof.Machine

open Sys2Proof

/-- What a request's execution leaves: the state, and the reply's result, reason and data (R178). -/
structure Executed where
  state  : State
  result : Result
  reason : Reason
  data   : List Byte

def finished (s : State) (data : List Byte) : Executed := { state := s, result := .done, reason := .none, data := data }

/-- DONE, or ADJUSTED when a value was replaced. -/
def settledReply (s : State) (asSent : Bool) (data : List Byte) : Executed :=
  { state := s, result := if asSent then .done else .adjusted, reason := .none, data := data }

/-- REFUSED, with the detail the owning rule names, or none. -/
def refuse (s : State) (reason : Reason) (detail : List Byte := []) : Executed :=
  { state := s, result := .refused, reason := reason, data := detail }

/-! ## READ and STATUS (R185, R186, R193) -/

/-- The arguments of a READ that passes R185: the riser (0 for every table but PRESENCE, whose riser byte alone is read) and
the table's size. -/
def readArguments (table riser : Byte) (start : Word) (count : Byte) : Option (Riser × Nat) :=
  match tableSize table.toNat with
  | none => none
  | some size =>
    if table = 3 ∧ 7 < riser.toNat then none
    else if size ≤ start.toNat then none
    else if count.toNat < 1 ∨ 16 < count.toNat then none
    else some (if table = 3 then Fin.ofNat 8 riser.toNat else 0, size)

/-- The next free value after this one is drawn (log entry 13). -/
def State.drawn (s : State) : State := { s with draws := s.draws + 1 }

def doRead (table riser : Byte) (start : Word) (count : Byte) (s : State) : Executed :=
  match readArguments table riser start count with
  | none => refuse s .range
  | some (r, size) =>
    let got := s.items table.toNat r size count.toNat start.toNat readRoom
    finished (if table = 2 then s.drawn else s)
      ([table, byteOf r.val] ++ wordBytes start ++ [byteOf got.1] ++ wordOf ((start.toNat + got.1) % size) ++ got.2)

/-- The underrun flag of every panel is cleared as a PANELS section is formed (R108). -/
def State.underrunsCleared (s : State) : State := { s with panels := vmap (fun u => { u with underrun := false }) s.panels }

def doStatus (part : Byte) (s : State) : Executed :=
  if 3 < part.toNat then refuse s .range
  else finished (if part = 1 then s.underrunsCleared else s) (part :: s.section_ part.toNat)

/-! ## The Directory's requests (R64 to R73) -/

/-- WRITE-ENTRIES: validation, the protection test, and the write as one change. A list of more than 20 items is refused
LENGTH, as R210 refuses the body that declares it. -/
def doWriteEntries (h : WriteHead) (items : List WriteItem) (s : State) : Executed :=
  if 20 < items.length then refuse s .length
  else
    match writeFault h items with
    | some detail => refuse s .range [detail]
    | none =>
      if s.guarded h.page.toNat then refuse s .locked
      else
        let p : PageIx := Fin.ofNat 24 h.page.toNat
        let q := writeRun h (writeFirst h items) (writeItems items) (s.dirPage p)
        finished (s.setDirPage p q) [byteOf p.val, byteOf (writeFirst h items), byteOf (writeItems items).length]

def doClearCounters (page : Byte) (s : State) : Executed :=
  if 23 < page.toNat then refuse s .range
  else if s.guarded page.toNat then refuse s .locked
  else
    let p : PageIx := Fin.ofNat 24 page.toNat
    finished (s.setDirPage p (zeroCounters (s.dirPage p))) [page]

def doProtect (mask : BitVec 32) (s : State) : Executed :=
  if 2 ^ 24 ≤ mask.toNat then refuse s .range
  else if s.lockHeld then refuse s .locked
  else finished (s.setSettings { s.settings with protection := mask.setWidth 24 }) (longBytes mask)

/-! ## The settings requests (R188 to R192) -/

/-- A value replaced by the nearer end of its range. -/
def clamped (low high v : Nat) : Nat := max low (min high v)

/-- A panel profile as a PANEL-SET leaves it. -/
def clampedPanel (installed gain ring : Byte) (talk : Word) (strike : Byte) : PanelProfile :=
  { installed := installed ≠ 0, gain := gain.toNat, ring := clamped 5 120 ring.toNat, talk := clamped 10 600 talk.toNat
    strike := clamped 1 15 strike.toNat }

/-- The panel after the second step of a PANEL-SET: in or out of service as installed changed, its output reset as its gain
changed. Out of HUNT or UP into DOWN a call in progress ends LINK-LOST and a LINK report REMOVED is posted (R103, R105, R115,
R189). -/
def State.panelChanged (s : State) (p : Panel) (old new : PanelProfile) : State :=
  let s1 :=
    if new.gain = old.gain then s
    else s.modPanel p fun u => { u with output := u.output.map fun _ => .fresh new.gain }
  if new.installed = old.installed then s1
  else if new.installed then
    if (s1.panel p).link.state = .down then s1.modPanel p (·.hunting) else s1
  else
    if (s1.panel p).link.state = .down then s1 else s1.panelLost p .down .removed

def doPanelSet (panel installed gain ring : Byte) (talk : Word) (strike : Byte) (s : State) : Executed :=
  if 5 < panel.toNat then refuse s .range
  else
    let p : Panel := Fin.ofNat 6 panel.toNat
    let old := s.panelProfile p
    let new := clampedPanel installed gain ring talk strike
    let s1 := s.setSettings { s.settings with panels := vset s.settings.panels p new }
    let sent := [installed, gain, ring] ++ wordBytes talk ++ [strike]
    settledReply (s1.event fun s => s.panelChanged p old new) (panelFields new = sent) (panel :: panelFields new)

/-- The console profile as a CONSOLE-SET leaves it. -/
def clampedConsole (gain pageGain ring : Byte) (talk queue : Word) (page : Byte) : ConsoleProfile :=
  { gain := gain.toNat, pageGain := pageGain.toNat, ring := clamped 5 120 ring.toNat, talk := clamped 10 600 talk.toNat
    queue := clamped 10 300 queue.toNat, page := clamped 5 120 page.toNat }

/-- The Mixer after a CONSOLE-SET: the outputs of a changed gain are reset (R144, R156, R190). -/
def State.consoleGained (s : State) (old new : ConsoleProfile) : State :=
  let s1 :=
    if new.gain = old.gain then s
    else s.modClu fun c => { c with output := c.output.map fun _ => .fresh new.gain }
  if new.pageGain = old.pageGain then s1
  else { s1 with risers := vmap (·.pageGained new.pageGain) s1.risers }

def doConsoleSet (gain pageGain ring : Byte) (talk queue : Word) (page wait : Byte) (s : State) : Executed :=
  let old := s.settings.console
  let new := clampedConsole gain pageGain ring talk queue page
  let w := clamped 5 60 wait.toNat
  let s1 := s.setSettings { s.settings with console := new, wait := w }
  let sent := [gain, pageGain, ring] ++ wordBytes talk ++ wordBytes queue ++ [page, wait]
  settledReply (s1.consoleGained old new) (consoleFields new w = sent) (consoleFields new w)

/-- A riser profile as a RISER-SET leaves it. -/
def clampedRiser (enable quiet reversal mute : Byte) : RiserProfile :=
  { enable := enable ≠ 0, quiet := quiet.toNat, reversal := reversal.toNat, mute := mute.toNat }

/-- How written periods act on a riser at once (R92, R96, R191). -/
def RiserUnit.periodsWritten (m : RiserProfile) (u : RiserUnit) : RiserUnit :=
  let u1 := if m.quiet = 0 then { u with quietTimer := .stopped } else u
  if m.reversal = 0 then { u1 with reversalTimer := .stopped }
  else if u.reversalTimer = .stopped ∧ u.state = .active ∧ u.reversal.sub = .normal ∧ u.reversal.due = false then
    { u1 with reversalTimer := .period m.reversal }
  else u1

def doRiserSet (riser enable quiet reversal mute : Byte) (s : State) : Executed :=
  if 7 < riser.toNat then refuse s .range
  else
    let r : Riser := Fin.ofNat 8 riser.toNat
    let new := clampedRiser enable quiet reversal mute
    let s1 := s.setSettings { s.settings with risers := vset s.settings.risers r new }
    let s2 := s1.event fun s =>
      let s' := s.modRiser r (·.periodsWritten new)
      if new.enable then s'.enableRiser r else s'.disableRiser r
    settledReply s2 (riserFields new = [enable, quiet, reversal, mute]) (riser :: riserFields new)

def doMixSet (clip floor : Byte) (s : State) : Executed :=
  let l := clamped 1 255 clip.toNat
  let s1 := s.setSettings { s.settings with clip := l, floor := floor.toNat }
  settledReply (s1.raisedAll floor.toNat) (decide (l = clip.toNat)) (mixFields s1.settings)

/-! ## SERVICE mode and tones (R167, R168) -/

def doServiceEnter (s : State) : Executed := finished { s with mixer := .service } [byteOf MixerMode.service.code]

def doServiceLeave (s : State) : Executed := finished { s with mixer := .normal } [byteOf MixerMode.normal.code]

/-- A waveform's level and a run of its samples replaced. -/
def Tones.written (t : Tones) (w : Fin 4) (start level : Nat) (samples : List Word) : Tones :=
  { waves := vset t.waves w (toneRun start samples (vget t.waves w)), levels := vset t.levels w level }

/-- Whether a 16-bit sample lies in the sample range. -/
def toneInRange (w : Word) : Bool := !clips w.toInt

/-- TONE-WRITE. More than 30 samples are refused LENGTH, as R210 refuses the body that declares them. -/
def doToneWrite (wave start level : Byte) (samples : List Word) (s : State) : Executed :=
  if 30 < samples.length then refuse s .length
  else if 3 < wave.toNat ∨ 39 < start.toNat then refuse s .range
  else
    match s.mixer with
    | .normal => refuse s .mode
    | .service =>
      settledReply { s with tones := s.tones.written (Fin.ofNat 4 wave.toNat) start.toNat level.toNat samples }
        (samples.all toneInRange) [wave, start, byteOf samples.length]

/-! ## STORE (R195, R197) -/

/-- The snapshot of a unit's running content (R197). -/
def State.snapshot (s : State) (u : UnitIx) : Writing :=
  if h : u.val < 24 then .page ⟨u.val, h⟩ (s.dirPage ⟨u.val, h⟩)
  else if u = 24 then .settings s.settings
  else .tones s.tones

/-- The stored unit whose writing begins loses its check (R195). -/
def Store.begun (x : Store) (w : Writing) : Store :=
  match w with
  | .page p _ => { x with pages := vset x.pages p (vget x.pages p).erased }
  | .settings _ => { x with settings := x.settings.erased }
  | .tones _ => { x with tones := x.tones.erased }

def doStore (unit : Byte) (s : State) : Executed :=
  if 25 < unit.toNat then refuse s .range
  else
    match s.writing with
    | some _ => refuse s .busy
    | none =>
      let w := s.snapshot (Fin.ofNat 26 unit.toNat)
      finished { s with writing := some w, store := s.store.begun w } [unit]

end Sys2Proof.Machine
end

