-- ==== Sys2Proof/Machine/Operator.lean ====
section
/-! DEFINITION. The operator requests as the Call Controller takes them (R10, R118, chapter 6). -/

namespace Sys2Proof.Machine

open Sys2Proof

/-- A record with its serial, as a reply carries them. -/
def namedBytes (i : Rec) (serial : Word) : List Byte := byteOf i.val :: wordBytes serial

/-- The naming of a call by record index and serial (R3). -/
def State.naming (s : State) (record : Byte) (serial : Word) : Except Reason (Rec × Call) :=
  if h : record.toNat < 16 then
    match s.call ⟨record.toNat, h⟩ with
    | some c => if c.serial = serial then .ok (⟨record.toNat, h⟩, c) else .error .stale
    | none => .error .stale
  else .error .range

/-! ## CALL-FLAT (R10) -/

def doCallFlat (code : Word) (s : State) : Executed :=
  if s.console ≠ .idle then refuse s .busy
  else if Config.maxDialCode < code.toNat then refuse s .range
  else
    match s.freeRecord with
    | none => refuse s .busy
    | some i =>
      let s1 := (s.takeRecord i .desk .console (some code.toNat) .queued).setConsole (.talk i)
      finished (s1.event fun s => s.setup i code.toNat) (namedBytes i s.serialNext)

/-! ## ANSWER-NEXT (R40, R124) -/

/-- The head record is CONNECTED to the console in a slot it carries at once. -/
def State.answerHead (s : State) (i : Rec) (c : Call) (h : Handset) (k : Slot) : State :=
  let s1 := { s.edit h.riser k (.carrying i) with consoleQueue := s.consoleQueue.filter (· ≠ i) }
  let got := (s1.order h (.assign k)).takeSequence
  let s2 := got.2.setCall i (some { c with
    state := .connected, waitTimer := .stopped, sequence := some got.1, listenGain := some 64
    talkTimer := .start s.settings.console.talk })
  (s2.setConsole (.talk i)).postCall i (.connected h got.1)

/-- The handset of a CONCIERGE call. -/
def Call.caller (c : Call) : Option Handset :=
  match c.origin with
  | .handset h => some h
  | _ => none

def doAnswerNext (s : State) : Executed :=
  if s.console ≠ .idle then refuse s .busy
  else
    match s.consoleQueue with
    | [] => refuse s .state
    | i :: _ =>
      match s.call i with
      | none => refuse s .state
      | some c =>
        match c.caller with
        | none => refuse s .state
        | some h =>
          match (s.riser h.riser).lowestFree with
          | none => refuse s .noSlot [byteOf i.val, byteOf h.riser.val]
          | some k => finished (s.answerHead i c h k) (namedBytes i c.serial ++ [handsetByte h, byteOf k.val])

/-! ## HANG-UP (R127) -/

/-- The cause a HANG-UP ends a call with. -/
def hangUpCause (c : Call) : EndCause :=
  match c.state with
  | .queued => .cancelled
  | .ringing => .cancelled
  | _ => .deskGone

def doHangUp (s : State) : Executed :=
  match s.console with
  | .talk i =>
    match s.call i with
    | none => refuse s .state
    | some c =>
      finished (s.event fun s => s.endCall i (hangUpCause c)) (namedBytes i c.serial ++ [byteOf (hangUpCause c).code])
  | _ => refuse s .state

/-! ## LISTEN, BARGE and LEAVE (R129, R130, R132) -/

/-- The tests of LISTEN and BARGE, in order. -/
def State.mayMonitor (s : State) (record : Byte) (serial : Word) : Except Reason (Rec × Call) :=
  if s.console ≠ .idle then .error .busy
  else
    match s.naming record serial with
    | .error e => .error e
    | .ok (i, c) =>
      if c.state = .connected ∧ c.kind = .entry then
        match c.answeredLeg with
        | some l => if l.monitor then .ok (i, c) else .error .denied
        | none => .error .denied
      else .error .state

/-- A LISTEN or BARGE that is taken: the console state, the record's monitor, and the NOTICE from its start. -/
def State.monitored (s : State) (i : Rec) (c : Call) (console : ConsoleState) (m : Monitor) : State :=
  ((s.setConsole console).setCall i (some { c with monitor := m })).setNotice
    (some { record := i, serial := c.serial, count := 0 })

def doListen (record : Byte) (serial : Word) (s : State) : Executed :=
  match s.mayMonitor record serial with
  | .error e => refuse s e
  | .ok (i, c) => finished (s.monitored i c (.listen i) .listen) (namedBytes i c.serial)

def doBarge (record : Byte) (serial : Word) (s : State) : Executed :=
  match s.mayMonitor record serial with
  | .error e => refuse s e
  | .ok (i, c) => finished (s.monitored i c (.barge i) .barge) (namedBytes i c.serial)

/-- The end of LISTEN or BARGE on a record. -/
def leaveRecord (i : Rec) (s : State) : Executed :=
  match s.call i with
  | some c => finished ((s.unmonitor i).setConsole .idle) (namedBytes i c.serial)
  | none => refuse s .state

def doLeave (s : State) : Executed :=
  match s.console with
  | .listen i => leaveRecord i s
  | .barge i => leaveRecord i s
  | _ => refuse s .state

/-! ## CLEAR-CALL (R128) -/

def doClearCall (record : Byte) (serial : Word) (s : State) : Executed :=
  match s.naming record serial with
  | .error e => refuse s e
  | .ok (i, c) =>
    if c.state = .clearing then refuse s .state
    else finished (s.event fun s => s.endCall i .cleared) (namedBytes i c.serial)

/-! ## PAGE-START and PAGE-END (R134 to R136, R142) -/

/-- The page record before its risers are decided. -/
def PageRecord.blank (group : Nat) (timer : Timer) : PageRecord :=
  { group := group, served := Vector.replicate 8 none, skipped := [], members := [], timer := timer }

/-- The risers decided in ascending order, the page record filled, and its members the candidates on served risers. -/
def State.pagePlanned (s : State) (group : Nat) (candidates : List Handset) : State × PageRecord :=
  let risers := allRisers.filter fun r => candidates.any fun h => h.riser = r
  let x := risers.foldl State.planOne (s, .blank group (.start s.settings.console.page))
  (x.1, { x.2 with members := candidates.filter fun h => x.2.serves h.riser })

def doPageStart (group : Byte) (s : State) : Executed :=
  if s.console ≠ .idle then refuse s .busy
  else if group.toNat < 1 ∨ 15 < group.toNat then refuse s .range
  else
    match s.candidates group.toNat with
    | [] => refuse s .state
    | candidates =>
      let x := s.pagePlanned group.toNat candidates
      if allRisers.any x.2.serves then
        let s1 := x.2.members.foldl (State.pageOn x.2) x.1
        finished (((s1.setPage (some x.2)).setConsole .paging).post (.pageStarted x.2.info)) x.2.info.bytes
      else refuse s .noSlot

def doPageEnd (s : State) : Executed :=
  match s.console with
  | .paging =>
    match s.page with
    | some p => finished (s.event fun s => s.endPage .pageEnd) [byteOf p.group]
    | none => refuse s .state
  | _ => refuse s .state

end Sys2Proof.Machine
end

