-- ==== Sys2Proof/Machine/Power.lean ====
section
/-! DEFINITION. POWER_ON, POWER_LOSS, RESET_ASSERT, RESET_RELEASE, UNIT_LOADED, LOCK_CHANGE and STORE_COMPLETION: power, reset,
start-up, the LOCK line and the writing of a unit (chapter 9, R74). -/

namespace Sys2Proof.Machine

open Sys2Proof

abbrev Answered := Host.Outcome State Fault Refusal

/-! ## Reset (R200, R201) -/

/-- Start-up begins: the held LOCK state is the line's level, and loading begins at unit 0 with an empty torn list (R74, R201,
R202). -/
def State.starting (s : State) : State := { s with stage := .loading 0, lockHeld := s.lockLine, torn := [] }

/-- Power is applied: a reset begins, and start-up follows at once unless RESET is asserted, in which case the part stays in
reset until its release (R200). -/
def execPowerOn (s : State) : Answered :=
  .next (
    let s1 := { s.quiesced with power := true, stage := .held, powerLost := true }
    if s.resetLine then s1 else s1.starting)

/-- A loss of power is taken as an assertion of RESET at that moment; the RESET line itself keeps its level (R200). -/
def execPowerLoss (s : State) : Answered :=
  .next { s.quiesced with power := false, stage := .held, powerLost := true }

/-- The RESET line is asserted: the part is quiescent, its running state lost. Without power it is in reset already (R200). -/
def execResetAssert (s : State) : Answered :=
  .next (if s.power then { s.quiesced with resetLine := true, stage := .held } else { s with resetLine := true })

/-- The RESET line is released: start-up begins if power is applied and the part is in reset (R200, R201). -/
def execResetRelease (s : State) : Answered :=
  .next (
    let s1 := { s with resetLine := false }
    if s.power ∧ s.stage = .held then s1.starting else s1)

/-! ## Loading (R202, R203) -/

/-- One unit is tested and loaded, or its defaults are loaded and it joins the torn list. -/
def State.loaded (s : State) (u : UnitIx) : State :=
  if h : u.val < 24 then
    let x := vget s.store.pages ⟨u.val, h⟩
    if x.passes pageBytes then s.setDirPage ⟨u.val, h⟩ x.content
    else { s.setDirPage ⟨u.val, h⟩ .empty with torn := s.torn ++ [u] }
  else if u = 24 then
    if s.store.settings.passes settingsBytes then s.setSettings s.store.settings.content
    else { s.setSettings .standard with torn := s.torn ++ [u] }
  else
    if s.store.tones.passes tonesBytes then { s with tones := s.store.tones.content }
    else { s with tones := .builtIn, torn := s.torn ++ [u] }

/-! ## The end of start-up (R204, R205) -/

/-- A riser whose loaded enable is 1 receives an enable. -/
def State.startRiser (s : State) (r : Riser) : State := if (s.riserProfile r).enable then s.enableRiser r else s

/-- A panel whose loaded profile says installed enters HUNT. -/
def State.startPanel (s : State) (p : Panel) : State :=
  if (s.panelProfile p).installed then s.modPanel p (·.hunting) else s

/-- Every block leaves its quiescent state, and the STARTUP report is held pending. DESIGN CHOICE (log entry 26): the console link
sends its first frame at its first transmit boundary, R101's frame at the entry to HUNT being a panel link's. -/
def State.started (s : State) : State :=
  let s1 := { s with
    stage := .running, powerLost := false
    startup := some (if s.powerLost then .powerOn else .resetLine, s.torn) }
  let s2 := allPanels.foldl State.startPanel (allRisers.foldl State.startRiser s1)
  s2.modClu fun c => { c with link := { c.link with state := .hunt, good := 0 } }

/-- Loading of the next unit completes; with unit 25 start-up ends (R202, R205). -/
def execUnitLoaded (s : State) : Answered :=
  .next (match s.stage with
    | .loading u =>
      if h : u.val + 1 < 26 then { s.loaded u with stage := .loading ⟨u.val + 1, h⟩ }
      else (s.loaded u).event State.started
    | _ => s)

/-! ## The LOCK line (R74) -/

/-- The line changes; the Directory takes the change unless RESET is held. -/
def execLockChange (asserted : Bool) (s : State) : Answered :=
  .next (match s.stage with
    | .held => { s with lockLine := asserted }
    | _ => { s with lockLine := asserted, lockHeld := asserted })

/-! ## Completion of a STORE (R199) -/

/-- The unit in the store holds the snapshot, with the check formed over it. -/
def Store.written (x : Store) (w : Writing) : Store :=
  match w with
  | .page p c => { x with pages := vset x.pages p (.whole pageBytes c) }
  | .settings c => { x with settings := .whole settingsBytes c }
  | .tones c => { x with tones := .whole tonesBytes c }

/-- The new check has been written: the store returns to IDLE, and a STORE report is posted. -/
def execStoreCompletion (s : State) : Answered :=
  .next (s.whenRunning fun s =>
    match s.writing with
    | some w => ({ s with store := s.store.written w, writing := none }).post (.store w.unit)
    | none => s)

end Sys2Proof.Machine
end

