-- ==== Sys2Proof/Machine/LinkEvents.lean ====
section
/-! DEFINITION. The events of the panel links and of the console link, the assembly and examination of console messages, and the
sending of replies and reports: PANEL_FRAME_ARRIVAL, PANEL_WINDOW_CLOSE, PANEL_TRANSMIT_BOUNDARY, CONSOLE_FRAME_ARRIVAL,
CONSOLE_WINDOW_CLOSE, CONSOLE_TRANSMIT_BOUNDARY and INVALID_MESSAGE (chapters 5 and 8). -/

namespace Sys2Proof.Machine

open Sys2Proof

/-! ## Panel links -/

/-- A frame arrives from a panel (R102). In HUNT a frame whose check fails is bad at its arrival, and what has no sync field is
no frame. In UP what is not good is discarded, and the close of its window counts the bad frame (log entry 7). -/
def execPanelFrameArrival (p : Panel) (frame : PanelFrame) (s : State) : Answered :=
  .next (s.whenRunning fun s =>
    if panelFrameGood frame then s.panelGood p frame
    else if (s.panel p).link.state = .hunt ∧ frame.sync = Config.syncByte then s.panelBad p
    else s)

/-- The receive window of an UP panel link closes without a frame whose check passes: one bad frame, whether a frame whose check
fails, one whose sync field is not found, or none came in it (R102). -/
def execPanelWindowClose (p : Panel) (s : State) : Answered :=
  .next (s.whenRunning fun s => if (s.panel p).link.state = .up then s.panelBad p else s)

/-- The control field of the next transmit frame: the head of the send queue, which leaves it, or the empty mark (R101). DESIGN
CHOICE (log entry 30): the parameter beside the empty mark 0x00 is 0, which R212 says only of messages without a parameter. -/
def PanelUnit.nextControl (u : PanelUnit) : (Byte × Word) × PanelUnit :=
  match u.sendQueue with
  | m :: rest => (m.control, { u with sendQueue := rest })
  | [] => ((0x00, 0), u)

/-- A transmit boundary of a panel link (R101, R107, R145): in UP one take, the panel output, and the frame that carries it
with the head message; in HUNT a frame of sample 0 with the empty mark (its parameter 0: log entry 30); in DOWN none. -/
def execPanelTransmitBoundary (p : Panel) (s : State) : Answered :=
  .next (s.whenRunning fun s =>
    match (s.panel p).link.state with
    | .down => s
    | .hunt => s.modPanel p (·.sendsSilence)
    | .up =>
      let s1 := s.modPanel p fun u => { u with fifo := u.fifo.taken, underrun := u.underrun || u.fifo.underruns }
      let mixed := s1.mixPanel p
      let next := mixed.2.nextControl
      s1.setPanel p { next.2 with frame := some (makePanelFrame mixed.1 next.1.1 next.1.2) })

/-! ## Requests (R177 to R180) -/

/-- The execution of a request (R180). -/
def Request.run (q : Request) (s : State) : Executed :=
  match q with
  | .read table riser start count => doRead table riser start count s
  | .status part => doStatus part s
  | .writeEntries head items => doWriteEntries head items s
  | .clearCounters page => doClearCounters page s
  | .protect mask => doProtect mask s
  | .panelSet panel installed gain ring talk strike => doPanelSet panel installed gain ring talk strike s
  | .consoleSet gain pageGain ring talk queue page wait => doConsoleSet gain pageGain ring talk queue page wait s
  | .riserSet riser enable quiet reversal mute => doRiserSet riser enable quiet reversal mute s
  | .mixSet clip floor => doMixSet clip floor s
  | .serviceEnter => doServiceEnter s
  | .serviceLeave => doServiceLeave s
  | .toneWrite wave start level samples => doToneWrite wave start level samples s
  | .store unit => doStore unit s
  | .answerNext => doAnswerNext s
  | .callFlat code => doCallFlat code s
  | .hangUp => doHangUp s
  | .listen record serial => doListen record serial s
  | .barge record serial => doBarge record serial s
  | .leave => doLeave s
  | .clearCall record serial => doClearCall record serial s
  | .pageStart group => doPageStart group s
  | .pageEnd => doPageEnd s

/-- A reply joins the tail of the reply queue (R178). -/
def State.reply (s : State) (x : Reply) : State := s.modClu fun c => { c with replies := c.replies ++ [x] }

/-- A message refused without execution (R177). -/
def State.refuseMessage (s : State) (tag : Byte) (reason : Reason) : State :=
  s.reply { tag := tag, result := .refused, reason := reason, data := [] }

/-- A request executed, and its reply formed from the state as it then stands (R178). -/
def State.execute (s : State) (tag : Byte) (q : Request) : State :=
  let x := q.run s
  x.state.reply { tag := tag, result := x.result, reason := x.reason, data := x.data }

/-- Whether the reply queue has room (R179). -/
def State.hasRoom (s : State) : Bool := s.clu.replies.length < Config.replyPlaces

/-- A complete message is examined (R177). -/
def State.examine (s : State) (m : MessageParts) : State :=
  if s.hasRoom then
    if checkPasses m.head m.check then
      match parseRequest m.kind m.body with
      | .unknownKind => s.refuseMessage m.tag .unknownKind
      | .badLength => s.refuseMessage m.tag .length
      | .request q => s.execute m.tag q
    else s.refuseMessage m.tag .check
  else s

/-- The receiver as the arrival of a message leaves it (R175). -/
def State.messageArrived (s : State) : State := s.modClu fun c => { c with receiver := .waiting, buffer := [] }

/-- A whole message reaches the receiver of an UP link (R170, R174, R175). -/
def State.atReceiver (s : State) (f : State → State) : State :=
  s.whenRunning fun s => if s.clu.link.state = .up then f s.messageArrived else s

/-- The whole message of a request arrives: it is executed if there is room for its reply (R177, R179). -/
def State.request (s : State) (tag : Byte) (q : Request) : State :=
  s.atReceiver fun s => if s.hasRoom then s.execute tag q else s

/-- A complete message that the examination discards or refuses arrives (R177); bytes that are no complete message are no
event. -/
def execInvalidMessage (message : List Byte) (s : State) : Answered :=
  .next (match messageParts message with
    | some m => s.atReceiver fun s => s.examine m
    | none => s)

/-! ## The receiver (R174, R175) -/

/-- A byte appended to the partial message. -/
def State.appended (s : State) (b : Byte) : State :=
  let buffer := s.clu.buffer ++ [b]
  match buffer with
  | [_, tag, n] =>
    if Config.maxBody < n.toNat then
      let s1 := s.modClu fun c => { c with receiver := .skipping, buffer := [] }
      if s1.hasRoom then s1.refuseMessage tag .length else s1
    else s.modClu fun c => { c with buffer := buffer }
  | _ =>
    match messageParts buffer with
    | some m => s.messageArrived.examine m
    | none => s.modClu fun c => { c with buffer := buffer }

/-- A control byte is taken according to its first flag and the receiver state. -/
def State.controlByte (s : State) (first : Bool) (b : Byte) : State :=
  if first then s.modClu fun c => { c with receiver := .assembling, buffer := [b] }
  else if s.clu.receiver = .assembling then s.appended b
  else s

/-- The control field of a console frame: bit 7 says that it carries a byte, bit 6 is the first flag (R209). -/
def State.controlField (s : State) (flags b : Byte) : State :=
  if flags.getLsbD 7 then s.controlByte (flags.getLsbD 6) b else s

/-- A good frame on the console link (R171, R173, R174). -/
def State.consoleGood (s : State) (f : ConsoleFrame) : State :=
  match s.clu.link.state with
  | .down => s
  | .hunt =>
    if s.clu.link.good + 1 < Config.goodToUp then
      s.modClu fun c => { c with link := { c.link with good := c.link.good + 1 } }
    else s.consoleUp
  | .up =>
    (s.modClu fun c => { c with
      link := { c.link with bad := 0 }, fifo := c.fifo.arrived (sampleFrom f.sample) }).controlField f.flags f.byte

/-- A frame arrives on the console link, and is judged as on a panel link (R171, log entry 7). -/
def execConsoleFrameArrival (frame : ConsoleFrame) (s : State) : Answered :=
  .next (s.whenRunning fun s =>
    if consoleFrameGood frame then s.consoleGood frame
    else if s.clu.link.state = .hunt ∧ frame.sync = Config.syncByte then s.consoleBad
    else s)

/-- The receive window of an UP console link closes without a frame whose check passes: one bad frame (R102, R171). -/
def execConsoleWindowClose (s : State) : Answered :=
  .next (s.whenRunning fun s => if s.clu.link.state = .up then s.consoleBad else s)

/-! ## Sending (R181, R183) -/

/-- A message becomes the message in transmission; its kind byte goes first, with the first flag. -/
def ConsoleUnit.begun (c : ConsoleUnit) (bytes : List Byte) (isReport : Bool) : Option (Bool × Byte) × ConsoleUnit :=
  match bytes with
  | b :: _ => (some (true, b), { c with outgoing := some { bytes := bytes, sent := 1, isReport := isReport } })
  | [] => (none, c)

/-- What the control field of the next frame carries. -/
def ConsoleUnit.nextByte (c : ConsoleUnit) : Option (Bool × Byte) × ConsoleUnit :=
  match c.outgoing with
  | some m =>
    match m.bytes[m.sent]? with
    | some b =>
      (some (false, b), { c with outgoing := if m.sent + 1 < m.bytes.length then some { m with sent := m.sent + 1 } else none })
    | none => (none, { c with outgoing := none })
  | none =>
    match c.replies with
    | x :: rest => { c with replies := rest }.begun x.message false
    | [] =>
      match c.reports with
      | x :: rest => { c with reports := rest, gap := false }.begun (x.message c.gap) true
      | [] => (none, c)

/-- A transmit boundary of the console link (R145, R173, R181). -/
def execConsoleTransmitBoundary (s : State) : Answered :=
  .next (s.whenRunning fun s =>
    match s.clu.link.state with
    | .down => s
    | .hunt => s.modClu fun c => { c with frame := some (makeConsoleFrame 0 none) }
    | .up =>
      let s1 := s.modClu fun c => { c with fifo := c.fifo.taken }
      let mixed := s1.mixConsole
      let next := mixed.2.nextByte
      s1.setClu { next.2 with frame := some (makeConsoleFrame mixed.1 next.1) })

end Sys2Proof.Machine
end

