-- ==== Sys2Proof/Machine/Requests.lean ====
section
/-! DEFINITION. The requests of the console link as commands, each the arrival of its whole message (log entry 5): the
management requests of chapters 3, 7, 8 and 9, and the operator requests of chapters 1 and 6. -/

namespace Sys2Proof.Machine

open Sys2Proof

/-- READ (R185, R186). -/
def execRead (tag table riser : Byte) (start : Word) (count : Byte) (s : State) : Answered := .next (s.request tag (.read table riser start count))

/-- STATUS (R193). -/
def execStatus (tag part : Byte) (s : State) : Answered := .next (s.request tag (.status part))

/-- WRITE-ENTRIES (R64). -/
def execWriteEntries (tag : Byte) (head : WriteHead) (items : List WriteItem) (s : State) : Answered := .next (s.request tag (.writeEntries head items))

/-- CLEAR-COUNTERS (R71). -/
def execClearCounters (tag page : Byte) (s : State) : Answered := .next (s.request tag (.clearCounters page))

/-- PROTECT (R73). -/
def execProtect (tag : Byte) (mask : BitVec 32) (s : State) : Answered := .next (s.request tag (.protect mask))

/-- PANEL-SET (R189). -/
def execPanelSet (tag panel installed gain ring : Byte) (talk : Word) (strike : Byte) (s : State) : Answered := .next (s.request tag (.panelSet panel installed gain ring talk strike))

/-- CONSOLE-SET (R190). -/
def execConsoleSet (tag gain pageGain ring : Byte) (talk queue : Word) (page wait : Byte) (s : State) : Answered := .next (s.request tag (.consoleSet gain pageGain ring talk queue page wait))

/-- RISER-SET (R191). -/
def execRiserSet (tag riser enable quiet reversal mute : Byte) (s : State) : Answered := .next (s.request tag (.riserSet riser enable quiet reversal mute))

/-- MIX-SET (R192). -/
def execMixSet (tag clip floor : Byte) (s : State) : Answered := .next (s.request tag (.mixSet clip floor))

/-- SERVICE-ENTER (R167). -/
def execServiceEnter (tag : Byte) (s : State) : Answered := .next (s.request tag .serviceEnter)

/-- SERVICE-LEAVE (R167). -/
def execServiceLeave (tag : Byte) (s : State) : Answered := .next (s.request tag .serviceLeave)

/-- TONE-WRITE (R168). -/
def execToneWrite (tag wave start level : Byte) (samples : List Word) (s : State) : Answered := .next (s.request tag (.toneWrite wave start level samples))

/-- STORE (R197). -/
def execStore (tag unit : Byte) (s : State) : Answered := .next (s.request tag (.store unit))

/-- ANSWER-NEXT (R124). -/
def execAnswerNext (tag : Byte) (s : State) : Answered := .next (s.request tag .answerNext)

/-- CALL-FLAT (R10). -/
def execCallFlat (tag : Byte) (code : Word) (s : State) : Answered := .next (s.request tag (.callFlat code))

/-- HANG-UP (R127). -/
def execHangUp (tag : Byte) (s : State) : Answered := .next (s.request tag .hangUp)

/-- LISTEN (R129, R130). -/
def execListen (tag record : Byte) (serial : Word) (s : State) : Answered := .next (s.request tag (.listen record serial))

/-- BARGE (R129, R130). -/
def execBarge (tag record : Byte) (serial : Word) (s : State) : Answered := .next (s.request tag (.barge record serial))

/-- LEAVE (R132). -/
def execLeave (tag : Byte) (s : State) : Answered := .next (s.request tag .leave)

/-- CLEAR-CALL (R128). -/
def execClearCall (tag record : Byte) (serial : Word) (s : State) : Answered := .next (s.request tag (.clearCall record serial))

/-- PAGE-START (R134 to R136). -/
def execPageStart (tag group : Byte) (s : State) : Answered := .next (s.request tag (.pageStart group))

/-- PAGE-END (R142). -/
def execPageEnd (tag : Byte) (s : State) : Answered := .next (s.request tag .pageEnd)

end Sys2Proof.Machine
end

