-- ==== Sys2Proof/Machine/RiserEvents.lean ====
section
/-! DEFINITION. The events of the riser lines: WAKE_PULSE, ORDER_SELECTION, ANSWER_ARRIVAL, RISER_FRAME_BOUNDARY,
REVERSAL_PHASE_END, REVERSAL_TIMER_EXPIRY, QUIET_TIMER_EXPIRY and WAKE_TIMER_EXPIRY (chapter 4). -/

namespace Sys2Proof.Machine

open Sys2Proof

/-- A wake pulse: a QUIET riser enters WAKING, any other does nothing (R94). -/
def execWakePulse (r : Riser) (s : State) : Answered :=
  .next (s.whenRunning fun s => if (s.riser r).state = .quiet then s.modRiser r (·.woken) else s)

/-- Order selection in a riser that generates frames (R76, R78). -/
def execOrderSelection (r : Riser) (s : State) : Answered :=
  .next (s.whenRunning fun s => if (s.riser r).frames then s.modRiser r (·.selected) else s)

/-- Answer arrival for the handset the frame's order went to; a silent frame expects none (R80). -/
def execAnswerArrival (r : Riser) (word : Option (BitVec 12)) (s : State) : Answered :=
  .next (s.whenRunning fun s =>
    match (s.riser r).sent with
    | none => s
    | some x =>
      match word.bind (readAnswer x.addr) with
      | some w => s.hit r x w
      | none => s.miss r x)

/-- The frame boundary: the copy with its report, the records tested, the scan, the state changes of the riser, its reversal
sequence, and the four slot outputs (R35, R49, R90, R95, R97, R145). -/
def execRiserFrameBoundary (r : Riser) (voice : List (Addr × Sample)) (s : State) : Answered :=
  .next (s.whenRunning fun s =>
    if (s.riser r).frames then
      let s1 := s.event fun s => ((s.copied r voice).testClearing).boundaryState r
      let s2 := s1.modRiser r fun u => (u.reversalCounted (s1.riserProfile r)).muted
      allSlots.foldl (State.mixSlot r) s2
    else s)

/-- The end of the reversal phase in progress (R97). The boundary that counted the phase out has taken its end itself, and the
event clears that mark; a phase whose frames are all counted off ends now; one with frames to go does not end (log entry 6). -/
def execReversalPhaseEnd (r : Riser) (s : State) : Answered :=
  .next (s.whenRunning fun s =>
    if (s.riser r).state = .active then
      s.modRiser r fun u =>
        if u.reversal.endTaken then { u with reversal := { u.reversal with endTaken := false } }
        else if u.reversal.length ≤ u.reversal.done then (u.phaseEnded (s.riserProfile r)).muted
        else u
    else s)

/-- The reversal timer expires: the sequence is under way and starts at the next boundary (R97). -/
def execReversalTimerExpiry (r : Riser) (s : State) : Answered :=
  .next (s.whenRunning fun s =>
    if (s.riser r).reversalTimer.isRunning then
      s.modRiser r fun u => { u with reversalTimer := .stopped, reversal := { u.reversal with due := true } }
    else s)

/-- The quiet timer expires: the riser enters QUIET (R93). -/
def execQuietTimerExpiry (r : Riser) (s : State) : Answered :=
  .next (s.whenRunning fun s =>
    if (s.riser r).quietTimer.isRunning then s.modRiser r (·.quieted) else s)

/-- The wake timer expires: the wake ends at the next boundary (R95). -/
def execWakeTimerExpiry (r : Riser) (s : State) : Answered :=
  .next (s.whenRunning fun s =>
    if (s.riser r).wakeTimer.isRunning then s.modRiser r fun u => { u with wakeTimer := .stopped } else s)

end Sys2Proof.Machine
end

