-- ==== Sys2Proof/Machine/TimerEvents.lean ====
section
/-! DEFINITION. The expiries of the Call Controller's timers and of the end tone, the ends the Mixer counts out, and the passing
of time: RING_TIMER_EXPIRY, TALK_TIMER_EXPIRY, WAIT_TIMER_EXPIRY, QUEUE_TIMEOUT_EXPIRY, STRIKE_TIMER_EXPIRY,
PAGE_TIMER_EXPIRY, END_TONE_EXPIRY, WINDOW_END and NOTICE_END (R21 to R24, R46, R113, R123, R142, R157, R166). A stopped or
frozen timer does not expire. -/

namespace Sys2Proof.Machine

open Sys2Proof

/-- The ring timer of a RINGING call expires: NO-ANSWER (R23). -/
def execRingTimerExpiry (i : Rec) (s : State) : Answered :=
  .next (s.whenRunning fun s =>
    match s.call i with
    | some c => if c.state = .ringing ∧ c.ringTimer.isRunning = true then s.event fun s => s.endCall i .noAnswer else s
    | none => s)

/-- The talk timer of a CONNECTED call expires: TALK-TIMEOUT (R24). -/
def execTalkTimerExpiry (i : Rec) (s : State) : Answered :=
  .next (s.whenRunning fun s =>
    match s.call i with
    | some c => if c.state = .connected ∧ c.talkTimer.isRunning = true then s.event fun s => s.endCall i .talkTimeout else s
    | none => s)

/-- The wait timer of a QUEUED record expires: WAIT-TIMEOUT (R46). -/
def execWaitTimerExpiry (i : Rec) (s : State) : Answered :=
  .next (s.whenRunning fun s =>
    match s.call i with
    | some c => if c.state = .queued ∧ c.waitTimer.isRunning = true then s.event fun s => s.endCall i .waitTimeout else s
    | none => s)

/-- The wait timer of a WAITING-DESK record expires: WAIT-TIMEOUT (R123). -/
def execQueueTimeoutExpiry (i : Rec) (s : State) : Answered :=
  .next (s.whenRunning fun s =>
    match s.call i with
    | some c => if c.state = .waitingDesk ∧ c.waitTimer.isRunning = true then s.event fun s => s.endCall i .waitTimeout else s
    | none => s)

/-- The strike timer stops, and the call is left as it is (R21). -/
def execStrikeTimerExpiry (i : Rec) (s : State) : Answered :=
  .next (s.whenRunning fun s =>
    match s.call i with
    | some c => if c.strikeTimer.isRunning then s.setCall i (some { c with strikeTimer := .stopped }) else s
    | none => s)

/-- The page timer expires: the page ends, cause TIMEOUT (R142). -/
def execPageTimerExpiry (s : State) : Answered :=
  .next (s.whenRunning fun s =>
    match s.page with
    | some p => if p.timer.isRunning then s.event fun s => s.endPage .timeout else s
    | none => s)

/-- The end tone of a panel expires and stops (R113). -/
def execEndToneExpiry (p : Panel) (s : State) : Answered :=
  .next (s.whenRunning fun s => s.modPanel p (·.endToneStopped))

/-! ## Ends the Mixer counts out (log entry 6) -/

/-- The window end the event names. The computation that reached 1024 has taken it itself, and the event clears that mark; a
window whose position is at 1024 ends now; one short of 1024 does not end (R157). -/
def Output.endedOnce (clip floor configured : Nat) (o : Output) : Output :=
  if o.endTaken then { o with endTaken := false }
  else if Config.windowLength ≤ o.position then o.windowEnded clip floor configured
  else o

/-- An output's window, counted out, ends: trim or recovery of its working gain (R157 to R159); an output that does not exist
has none. -/
def execWindowEnd (o : OutputId) (s : State) : Answered :=
  .next (s.whenRunning fun s =>
    match o with
    | .slot r k =>
      let u := s.riser r
      s.setRiser r { u with outputs := vset u.outputs k ((vget u.outputs k).map fun x =>
        { x with out := x.out.endedOnce s.settings.clip s.settings.floor (s.holderGain x.holder) }) }
    | .panel p => s.modPanel p fun u =>
        { u with output := u.output.map (·.endedOnce s.settings.clip s.settings.floor (s.panelProfile p).gain) }
    | .console => s.modClu fun c =>
        { c with output := c.output.map (·.endedOnce s.settings.clip s.settings.floor s.settings.console.gain) })

/-- The NOTICE record becomes none when its count has reached 1600; one short of that plays on (R166). -/
def execNoticeEnd (s : State) : Answered :=
  .next (s.whenRunning fun s =>
    match s.notice with
    | some n => if Config.noticeFrames ≤ n.count then s.setNotice none else s
    | none => s)

/-! ## Time (log entry 3) -/

def Call.ticked (c : Call) : Call :=
  { c with
    strikeTimer := c.strikeTimer.tick, ringTimer := c.ringTimer.tick, talkTimer := c.talkTimer.tick
    waitTimer := c.waitTimer.tick }

def RiserUnit.ticked (u : RiserUnit) : RiserUnit :=
  { u with reversalTimer := u.reversalTimer.tick, quietTimer := u.quietTimer.tick, wakeTimer := u.wakeTimer.tick }

def PanelUnit.ticked (u : PanelUnit) : PanelUnit :=
  { u with endTone := u.endTone.map fun e => { e with timer := e.timer.tick } }

/-- One frame period passes with no command: every running timer has that much less time left. -/
def State.tick (s : State) : State :=
  s.whenRunning fun s => { s with
    calls := vmap (Option.map Call.ticked) s.calls
    page := s.page.map fun p => { p with timer := p.timer.tick }
    risers := vmap RiserUnit.ticked s.risers
    panels := vmap PanelUnit.ticked s.panels }

end Sys2Proof.Machine
end

