-- ==== Sys2Proof/Machine/Dispatch.lean ====
section
/-! DEFINITION. One arm per command: its meaning. -/

namespace Sys2Proof.Machine

def exec (i : Instr) (s : State) : Host.Outcome State Fault Refusal :=
  match i with
  | .powerOn => Sys2Proof.Machine.execPowerOn s
  | .powerLoss => Sys2Proof.Machine.execPowerLoss s
  | .resetAssert => Sys2Proof.Machine.execResetAssert s
  | .resetRelease => Sys2Proof.Machine.execResetRelease s
  | .unitLoaded => Sys2Proof.Machine.execUnitLoaded s
  | .lockChange asserted => Sys2Proof.Machine.execLockChange asserted s
  | .wakePulse r => Sys2Proof.Machine.execWakePulse r s
  | .orderSelection r => Sys2Proof.Machine.execOrderSelection r s
  | .answerArrival r word => Sys2Proof.Machine.execAnswerArrival r word s
  | .riserFrameBoundary r voice => Sys2Proof.Machine.execRiserFrameBoundary r voice s
  | .reversalPhaseEnd r => Sys2Proof.Machine.execReversalPhaseEnd r s
  | .reversalTimerExpiry r => Sys2Proof.Machine.execReversalTimerExpiry r s
  | .quietTimerExpiry r => Sys2Proof.Machine.execQuietTimerExpiry r s
  | .wakeTimerExpiry r => Sys2Proof.Machine.execWakeTimerExpiry r s
  | .ringTimerExpiry n => Sys2Proof.Machine.execRingTimerExpiry n s
  | .talkTimerExpiry n => Sys2Proof.Machine.execTalkTimerExpiry n s
  | .waitTimerExpiry n => Sys2Proof.Machine.execWaitTimerExpiry n s
  | .queueTimeoutExpiry n => Sys2Proof.Machine.execQueueTimeoutExpiry n s
  | .strikeTimerExpiry n => Sys2Proof.Machine.execStrikeTimerExpiry n s
  | .pageTimerExpiry => Sys2Proof.Machine.execPageTimerExpiry s
  | .endToneExpiry p => Sys2Proof.Machine.execEndToneExpiry p s
  | .storeCompletion => Sys2Proof.Machine.execStoreCompletion s
  | .windowEnd o => Sys2Proof.Machine.execWindowEnd o s
  | .noticeEnd => Sys2Proof.Machine.execNoticeEnd s
  | .panelFrameArrival p frame => Sys2Proof.Machine.execPanelFrameArrival p frame s
  | .panelWindowClose p => Sys2Proof.Machine.execPanelWindowClose p s
  | .panelTransmitBoundary p => Sys2Proof.Machine.execPanelTransmitBoundary p s
  | .consoleFrameArrival frame => Sys2Proof.Machine.execConsoleFrameArrival frame s
  | .consoleWindowClose => Sys2Proof.Machine.execConsoleWindowClose s
  | .consoleTransmitBoundary => Sys2Proof.Machine.execConsoleTransmitBoundary s
  | .invalidMessage message => Sys2Proof.Machine.execInvalidMessage message s
  | .read tag table riser start count => Sys2Proof.Machine.execRead tag table riser start count s
  | .status tag part => Sys2Proof.Machine.execStatus tag part s
  | .writeEntries tag head items => Sys2Proof.Machine.execWriteEntries tag head items s
  | .clearCounters tag page => Sys2Proof.Machine.execClearCounters tag page s
  | .protect tag mask => Sys2Proof.Machine.execProtect tag mask s
  | .panelSet tag panel installed gain ring talk strike => Sys2Proof.Machine.execPanelSet tag panel installed gain ring talk strike s
  | .consoleSet tag gain pageGain ring talk queue page wait => Sys2Proof.Machine.execConsoleSet tag gain pageGain ring talk queue page wait s
  | .riserSet tag riser enable quiet reversal mute => Sys2Proof.Machine.execRiserSet tag riser enable quiet reversal mute s
  | .mixSet tag clip floor => Sys2Proof.Machine.execMixSet tag clip floor s
  | .serviceEnter tag => Sys2Proof.Machine.execServiceEnter tag s
  | .serviceLeave tag => Sys2Proof.Machine.execServiceLeave tag s
  | .toneWrite tag wave start level samples => Sys2Proof.Machine.execToneWrite tag wave start level samples s
  | .store tag unit => Sys2Proof.Machine.execStore tag unit s
  | .answerNext tag => Sys2Proof.Machine.execAnswerNext tag s
  | .callFlat tag code => Sys2Proof.Machine.execCallFlat tag code s
  | .hangUp tag => Sys2Proof.Machine.execHangUp tag s
  | .listen tag record serial => Sys2Proof.Machine.execListen tag record serial s
  | .barge tag record serial => Sys2Proof.Machine.execBarge tag record serial s
  | .leave tag => Sys2Proof.Machine.execLeave tag s
  | .clearCall tag record serial => Sys2Proof.Machine.execClearCall tag record serial s
  | .pageStart tag group => Sys2Proof.Machine.execPageStart tag group s
  | .pageEnd tag => Sys2Proof.Machine.execPageEnd tag s

end Sys2Proof.Machine
end

