-- ==== Sys2Proof/Safety.lean ====
section
/-! DEFINITION. What the statements about the RG340 are said in: when the part takes an event, what an answered request leaves
in the Console Link Unit, and the laws its states keep. -/

namespace Sys2Proof.Safety

open Sys2Proof Sys2Proof.Machine

/-! ## When events are taken -/

/-- Start-up has ended, so every block takes events (R205). -/
abbrev Running (s : State) : Prop := s.stage = .running

/-- The console link is UP and there is room for a reply, so a request that arrives is executed (R177, R179). -/
abbrev Accepts (s : State) : Prop := Running s ∧ s.clu.link.state = .up ∧ s.clu.replies.length < Config.replyPlaces

/-- The Console Link Unit after a request: the receiver WAITING with an empty buffer (R175), and one more reply (R178). -/
def replied (c : ConsoleUnit) (tag : Byte) (result : Result) (reason : Reason) (data : List Byte) : ConsoleUnit :=
  { c with
    receiver := .waiting, buffer := []
    replies := c.replies ++ [{ tag := tag, result := result, reason := reason, data := data }] }

/-- A request that is refused leaves its reply and changes nothing else. -/
def refusal (s : State) (tag : Byte) (reason : Reason) (detail : List Byte) : State :=
  { s with clu := replied s.clu tag .refused reason detail }

/-- A request that is carried out and changes nothing but what the Console Link Unit holds. -/
def confirmed (s : State) (tag : Byte) (data : List Byte) : State :=
  { s with clu := replied s.clu tag .done .none data }

/-- No record waits for slots, so an event that frees slots is followed by no grant (R43). -/
abbrev NothingWaits (s : State) : Prop := s.waitQueue = []

/-! ## Orders (R81, R82) -/

/-- The order queue of a riser holds an order for a handset. -/
abbrev HasOrder (s : State) (h : Handset) (o : Order) : Prop :=
  ∃ e ∈ (s.riser h.riser).queue, e.addr = h.addr ∧ e.order = some o

/-- A handset takes orders: its riser is in service and it is PRESENT. -/
abbrev TakesOrders (s : State) (h : Handset) : Prop := (s.riser h.riser).inService = true ∧ (s.presence h).present = true

/-! ## The quiet timer (R92) -/

/-- The conditions under which the quiet timer of a riser runs: ACTIVE, its order queue empty, both schedules IDLE, every
handset on-hook. -/
def Calm (u : RiserUnit) : Prop :=
  u.state = .active ∧ u.queue = [] ∧ (∀ k, vget u.live k = .idle ∧ vget u.staged k = .idle) ∧
    ∀ a, (vget u.presence a).offHook = false

/-- From `s` to `t` the quiet timer of a riser follows its conditions: it runs on while they go on holding, starts at the full
period (0 keeps it stopped) when they hold once more, and is stopped when one fails. -/
structure QuietTimerFollows (s t : State) (r : Riser) : Prop where
  kept    : Calm (s.riser r) → Calm (t.riser r) → (t.riser r).quietTimer = (s.riser r).quietTimer
  started : ¬ Calm (s.riser r) → Calm (t.riser r) → (t.riser r).quietTimer =
    if (t.riserProfile r).quiet = 0 then .stopped else .running ((t.riserProfile r).quiet * 8000)
  stopped : ¬ Calm (t.riser r) → (t.riser r).quietTimer = .stopped

/-- A quiet timer that is not stopped runs under its conditions. -/
def QuietTimersCalm (s : State) : Prop := ∀ r, (s.riser r).quietTimer ≠ .stopped → Calm (s.riser r)

/-! ## A hit (R79, R83, R85) -/

/-- The riser after a hit of the frame sent: a delivered entry is gone from the queue, one replaced or marked since its
selection is kept without its in-flight mark, a delivered order has set its handset's whole condition as Table 4.1 gives it,
and the handset is PRESENT with this hook and no miss. -/
def hitUnit (u : RiserUnit) (x : Sent) (offHook : Bool) : RiserUnit :=
  { u with
    queue := u.queue.filterMap fun e =>
      if e.addr = x.addr ∧ e.inFlight = true then
        if e.changed then some { e with inFlight := false, changed := false } else none
      else some e
    sent := none
    presence := vset u.presence x.addr { present := true, offHook := offHook, misses := 0 }
    conditions := match x.order with
      | none => u.conditions
      | some .ringOn => vset u.conditions x.addr .ringing
      | some (.assign k) => vset u.conditions x.addr (.talking k)
      | some (.pageOn k) => vset u.conditions x.addr (.page k)
      | some _ => vset u.conditions x.addr .idle }

/-! ## The ending of a call (R28, R29, R31, R32) -/

/-- A record as CLEARING leaves it (R28): its end cause set, its timers stopped, its legs DROPPED, no monitor. -/
def clearedRecord (c : Call) (cause : EndCause) : Call :=
  { c with
    state := .clearing, endCause := some cause, strikeTimer := .stopped, ringTimer := .stopped, talkTimer := .stopped
    waitTimer := .stopped, legs := c.legs.map (fun l => { l with state := .dropped }), monitor := .none }

/-- The end tone and the cursor of a panel in UP whose call ended (R29, R113): BUSY or UNKNOWN for 3 s, or no new tone. -/
def endToneOf (u : PanelUnit) (cause : EndCause) : Option EndTone × Option Cursor :=
  if cause = .busy ∨ cause = .queueFull ∨ cause = .waitTimeout ∨ cause = .noAnswer then
    (some { wave := .busy, timer := .running 24000 }, some { tone := .busy, phase := 0 })
  else if cause = .unknown then
    (some { wave := .unknown, timer := .running 24000 }, some { tone := .unknown, phase := 0 })
  else (u.endTone, none)

/-- Between `s` and `t` the call of record i has ended with a cause, and no scan has followed yet: the record is in CLEARING, or
FREE at once when no live schedule entry named it; it has left the queues and the staged schedules, and neither the console
nor its panel nor the NOTICE names it. RING-OFF waits for each RINGING leg that takes orders, DROP or UNASSIGN for an
ANSWERED one that is off-hook or on-hook, and no other handset's order has changed; a panel in UP is sent ENDED and starts
the cause's end tone; an ENDED report is among the reports. Live schedules, the directory, the settings and every other call
are what they were. -/
structure Ended (s t : State) (i : Rec) (c : Call) (cause : EndCause) : Prop where
  record  : t.call i = if s.liveNames i then some (clearedRecord c cause) else none
  queues  : t.waitQueue = s.waitQueue.filter (· ≠ i) ∧ t.consoleQueue = s.consoleQueue.filter (· ≠ i)
  staged  : ∀ r k, vget (t.riser r).staged k =
    if (vget (s.riser r).staged k).names i then .idle else vget (s.riser r).staged k
  console : t.console = if s.console.names i then .idle else s.console
  notice  : t.notice = s.notice.filter fun n => n.record ≠ i
  panel   : ∀ p, c.origin = .panel p → (t.panel p).current = none
  message : ∀ p, c.origin = .panel p → (t.panel p).link.state = .up → (t.panel p).sendQueue =
    (if (s.panel p).sendQueue.length < 8 then (s.panel p).sendQueue else (s.panel p).sendQueue.drop 1) ++ [.ended cause]
  tone    : ∀ p, c.origin = .panel p → (t.panel p).link.state = .up →
    ((t.panel p).endTone, (t.panel p).cursor) = endToneOf (s.panel p) cause
  orders  : ∀ l ∈ c.legs, TakesOrders s l.handset → (∀ m ∈ c.legs, m.handset = l.handset → m = l) →
    (l.state = .ringing → HasOrder t l.handset .ringOff) ∧
    (l.state = .answered → HasOrder t l.handset (if (t.presence l.handset).offHook then .drop else .unassign))
  others  : ∀ r e, (∀ l ∈ c.legs, l.state ≠ .dropped → l.handset ≠ { riser := r, addr := e.addr }) →
    (e ∈ (t.riser r).queue ↔ e ∈ (s.riser r).queue)
  report  : ∃ st, .call (.ended cause c.held) (some (i, c.serial)) c.kind c.origin st ∈ t.clu.reports
  calls   : ∀ j, j ≠ i → t.call j = s.call j
  live    : ∀ r, (t.riser r).live = (s.riser r).live
  frame   : t = { s with
    calls := t.calls, waitQueue := t.waitQueue, consoleQueue := t.consoleQueue, console := t.console, risers := t.risers
    panels := t.panels, clu := t.clu, notice := t.notice }

/-! ## The lookup (R57 to R60) -/

/-- An entry is a target of a code: VALID with that code, with fewer than four such entries before it and none of them of its
handset, and not excluded: do-not-disturb clear, its handset not ABSENT on a riser in service, no live leg, no page member. -/
def Target (s : State) (code : Nat) (e : EntryIx) (d : EntryData) : Prop :=
  s.entry e = some d ∧ d.code = code ∧
  (allEntries.countP fun e' => e'.val < e.val && (s.entry e').any fun d' => d'.code = code) < 4 ∧
  (∀ e' d', e'.val < e.val → s.entry e' = some d' → d'.code = code → d'.handset ≠ d.handset) ∧
  d.dnd = false ∧ s.liveRecord d.handset = none ∧ s.isMember d.handset = false ∧
  ((s.riser d.handset.riser).inService = true → (s.presence d.handset).present = true)

/-! ## Slots (R36 to R39) -/

/-- The staged schedules of `t` are those of `s`, but for the lowest-numbered free slot of each riser of a set, which is
RESERVED for a record; a QUIET riser of the set is WAKING. -/
structure Reserved (s t : State) (i : Rec) (rs : List Riser) : Prop where
  staged : ∀ r k, vget (t.riser r).staged k =
    if r ∈ rs ∧ (s.riser r).slotFree k = true ∧ ∀ j, j.val < k.val → (s.riser r).slotFree j = false then .reserved i
    else vget (s.riser r).staged k
  wakes  : ∀ r, r ∈ rs → (s.riser r).state = .quiet → (t.riser r).state = .waking

/-- Every riser of a set is in service with a free slot. -/
abbrev AllFree (s : State) (rs : List Riser) : Prop :=
  ∀ r ∈ rs, (s.riser r).inService = true ∧ ∃ k, (s.riser r).slotFree k = true

/-! ## The end of the page (R141) -/

/-- The riser's slot is lent by a call that may have it back: the lender's record still holds it, and it is HELD. -/
def MayReturn (s : State) (v : Served) (i : Rec) (c : Call) : Prop :=
  v.lender = some (i, c.serial) ∧ s.call i = some c ∧ c.state = .held

/-- Between `s` and `t` the page p has ended: the page record is NONE and the console IDLE; the slot of each served riser is
restored to a lender that is still HELD, which is CONNECTED again with its talk timer running on, and is released otherwise;
PAGE-OFF waits for each member that takes orders; and no call but a lender has changed. -/
structure PageOver (s t : State) (p : PageRecord) : Prop where
  page     : t.page = none
  console  : t.console = .idle
  released : ∀ r v, vget p.served r = some v → (∀ i c, ¬ MayReturn s v i c) → vget (t.riser r).staged v.slot = .idle
  restored : ∀ r v i c, vget p.served r = some v → MayReturn s v i c →
    (∀ r' v', vget p.served r' = some v' → v'.lender.map Prod.fst = some i → r' = r) →
    vget (t.riser r).staged v.slot = .carrying i ∧
      t.call i = some { c with state := .connected, held := false, talkTimer := c.talkTimer.resume }
  members  : ∀ h ∈ p.members, TakesOrders s h → HasOrder t h .pageOff
  others   : ∀ j, (∀ r v, vget p.served r = some v → v.lender.map Prod.fst ≠ some j) → t.call j = s.call j
  slots    : ∀ r k, (∀ v, vget p.served r = some v → v.slot ≠ k) → vget (t.riser r).staged k = vget (s.riser r).staged k
  frame    : t = { s with calls := t.calls, risers := t.risers, clu := t.clu, page := t.page, console := t.console }

/-! ## The ends of windows (R157 to R159) -/

/-- What the end of a window makes of an output, with the clip limit, the trim floor and its configured gain. -/
structure WindowLaw (clip floor configured : Nat) (o o' : Output) : Prop where
  counters : o'.tally = 0 ∧ o'.position = 0
  trim     : clip ≤ o.tally → o'.clean = 0 ∧
    o'.working = if floor < o.working then max floor (o.working - max 1 (o.working / 8)) else o.working
  between  : o.tally < clip → o.tally ≠ 0 → o'.clean = 0 ∧ o'.working = o.working
  clean    : o.tally < clip → o.tally = 0 → o.clean < 7 → o'.clean = o.clean + 1 ∧ o'.working = o.working
  recovery : o.tally < clip → o.tally = 0 → 7 ≤ o.clean → o'.clean = 0 ∧
    o'.working = if o.working < configured then o.working + 1 else o.working

/-- What the event of a window's end makes of an output: an end that its computation has taken loses its mark, a window counted
to 1024 ends, and a window short of that does not (R157, log entry 6). -/
structure WindowEndLaw (clip floor configured : Nat) (o o' : Output) : Prop where
  taken   : o.endTaken = true → o' = { o with endTaken := false }
  ends    : o.endTaken = false → 1024 ≤ o.position → WindowLaw clip floor configured o o'
  goesOn  : o.endTaken = false → o.position < 1024 → o' = o

/-! ## Computations of outputs (R145 to R157) -/

/-- The output a slot begins a frame with: that of the same holder, or a fresh one at the configured gain. -/
def outputFor (old : Option SlotOutput) (h : Holder) (configured : Nat) : Output :=
  match old with
  | some o => if o.holder = h then o.out else { working := configured, tally := 0, clean := 0, position := 0, endTaken := false }
  | none => { working := configured, tally := 0, clean := 0, position := 0, endTaken := false }

/-- The sum of the voice contributions at a working gain and a tone's. -/
def outputSum (voices : List Sample) (working : Nat) (tone : Int) : Int :=
  (voices.map fun v => (v.toInt * (working : Int) + 32) / 64).sum + tone

/-- A tone's contribution: its sample at a position of 40 at the tone's level; nothing in SERVICE (R151, R163, R167). -/
def toneAt (s : State) (w : Fin 4) (n : Nat) : Int :=
  if s.mixer = .service then 0
  else ((vget (vget s.tones.waves w) (Fin.ofNat 40 (n % 40))).toInt * ((vget s.tones.levels w : Nat) : Int) + 32) / 64

/-- One computation of an output o: its sample is the sum limited to −8192…8191, a limited sum counts in the tally, and the
computation counts in the window; the 1024th takes the window's end as well (R152, R157; that mark: log entry 6). -/
structure Computed (clip floor configured : Nat) (voices : List Sample) (tone : Int) (o o' : Output) (x : Sample) : Prop where
  sample : x.toInt = max (-8192) (min 8191 (outputSum voices o.working tone))
  within : o.position + 1 < 1024 → o' = { o with
    tally := o.tally + if outputSum voices o.working tone < -8192 ∨ 8191 < outputSum voices o.working tone then 1 else 0
    position := o.position + 1, endTaken := false }
  ended  : 1024 ≤ o.position + 1 → o'.endTaken = true ∧ WindowLaw clip floor configured { o with
    tally := o.tally + if outputSum voices o.working tone < -8192 ∨ 8191 < outputSum voices o.working tone then 1 else 0 } o'

/-- The uplink of the answered handset of a call: the sample of the slot that carries the call in the live schedule of the
answered leg's riser, 0 while none does (R146). -/
def AnsweredVoice (s : State) (i : Rec) (c : Call) (v : Sample) : Prop :=
  ∃ l, c.answeredLeg = some l ∧
    ((∃ k, vget (s.riser l.handset.riser).live k = .carrying i ∧
        (∀ k', k'.val < k.val → vget (s.riser l.handset.riser).live k' ≠ .carrying i) ∧
        v = vget (s.riser l.handset.riser).uplink k) ∨
      ((∀ k, vget (s.riser l.handset.riser).live k ≠ .carrying i) ∧ v = 0))

/-! ## The take of a receive FIFO (R107) -/

/-- One take: the oldest sample becomes the uplink; an empty FIFO in RUNNING keeps the uplink once and then gives 0; in PRIMING
the uplink is 0 and the FIFO unchanged. -/
structure Taken (f g : Fifo) : Prop where
  sample  : f.running = true → ∀ x rest, f.samples = x :: rest →
    g = { samples := rest, running := true, uplink := x, empties := 0 }
  empty   : f.running = true → f.samples = [] →
    g.samples = [] ∧ g.running = true ∧ g.empties ≠ 0 ∧ g.uplink = if f.empties = 0 then f.uplink else 0
  priming : f.running = false → g = { f with uplink := 0 }

/-! ## Writing a page of the Directory (R67 to R69) -/

/-- The entry an item gives its position: EMPTY, or VALID with the item's code, riser and address, the common part's gain,
group and flags, and counter 0 (R69). -/
def entryGiven (h : WriteHead) (w : WriteItem) : Entry :=
  if w.valid then
    some { code := w.code.toNat, handset := { riser := Fin.ofNat 8 w.riser.toNat, addr := Fin.ofNat 32 w.addr.toNat }
           gain := h.gain.toNat, group := h.group.toNat, release := h.release, monitor := h.monitor, dnd := h.dnd, counter := 0 }
  else none

/-- Every item of a list written in order, from the start position on, the position after 15 being 0. -/
def writtenInOrder (h : WriteHead) (items : List WriteItem) (q : DirPage) : DirPage :=
  items.zipIdx.foldl (fun q x => vset q (Fin.ofNat 16 (h.start.toNat + x.2)) (entryGiven h x.1)) q

/-! ## Capacities (Table 0.1, R41, R81, R106, R110, R119, R173, R179, R182) -/

/-- No queue holds more than its places, no address has two orders, and no call counts more than three strikes. -/
structure WithinCapacities (s : State) : Prop where
  waitQueue    : s.waitQueue.length ≤ Config.queuePlaces
  consoleQueue : s.consoleQueue.length ≤ Config.queuePlaces
  replies      : s.clu.replies.length ≤ Config.replyPlaces
  reports      : s.clu.reports.length ≤ Config.reportPlaces
  consoleFifo  : s.clu.fifo.samples.length ≤ Config.fifoPlaces
  panelFifo    : ∀ p, (s.panel p).fifo.samples.length ≤ Config.fifoPlaces
  sendQueue    : ∀ p, (s.panel p).sendQueue.length ≤ Config.sendPlaces
  orders       : ∀ r, ((s.riser r).queue.map (·.addr)).Nodup
  strikes      : ∀ i c, s.call i = some c → c.strikes ≤ Config.strikesPerCall

/-! ## The queues of calls (R41, R119) -/

/-- A record is in the Wait Queue exactly when it is QUEUED and in the Console Queue exactly when it is WAITING-DESK, and
neither queue holds a record twice. -/
structure QueuesHoldTheirCalls (s : State) : Prop where
  waiting     : ∀ i, i ∈ s.waitQueue ↔ ∃ c, s.call i = some c ∧ c.state = .queued
  desk        : ∀ i, i ∈ s.consoleQueue ↔ ∃ c, s.call i = some c ∧ c.state = .waitingDesk
  waitingOnce : s.waitQueue.Nodup
  deskOnce    : s.consoleQueue.Nodup

/-! ## The slots of calls (R33, R34) -/

/-- A staged entry reserves a slot only for a RINGING call with a leg on the riser, and carries only a CONNECTED one; a call
holds at most one slot on any riser, and is carried on one riser at most. -/
structure SlotsFollowTheirCalls (s : State) : Prop where
  reserved   : ∀ r k i, vget (s.riser r).staged k = .reserved i →
    ∃ c, s.call i = some c ∧ c.state = .ringing ∧ r ∈ c.riserSet
  carrying   : ∀ r k i, vget (s.riser r).staged k = .carrying i → ∃ c, s.call i = some c ∧ c.state = .connected
  oneARiser  : ∀ r k k' i, (vget (s.riser r).staged k).names i → (vget (s.riser r).staged k').names i → k = k'
  oneCarries : ∀ r k r' k' i, vget (s.riser r).staged k = .carrying i → vget (s.riser r').staged k' = .carrying i → r = r'

/-- The call table, its queues and the staged schedules agree. -/
structure CallsConsistent (s : State) : Prop where
  queues : QueuesHoldTheirCalls s
  slots  : SlotsFollowTheirCalls s

/-! ## The handsets of calls (R6) -/

/-- The legs of a call name distinct handsets, a handset is an unDROPPED leg of at most one call, and a page member is on-hook
and in no call. -/
structure HandsetsInOneCall (s : State) : Prop where
  legs  : ∀ i c, s.call i = some c → (c.legs.map (·.handset)).Nodup
  once  : ∀ i j c d h, s.call i = some c → s.call j = some d → c.hasLive h = true → d.hasLive h = true → i = j
  apart : ∀ p h, s.page = some p → h ∈ p.members →
    (s.presence h).offHook = false ∧ ∀ i c, s.call i = some c → c.hasLive h = false

/-! ## The Settings Store (R195, R196) -/

/-- A stored unit passes its test unless its check is erased. -/
def UnitSound {α : Type} (bytes : α → List Byte) (u : Stored α) : Prop := u.check = none ∨ u.passes bytes = true

/-- The unit being written, in the store. -/
def erasedInStore (x : Store) : Writing → Prop
  | .page p _ => (vget x.pages p).check = none
  | .settings _ => x.settings.check = none
  | .tones _ => x.tones.check = none

/-- Every stored unit passes or has its check erased, and the unit being written has it erased. -/
structure StoreSound (s : State) : Prop where
  pages    : ∀ p, UnitSound pageBytes (vget s.store.pages p)
  settings : UnitSound settingsBytes s.store.settings
  tones    : UnitSound tonesBytes s.store.tones
  writing  : ∀ w, s.writing = some w → erasedInStore s.store w

/-! ## Working gains (R158) -/

/-- A working gain lies between the smaller of the trim floor and the configured gain, and the configured gain. -/
def GainBounded (floor configured : Nat) (o : Output) : Prop := min floor configured ≤ o.working ∧ o.working ≤ configured

/-- The bound holds of every panel output and of the console output; and while the part does not run there is none. -/
structure LinkGainsBounded (s : State) : Prop where
  panels  : ∀ p o, (s.panel p).output = some o → GainBounded s.settings.floor (s.panelProfile p).gain o
  console : ∀ o, s.clu.output = some o → GainBounded s.settings.floor s.settings.console.gain o
  atRest  : s.stage ≠ .running → (∀ p, (s.panel p).output = none) ∧ s.clu.output = none

/-! ## Guarded pages (R72) -/

/-- A directory page is in the protection map and LOCK is asserted. -/
abbrev Guarded (s : State) (p : PageIx) : Prop := s.guarded p.val = true

/-- Two pages hold the same entries but for the call counters. -/
def SameButCounters (a b : DirPage) : Prop := zeroCounters a = zeroCounters b

end Sys2Proof.Safety
end

