-- ==== Sys2Proof/Certificates/Slice0/Obligations.lean ====
section
/-! DEFINITION. The statements about the RG340 that are to be proved. -/

open Sys2Proof Sys2Proof.Machine Sys2Proof.Safety

/-! ## The queue of commands -/

/-- A step takes the command at the front of the queue and runs it on the state with the queue's rest. -/
def Obligations.StepTakesTheFrontCommand : Prop :=
  ∀ (s : State) (c : Instr) (rest : List Instr),
    step { s with pending := c :: rest } = exec c { s with pending := rest }

/-- With no command waiting one frame period passes: each running timer has one frame period less left, and frozen and
stopped timers stay as they are (R22). That time passes so is the model's choice (log entry 3). -/
def Obligations.TimePassesWhenNoCommandWaits : Prop :=
  (∀ n, (Timer.running (n + 1)).tick = .running n) ∧ (∀ n, (Timer.frozen n).tick = .frozen n) ∧ Timer.stopped.tick = .stopped ∧
  ∀ s : State, Running s → s.pending = [] → ∃ t, step s = .next t ∧
    t = { s with calls := t.calls, page := t.page, risers := t.risers, panels := t.panels } ∧
    (∀ i, t.call i = (s.call i).map fun c => { c with
      strikeTimer := c.strikeTimer.tick, ringTimer := c.ringTimer.tick, talkTimer := c.talkTimer.tick
      waitTimer := c.waitTimer.tick }) ∧
    t.page = s.page.map (fun p => { p with timer := p.timer.tick }) ∧
    (∀ r, t.riser r = { s.riser r with
      reversalTimer := (s.riser r).reversalTimer.tick, quietTimer := (s.riser r).quietTimer.tick
      wakeTimer := (s.riser r).wakeTimer.tick }) ∧
    ∀ p, t.panel p = { s.panel p with
      endTone := (s.panel p).endTone.map fun e => { e with timer := e.timer.tick } }

/-! ## Power, reset and start-up (chapter 9) -/

/-- POWER_ON, POWER_LOSS and RESET_ASSERT make every block quiescent and lose its running state; the part then stays in reset,
but after a POWER_ON with RESET not asserted start-up begins, the held LOCK state being the line's level. The stored units,
the LOCK line and the waiting commands stay (R1, R33, R41, R84, R100, R117, R119, R133, R167, R170, R196, R200). The model's
choices: a POWER_ON with power applied is a reset, and a RESET_ASSERT without power moves the line alone (log entry 17); an
OFF riser's sub-state is NORMAL (log entry 28). -/
def Obligations.PowerAndResetQuiesceThePart : Prop :=
  (∀ s : State, s.power = false → exec .resetAssert s = .next { s with resetLine := true }) ∧
  ∀ (s : State) (c : Instr), c ∈ [Instr.powerOn, .powerLoss, .resetAssert] → (c = .resetAssert → s.power = true) →
    ∃ t, exec c s = .next t ∧ t.power = (c != .powerLoss) ∧ t.resetLine = (s.resetLine || c == .resetAssert) ∧
      (if c = .powerOn ∧ s.resetLine = false then t.stage = .loading 0 ∧ t.lockHeld = s.lockLine ∧ t.torn = []
        else t.stage = .held) ∧
      t.powerLost = (s.powerLost || c != .resetAssert) ∧
      (∀ i, t.call i = none) ∧ t.serialNext = 0 ∧ t.sequenceNext = 0 ∧ t.waitQueue = [] ∧ t.consoleQueue = [] ∧
      t.console = .idle ∧ t.page = none ∧ t.mixer = .normal ∧ t.notice = none ∧ t.writing = none ∧ t.startup = none ∧
      (∀ r, (t.riser r).state = .off ∧ (t.riser r).queue = [] ∧ (t.riser r).polarity = .reference ∧
        (t.riser r).reversal.sub = .normal ∧ (t.riser r).quietTimer = .stopped ∧ (t.riser r).reversalTimer = .stopped ∧
        (t.riser r).wakeTimer = .stopped ∧
        (∀ k, vget (t.riser r).live k = .idle ∧ vget (t.riser r).staged k = .idle ∧ vget (t.riser r).outputs k = none) ∧
        ∀ a, vget (t.riser r).presence a = { present := false, offHook := false, misses := 0 }) ∧
      (∀ p, (t.panel p).link.state = .down ∧ (t.panel p).current = none ∧ (t.panel p).endTone = none ∧
        (t.panel p).sendQueue = [] ∧ (t.panel p).underrun = false ∧ (t.panel p).output = none ∧
        (t.panel p).fifo = { samples := [], running := false, uplink := 0, empties := 0 }) ∧
      (t.clu.link.state = .down ∧ t.clu.receiver = .waiting ∧ t.clu.buffer = [] ∧ t.clu.replies = [] ∧
        t.clu.outgoing = none ∧ t.clu.reports = [] ∧ t.clu.gap = false ∧ t.clu.output = none ∧
        t.clu.fifo = { samples := [], running := false, uplink := 0, empties := 0 }) ∧
      t.store = s.store ∧ t.lockLine = s.lockLine ∧ t.pending = s.pending

/-- Start-up begins at the release of the RESET line with power applied and the part in reset: the held LOCK state is the level
of the LOCK line, the torn list is empty, and unit 0 is the next to be loaded; otherwise the release moves the line alone. The
Directory takes a change of the LOCK line at once unless RESET is held. Then each unit before the last is loaded in its turn: a
unit that passes its test gives its running copy its content, a torn one gives it its defaults and joins the torn list; the
next unit is then to be loaded and nothing else changes (R74, R200, R201, R202, R203). That a release without power, or of a part
not in reset, moves the line alone is the model's reading (log entry 17), and the byte layout that a unit's check covers its
choice (log entry 9). -/
def Obligations.StartUpBeginsAndLoadsTheUnitsInTurn : Prop :=
  (∀ s : State, s.power = true → s.stage = .held →
    exec .resetRelease s = .next { s with resetLine := false, stage := .loading 0, lockHeld := s.lockLine, torn := [] }) ∧
  (∀ s : State, s.power = false ∨ s.stage ≠ .held → exec .resetRelease s = .next { s with resetLine := false }) ∧
  (∀ (s : State) (asserted : Bool),
    exec (.lockChange asserted) s = .next
      { s with lockLine := asserted, lockHeld := if s.stage = .held then s.lockHeld else asserted }) ∧
  (∀ (s : State) (p : PageIx), s.stage = .loading ⟨p.val, by omega⟩ →
    exec .unitLoaded s = .next (
      if (vget s.store.pages p).passes pageBytes then
        { s with
          directory := vset s.directory p (vget s.store.pages p).content, stage := .loading ⟨p.val + 1, by omega⟩ }
      else
        { s with
          directory := vset s.directory p (Vector.replicate 16 none), torn := s.torn ++ [⟨p.val, by omega⟩]
          stage := .loading ⟨p.val + 1, by omega⟩ })) ∧
  (∀ s : State, s.stage = .loading 24 →
    exec .unitLoaded s = .next (
      if s.store.settings.passes settingsBytes then
        { s with settings := s.store.settings.content, stage := .loading 25 }
      else { s with settings := .standard, torn := s.torn ++ [24], stage := .loading 25 }))

/-- With unit 25 start-up ends: the tones are loaded, enabled risers enter ACTIVE, installed panels and the console link enter
HUNT, each such panel's first frame, with sample 0 and the empty mark, begins, the STARTUP report is held pending with its cause
and the torn list, and each riser's entry posts a RISER report (R89, R101, R103, R170, R202, R204, R205, R206). The model's choices:
the risers are enabled in ascending order (log entry 10), the console link sends no frame before its first transmit boundary (log
entry 26), and the values at rest that R89, R100 and R170 do not give (log entry 28). -/
def Obligations.StartUpEndsWithTheLastUnit : Prop :=
  ∀ s : State, s.stage = .loading 25 → (∀ r, s.riser r = .atRest) → (∀ p, s.panel p = .atRest) → s.clu = .atRest →
    NothingWaits s →
    ∃ t, exec .unitLoaded s = .next t ∧ t.stage = .running ∧ t.powerLost = false ∧
      t.tones = (if s.store.tones.passes tonesBytes then s.store.tones.content else .builtIn) ∧
      t.startup = some (if s.powerLost then .powerOn else .resetLine,
        if s.store.tones.passes tonesBytes then s.torn else s.torn ++ [25]) ∧
      (∀ r, t.riser r = if (s.riserProfile r).enable then
        { RiserUnit.atRest with
          state := .active, quietTimer := .period (s.riserProfile r).quiet
          reversalTimer := .period (s.riserProfile r).reversal }
        else .atRest) ∧
      (∀ p, t.panel p = if (s.panelProfile p).installed then
        { PanelUnit.atRest with link := { state := .hunt, good := 0, bad := 0 }, frame := (t.panel p).frame }
        else .atRest) ∧
      (∀ p, (s.panelProfile p).installed = true →
        ∃ f, (t.panel p).frame = some f ∧ panelFrameGood f = true ∧ f.sample = 0 ∧ f.code = 0x00) ∧
      t.clu = { ConsoleUnit.atRest with
        link := { state := .hunt, good := 0, bad := 0 }
        reports := (allRisers.filter fun r => (s.riserProfile r).enable).map (.riser .enabled) } ∧
      t = { s with
        stage := t.stage, powerLost := t.powerLost, tones := t.tones, torn := t.torn, startup := t.startup
        risers := t.risers, panels := t.panels, clu := t.clu }

/-! ## Riser lines (chapter 4) -/

/-- Order selection in a riser that generates frames: a silent frame sends nothing; otherwise the head of the order queue is
sent and marked in flight, or, with the queue empty, a POLL goes to the poll pointer's address and the pointer moves on,
from 31 to 0. Nothing else of the part changes but the quiet timer, which follows its conditions (R78, R92). -/
def Obligations.OrderSelectionSendsTheHeadOrPolls : Prop :=
  ∀ (s : State) (r : Riser), Running s → (s.riser r).frames = true →
    ∃ t, exec (.orderSelection r) s = .next t ∧
      t = s.setRiser r { s.riser r with
        queue := (t.riser r).queue, sent := (t.riser r).sent, orderWord := (t.riser r).orderWord
        pollPointer := (t.riser r).pollPointer, quietTimer := (t.riser r).quietTimer } ∧
      QuietTimerFollows s t r ∧
      if (s.riser r).state ≠ .active ∨ (s.riser r).reversal.sub = .swap then
        (t.riser r).sent = none ∧ (t.riser r).queue = (s.riser r).queue ∧
          (t.riser r).pollPointer = (s.riser r).pollPointer
      else match (s.riser r).queue with
        | e :: rest => (t.riser r).sent = some { addr := e.addr, order := e.order } ∧
            (t.riser r).orderWord = some e.word ∧
            (t.riser r).queue = { e with inFlight := true, changed := false } :: rest ∧
            (t.riser r).pollPointer = (s.riser r).pollPointer
        | [] => (t.riser r).sent = some { addr := (s.riser r).pollPointer, order := none } ∧
            (t.riser r).orderWord = some (pollWord (s.riser r).pollPointer) ∧ (t.riser r).queue = [] ∧
            (t.riser r).pollPointer.val = ((s.riser r).pollPointer.val + 1) % 32

/-- A miss for a PRESENT handset that has not missed twice already, or for an ABSENT one: the entry in flight for its address
moves to the tail of the queue and loses its mark, the miss count of a PRESENT handset rises by 1, and nothing else of the
part changes. The third consecutive miss makes a PRESENT handset ABSENT with hook ON and no misses, discards its order and
posts a HANDSET report; the Call Controller then takes the handset's loss, which for a handset in no call and no page changes
nothing. The quiet timer follows its conditions (R17, R83, R85, R92, R137). -/
def Obligations.MissesSendTheOrderRoundAndEndPresence : Prop :=
  (∀ (s : State) (r : Riser) (x : Sent) (w : Option (BitVec 12)), Running s → (s.riser r).sent = some x →
    w.bind (readAnswer x.addr) = none →
    ((vget (s.riser r).presence x.addr).present = true → (vget (s.riser r).presence x.addr).misses < 2) →
    ∃ t, exec (.answerArrival r w) s = .next t ∧
      t = s.setRiser r { s.riser r with
        queue := (t.riser r).queue, sent := none, presence := (t.riser r).presence
        quietTimer := (t.riser r).quietTimer } ∧
      QuietTimerFollows s t r ∧
      (t.riser r).queue = ((s.riser r).queue.filter fun e => !(e.addr = x.addr && e.inFlight)) ++
        ((s.riser r).queue.filter fun e => e.addr = x.addr && e.inFlight).map (fun e =>
          { e with inFlight := false, changed := false }) ∧
      ∀ a, vget (t.riser r).presence a =
        if a = x.addr ∧ (vget (s.riser r).presence a).present then
          { vget (s.riser r).presence a with misses := (vget (s.riser r).presence a).misses + 1 }
        else vget (s.riser r).presence a) ∧
  (∀ (s : State) (r : Riser) (x : Sent) (w : Option (BitVec 12)), Running s → (s.riser r).sent = some x →
    w.bind (readAnswer x.addr) = none → (vget (s.riser r).presence x.addr).present = true →
    2 ≤ (vget (s.riser r).presence x.addr).misses →
    ∃ u, u = { s.setRiser r { s.riser r with
          queue := (s.riser r).queue.filter fun e => e.addr ≠ x.addr, sent := none
          presence := vset (s.riser r).presence x.addr { present := false, offHook := false, misses := 0 }
          quietTimer := (u.riser r).quietTimer } with
        clu := s.clu.posted (.handset false { riser := r, addr := x.addr }) } ∧
      QuietTimerFollows s u r ∧
      exec (.answerArrival r w) s = .next (State.settled u (u.handsetLost { riser := r, addr := x.addr })) ∧
      (s.liveRecord { riser := r, addr := x.addr } = none → s.page = none → exec (.answerArrival r w) s = .next u))

/-- A hit from a PRESENT handset with its hook unchanged and no key: a delivered entry leaves the queue, one replaced or marked
since its selection stays at its place without its in-flight mark, a delivered order sets its handset's whole condition as
Table 4.1 gives it (POLL and REJECT leave it), the miss count is 0, the quiet timer follows its conditions, and nothing else of
the part changes (R79, R83, R85, R87, R92). -/
def Obligations.AHitDeliversTheOrder : Prop :=
  ∀ (s : State) (r : Riser) (x : Sent) (w : BitVec 12) (a : Answer), Running s → (s.riser r).sent = some x →
    readAnswer x.addr w = some a → a.key = .none → (vget (s.riser r).presence x.addr).present = true →
    (vget (s.riser r).presence x.addr).offHook = a.offHook →
    ∃ t, exec (.answerArrival r (some w)) s = .next t ∧ QuietTimerFollows s t r ∧
      t = s.setRiser r { hitUnit (s.riser r) x a.offHook with quietTimer := (t.riser r).quietTimer }

/-- The events of a hit: its order is settled and delivered, its handset is PRESENT with no miss and its old hook (with a
HANDSET report when it was ABSENT), and nothing else of the part changes but the quiet timer, which follows its conditions;
then a changed hook is handed before a key (R79, R83, R86, R87, R92). -/
def Obligations.AHitHandsHookBeforeKey : Prop :=
  ∀ (s : State) (r : Riser) (x : Sent) (w : BitVec 12) (a : Answer), Running s → (s.riser r).sent = some x →
    readAnswer x.addr w = some a →
    ∃ t : State, exec (.answerArrival r (some w)) s = .next
        ((t.hookEvent { riser := r, addr := x.addr } a.offHook).keyEvent { riser := r, addr := x.addr } a.key) ∧
      QuietTimerFollows s t r ∧
      t = { s.setRiser r { hitUnit (s.riser r) x (vget (s.riser r).presence x.addr).offHook with
          quietTimer := (t.riser r).quietTimer } with
        clu := if (vget (s.riser r).presence x.addr).present then s.clu
          else s.clu.posted (.handset true { riser := r, addr := x.addr }) }

/-- At a frame boundary of an ACTIVE or WAKING riser the staged schedule becomes the live one and the frame is over, and a
WAKING riser whose wake timer has expired enters ACTIVE with its reversal timer at the full period; a DRAINING riser enters
OFF with an all-IDLE live schedule and, when its setting is 1, ACTIVE again. No other riser, the directory, the settings and
the store are what they were; every record in CLEARING that no live entry then names becomes FREE, and no other record
changes (state u). The scan follows when a free count rose, and after it the riser's reversal sequence and slot outputs are
computed, which change the riser and the NOTICE alone; the quiet timer has followed its conditions
(R31, R35, R43, R49, R89, R90, R92, R95). -/
def Obligations.ABoundaryCopiesStagedIntoLive : Prop :=
  ∀ (s : State) (r : Riser) (voice : List (Addr × Sample)), Running s → (s.riser r).frames = true →
    ∃ u t, exec (.riserFrameBoundary r voice) s = .next t ∧
      ((s.riser r).state ≠ .draining → (u.riser r).live = (s.riser r).staged ∧ (u.riser r).staged = (s.riser r).staged ∧
        (u.riser r).presence = (s.riser r).presence ∧ (u.riser r).queue = (s.riser r).queue ∧
        (u.riser r).conditions = (s.riser r).conditions ∧
        (u.riser r).state = (if (s.riser r).wakeTimer = .stopped then .active else (s.riser r).state)) ∧
      ((s.riser r).state = .waking → (s.riser r).wakeTimer = .stopped →
        (t.riser r).reversal.sub = .normal ∧ (t.riser r).reversalTimer = .period (s.riserProfile r).reversal) ∧
      ((s.riser r).state = .draining → (∀ k, vget (u.riser r).live k = .idle) ∧ (u.riser r).queue = [] ∧
        (∀ a, (vget (u.riser r).presence a).present = false) ∧
        (u.riser r).state = (if (s.riserProfile r).enable then .active else .off)) ∧
      (u.riser r).sent = none ∧ (∀ r', r' ≠ r → u.riser r' = s.riser r') ∧
      u = { s with calls := u.calls, risers := u.risers, clu := u.clu, notice := u.notice } ∧
      (∀ i, u.call i = match s.call i with
        | none => none
        | some c =>
          if c.state = .clearing ∧ (∀ r' k, (vget (u.riser r').live k).names i = false) then none else some c) ∧
      t = { State.settled s u with risers := t.risers, notice := t.notice } ∧
      (∀ r', r' ≠ r → t.riser r' = (State.settled s u).riser r') ∧
      t.riser r = { (State.settled s u).riser r with
        polarity := (t.riser r).polarity, reversal := (t.riser r).reversal, reversalTimer := (t.riser r).reversalTimer
        uplink := (t.riser r).uplink, mixed := (t.riser r).mixed, outputs := (t.riser r).outputs
        quietTimer := (t.riser r).quietTimer } ∧
      QuietTimerFollows s t r

/-- At a frame boundary of an ACTIVE or WAKING riser each slot output is computed from the schedule just copied, at the output of
the same holder or at one fresh at the configured gain. An entry that carries a CONNECTED call gives the sum of its origin's
sample, in BARGE the console's, and the NOTICE while it plays for the record, which then counts a frame; that of a HELD call
its origin's sample alone, of a call in another state nothing; a page entry the console's sample; an IDLE or RESERVED entry
has no output and carries 0. The uplink of a slot that carried and carries, unless the line is muted, is the sample of the one
handset TALKING on it as the frame found the handsets when it opened, and 0 when none or more than one is; the next frame
finds them as they now are (R77, R79, R145, R147, R151, R152, R155, R157, R166, R167). A handset that was ABSENT and sends
nothing is not TALKING, and the computation takes its window's end itself (log entries 12 and 6). -/
def Obligations.ABoundaryTakesUplinksAndMixesTheSlotOutputs : Prop :=
  ∀ (s : State) (r : Riser) (voice : List (Addr × Sample)), Running s →
    (s.riser r).state = .active ∨ (s.riser r).state = .waking →
    ∃ t, exec (.riserFrameBoundary r voice) s = .next t ∧
      (∀ k, vget (t.riser r).uplink k =
        if (vget (s.riser r).live k).carries ∧ (vget (s.riser r).staged k).carries ∧ (s.riser r).reversal.sub = .normal ∧
            (t.riser r).reversal.sub = .normal then
          match allAddrs.filter fun a => (vget (s.riser r).heard a).condition = .talking k &&
              ((vget (s.riser r).heard a).present || voice.any fun x => x.1 == a) with
          | [a] => ((voice.find? fun x => x.1 == a).map Prod.snd).getD 0
          | _ => 0
        else 0) ∧
      (∀ a, vget (t.riser r).heard a =
        { condition := vget (s.riser r).conditions a, present := (vget (s.riser r).presence a).present }) ∧
      ∀ k, match vget (s.riser r).staged k with
      | .idle => vget (t.riser r).outputs k = none ∧ vget (t.riser r).mixed k = 0
      | .reserved _ => vget (t.riser r).outputs k = none ∧ vget (t.riser r).mixed k = 0
      | .page => ∃ o, vget (t.riser r).outputs k = some { holder := .page, out := o } ∧
          Computed s.settings.clip s.settings.floor s.settings.console.pageGain
            (if s.page.isSome then [s.clu.fifo.uplink] else []) 0
            (outputFor (vget (s.riser r).outputs k) .page s.settings.console.pageGain) o (vget (t.riser r).mixed k)
      | .carrying i => ∀ c, s.call i = some c → (∀ k', k' ≠ k → vget (s.riser r).staged k' ≠ .carrying i) →
          ∃ o, vget (t.riser r).outputs k = some { holder := .call i c.serial, out := o } ∧
            Computed s.settings.clip s.settings.floor (c.listenGain.getD 64)
              (match c.state with
                | .connected => (match c.origin with
                  | .panel p => (s.panel p).fifo.uplink
                  | _ => s.clu.fifo.uplink) :: if c.monitor = .barge then [s.clu.fifo.uplink] else []
                | .held => [match c.origin with
                  | .panel p => (s.panel p).fifo.uplink
                  | _ => s.clu.fifo.uplink]
                | _ => [])
              (match s.notice with
                | some n => if n.record = i ∧ n.serial = c.serial ∧ c.state = .connected then toneAt s 3 n.count else 0
                | none => 0)
              (outputFor (vget (s.riser r).outputs k) (.call i c.serial) (c.listenGain.getD 64)) o
              (vget (t.riser r).mixed k) ∧
            ∀ n, s.notice = some n → n.record = i → n.serial = c.serial → c.state = .connected →
              t.notice = if n.count + 1 < 1600 then some { n with count := n.count + 1 } else none

/-- Every boundary of an ACTIVE riser counts its reversal sequence, and a sequence that is due runs for 2M + 8 boundaries, with
M the mute setting: M in PRE-MUTE, 8 in SWAP, whose first one flips the polarity, M in POST-MUTE; then the riser is in NORMAL
and the reversal timer starts at its period (R96, R97). -/
def Obligations.AReversalLastsTwiceTheMuteAndEightFrames : Prop :=
  (∀ (s : State) (r : Riser) (voice : List (Addr × Sample)), Running s → (s.riser r).state = .active →
    ∃ t, exec (.riserFrameBoundary r voice) s = .next t ∧
      (t.riser r).reversal = ((s.riser r).reversalCounted (s.riserProfile r)).reversal ∧
      (t.riser r).polarity = ((s.riser r).reversalCounted (s.riserProfile r)).polarity ∧
      (t.riser r).reversalTimer = ((s.riser r).reversalCounted (s.riserProfile r)).reversalTimer) ∧
  ∀ (m : RiserProfile) (u : RiserUnit) (n : Nat), u.state = .active → u.reversal.sub = .normal → u.reversal.due = true →
    ((RiserUnit.reversalCounted m)^[n + 1] u).reversal.sub =
      (if n < m.mute then .preMute else if n < m.mute + 8 then .swap
        else if n < 2 * m.mute + 8 then .postMute else .normal) ∧
    ((RiserUnit.reversalCounted m)^[n + 1] u).polarity = (if n < m.mute then u.polarity else u.polarity.flipped) ∧
    ((RiserUnit.reversalCounted m)^[n + 1] u).reversalTimer =
      (if n < 2 * m.mute + 8 then u.reversalTimer else .period m.reversal)

/-- A wake pulse takes a QUIET riser to WAKING with its wake timer at 20 ms, which is 160 frame periods, and has no effect in any
other state. The expiry of a running reversal timer makes the sequence due; that of a quiet timer takes the riser to QUIET, its
frames and its reversal sequence over and its handsets' conditions IDLE; that of a wake timer stops it; each changes nothing
else. The end of a reversal phase whose frames are all counted off: after PRE-MUTE comes SWAP with the polarity flipped, after
SWAP POST-MUTE, or NORMAL when the mute is 0 frames, and after POST-MUTE NORMAL, with the reversal timer at its period; while the
line is muted every uplink is 0. A phase with frames to go does not end (R77, R79, R92, R93, R94, R95, R96, R97, R98). The model's
choices: an expiry is taken whatever time its timer has left (log entry 4), and the boundary that counts a phase out takes its
end itself, so that the event for that end only clears the mark of it (log entry 6). -/
def Obligations.WakePulsesRiserTimersAndPhaseEnds : Prop :=
  (∀ (s : State) (r : Riser), Running s →
    exec (.wakePulse r) s = .next (
      if (s.riser r).state = .quiet then
        s.setRiser r { s.riser r with state := .waking, wakeTimer := .running 160, quietTimer := .stopped }
      else s)) ∧
  (∀ (s : State) (r : Riser) (n : Nat), Running s → (s.riser r).reversalTimer = .running n →
    exec (.reversalTimerExpiry r) s = .next (s.setRiser r { s.riser r with
      reversalTimer := .stopped, reversal := { (s.riser r).reversal with due := true }
      quietTimer := if (s.riser r).calm then (s.riser r).quietTimer else .stopped })) ∧
  (∀ (s : State) (r : Riser) (n : Nat), Running s → (s.riser r).quietTimer = .running n →
    exec (.quietTimerExpiry r) s = .next (s.setRiser r { s.riser r with
      state := .quiet, quietTimer := .stopped, reversalTimer := .stopped
      reversal := { sub := .normal, length := 0, done := 0, due := false, endTaken := false }
      sent := none, orderWord := none, conditions := Vector.replicate 32 .idle
      heard := vmap (fun p => { condition := .idle, present := p.present }) (s.riser r).presence, uplink := Vector.replicate 4 0
      mixed := Vector.replicate 4 0 })) ∧
  (∀ (s : State) (r : Riser) (n : Nat), Running s → (s.riser r).wakeTimer = .running n →
    exec (.wakeTimerExpiry r) s = .next (s.setRiser r { s.riser r with
      wakeTimer := .stopped, quietTimer := if (s.riser r).calm then (s.riser r).quietTimer else .stopped })) ∧
  (∀ (s : State) (r : Riser), Running s → (s.riser r).state = .active →
    ∃ t, exec (.reversalPhaseEnd r) s = .next t ∧
      t = s.setRiser r { s.riser r with
        reversal := (t.riser r).reversal, polarity := (t.riser r).polarity, reversalTimer := (t.riser r).reversalTimer
        uplink := (t.riser r).uplink, quietTimer := (t.riser r).quietTimer } ∧
      QuietTimerFollows s t r ∧
      if (s.riser r).reversal.endTaken then
        (t.riser r).reversal = { (s.riser r).reversal with endTaken := false } ∧
          (t.riser r).polarity = (s.riser r).polarity ∧ (t.riser r).reversalTimer = (s.riser r).reversalTimer ∧
          (t.riser r).uplink = (s.riser r).uplink
      else if (s.riser r).reversal.done < (s.riser r).reversal.length then
        (t.riser r).reversal = (s.riser r).reversal ∧ (t.riser r).polarity = (s.riser r).polarity ∧
          (t.riser r).reversalTimer = (s.riser r).reversalTimer ∧ (t.riser r).uplink = (s.riser r).uplink
      else
        (t.riser r).reversal.sub = (match (s.riser r).reversal.sub with
          | .normal => .normal
          | .preMute => .swap
          | .swap => if (s.riserProfile r).mute = 0 then .normal else .postMute
          | .postMute => .normal) ∧
        (t.riser r).polarity = (if (s.riser r).reversal.sub = .preMute then (s.riser r).polarity.flipped
          else (s.riser r).polarity) ∧
        ((t.riser r).reversal.sub = .normal → (s.riser r).reversal.sub ≠ .normal →
          (t.riser r).reversalTimer = .period (s.riserProfile r).reversal) ∧
        ((t.riser r).reversal.sub ≠ .normal → ∀ k, vget (t.riser r).uplink k = 0))

/-! ## Timers of calls and of the Mixer (chapters 1, 2, 6 and 7) -/

/-- The ring timer of a RINGING call ends it NO-ANSWER, the talk timer of a CONNECTED call ends it TALK-TIMEOUT, and the wait
timer of a QUEUED or WAITING-DESK record ends it WAIT-TIMEOUT, when it expires while it runs; the scan follows
(R23, R24, R28, R29, R31, R32, R43, R46, R123). That an expiry is taken whatever time the timer has left is the model's choice
(log entry 4). -/
def Obligations.TimersEndTheirCalls : Prop :=
  ∀ (s : State) (i : Rec) (c : Call) (n : Nat), Running s → s.call i = some c →
    (c.state = .ringing → c.ringTimer = .running n →
      ∃ u, exec (.ringTimerExpiry i) s = .next (State.settled s u) ∧ Ended s u i c .noAnswer) ∧
    (c.state = .connected → c.talkTimer = .running n →
      ∃ u, exec (.talkTimerExpiry i) s = .next (State.settled s u) ∧ Ended s u i c .talkTimeout) ∧
    (c.state = .queued → c.waitTimer = .running n →
      ∃ u, exec (.waitTimerExpiry i) s = .next (State.settled s u) ∧ Ended s u i c .waitTimeout) ∧
    (c.state = .waitingDesk → c.waitTimer = .running n →
      ∃ u, exec (.queueTimeoutExpiry i) s = .next (State.settled s u) ∧ Ended s u i c .waitTimeout)

/-- A strike timer that expires stops and leaves its call as it is; an end tone that expires stops with its cursor cleared; the
end of a NOTICE that has played 1600 frames makes its record none, and one short of that plays on; and each changes nothing
else. The end of a window of a panel output, of the console output or of a slot output that has counted to 1024: trim when the
tally reached the clip limit, recovery by 1 after eight clean windows, and the counters at 0; a window short of 1024 does not end,
an output that does not exist has none, and nothing else changes (R21, R113, R157, R158, R159, R165, R166). The model's choices: an expiry is taken whatever time its
timer has left (log entry 4), and the computation that reaches 1024 or 1600 takes that end itself, so that the event for a window's
end only clears the mark of it and the event for the NOTICE's finds none (log entry 6). -/
def Obligations.StrikesTonesNoticesAndWindowsEnd : Prop :=
  (∀ (s : State) (i : Rec) (c : Call) (n : Nat), Running s → s.call i = some c → c.strikeTimer = .running n →
    exec (.strikeTimerExpiry i) s = .next (s.setCall i (some { c with strikeTimer := .stopped }))) ∧
  (∀ (s : State) (p : Panel) (e : EndTone), Running s → (s.panel p).endTone = some e →
    exec (.endToneExpiry p) s = .next (s.setPanel p { s.panel p with endTone := none, cursor := none })) ∧
  (∀ (s : State) (n : Notice), Running s → s.notice = some n →
    exec .noticeEnd s = .next (if 1600 ≤ n.count then { s with notice := none } else s)) ∧
  (∀ s : State, Running s → s.notice = none → exec .noticeEnd s = .next s) ∧
  (∀ (s : State) (p : Panel) (o : Output), Running s → (s.panel p).output = some o →
    ∃ o', exec (.windowEnd (.panel p)) s = .next (s.setPanel p { s.panel p with output := some o' }) ∧
      WindowEndLaw s.settings.clip s.settings.floor (s.panelProfile p).gain o o') ∧
  (∀ (s : State) (p : Panel), Running s → (s.panel p).output = none → exec (.windowEnd (.panel p)) s = .next s) ∧
  (∀ (s : State) (o : Output), Running s → s.clu.output = some o →
    ∃ o', exec (.windowEnd .console) s = .next { s with clu := { s.clu with output := some o' } } ∧
      WindowEndLaw s.settings.clip s.settings.floor s.settings.console.gain o o') ∧
  (∀ s : State, Running s → s.clu.output = none → exec (.windowEnd .console) s = .next s) ∧
  (∀ (s : State) (r : Riser) (k : Slot) (x : SlotOutput), Running s → vget (s.riser r).outputs k = some x →
    ∃ o', exec (.windowEnd (.slot r k)) s = .next (s.setRiser r { s.riser r with
        outputs := vset (s.riser r).outputs k (some { x with out := o' }) }) ∧
      WindowEndLaw s.settings.clip s.settings.floor (match x.holder with
        | .call i _ => ((s.call i).bind (·.listenGain)).getD 64
        | .page => s.settings.console.pageGain) x.out o') ∧
  (∀ (s : State) (r : Riser) (k : Slot), Running s → vget (s.riser r).outputs k = none →
    exec (.windowEnd (.slot r k)) s = .next (s.setRiser r (s.riser r)))

/-! ## Calls (chapters 1 and 2) -/

/-- The lookup of a dial code: UNKNOWN exactly when no VALID entry holds it, BUSY exactly when one does and there is no target, and
otherwise the list of all targets, one to four, in ascending index. A target is one of the first four VALID entries with the
code, the first of its handset among them, and not excluded: do-not-disturb clear, its handset not ABSENT on a riser in
service, not a live leg and not a page member (R57, R58, R59, R60). -/
def Obligations.LookupPicksTheRingableTargets : Prop :=
  ∀ (s : State) (code : Nat),
    ((s.lookup code matches .unknown) ↔ ∀ e d, s.entry e = some d → d.code ≠ code) ∧
    ((s.lookup code matches .busy) ↔ (∃ e d, s.entry e = some d ∧ d.code = code) ∧ ∀ e d, ¬ Target s code e d) ∧
    ((s.lookup code matches .targets _) ↔ ∃ e d, Target s code e d) ∧
    ∀ list, s.lookup code = .targets list →
      (∀ e d, (e, d) ∈ list ↔ Target s code e d) ∧
      list ≠ [] ∧ list.length ≤ 4 ∧ (list.map fun x => x.2.handset).Nodup ∧ (list.map fun x => x.1.val).Pairwise (· < ·)

/-- The request of a call for its slots is granted all or nothing. A riser of its set out of service ends it RISER-OFF; without a
free slot on each riser it waits at the tail of the Wait Queue with no schedule changed, or ends QUEUE-FULL when that queue
is full; otherwise the lowest-numbered free slot of each riser of its set, and no other, is RESERVED for it, and it is RINGING
(R9, R11, R28, R29, R37, R38, R39, R41, R46). -/
def Obligations.SlotsAreGrantedAllOrNothing : Prop :=
  ∀ (s : State) (i : Rec) (c : Call), s.call i = some c → c.state ≠ .clearing →
    if ∃ r ∈ c.riserSet, (s.riser r).inService = false then Ended s (s.askSlots i c) i c .riserOff
    else if ∃ r ∈ c.riserSet, ∀ k, (s.riser r).slotFree k = false then
      if s.waitQueue.length < 8 then
        s.askSlots i c = { s with
          calls := vset s.calls i (some { c with state := .queued, waitTimer := .start s.settings.wait })
          waitQueue := s.waitQueue ++ [i]
          clu := s.clu.posted (.call (.queued (c.code.getD 0)) (some (i, c.serial)) c.kind c.origin (some .queued)) }
      else Ended s (s.askSlots i c) i c .queueFull
    else
      (s.askSlots i c).call i = some { c with
        state := .ringing, waitTimer := .stopped, ringTimer := .start (s.ringSeconds c.origin) } ∧
      Reserved s (s.askSlots i c) i c.riserSet

/-- The scan of the Wait Queue. It follows an event exactly when the event raised the free count of some riser, and takes the
records the queue then holds from head to tail in one pass. A QUEUED record whose risers are all in service with a free slot
leaves the queue, the lowest free slot of each of them is RESERVED for it, it is RINGING, and RING-ON waits for each of its
RINGING legs that takes orders, while no other call changes; any other record stays and nothing changes. No QUEUED record is
left that could be granted (R11, R37, R38, R41, R42, R43, R44, R46). -/
def Obligations.TheWaitQueueIsScannedWhenSlotsFree : Prop :=
  (∀ before after : State,
    State.settled before after =
      if ∃ r, (before.riser r).freeCount < (after.riser r).freeCount then after.waitQueue.foldl State.scanOne after
      else after) ∧
  (∀ (s : State) (i : Rec) (c : Call), s.call i = some c →
    if c.state = .queued ∧ AllFree s c.riserSet then
      (s.scanOne i).waitQueue = s.waitQueue.filter (· ≠ i) ∧
      (s.scanOne i).call i = some { c with
        state := .ringing, waitTimer := .stopped, ringTimer := .start (s.ringSeconds c.origin) } ∧
      (∀ j, j ≠ i → (s.scanOne i).call j = s.call j) ∧
      Reserved s (s.scanOne i) i c.riserSet ∧
      ∀ l ∈ c.legs, l.state = .ringing → TakesOrders s l.handset → HasOrder (s.scanOne i) l.handset .ringOn
    else s.scanOne i = s) ∧
  ∀ (s : State) (i : Rec) (c : Call), i ∈ s.scan.waitQueue → s.scan.call i = some c → c.state = .queued →
    ¬ AllFree s.scan c.riserSet

/-- A CALL from a panel in UP. With a call on the panel, or with a code over 9999, it is answered REJECT and no call changes; it
stops a running end tone unless the panel has a call. With no FREE record the panel is sent ENDED with cause BUSY and its end
tone starts, and a record-less ENDED report is posted. Otherwise, when the code has targets and a slot is free on each of
their risers in service, the lowest FREE record holds a RINGING ENTRY call with the next serial, the panel names it, and its
RINGBACK starts (R2, R4, R5, R7, R8, R11, R29, R32, R113, R114, R164). That the record-less report has its held flag clear is the
model's reading (log entry 11). -/
def Obligations.APanelCallRings : Prop :=
  ∀ (s : State) (p : Panel) (f : PanelFrame), Running s → (s.panel p).link.state = .up → panelFrameGood f = true →
    f.code = 0x01 →
    (∀ j, (s.panel p).current = some j →
      ∃ t, exec (.panelFrameArrival p f) s = .next t ∧
        t = s.setPanel p { s.panel p with
          link := { (s.panel p).link with bad := 0 }, fifo := (s.panel p).fifo.arrived (sampleFrom f.sample)
          sendQueue := sendQueued .reject (s.panel p).sendQueue }) ∧
    ((s.panel p).current = none → 9999 < f.param.toNat →
      exec (.panelFrameArrival p f) s = .next (s.setPanel p { s.panel p with
        link := { (s.panel p).link with bad := 0 }, fifo := (s.panel p).fifo.arrived (sampleFrom f.sample)
        endTone := none, cursor := if (s.panel p).endTone.isSome then none else (s.panel p).cursor
        sendQueue := sendQueued .reject (s.panel p).sendQueue })) ∧
    ((s.panel p).current = none → f.param.toNat ≤ 9999 → s.freeRecord = none →
      exec (.panelFrameArrival p f) s = .next { s.setPanel p { s.panel p with
          link := { (s.panel p).link with bad := 0 }, fifo := (s.panel p).fifo.arrived (sampleFrom f.sample)
          endTone := some { wave := .busy, timer := .running 24000 }, cursor := some { tone := .busy, phase := 0 }
          sendQueue := sendQueued (.ended .busy) (s.panel p).sendQueue } with
        clu := s.clu.posted (.call (.ended .busy false) none .entry (.panel p) none) }) ∧
    (∀ i list, (s.panel p).current = none → f.param.toNat ≤ 9999 → s.freeRecord = some i →
      s.lookup f.param.toNat = .targets list →
      (∀ x ∈ list, (s.riser x.2.handset.riser).inService = true ∧ 0 < (s.riser x.2.handset.riser).freeCount) →
      ∃ t, exec (.panelFrameArrival p f) s = .next t ∧
        t.call i = some
          { serial := s.serialNext, kind := .entry, origin := .panel p, code := some f.param.toNat, state := .ringing
            legs := list.map fun x =>
              { entry := some x.1, handset := x.2.handset, release := x.2.release, monitor := x.2.monitor, state := .ringing }
            answered := none, listenGain := none, strikes := 0, strikeTimer := .stopped
            ringTimer := .start (s.panelProfile p).ring, talkTimer := .stopped, waitTimer := .stopped, sequence := none
            held := false, monitor := .none, endCause := none } ∧
        t.serialNext = s.serialNext + 1 ∧ (t.panel p).current = some i ∧ (t.panel p).endTone = none ∧
        (t.panel p).cursor = some { tone := .ringback, phase := 0 } ∧
        (t.panel p).sendQueue = sendQueued .ringing (s.panel p).sendQueue ∧
        (∀ x ∈ list, ∃ k, vget (t.riser x.2.handset.riser).staged k = .reserved i) ∧
        (∀ x ∈ list, TakesOrders s x.2.handset → HasOrder t x.2.handset .ringOn) ∧
        ∀ j, j ≠ i → t.call j = s.call j)

/-- The first off-hook of a RINGING leg wins its call: the call is CONNECTED with that leg ANSWERED and every other RINGING leg
DROPPED, its listen gain from the entry, its talk timer at the origin's timeout and the next connect sequence; the entry's
counter rises by 1; the slot reserved on the answered riser carries the call, the others are released; ASSIGN waits for
the winner, RING-OFF for the losers; no other call changes but by a renumbering of the connect sequences; and the scan follows
(R4, R13, R14, R43, R63). -/
def Obligations.TheFirstOffHookWinsTheCall : Prop :=
  ∀ (s : State) (i : Rec) (c : Call) (n : Nat) (l : Leg), s.call i = some c → c.state = .ringing →
    s.liveRecord l.handset = some i → c.findLeg l.handset = some (l, n) → l.state = .ringing →
    (s.presence l.handset).offHook = false → (c.legs.map (·.handset)).Nodup →
    ∃ u, s.hookEvent l.handset true = State.settled s u ∧
    (u.call i = some { c with
      state := .connected, answered := some n, sequence := some s.takeSequence.1, ringTimer := .stopped
      legs := c.legs.mapIdx fun m x => if m = n then { x with state := .answered }
        else if x.state = .ringing then { x with state := .dropped } else x
      listenGain := some (((l.entry.bind s.entry).map (·.gain)).getD 64)
      talkTimer := .start (match c.origin with
        | .panel p => (s.panelProfile p).talk
        | _ => s.settings.console.talk) }) ∧
    u.sequenceNext = s.takeSequence.2.sequenceNext ∧ (u.presence l.handset).offHook = true ∧
    (∀ e d, l.entry = some e → s.entry e = some d → u.entry e = some { d with counter := d.counter + 1 }) ∧
    (∀ k, vget (s.riser l.handset.riser).staged k = .reserved i →
      vget (u.riser l.handset.riser).staged k = .carrying i) ∧
    (∀ r ∈ c.riserSet, r ≠ l.handset.riser → ∀ k, (vget (u.riser r).staged k).names i = false) ∧
    (∀ k, (s.riser l.handset.riser).slotOf i = some k → TakesOrders s l.handset → HasOrder u l.handset (.assign k)) ∧
    (∀ m x, c.legs[m]? = some x → m ≠ n → x.state = .ringing → TakesOrders s x.handset → HasOrder u x.handset .ringOff) ∧
    ∀ j, j ≠ i → u.call j = s.takeSequence.2.call j

/-- The connect sequences. Below 65535 the counter's value is given out and the counter rises by 1. At 65535 the CONNECTED and
HELD calls are renumbered first, from 0 in the order they have, their number is given out, and the counter stands above it; no
other call and nothing else changes (R4). -/
def Obligations.ConnectSequencesAreRenumberedInOrder : Prop :=
  ∀ s : State,
    (s.sequenceNext < 65535 → s.takeSequence = (s.sequenceNext, { s with sequenceNext := s.sequenceNext + 1 })) ∧
    (65535 ≤ s.sequenceNext →
      s.takeSequence.1 = allRecs.countP (fun i => (s.call i).any fun c => c.state == .connected || c.state == .held) ∧
      s.takeSequence.2 = { s with calls := s.takeSequence.2.calls, sequenceNext := s.takeSequence.1 + 1 } ∧
      (∀ i, s.call i = none → s.takeSequence.2.call i = none) ∧
      (∀ i c, s.call i = some c → c.state ≠ .connected → c.state ≠ .held → s.takeSequence.2.call i = some c) ∧
      (∀ i c n, s.call i = some c → c.state = .connected ∨ c.state = .held → c.sequence = some n →
        ∃ m, s.takeSequence.2.call i = some { c with sequence := some m } ∧ m < s.takeSequence.1) ∧
      ∀ i j c d c' d' n m n' m', s.call i = some c → s.call j = some d → c.state = .connected ∨ c.state = .held →
        d.state = .connected ∨ d.state = .held → c.sequence = some n → d.sequence = some m →
        s.takeSequence.2.call i = some c' → s.takeSequence.2.call j = some d' → c'.sequence = some n' →
        d'.sequence = some m' → n < m → n' < m')

/-- An off-hook that answers no call. That of a page member sends it PAGE-OFF and takes it from the member set; that of a handset
that is a DROPPED leg of some record, and no member, is a late answer and sends it DROP; any other, and that of a live leg that
does not ring in a RINGING call, changes nothing but the presence record, and the quiet timer stops (R15, R87, R92, R137). The
loss of a handset takes it from the member set. A RINGING leg becomes DROPPED; when it was its call's last, the call ends
HANDSET-LOST, and a RINGING call gives up its slot on a riser where no leg is left. The call of an ANSWERED leg ends
HANDSET-LOST (R17, R122, R137). -/
def Obligations.OffHooksAndLossesBesideTheAnswer : Prop :=
  (∀ (s : State) (h : Handset), (s.presence h).offHook = false → s.liveRecord h = none →
    ∃ t, s.hookEvent h true = t ∧
      t = { s.setRiser h.riser { s.riser h.riser with
          presence := vset (s.riser h.riser).presence h.addr { s.presence h with offHook := true }
          queue := (t.riser h.riser).queue, quietTimer := .stopped } with
        page := s.page.map fun p => { p with members := p.members.filter (· ≠ h) } } ∧
      (∀ e, e.addr ≠ h.addr → (e ∈ (t.riser h.riser).queue ↔ e ∈ (s.riser h.riser).queue)) ∧
      ∀ late : Prop, (late ↔ ∃ i c l, s.call i = some c ∧ l ∈ c.legs ∧ l.handset = h ∧ l.state = .dropped) →
        (s.isMember h = true → TakesOrders s h → HasOrder t h .pageOff) ∧
        (s.isMember h = false → late → TakesOrders s h → HasOrder t h .drop) ∧
        (s.isMember h = false → ¬ late → (t.riser h.riser).queue = (s.riser h.riser).queue)) ∧
  (∀ (s : State) (h : Handset) (i : Rec) (c : Call), (s.presence h).offHook = false → s.liveRecord h = some i →
    s.call i = some c → c.state ≠ .ringing ∨ (∀ l ∈ c.legs, l.handset = h → l.state ≠ .ringing) →
    s.hookEvent h true = s.setRiser h.riser { s.riser h.riser with
      presence := vset (s.riser h.riser).presence h.addr { s.presence h with offHook := true }, quietTimer := .stopped }) ∧
  ∀ (s : State) (h : Handset), ∃ v, v = { s with
      page := s.page.map fun p => { p with members := p.members.filter (· ≠ h) } } ∧
    (s.liveRecord h = none → s.handsetLost h = v) ∧
    ∀ i c l, s.liveRecord h = some i → s.call i = some c → c.state ≠ .clearing → (c.legs.map (·.handset)).Nodup →
      l ∈ c.legs → l.handset = h →
      (l.state = .answered → Ended v (s.handsetLost h) i c .handsetLost) ∧
      (l.state = .ringing → ∃ c', c' = { c with legs := c.legs.map fun m =>
            if m.handset = h then { m with state := .dropped } else m } ∧
        ((∀ m ∈ c'.legs, m.state = .dropped) →
          Ended { v with calls := vset s.calls i (some c') } (s.handsetLost h) i c' .handsetLost) ∧
        ((∃ m ∈ c'.legs, m.state ≠ .dropped) → ∃ t, s.handsetLost h = t ∧
          t = { v with calls := vset s.calls i (some c'), risers := t.risers } ∧
          (∀ r, t.riser r = { s.riser r with staged := (t.riser r).staged, quietTimer := (t.riser r).quietTimer }) ∧
          ∀ r k, vget (t.riser r).staged k =
            if c.state = .ringing ∧ r = h.riser ∧ (∀ m ∈ c'.legs, m.handset.riser = r → m.state = .dropped) ∧
                (vget (s.riser r).staged k).names i then .idle
            else vget (s.riser r).staged k))

/-- A CANCEL from a panel in UP ends the panel's call CANCELLED; with no call it changes only the link's own fields. An on-hook of
a live leg ends a CONNECTED or HELD call HUNG-UP and a WAITING-DESK call DESK-GONE, and in any other state of the call changes
nothing but the presence record's hook; the quiet timer follows its conditions (R25, R26, R28, R29, R43, R87, R92, R122). -/
def Obligations.CancelAndOnHookEndCalls : Prop :=
  (∀ (s : State) (p : Panel) (f : PanelFrame), Running s → (s.panel p).link.state = .up → panelFrameGood f = true →
    f.code = 0x02 →
    (∀ i c, (s.panel p).current = some i → s.call i = some c → c.state ≠ .clearing →
      ∃ u, exec (.panelFrameArrival p f) s = .next (State.settled s u) ∧ Ended s u i c .cancelled) ∧
    ((s.panel p).current = none →
      exec (.panelFrameArrival p f) s = .next (s.setPanel p { s.panel p with
        link := { (s.panel p).link with bad := 0 }, fifo := (s.panel p).fifo.arrived (sampleFrom f.sample) }))) ∧
  (∀ (s : State) (h : Handset) (i : Rec) (c : Call), s.liveRecord h = some i → s.call i = some c →
    (s.presence h).offHook = true →
    ∃ u, s.hookEvent h false = State.settled s u ∧ (u.presence h).offHook = false ∧
    match c.state with
    | .connected => Ended s u i c .hungUp
    | .held => Ended s u i c .hungUp
    | .waitingDesk => Ended s u i c .deskGone
    | _ => s.hookEvent h false = u ∧ QuietTimerFollows s u h.riser ∧ u = s.setRiser h.riser { s.riser h.riser with
        presence := vset (s.riser h.riser).presence h.addr { s.presence h with offHook := false }
        quietTimer := (u.riser h.riser).quietTimer })

/-- A RELEASE key of a handset with a live leg in a panel's call. The answered handset of a CONNECTED ENTRY call that may
release and has fewer than three strikes sends its panel STRIKE with the profile's duration, for which the strike timer then
runs, and counts a strike; while a strike runs it has no effect; otherwise it is answered REJECT (R19, R20, R32). -/
def Obligations.AReleaseKeyStrikesTheDoor : Prop :=
  ∀ (s : State) (h : Handset) (i : Rec) (c : Call) (l : Leg) (n : Nat) (p : Panel), s.liveRecord h = some i →
    s.call i = some c → c.findLeg h = some (l, n) → c.origin = .panel p →
    if c.state = .connected ∧ c.kind = .entry ∧ l.state = .answered ∧ l.release = true ∧ c.strikes < 3 then
      s.keyEvent h .release =
        if c.strikeTimer.isRunning then s
        else { s with
          panels := vset s.panels p ((s.panel p).handed (.strike (s.panelProfile p).strike))
          calls := vset s.calls i (some { c with
            strikes := c.strikes + 1, strikeTimer := .start (s.panelProfile p).strike })
          clu := s.clu.posted (.call (.strike (c.strikes + 1) (s.panelProfile p).strike) (some (i, c.serial)) c.kind
            (.panel p) (some .connected)) }
    else s.keyEvent h .release = s.reject h

/-- A CONCIERGE key. From an off-hook handset in no call, with a FREE record and room in the Console Queue, it makes a
WAITING-DESK call with the next serial and the handset its answered leg, at the queue's tail with its wait timer started;
while its call is WAITING-DESK it has no effect; otherwise it is answered REJECT (R2, R4, R119, R120, R121). -/
def Obligations.AConciergeKeyJoinsTheConsoleQueue : Prop :=
  (∀ (s : State) (h : Handset) (i : Rec), s.liveRecord h = none → (s.presence h).offHook = true → s.freeRecord = some i →
    s.consoleQueue.length < 8 →
    s.keyEvent h .concierge = { s with
      calls := vset s.calls i (some
        { serial := s.serialNext, kind := .concierge, origin := .handset h, code := none, state := .waitingDesk
          legs := [{ entry := none, handset := h, release := false, monitor := false, state := .answered }]
          answered := some 0, listenGain := none, strikes := 0, strikeTimer := .stopped, ringTimer := .stopped
          talkTimer := .stopped, waitTimer := .start s.settings.console.queue, sequence := none, held := false
          monitor := .none, endCause := none })
      serialNext := s.serialNext + 1, consoleQueue := s.consoleQueue ++ [i]
      clu := s.clu.posted (.call (.waiting h) (some (i, s.serialNext)) .concierge (.handset h) (some .waitingDesk)) }) ∧
  (∀ (s : State) (h : Handset), s.liveRecord h = none →
    (s.presence h).offHook = false ∨ s.freeRecord = none ∨ 8 ≤ s.consoleQueue.length →
    s.keyEvent h .concierge = s.reject h) ∧
  (∀ (s : State) (h : Handset) (i : Rec) (c : Call), s.liveRecord h = some i → s.call i = some c →
    s.keyEvent h .concierge = if c.state = .waitingDesk then s else s.reject h)

/-- A message handed to a panel in UP joins its send queue: a REJECT while one is queued is dropped, and a full queue first loses
its oldest message. An order for a PRESENT handset of a riser in service replaces the order its address has queued, in its
place, or joins the tail; a REJECT marks the entry the address has, or joins as one; the quiet timer follows its conditions
(R81, R82, R92, R110). -/
def Obligations.MessagesAndOrdersJoinTheirQueues : Prop :=
  (∀ (s : State) (p : Panel) (m : PanelMsg), (s.panel p).link.state = .up →
    s.hand p m = s.setPanel p { s.panel p with
      sendQueue :=
        if m = .reject ∧ PanelMsg.reject ∈ (s.panel p).sendQueue then (s.panel p).sendQueue
        else if (s.panel p).sendQueue.length < 8 then (s.panel p).sendQueue ++ [m]
        else (s.panel p).sendQueue.drop 1 ++ [m] }) ∧
  (∀ (s : State) (h : Handset) (o : Option Order), TakesOrders s h →
    ∃ t, s.enqueue h o = t ∧
      t = s.setRiser h.riser { s.riser h.riser with
        queue := (t.riser h.riser).queue, quietTimer := (t.riser h.riser).quietTimer } ∧
      QuietTimerFollows s t h.riser ∧
      (t.riser h.riser).queue =
        if ∃ e ∈ (s.riser h.riser).queue, e.addr = h.addr then
          (s.riser h.riser).queue.map fun e =>
            if e.addr = h.addr then match o with
              | some x => { e with order := some x, changed := true }
              | none => { e with refusal := true, changed := true }
            else e
        else (s.riser h.riser).queue ++
          [{ addr := h.addr, order := o, refusal := o.isNone, inFlight := false, changed := false }])

/-! ## Panel links (chapter 5) -/

/-- The runs of good and bad frames of a panel link short of a loss. In HUNT a good frame adds to the run and the third brings
the link UP with its FIFO empty and PRIMING, its send queue empty, its output at the panel gain and a LINK report; a bad one
ends the run. In UP a good frame without a message ends the bad run and gives the FIFO its sample, unless 16 are held, the
phase being RUNNING once 8 are held; a window that closes without a good one adds to the bad run, and the frame in it that is not
good is discarded with no effect of its own. What is no frame in HUNT, and every frame in DOWN, is no event, and only an UP
link has a window (R102, R104, R105, R106, R156). The model does not place the windows: the event is one that closed without
a good frame (log entry 7). -/
def Obligations.APanelLinkCountsItsFrames : Prop :=
  ∀ (s : State) (p : Panel) (f : PanelFrame), Running s →
    ((s.panel p).link.state = .hunt → panelFrameGood f = true →
      if (s.panel p).link.good + 1 < 3 then
        exec (.panelFrameArrival p f) s = .next (s.setPanel p { s.panel p with
          link := { (s.panel p).link with good := (s.panel p).link.good + 1 } })
      else ∃ t, exec (.panelFrameArrival p f) s = .next t ∧
        (t.panel p).link.state = .up ∧ (t.panel p).link.bad = 0 ∧
        t = { s.setPanel p { s.panel p with
            link := (t.panel p).link, fifo := { samples := [], running := false, uplink := 0, empties := 0 }, sendQueue := []
            output := some { working := (s.panelProfile p).gain, tally := 0, clean := 0, position := 0, endTaken := false } }
          with clu := s.clu.posted (.link .up (some p) none) }) ∧
    (panelFrameGood f = false → exec (.panelFrameArrival p f) s = .next (
      if (s.panel p).link.state = .hunt ∧ f.sync = 0x5C then
        s.setPanel p { s.panel p with link := { (s.panel p).link with good := 0 } }
      else s)) ∧
    ((s.panel p).link.state = .down → exec (.panelFrameArrival p f) s = .next s) ∧
    ((s.panel p).link.state ≠ .up → exec (.panelWindowClose p) s = .next s) ∧
    ((s.panel p).link.state = .up → panelFrameGood f = true → f.code ≠ 0x01 → f.code ≠ 0x02 →
      exec (.panelFrameArrival p f) s = .next (s.setPanel p { s.panel p with
        link := { (s.panel p).link with bad := 0 }
        fifo := if (s.panel p).fifo.samples.length < 16 then
            { (s.panel p).fifo with
              samples := (s.panel p).fifo.samples ++ [f.sample.extractLsb' 2 14]
              running := (s.panel p).fifo.running || (s.panel p).fifo.samples.length + 1 == 8 }
          else (s.panel p).fifo })) ∧
    ((s.panel p).link.state = .up → (s.panel p).link.bad + 1 < 4 →
      exec (.panelWindowClose p) s = .next (s.setPanel p { s.panel p with
        link := { (s.panel p).link with bad := (s.panel p).link.bad + 1 } }))

/-- The fourth bad frame in a row, counted as its window closes, takes a panel link from UP to HUNT: its output is discarded, its end tone stops, its send queue
and its FIFO are emptied, its uplink is 0, its call ends LINK-LOST, and a LINK report names the call; the scan follows
(R16, R28, R43, R102, R105, R114, R153). The model's choices: it does not place the windows (log entry 7), and the run of bad
frames is 0 outside UP (log entry 26). -/
def Obligations.TheFourthBadFrameLosesAPanelLink : Prop :=
  ∀ (s : State) (p : Panel), Running s → (s.panel p).link.state = .up → 3 ≤ (s.panel p).link.bad →
    ∃ u, exec (.panelWindowClose p) s = .next (State.settled s u) ∧ (u.panel p).link.state = .hunt ∧
      (u.panel p).link.good = 0 ∧ (u.panel p).link.bad = 0 ∧ (u.panel p).output = none ∧ (u.panel p).endTone = none ∧ (u.panel p).sendQueue = [] ∧
      (u.panel p).fifo.samples = [] ∧ (u.panel p).fifo.uplink = 0 ∧
      (∀ i c, (s.panel p).current = some i → s.call i = some c → c.state ≠ .clearing →
        Ended s u i c .linkLost ∧ u.clu.reports.getLast? = some (.link .lost (some p) (some (i, c.serial)))) ∧
      ((s.panel p).current = none → u = { s.setPanel p (u.panel p) with clu := s.clu.posted (.link .lost (some p) none) })

/-- A transmit boundary of a panel link in UP takes one sample from its FIFO: the oldest one becomes the uplink; an empty FIFO in
RUNNING sets the underrun flag and keeps the uplink once, then gives 0; in PRIMING the uplink is 0 and the FIFO unchanged. The
frame sent carries the head of the send queue, which leaves it, or an empty mark, and passes its check. In HUNT the frame sent
has sample 0 and an empty mark; in DOWN none is sent; and nothing else changes (R100, R101, R107, R108). The parameter 0 beside
an empty mark, and the high byte 0 in that of ENDED and STRIKE, are the model's choices (log entry 30). -/
def Obligations.APanelTransmitTakesOneSample : Prop :=
  ∀ (s : State) (p : Panel), Running s →
    ((s.panel p).link.state = .down → exec (.panelTransmitBoundary p) s = .next s) ∧
    ((s.panel p).link.state = .hunt →
      ∃ f, exec (.panelTransmitBoundary p) s = .next (s.setPanel p { s.panel p with frame := some f }) ∧
        panelFrameGood f = true ∧ f.sample = 0 ∧ f.code = 0x00) ∧
    ((s.panel p).link.state = .up →
      ∃ t, exec (.panelTransmitBoundary p) s = .next t ∧
        t = s.setPanel p { s.panel p with
          fifo := (t.panel p).fifo, underrun := (t.panel p).underrun, sendQueue := (s.panel p).sendQueue.drop 1
          output := (t.panel p).output, cursor := (t.panel p).cursor, frame := (t.panel p).frame } ∧
        Taken (s.panel p).fifo (t.panel p).fifo ∧
        (t.panel p).underrun =
          ((s.panel p).underrun || ((s.panel p).fifo.running && (s.panel p).fifo.samples.isEmpty)) ∧
        ∃ f, (t.panel p).frame = some f ∧ panelFrameGood f = true ∧
          (f.code, f.param) = ((s.panel p).sendQueue.head?.map (·.control)).getD (0, 0))

/-- The panel output of a CONNECTED call mixes the answered handset's sample and, in BARGE, the console's at the output's
working gain, that of a RINGING call its RINGBACK, that of a call in another state nothing, and that of a panel with no call
its end tone, which in SERVICE is silent; the computation counts in the output's tally and window; the frame the boundary
sends carries the sample in the upper 14 bits of its sample field
(R145, R146, R149, R151, R152, R157, R163, R166, R167, R212). That the computation takes its window's end itself is log entry 6. -/
def Obligations.APanelTransmitMixesThePanelOutput : Prop :=
  ∀ (s : State) (p : Panel) (o : Output), Running s → (s.panel p).link.state = .up → (s.panel p).output = some o →
    ∃ t f x o', exec (.panelTransmitBoundary p) s = .next t ∧ (t.panel p).frame = some f ∧ f.sample = x ++ (0 : BitVec 2) ∧
      (t.panel p).output = some o' ∧
      (t.panel p).cursor = (s.panel p).cursor.map (fun c => { c with phase := c.phase + 1 }) ∧
      (∀ voices tone,
        (∃ i c v, (s.panel p).current = some i ∧ s.call i = some c ∧ c.state = .connected ∧ AnsweredVoice s i c v ∧
            voices = v :: (if c.monitor = .barge then [s.clu.fifo.uplink] else []) ∧ tone = 0) ∨
        (∃ i c n, (s.panel p).current = some i ∧ s.call i = some c ∧ c.state = .ringing ∧
            (s.panel p).cursor = some { tone := .ringback, phase := n } ∧ voices = [] ∧
            tone = if n % 32000 < 8000 then toneAt s 0 n else 0) ∨
        (∃ i c, (s.panel p).current = some i ∧ s.call i = some c ∧ c.state ≠ .connected ∧ c.state ≠ .ringing ∧ voices = [] ∧
            tone = 0) ∨
        (∃ n tm, (s.panel p).current = none ∧ (s.panel p).endTone = some { wave := .busy, timer := tm } ∧
            (s.panel p).cursor = some { tone := .busy, phase := n } ∧ voices = [] ∧
            tone = if n % 8000 < 4000 then toneAt s 1 n else 0) ∨
        (∃ n tm, (s.panel p).current = none ∧ (s.panel p).endTone = some { wave := .unknown, timer := tm } ∧
            (s.panel p).cursor = some { tone := .unknown, phase := n } ∧ voices = [] ∧
            tone = if n % 4000 < 2000 then toneAt s 2 n else 0) ∨
        ((s.panel p).current = none ∧ (s.panel p).endTone = none ∧ voices = [] ∧ tone = 0) →
        Computed s.settings.clip s.settings.floor (s.panelProfile p).gain voices tone o o' x)

/-! ## The console link (chapter 8) -/

/-- A good frame on the console link. In HUNT it adds to the run, and the third brings the link UP: receiver WAITING, FIFO empty
and PRIMING, its output at the console gain, a LINK report, and the STARTUP report when one is pending. In UP it ends the bad
run and gives the FIFO its sample; with the first flag its byte begins a new message, without it a byte is dropped unless
the receiver is ASSEMBLING, when it joins the partial message. The byte that completes a message has it examined, as the whole
message's arrival does; a length byte over 64 leaves the receiver SKIPPING with an empty buffer, and is answered REFUSED LENGTH
with the message's tag while there is room for a reply (R171, R173, R174, R175, R177, R179, R204). -/
def Obligations.AConsoleFrameFeedsTheReceiver : Prop :=
  ∀ (s : State) (f : ConsoleFrame), Running s → consoleFrameGood f = true →
    (s.clu.link.state = .hunt → s.clu.link.good + 1 < 3 →
      exec (.consoleFrameArrival f) s = .next { s with
        clu := { s.clu with link := { s.clu.link with good := s.clu.link.good + 1 } } }) ∧
    (s.clu.link.state = .hunt → 3 ≤ s.clu.link.good + 1 →
      ∃ t, exec (.consoleFrameArrival f) s = .next t ∧ t.clu.link.state = .up ∧ t.clu.link.bad = 0 ∧
        t.clu.receiver = .waiting ∧ t.clu.buffer = [] ∧
        t.clu.fifo = { samples := [], running := false, uplink := 0, empties := 0 } ∧
        t.clu.output = some
          { working := s.settings.console.gain, tally := 0, clean := 0, position := 0, endTaken := false } ∧
        t.startup = none ∧ t = { s with clu := t.clu, startup := none } ∧
        t.clu.reports.getLast? = some (match s.startup with
          | some x => .startup x.1 x.2
          | none => .link .up none none) ∧
        ∀ x, s.startup = some x → t.clu.reports.dropLast.getLast? = some (.link .up none none)) ∧
    ∀ fed : ConsoleUnit, fed = { s.clu with
        link := { s.clu.link with bad := 0 }
        fifo := if s.clu.fifo.samples.length < 16 then
            { s.clu.fifo with
              samples := s.clu.fifo.samples ++ [f.sample.extractLsb' 2 14]
              running := s.clu.fifo.running || s.clu.fifo.samples.length + 1 == 8 }
          else s.clu.fifo } → s.clu.link.state = .up →
    ((f.flags.getLsbD 7 = true → f.flags.getLsbD 6 = false → s.clu.receiver = .assembling →
        messageParts (s.clu.buffer ++ [f.byte]) = none ∧ (s.clu.buffer.length = 2 → f.byte.toNat ≤ 64)) →
      exec (.consoleFrameArrival f) s = .next { s with
        clu := { fed with
          receiver := if f.flags.getLsbD 7 && f.flags.getLsbD 6 then .assembling else s.clu.receiver
          buffer := if f.flags.getLsbD 7 then
              if f.flags.getLsbD 6 then [f.byte]
              else if s.clu.receiver = .assembling then s.clu.buffer ++ [f.byte] else s.clu.buffer
            else s.clu.buffer } }) ∧
    (f.flags.getLsbD 7 = true → f.flags.getLsbD 6 = false → s.clu.receiver = .assembling →
      ((messageParts (s.clu.buffer ++ [f.byte])).isSome = true →
        exec (.consoleFrameArrival f) s = exec (.invalidMessage (s.clu.buffer ++ [f.byte])) { s with clu := fed }) ∧
      ∀ kind tag, s.clu.buffer = [kind, tag] → 64 < f.byte.toNat →
        exec (.consoleFrameArrival f) s = .next { s with
          clu := { fed with
            receiver := .skipping, buffer := []
            replies := if s.clu.replies.length < 4 then
                s.clu.replies ++ [{ tag := tag, result := .refused, reason := .length, data := [] }]
              else s.clu.replies } })

/-- A frame that is not good ends the good run in HUNT, if it has its sync field, and is otherwise discarded. On an UP link, which
alone has windows, the close of a window without a good frame is a bad one: three in a row only count, the fourth loses the link: HUNT, receiver WAITING, reply queue and
outgoing message gone, FIFO emptied, the report queue emptied with the gap marked, also for a report not sent in full, the output
discarded; every DESK call and the CONCIERGE call in TALK ends LINK-LOST, the page ends and a call that lent it a slot is
CONNECTED in it again, the console is IDLE, and a LINK report is the last of all; the scan follows
(R16, R43, R102, R141, R143, R171, R172, R183). The model's choices: it does not place the windows (log entry 7), and the run of
bad frames is 0 outside UP (log entry 26). -/
def Obligations.TheFourthBadFrameLosesTheConsoleLink : Prop :=
  (∀ (s : State) (f : ConsoleFrame), Running s → consoleFrameGood f = false →
    exec (.consoleFrameArrival f) s = .next (
      if s.clu.link.state = .hunt ∧ f.sync = 0x5C then
        { s with clu := { s.clu with link := { s.clu.link with good := 0 } } }
      else s)) ∧
  (∀ s : State, Running s → s.clu.link.state ≠ .up → exec .consoleWindowClose s = .next s) ∧
  ∀ s : State, Running s → s.clu.link.state = .up →
    (s.clu.link.bad + 1 < 4 →
      exec .consoleWindowClose s = .next { s with clu := { s.clu with link := { s.clu.link with bad := s.clu.link.bad + 1 } } }) ∧
    (3 ≤ s.clu.link.bad →
      ∃ u, exec .consoleWindowClose s = .next (State.settled s u) ∧ u.console = .idle ∧ u.page = none ∧
        u.clu.link = { state := .hunt, good := 0, bad := 0 } ∧ u.clu.receiver = .waiting ∧ u.clu.buffer = [] ∧
        u.clu.replies = [] ∧ u.clu.outgoing = none ∧ u.clu.fifo.samples = [] ∧ u.clu.fifo.uplink = 0 ∧
        u.clu.output = none ∧ u.clu.reports.getLast? = some (.link .lost none none) ∧
        (s.clu.gap = true ∨ s.clu.reports ≠ [] ∨ (∃ m, s.clu.outgoing = some m ∧ m.isReport = true) → u.clu.gap = true) ∧
        (∀ i c, s.call i = some c → c.state ≠ .clearing →
          c.kind = .desk ∨ (c.kind = .concierge ∧ s.console = .talk i) →
          u.call i = if s.liveNames i then some (clearedRecord c .linkLost) else none) ∧
        (∀ i c, s.call i = some c → c.kind = .entry → s.page = none →
          u.call i = some (if s.console = .listen i ∨ s.console = .barge i then { c with monitor := .none } else c)) ∧
        (∀ p r v i c, s.page = some p → vget p.served r = some v → MayReturn s v i c → c.kind = .entry →
          s.console = .paging → (∀ r' v', vget p.served r' = some v' → v'.lender.map Prod.fst = some i → r' = r) →
          vget (u.riser r).staged v.slot = .carrying i ∧
          u.call i = some { c with state := .connected, held := false, talkTimer := c.talkTimer.resume }) ∧
        (s.console = .idle → s.page = none → (∀ i c, s.call i = some c → c.kind ≠ .desk) →
          u = { s with clu := { u.clu with reports := [.link .lost none none] } }))

/-- A transmit boundary of the console link in UP takes one sample from its FIFO and sends one byte: the next one of the message in
transmission, which is over with its last; else the first byte, with the first flag, of the oldest reply; else that of the
oldest report, which takes the gap mark with it; else none. The frame passes its check. In HUNT the frame sent has sample 0 and
no byte; in DOWN none is sent; and nothing else changes (R107, R170, R171, R173, R174, R181, R182, R183, R209). The model's
choices: a report's bytes and check are formed at its selection, with the gap flag as it then stands (log entry 16), and the
first flag and control byte of an empty control field are 0 (log entry 30). -/
def Obligations.RepliesAreSentBeforeReports : Prop :=
  (∀ s : State, Running s → s.clu.link.state = .down → exec .consoleTransmitBoundary s = .next s) ∧
  (∀ s : State, Running s → s.clu.link.state = .hunt →
    ∃ f, exec .consoleTransmitBoundary s = .next { s with clu := { s.clu with frame := some f } } ∧
      consoleFrameGood f = true ∧ f.sample = 0 ∧ f.flags.getLsbD 7 = false) ∧
  ∀ s : State, Running s → s.clu.link.state = .up →
    ∃ t f, exec .consoleTransmitBoundary s = .next t ∧ t.clu.frame = some f ∧ consoleFrameGood f = true ∧
      t = { s with clu := { s.clu with
        fifo := t.clu.fifo, output := t.clu.output, cursor := t.clu.cursor, frame := t.clu.frame
        outgoing := t.clu.outgoing, replies := t.clu.replies, reports := t.clu.reports, gap := t.clu.gap } } ∧
      Taken s.clu.fifo t.clu.fifo ∧
      (∀ m b, s.clu.outgoing = some m → m.bytes[m.sent]? = some b →
        f.flags = 0x80 ∧ f.byte = b ∧ t.clu.replies = s.clu.replies ∧ t.clu.reports = s.clu.reports ∧
        t.clu.gap = s.clu.gap ∧
        t.clu.outgoing = if m.sent + 1 < m.bytes.length then some { m with sent := m.sent + 1 } else none) ∧
      (∀ x rest, s.clu.outgoing = none → s.clu.replies = x :: rest →
        f.flags = 0xC0 ∧ f.byte = 0x40 ∧ t.clu.outgoing = some { bytes := x.message, sent := 1, isReport := false } ∧
        t.clu.replies = rest ∧ t.clu.reports = s.clu.reports ∧ t.clu.gap = s.clu.gap) ∧
      (∀ x rest, s.clu.outgoing = none → s.clu.replies = [] → s.clu.reports = x :: rest →
        f.flags = 0xC0 ∧ f.byte = x.kind ∧
        t.clu.outgoing = some { bytes := x.message s.clu.gap, sent := 1, isReport := true } ∧
        t.clu.replies = [] ∧ t.clu.reports = rest ∧ t.clu.gap = false) ∧
      (s.clu.outgoing = none → s.clu.replies = [] → s.clu.reports = [] →
        f.flags = 0 ∧ f.byte = 0 ∧ t.clu.outgoing = none ∧ t.clu.replies = [] ∧ t.clu.reports = [])

/-- The console output. In TALK it gives the answered handset's sample of a CONNECTED call, the RINGBACK of a RINGING one, and
nothing in another state of the call; in LISTEN and BARGE the samples of the origin panel and of the answered handset; in IDLE
and PAGING nothing. Tones are silent in SERVICE. The computation counts in the output's tally and window, the cursor moves on,
and the frame the boundary sends carries the sample in the upper 14 bits of its sample field
(R145, R146, R150, R151, R152, R157, R163, R167, R209). That the computation takes its window's end itself is log entry 6. -/
def Obligations.AConsoleTransmitMixesTheConsoleOutput : Prop :=
  ∀ (s : State) (o : Output), Running s → s.clu.link.state = .up → s.clu.output = some o →
    ∃ t f x o', exec .consoleTransmitBoundary s = .next t ∧ t.clu.frame = some f ∧ f.sample = x ++ (0 : BitVec 2) ∧
      t.clu.output = some o' ∧ t.clu.cursor = s.clu.cursor.map (fun c => { c with phase := c.phase + 1 }) ∧
      ∀ voices tone,
        (∃ i c v, s.console = .talk i ∧ s.call i = some c ∧ c.state = .connected ∧ AnsweredVoice s i c v ∧ voices = [v] ∧
            tone = 0) ∨
        (∃ i c n, s.console = .talk i ∧ s.call i = some c ∧ c.state = .ringing ∧
            s.clu.cursor = some { tone := .ringback, phase := n } ∧ voices = [] ∧
            tone = if n % 32000 < 8000 then toneAt s 0 n else 0) ∨
        (∃ i c, s.console = .talk i ∧ s.call i = some c ∧ c.state ≠ .connected ∧ c.state ≠ .ringing ∧ voices = [] ∧
            tone = 0) ∨
        (∃ i c v p, (s.console = .listen i ∨ s.console = .barge i) ∧ s.call i = some c ∧ c.origin = .panel p ∧
            AnsweredVoice s i c v ∧ voices = [(s.panel p).fifo.uplink, v] ∧ tone = 0) ∨
        ((s.console = .idle ∨ s.console = .paging) ∧ voices = [] ∧ tone = 0) →
        Computed s.settings.clip s.settings.floor s.settings.console.gain voices tone o o' x

/-- A complete message that is not executed: with four replies waiting it is discarded without a reply; else a failing check is
refused CHECK, then a kind code of no request UNKNOWN-KIND, then a body of the wrong length LENGTH, and nothing else changes
but the receiver, which is WAITING (R175, R176, R177, R179). That a message of this command which is a valid request is executed
is the model's choice (log entry 22). -/
def Obligations.AnInvalidMessageIsRefusedOrDiscarded : Prop :=
  ∀ (s : State) (kind tag : Byte) (body : List Byte) (check : Word), Running s → s.clu.link.state = .up →
    body.length ≤ 64 →
    let head := kind :: tag :: BitVec.ofNat 8 body.length :: body
    let e := Instr.invalidMessage (head ++ [check.extractLsb' 8 8, check.extractLsb' 0 8])
    if 4 ≤ s.clu.replies.length then exec e s = .next { s with clu := { s.clu with receiver := .waiting, buffer := [] } }
    else if checkPasses head check = false then exec e s = .next (refusal s tag .check [])
    else if kind.toNat = 0 ∨ (0x0D < kind.toNat ∧ kind.toNat < 0x10) ∨ 0x18 < kind.toNat then
      exec e s = .next (refusal s tag .unknownKind [])
    else if (kind = 0x02 ∨ kind = 0x04 ∨ kind = 0x0D ∨ kind = 0x17) ∧ body.length ≠ 1 ∨
        (kind = 0x09 ∨ kind = 0x12) ∧ body.length ≠ 2 ∨ (kind = 0x13 ∨ kind = 0x14 ∨ kind = 0x16) ∧ body.length ≠ 3 ∨
        kind = 0x05 ∧ body.length ≠ 4 ∨ (kind = 0x01 ∨ kind = 0x08) ∧ body.length ≠ 5 ∨ kind = 0x06 ∧ body.length ≠ 7 ∨
        kind = 0x07 ∧ body.length ≠ 9 ∨
        (kind = 0x0A ∨ kind = 0x0B ∨ kind = 0x10 ∨ kind = 0x11 ∨ kind = 0x15 ∨ kind = 0x18) ∧ body ≠ [] ∨
        (kind = 0x03 ∨ kind = 0x0C) ∧ body.length < 4 then
      exec e s = .next (refusal s tag .length [])
    else match parseRequest kind body with
      | .request q => exec e s = .next (s.messageArrived.execute tag q)
      | _ => exec e s = .next (refusal s tag .length [])

/-! ## The check and the forms of messages (chapters 8 and 10) -/

/-- Bytes pass with the check formed over them and with no other, but for 0xFFFF in place of a formed check of 0; and every frame
the part forms passes. The four nibbles of every order word sum to 15 modulo 16 and its fields stand at their places; a word
whose nibbles do not, or that gives another address, is no answer, and an answer's hook and key stand at theirs
(R80, R101, R176, R212). -/
def Obligations.ChecksAndOrderWordsAreFormedAndRead : Prop :=
  (∀ bytes : List Byte, checkPasses bytes (checkOf bytes) = true) ∧
  (∀ (bytes : List Byte) (check : Word), checkPasses bytes check = true →
    check = checkOf bytes ∨ (checkOf bytes = 0 ∧ check = 0xFFFF)) ∧
  (∀ x code param, panelFrameGood (makePanelFrame x code param) = true) ∧
  (∀ x control, consoleFrameGood (makeConsoleFrame x control) = true) ∧
  (∀ (a : Addr) (code slot : Nat) (mark : Bool), code < 16 → slot < 4 →
    let w := makeOrderWord a code slot mark
    nibbleSum w.toNat % 16 = 15 ∧ w.toNat / 2048 = a.val ∧ w.toNat / 128 % 16 = code ∧ w.toNat / 32 % 4 = slot ∧
      w.getLsbD 4 = mark) ∧
  (∀ (a : Addr) (w : BitVec 12), nibbleSum w.toNat % 16 ≠ 15 ∨ w.toNat / 128 ≠ a.val → readAnswer a w = none) ∧
  (∀ (a : Addr) (w : BitVec 12), nibbleSum w.toNat % 16 = 15 → w.toNat / 128 = a.val →
    ∃ x, readAnswer a w = some x ∧ x.offHook = w.getLsbD 6 ∧ (x.key = .release ↔ w.toNat / 16 % 4 = 1) ∧
      (x.key = .concierge ↔ w.toNat / 16 % 4 = 2))

/-- Every request with at most 20 items and at most 30 samples, written as a message from Tables 10.2 and 10.3, is read back as
itself: its parts are its kind, tag and body, its check passes, and no field of its body is dropped or changed. -/
def Obligations.EveryRequestIsReadBackAsWritten : Prop :=
  ∀ (q : Request) (tag : Byte), q.fits = true →
    ∃ m, messageParts (q.message tag) = some m ∧ m.tag = tag ∧ checkPasses m.head m.check = true ∧
      parseRequest m.kind m.body = .request q

/-! ## The management requests (chapters 3, 7, 8 and 9) -/

/-- READ is refused RANGE for a table code over 8, a riser over 7 for PRESENCE, a first index outside the table, or a count
outside 1–16; otherwise it is DONE, only its reply is left, and that carries the table, the riser of a PRESENCE READ, the first
index, the number of items, the index after the last with wrap at the table's size, and the items themselves in order: as many
as the count asks and the 55 bytes of room hold. STATUS of a section over 3 is refused RANGE; otherwise it is DONE with the
section, and a PANELS section clears every underrun flag once it is formed; nothing else changes but, in a READ, the model's own
draw counter (R108, R185, R186, R187, R193, R210, R211). The model's choices: riser byte 0 in the reply for the tables without a
riser (log entry 15), the free value and counter drawn for an absent listen gain (log entry 13), the slots field of a CLEARING or
HELD record and the empty items of QUEUES (log entry 14). -/
def Obligations.ReadAndStatusTellTheState : Prop :=
  (∀ (s : State) (tag table riser : Byte) (start : Word) (count : Byte), Accepts s →
    ∀ size : Nat, size = [384, 384, 16, 32, 16, 16, 8, 164, 4][table.toNat]?.getD 0 →
    if 8 < table.toNat ∨ (table = 3 ∧ 7 < riser.toNat) ∨ size ≤ start.toNat ∨ count.toNat = 0 ∨ 16 < count.toNat then
      exec (.read tag table riser start count) s = .next (refusal s tag .range [])
    else ∃ n draws, ∃ items : Nat → List Byte,
      exec (.read tag table riser start count) s = .next
        { confirmed s tag ([table, if table = 3 then riser else 0] ++ wordBytes start ++ [byteOf n]
            ++ wordOf ((start.toNat + n) % size) ++ items n) with draws := draws } ∧
      (∀ m, items m = (List.range m).flatMap fun j =>
        s.item table.toNat (Fin.ofNat 8 riser.toNat) ((start.toNat + j) % size)) ∧
      1 ≤ n ∧ n ≤ count.toNat ∧ (items n).length ≤ 55 ∧ (n = count.toNat ∨ 55 < (items (n + 1)).length) ∧
      (table ≠ 5 → table ≠ 8 → n = min ([9, 16, 1, 16, 9, 0, 2, 16][table.toNat]?.getD 0) count.toNat) ∧
      (table = 0 → items n = (List.range n).flatMap fun j => s.directoryItem (Fin.ofNat 384 (start.toNat + j)))) ∧
  (∀ (s : State) (tag part : Byte), Accepts s →
    if 3 < part.toNat then exec (.status tag part) s = .next (refusal s tag .range [])
    else ∃ t, exec (.status tag part) s = .next t ∧
      t = { confirmed s tag (part :: (match part.toNat with
          | 0 => s.partSection
          | 1 => s.panelsSection
          | 2 => s.risersSection
          | _ => s.pageSection)) with panels := t.panels } ∧
      ∀ p, t.panel p = if part = 1 then { s.panel p with underrun := false } else s.panel p)

/-- WRITE-ENTRIES is refused RANGE with a detail byte for the first failing test, LOCKED for a guarded page, and is otherwise DONE
as one change: its page is what writing every item in order from the start position would leave, the position after 15
being 0, whatever the number of items; no other page and nothing but the reply changes (R64, R65, R66, R67, R68, R69, R72). -/
def Obligations.WriteEntriesWritesEveryItemInOrder : Prop :=
  ∀ (s : State) (tag : Byte) (h : WriteHead) (items : List WriteItem), Accepts s → items.length ≤ 20 →
    if 23 < h.page.toNat then exec (.writeEntries tag h items) s = .next (refusal s tag .range [0xF0])
    else if 15 < h.start.toNat then exec (.writeEntries tag h items) s = .next (refusal s tag .range [0xF1])
    else if 15 < h.group.toNat then exec (.writeEntries tag h items) s = .next (refusal s tag .range [0xF2])
    else
      (∀ n w, items[n]? = some w → (∀ m v, m < n → items[m]? = some v →
          v.valid = false ∨ (v.code.toNat ≤ 9999 ∧ v.riser.toNat ≤ 7)) →
        w.valid = true → 9999 < w.code.toNat ∨ 7 < w.riser.toNat →
        exec (.writeEntries tag h items) s = .next (refusal s tag .range [byteOf n])) ∧
      ((∀ w ∈ items, w.valid = false ∨ (w.code.toNat ≤ 9999 ∧ w.riser.toNat ≤ 7)) →
        if Guarded s (Fin.ofNat 24 h.page.toNat) then exec (.writeEntries tag h items) s = .next (refusal s tag .locked [])
        else exec (.writeEntries tag h items) s = .next (confirmed
          { s with
            directory := vset s.directory (Fin.ofNat 24 h.page.toNat)
              (writtenInOrder h items (vget s.directory (Fin.ofNat 24 h.page.toNat))) } tag
          [byteOf h.page.toNat,
            byteOf (if items.length ≤ 16 then h.start.toNat else (h.start.toNat + (items.length - 16)) % 16),
            byteOf (min 16 items.length)]))

/-- CLEAR-COUNTERS sets the counters of a page's VALID entries to 0, refused RANGE for a page over 23 and LOCKED for a guarded
one; PROTECT replaces the protection map, refused RANGE for a bit over 23 and LOCKED while LOCK is asserted; and nothing else
changes (R71, R72, R73). -/
def Obligations.CountersClearAndPagesAreProtected : Prop :=
  (∀ (s : State) (tag page : Byte), Accepts s →
    exec (.clearCounters tag page) s = .next (
      if 23 < page.toNat then refusal s tag .range []
      else if s.lockHeld && s.settings.protection.getLsbD page.toNat then refusal s tag .locked []
      else confirmed { s with
        directory := vset s.directory (Fin.ofNat 24 page.toNat)
          (vmap (Option.map fun d => { d with counter := 0 }) (vget s.directory (Fin.ofNat 24 page.toNat))) } tag [page])) ∧
  (∀ (s : State) (tag : Byte) (mask : BitVec 32), Accepts s →
    exec (.protect tag mask) s = .next (
      if 2 ^ 24 ≤ mask.toNat then refusal s tag .range []
      else if s.lockHeld then refusal s tag .locked []
      else confirmed { s with settings := { s.settings with protection := mask.setWidth 24 } } tag
        [mask.extractLsb' 24 8, mask.extractLsb' 16 8, mask.extractLsb' 8 8, mask.extractLsb' 0 8]))

/-- While a page is in the protection map and LOCK is asserted, no step of the running part changes a field of its entries other
than their call counters (R63, R72). -/
def Obligations.AGuardedPageKeepsItsEntries : Prop :=
  ∀ (s t : State) (p : PageIx), step s = .next t → Running s → Running t → Guarded s p →
    SameButCounters (t.dirPage p) (s.dirPage p)

/-- PANEL-SET of a panel over 5 is refused RANGE. Otherwise the profile takes its values, each out of range replaced by the nearer
end, and the reply carries it, ADJUSTED when a value was replaced; a changed gain resets the panel's output to it; a panel
newly installed enters HUNT from DOWN and begins its first frame, with sample 0 and the empty mark; one removed leaves HUNT or UP
for DOWN with its good run at 0, its output, end tone, send queue and FIFO gone, its call ended LINK-LOST and a LINK report
REMOVED that names the call, or none; the scan follows
(R28, R43, R101, R103, R105, R115, R153, R156, R188, R189). -/
def Obligations.PanelSetTakesEffect : Prop :=
  ∀ (s : State) (tag panel installed gain ring : Byte) (talk : Word) (strike : Byte) (p : Panel), Accepts s →
    (5 < panel.toNat →
      exec (.panelSet tag panel installed gain ring talk strike) s = .next (refusal s tag .range [])) ∧
    (panel.toNat = p.val → ∀ new : PanelProfile, new =
        { installed := installed != 0, gain := gain.toNat, ring := max 5 (min 120 ring.toNat)
          talk := max 10 (min 600 talk.toNat), strike := max 1 (min 15 strike.toNat) } →
      ∃ t, exec (.panelSet tag panel installed gain ring talk strike) s = .next t ∧
        t.settings = { s.settings with panels := vset s.settings.panels p new } ∧
        t.clu.replies = s.clu.replies ++ [{
          tag := tag, reason := .none
          result := if installed.toNat ≤ 1 ∧ new.ring = ring.toNat ∧ new.talk = talk.toNat ∧ new.strike = strike.toNat
            then .done else .adjusted
          data := [panel, if installed = 0 then 0 else 1, gain, byteOf new.ring] ++ wordOf new.talk
            ++ [byteOf new.strike] }] ∧
        t.directory = s.directory ∧ t.tones = s.tones ∧ t.store = s.store ∧
        ((s.panelProfile p).installed = new.installed →
          t = { s with settings := t.settings, panels := t.panels, clu := t.clu } ∧
          (∀ q, q ≠ p → t.panel q = s.panel q) ∧
          t.panel p = { s.panel p with
            output := if new.gain = (s.panelProfile p).gain then (s.panel p).output
              else (s.panel p).output.map fun _ =>
                { working := new.gain, tally := 0, clean := 0, position := 0, endTaken := false } }) ∧
        ((s.panelProfile p).installed = false → new.installed = true → (s.panel p).link.state = .down →
          (t.panel p).link.state = .hunt ∧ (t.panel p).link.good = 0 ∧
          ∃ f, (t.panel p).frame = some f ∧ panelFrameGood f = true ∧ f.sample = 0 ∧ f.code = 0x00) ∧
        ((s.panelProfile p).installed = true → new.installed = false →
          (t.panel p).link.state = .down ∧
          ((s.panel p).link.state = .up → (t.panel p).output = none ∧ (t.panel p).sendQueue = [] ∧
            ∀ i c, (s.panel p).current = some i → s.call i = some c → c.state ≠ .clearing →
              t.call i = if s.liveNames i then some (clearedRecord c .linkLost) else none)) ∧
        ((s.panelProfile p).installed = true → new.installed = false → (s.panel p).link.state ≠ .down →
          ∃ u, t = { State.settled s u with clu := { (State.settled s u).clu with replies := t.clu.replies } } ∧
            (u.panel p).link.state = .down ∧ (u.panel p).link.good = 0 ∧ (u.panel p).output = none ∧
            (u.panel p).endTone = none ∧ (u.panel p).sendQueue = [] ∧ (u.panel p).fifo.samples = [] ∧
            (u.panel p).fifo.uplink = 0 ∧ u.clu.receiver = .waiting ∧ u.clu.buffer = [] ∧
            (∀ i c, (s.panel p).current = some i → s.call i = some c → c.state ≠ .clearing →
              u.call i = (if s.liveNames i then some (clearedRecord c .linkLost) else none) ∧
              u.clu.reports.getLast? = some (.link .removed (some p) (some (i, c.serial)))) ∧
            ((s.panel p).current = none →
              u = { s.setPanel p (u.panel p) with
                settings := t.settings
                clu := { s.clu.posted (.link .removed (some p) none) with receiver := .waiting, buffer := [] } })))

/-- CONSOLE-SET takes its values into the console profile and the wait timeout, each out of range replaced by the nearer end, and
the reply carries them, ADJUSTED when a value was replaced; a changed console gain resets the console output to it, a changed
page gain every page slot output; nothing else changes (R144, R156, R188, R190). -/
def Obligations.ConsoleSetTakesEffect : Prop :=
  ∀ (s : State) (tag gain pageGain ring : Byte) (talk queue : Word) (page wait : Byte), Accepts s →
    ∀ (new : ConsoleProfile) (w : Nat), new =
        { gain := gain.toNat, pageGain := pageGain.toNat, ring := max 5 (min 120 ring.toNat)
          talk := max 10 (min 600 talk.toNat), queue := max 10 (min 300 queue.toNat), page := max 5 (min 120 page.toNat) } →
      w = max 5 (min 60 wait.toNat) →
      ∃ t, exec (.consoleSet tag gain pageGain ring talk queue page wait) s = .next t ∧
        t = { s with settings := { s.settings with console := new, wait := w }, risers := t.risers, clu := t.clu } ∧
        t.clu = { replied s.clu tag
            (if new.ring = ring.toNat ∧ new.talk = talk.toNat ∧ new.queue = queue.toNat ∧ new.page = page.toNat ∧
                w = wait.toNat then .done else .adjusted) .none
            ([gain, pageGain, byteOf new.ring] ++ wordOf new.talk ++ wordOf new.queue ++ [byteOf new.page, byteOf w]) with
          output := if gain.toNat = s.settings.console.gain then s.clu.output
            else s.clu.output.map fun _ =>
              { working := gain.toNat, tally := 0, clean := 0, position := 0, endTaken := false } } ∧
        ∀ r, t.riser r = { s.riser r with
          outputs := if pageGain.toNat = s.settings.console.pageGain then (s.riser r).outputs
            else vmap (Option.map fun o => if o.holder = .page then { o with out :=
              { working := pageGain.toNat, tally := 0, clean := 0, position := 0, endTaken := false } } else o)
              (s.riser r).outputs }

/-- RISER-SET of a riser over 7 is refused RANGE. Otherwise the riser's profile takes its values, with any enable but 0 taken as 1
and the reply ADJUSTED when it is over 1. An enable takes the riser from OFF to ACTIVE with empty schedules, every handset
ABSENT and its two timers at their periods; on a riser in another state a quiet period of 0 stops the quiet timer, a reversal
period of 0 the reversal timer, and another one starts a stopped reversal timer in ACTIVE and NORMAL with no sequence under way.
A disable takes the riser from ACTIVE to DRAINING with its orders gone, from QUIET or WAKING to OFF with all at rest; calls with
a leg or a slot there end RISER-OFF, and the page drops the riser, ending RISERS-GONE with its last one. The scan follows
(R18, R43, R88, R89, R90, R91, R92, R96, R98, R140, R188, R191). An OFF riser's poll pointer is log entry 28. -/
def Obligations.RiserSetEnablesAndDisables : Prop :=
  ∀ (s : State) (tag riser enable quiet reversal mute : Byte) (r : Riser), Accepts s →
    (7 < riser.toNat → exec (.riserSet tag riser enable quiet reversal mute) s = .next (refusal s tag .range [])) ∧
    (riser.toNat = r.val →
      ∃ u, exec (.riserSet tag riser enable quiet reversal mute) s = .next ((State.settled s u).reply {
          tag := tag, result := if enable.toNat ≤ 1 then .done else .adjusted, reason := .none
          data := [riser, if enable = 0 then 0 else 1, quiet, reversal, mute] }) ∧
        u = { s with
          settings := { s.settings with
            risers := vset s.settings.risers r
              { enable := enable != 0, quiet := quiet.toNat, reversal := reversal.toNat, mute := mute.toNat } }
          calls := u.calls, waitQueue := u.waitQueue, consoleQueue := u.consoleQueue, console := u.console, page := u.page
          risers := u.risers, panels := u.panels, notice := u.notice
          clu := { s.clu with
            receiver := .waiting, buffer := [], cursor := u.clu.cursor, reports := u.clu.reports, gap := u.clu.gap } } ∧
        (enable ≠ 0 ∨ (s.riser r).state = .off ∨ (s.riser r).state = .draining →
          u.calls = s.calls ∧ u.waitQueue = s.waitQueue ∧ u.consoleQueue = s.consoleQueue ∧ u.console = s.console ∧
          u.page = s.page ∧ u.panels = s.panels ∧ u.notice = s.notice ∧ ∀ r', r' ≠ r → u.riser r' = s.riser r') ∧
        (enable ≠ 0 → (s.riser r).state = .off → u.riser r = { RiserUnit.atRest with
            state := .active, quietTimer := .period quiet.toNat, reversalTimer := .period reversal.toNat } ∧
          u.clu = { s.clu.posted (.riser .enabled r) with receiver := .waiting, buffer := [] }) ∧
        (enable ≠ 0 ∧ (s.riser r).state ≠ .off ∨ enable = 0 ∧ ((s.riser r).state = .off ∨ (s.riser r).state = .draining) →
          u.clu.reports = s.clu.reports ∧ u.riser r = { s.riser r with
            quietTimer := if quiet = 0 ∨ ¬ (s.riser r).calm = true then .stopped else (s.riser r).quietTimer
            reversalTimer :=
              if reversal = 0 then .stopped
              else if (s.riser r).reversalTimer = .stopped ∧ (s.riser r).state = .active ∧
                  (s.riser r).reversal.sub = .normal ∧ (s.riser r).reversal.due = false then .period reversal.toNat
              else (s.riser r).reversalTimer }) ∧
        (enable = 0 → (s.riser r).state = .active → u.riser r = { s.riser r with
          state := .draining, queue := [], sent := none, quietTimer := .stopped, reversalTimer := .stopped
          reversal := { sub := .normal, length := 0, done := 0, due := false, endTaken := false }
          staged := (u.riser r).staged }) ∧
        (enable = 0 → (s.riser r).state = .quiet ∨ (s.riser r).state = .waking →
          u.riser r = { RiserUnit.atRest with
            staged := (u.riser r).staged, pollPointer := (s.riser r).pollPointer, polarity := (s.riser r).polarity } ∧
          .riser .off r ∈ u.clu.reports) ∧
        (enable = 0 → (s.riser r).state = .active ∨ (s.riser r).state = .quiet ∨ (s.riser r).state = .waking →
          (∀ i c, s.call i = some c → c.state ≠ .clearing →
            if r ∈ c.riserSet ∨ ∃ k, (vget (s.riser r).staged k).names i = true then
              (u.call i = none ∨ u.call i = some (clearedRecord c .riserOff)) ∧
              ∀ k, (vget (s.riser r).staged k).names i = true → vget (u.riser r).staged k = .idle
            else s.page = none → u.call i = some c) ∧
          (∀ p v p', s.page = some p → vget p.served r = some v → p' = { p with
              served := vset p.served r none, members := p.members.filter fun h => h.riser ≠ r } →
            vget (u.riser r).staged v.slot = .idle ∧ .pageDropped r ∈ u.clu.reports ∧
            if ∃ r', (vget p'.served r').isSome = true then u.page = some p' ∧ (s.console = .paging → u.console = .paging)
            else u.page = none ∧ u.console = .idle ∧ .pageEnded p.group .risersGone ∈ u.clu.reports) ∧
          (∀ p, s.page = some p → vget p.served r = none → u.page = s.page)))

/-- MIX-SET takes the clip limit, 0 replaced by 1 and the reply then ADJUSTED, and the trim floor, and raises the working gain of
every output below the smaller of the floor and its configured gain; SERVICE-ENTER and SERVICE-LEAVE set the Mixer's mode.
TONE-WRITE is refused RANGE for a waveform over 3 or a position over 39, MODE in NORMAL; in SERVICE the waveform's level is
replaced, and its samples at consecutive positions from the start, the position after 39 being 0, each sample outside
−8192…8191 written as the nearer end with the reply then ADJUSTED. Nothing else changes (R160, R167, R168, R188, R192). -/
def Obligations.MixerRequestsTakeEffect : Prop :=
  (∀ (s : State) (tag clip floor : Byte), Accepts s →
    ∃ t, exec (.mixSet tag clip floor) s = .next t ∧
      t = { s with
        settings := { s.settings with clip := max 1 clip.toNat, floor := floor.toNat }, risers := t.risers, panels := t.panels
        clu := t.clu } ∧
      t.clu = { replied s.clu tag (if clip = 0 then .adjusted else .done) .none [if clip = 0 then 1 else clip, floor] with
        output := s.clu.output.map fun o =>
          { o with working := max o.working (min floor.toNat s.settings.console.gain) } } ∧
      (∀ p, t.panel p = { s.panel p with output := (s.panel p).output.map fun o =>
        { o with working := max o.working (min floor.toNat (s.panelProfile p).gain) } }) ∧
      ∀ r, t.riser r = { s.riser r with outputs := vmap (Option.map fun x => { x with out := { x.out with
        working := max x.out.working (min floor.toNat (s.holderGain x.holder)) } }) (s.riser r).outputs }) ∧
  (∀ (s : State) (tag : Byte), Accepts s →
    exec (.serviceEnter tag) s = .next (confirmed { s with mixer := .service } tag [1]) ∧
    exec (.serviceLeave tag) s = .next (confirmed { s with mixer := .normal } tag [0])) ∧
  ∀ (s : State) (tag wave start level : Byte) (samples : List Word), Accepts s → samples.length ≤ 30 →
    if 3 < wave.toNat ∨ 39 < start.toNat then
      exec (.toneWrite tag wave start level samples) s = .next (refusal s tag .range [])
    else if s.mixer = .normal then exec (.toneWrite tag wave start level samples) s = .next (refusal s tag .mode [])
    else ∃ t, exec (.toneWrite tag wave start level samples) s = .next t ∧
      t = { s with
        tones := t.tones
        clu := replied s.clu tag (if ∀ w ∈ samples, -8192 ≤ w.toInt ∧ w.toInt ≤ 8191 then .done else .adjusted) .none
          [wave, start, byteOf samples.length] } ∧
      (∀ v, vget t.tones.levels v = if v.val = wave.toNat then level.toNat else vget s.tones.levels v) ∧
      (∀ v, v.val ≠ wave.toNat → vget t.tones.waves v = vget s.tones.waves v) ∧
      (∀ v, v.val = wave.toNat → ∀ n w, samples[n]? = some w →
        (vget (vget t.tones.waves v) (Fin.ofNat 40 (start.toNat + n))).toInt = max (-8192) (min 8191 w.toInt)) ∧
      ∀ v, v.val = wave.toNat → ∀ j : Fin 40, (∀ n, n < samples.length → j.val ≠ (start.toNat + n) % 40) →
        vget (vget t.tones.waves v) j = vget (vget s.tones.waves v) j

/-- STORE of a unit over 25 is refused RANGE and while a unit is being written BUSY; otherwise it is DONE, the unit's running
content is the snapshot being written, and the stored unit's check is erased, so that the unit fails its test; the other
units, the running copies and all else are what they were. At its completion the unit in the store holds the snapshot and
passes its test, no other unit has changed, the store is IDLE with its buffer empty, and a STORE report is posted
(R195, R196, R197, R199). The byte layout that a unit's check covers is the model's choice (log entry 9). -/
def Obligations.AStoreTakesAndWritesASnapshot : Prop :=
  (∀ (s : State) (tag unit : Byte), Accepts s →
    if 25 < unit.toNat then exec (.store tag unit) s = .next (refusal s tag .range [])
    else if s.writing.isSome then exec (.store tag unit) s = .next (refusal s tag .busy [])
    else ∃ t, exec (.store tag unit) s = .next t ∧
      t = { confirmed s tag [unit] with writing := t.writing, store := t.store } ∧
      (∀ p : PageIx, p.val = unit.toNat → t.writing = some (.page p (vget s.directory p)) ∧
        (vget t.store.pages p).passes pageBytes = false) ∧
      (∀ p : PageIx, p.val ≠ unit.toNat → vget t.store.pages p = vget s.store.pages p) ∧
      (if unit.toNat = 24 then t.writing = some (.settings s.settings) ∧ t.store.settings.passes settingsBytes = false
        else t.store.settings = s.store.settings) ∧
      (if unit.toNat = 25 then t.writing = some (.tones s.tones) ∧ t.store.tones.passes tonesBytes = false
        else t.store.tones = s.store.tones)) ∧
  (∀ (s : State) (w : Writing), Running s → s.writing = some w →
    ∃ t, exec .storeCompletion s = .next t ∧
      (match w with
        | .page p content => (vget t.store.pages p).content = content ∧
            (vget t.store.pages p).passes pageBytes = true ∧
            (∀ q, q ≠ p → vget t.store.pages q = vget s.store.pages q) ∧
            t.store.settings = s.store.settings ∧ t.store.tones = s.store.tones
        | .settings content => t.store.settings.content = content ∧ t.store.settings.passes settingsBytes = true ∧
            t.store.pages = s.store.pages ∧ t.store.tones = s.store.tones
        | .tones content => t.store.tones.content = content ∧ t.store.tones.passes tonesBytes = true ∧
            t.store.pages = s.store.pages ∧ t.store.settings = s.store.settings) ∧
      t.clu = s.clu.posted (.store w.unit) ∧
      t = { s with store := t.store, writing := none, clu := t.clu })

/-! ## The operator requests (chapters 1 and 6) -/

/-- CALL-FLAT is refused BUSY unless the console is IDLE, RANGE for a code over 9999, and BUSY with no FREE record; otherwise it is
DONE with the record and the next serial, and a DESK call of the console is set up: with targets and free slots on their
risers in service it is RINGING and the console in TALK; a code nobody holds ends it at once and the console is IDLE again
(R2, R4, R8, R10, R11, R118, R178). -/
def Obligations.CallFlatSetsUpADeskCall : Prop :=
  ∀ (s : State) (tag : Byte) (code : Word), Accepts s →
    (s.console ≠ .idle → exec (.callFlat tag code) s = .next (refusal s tag .busy [])) ∧
    (s.console = .idle → 9999 < code.toNat → exec (.callFlat tag code) s = .next (refusal s tag .range [])) ∧
    (s.console = .idle → code.toNat ≤ 9999 → s.freeRecord = none →
      exec (.callFlat tag code) s = .next (refusal s tag .busy [])) ∧
    (∀ i, s.console = .idle → code.toNat ≤ 9999 → s.freeRecord = some i →
      (∀ r k, (vget (s.riser r).staged k).names i = false) →
      ∃ t, exec (.callFlat tag code) s = .next t ∧ t.serialNext = s.serialNext + 1 ∧
        t.clu.replies = s.clu.replies ++
          [{ tag := tag, result := .done, reason := .none, data := byteOf i.val :: wordBytes s.serialNext }] ∧
        (∀ j, j ≠ i → t.call j = s.call j) ∧
        ((∀ e d, s.entry e = some d → d.code ≠ code.toNat) → (∀ r, (s.riser r).live.toList.any (·.names i) = false) →
          t.call i = none ∧ t.console = .idle) ∧
        ∀ list, s.lookup code.toNat = .targets list →
          (∀ x ∈ list, (s.riser x.2.handset.riser).inService = true ∧ 0 < (s.riser x.2.handset.riser).freeCount) →
          t.console = .talk i ∧ t.clu.cursor = some { tone := .ringback, phase := 0 } ∧
          t.call i = some
            { serial := s.serialNext, kind := .desk, origin := .console, code := some code.toNat, state := .ringing
              legs := list.map fun x =>
                { entry := some x.1, handset := x.2.handset, release := x.2.release, monitor := x.2.monitor
                  state := .ringing }
              answered := none, listenGain := none, strikes := 0, strikeTimer := .stopped
              ringTimer := .start s.settings.console.ring, talkTimer := .stopped, waitTimer := .stopped, sequence := none
              held := false, monitor := .none, endCause := none })

/-- ANSWER-NEXT is refused BUSY unless the console is IDLE, STATE with an empty Console Queue, and NO-SLOT, naming the record
and its riser, with no free slot there; otherwise the head record leaves the queue and is CONNECTED, the lowest free slot of
its riser carries it, its connect sequence is the next one, other calls changing only when the sequences are renumbered, its
listen gain is 64, its talk timer runs and ASSIGN waits for its handset (R4, R40, R118, R124). -/
def Obligations.AnswerNextConnectsTheHead : Prop :=
  ∀ (s : State) (tag : Byte), Accepts s →
    (s.console ≠ .idle → exec (.answerNext tag) s = .next (refusal s tag .busy [])) ∧
    (s.console = .idle → s.consoleQueue = [] → exec (.answerNext tag) s = .next (refusal s tag .state [])) ∧
    ∀ i rest c h, s.console = .idle → s.consoleQueue = i :: rest → s.call i = some c → c.origin = .handset h →
      s.consoleQueue.Nodup →
      ((s.riser h.riser).freeCount = 0 → exec (.answerNext tag) s = .next (refusal s tag .noSlot
        [byteOf i.val, byteOf h.riser.val])) ∧
      ∀ k, (s.riser h.riser).inService = true → (s.riser h.riser).slotFree k = true →
        (∀ j, j.val < k.val → (s.riser h.riser).slotFree j = false) →
        ∃ t, exec (.answerNext tag) s = .next t ∧ t.consoleQueue = rest ∧ t.console = .talk i ∧
          t.call i = some { c with
            state := .connected, waitTimer := .stopped, sequence := some s.takeSequence.1, listenGain := some 64
            talkTimer := .start s.settings.console.talk } ∧
          t.sequenceNext = s.takeSequence.2.sequenceNext ∧
          (t.riser h.riser).staged = vset (s.riser h.riser).staged k (.carrying i) ∧
          (TakesOrders s h → HasOrder t h (.assign k)) ∧ (∀ j, j ≠ i → t.call j = s.takeSequence.2.call j) ∧
          t.clu = { replied s.clu tag .done .none (byteOf i.val :: wordBytes c.serial ++ [handsetByte h, byteOf k.val]) with
            reports := (s.clu.posted (.call (.connected h s.takeSequence.1) (some (i, c.serial)) c.kind c.origin
              (some .connected))).reports
            gap := t.clu.gap }

/-- HANG-UP in TALK ends the call the console names, CANCELLED while it is QUEUED or RINGING and DESK-GONE otherwise, and is
refused STATE elsewhere; CLEAR-CALL ends the named call CLEARED, refused RANGE for a record over 15, STALE for a FREE record
or another serial, STATE for one in CLEARING; the scan follows (R3, R28, R29, R43, R118, R127, R128). -/
def Obligations.TheOperatorEndsCalls : Prop :=
  (∀ (s : State) (tag : Byte), Accepts s →
    ((∀ i, s.console ≠ .talk i) → exec (.hangUp tag) s = .next (refusal s tag .state [])) ∧
    ∀ i c, s.console = .talk i → s.call i = some c → c.state ≠ .clearing →
      ∃ u cause, exec (.hangUp tag) s = .next ((State.settled s u).reply {
          tag := tag, result := .done, reason := .none
          data := byteOf i.val :: wordBytes c.serial ++ [byteOf cause.code] }) ∧
        cause = (if c.state = .queued ∨ c.state = .ringing then EndCause.cancelled else .deskGone) ∧
        Ended s u i c cause ∧ u.clu.receiver = .waiting ∧ u.clu.buffer = [] ∧ u.clu.replies = s.clu.replies) ∧
  (∀ (s : State) (tag record : Byte) (serial : Word), Accepts s →
    (15 < record.toNat → exec (.clearCall tag record serial) s = .next (refusal s tag .range [])) ∧
    ∀ i : Rec, record.toNat = i.val →
      (∀ c, s.call i = some c → c.serial = serial → c.state ≠ .clearing →
        ∃ u, exec (.clearCall tag record serial) s = .next ((State.settled s u).reply {
            tag := tag, result := .done, reason := .none, data := byteOf i.val :: wordBytes serial }) ∧
          Ended s u i c .cleared ∧ u.clu.receiver = .waiting ∧ u.clu.buffer = [] ∧ u.clu.replies = s.clu.replies) ∧
      ((∀ c, s.call i = some c → c.serial ≠ serial) →
        exec (.clearCall tag record serial) s = .next (refusal s tag .stale [])) ∧
      (∀ c, s.call i = some c → c.serial = serial → c.state = .clearing →
        exec (.clearCall tag record serial) s = .next (refusal s tag .state [])))

/-- LISTEN and BARGE are refused, in this order, BUSY unless the console is IDLE, RANGE or STALE for a record not so named, STATE
unless the call is a CONNECTED ENTRY call, DENIED unless its answered leg allows monitoring; otherwise the console state and
the record's monitor say so and the NOTICE starts. LEAVE ends either, refused STATE elsewhere (R3, R118, R129, R130, R132). -/
def Obligations.MonitoringStartsAndEnds : Prop :=
  (∀ (s : State) (tag record : Byte) (serial : Word), Accepts s →
    ∀ e console monitor, (e = Instr.listen tag record serial ∧ console = ConsoleState.listen ∧ monitor = Monitor.listen) ∨
        (e = Instr.barge tag record serial ∧ console = ConsoleState.barge ∧ monitor = Monitor.barge) →
      (s.console ≠ .idle → exec e s = .next (refusal s tag .busy [])) ∧
      (s.console = .idle → 15 < record.toNat → exec e s = .next (refusal s tag .range [])) ∧
      ∀ i : Rec, s.console = .idle → record.toNat = i.val →
        ((∀ c, s.call i = some c → c.serial ≠ serial) → exec e s = .next (refusal s tag .stale [])) ∧
        ∀ c, s.call i = some c → c.serial = serial →
          exec e s = .next (
            if c.state ≠ .connected ∨ c.kind ≠ .entry then refusal s tag .state []
            else if (c.answeredLeg.map (·.monitor)) ≠ some true then refusal s tag .denied []
            else confirmed { s with
              console := console i, calls := vset s.calls i (some { c with monitor := monitor })
              notice := some { record := i, serial := serial, count := 0 } } tag
              (byteOf i.val :: wordBytes serial))) ∧
  (∀ (s : State) (tag : Byte), Accepts s →
    (∀ i c, s.console = .listen i ∨ s.console = .barge i → s.call i = some c →
      exec (.leave tag) s = .next (confirmed { s with
        console := .idle, calls := vset s.calls i (some { c with monitor := .none }) } tag
        (byteOf i.val :: wordBytes c.serial))) ∧
    ((∀ i, s.console ≠ .listen i ∧ s.console ≠ .barge i) → exec (.leave tag) s = .next (refusal s tag .state [])))

/-- PAGE-START is refused BUSY unless the console is IDLE, RANGE for a group outside 1–15, STATE without a candidate, and NO-SLOT
when no riser can serve. A candidate is a handset of the group on-hook and PRESENT on a riser in service, in no call. When some
riser can serve, on each riser that holds candidates, the page takes the lowest free slot, else borrows
that of the CONNECTED call with the highest connect sequence, else skips the riser; its members are the candidates on the
risers it serves, PAGE-ON waits for each, its timer runs and the console is PAGING (R62, R118, R133, R134, R135, R136). -/
def Obligations.PageStartTakesOrBorrowsSlots : Prop :=
  ∀ (s : State) (tag group : Byte), Accepts s →
    (s.console ≠ .idle → exec (.pageStart tag group) s = .next (refusal s tag .busy [])) ∧
    (s.console = .idle → group.toNat = 0 ∨ 15 < group.toNat →
      exec (.pageStart tag group) s = .next (refusal s tag .range [])) ∧
    (∀ h, h ∈ s.candidates group.toNat ↔ (∃ e d, s.entry e = some d ∧ d.group = group.toNat ∧ d.handset = h) ∧
      TakesOrders s h ∧ (s.presence h).offHook = false ∧ ∀ i c, s.call i = some c → c.hasLive h = false) ∧
    (s.candidates group.toNat).Pairwise (fun a b => a.riser < b.riser ∨ a.riser = b.riser ∧ a.addr < b.addr) ∧
    (s.console = .idle → 0 < group.toNat → group.toNat ≤ 15 →
      (s.candidates group.toNat = [] → exec (.pageStart tag group) s = .next (refusal s tag .state [])) ∧
      (s.candidates group.toNat ≠ [] → (∀ h ∈ s.candidates group.toNat, (s.riser h.riser).lowestFree = none ∧
          ∀ k i c, vget (s.riser h.riser).staged k = .carrying i → s.call i = some c → c.state ≠ .connected) →
        exec (.pageStart tag group) s = .next (refusal s tag .noSlot [])) ∧
      ((∃ h ∈ s.candidates group.toNat, (s.riser h.riser).lowestFree.isSome = true) ∨
          (SlotsFollowTheirCalls s ∧
            ∃ h ∈ s.candidates group.toNat, ∃ k i, vget (s.riser h.riser).staged k = .carrying i) →
        ∃ t p, exec (.pageStart tag group) s = .next t ∧ t.page = some p ∧ t.console = .paging ∧ p.group = group.toNat ∧
          p.timer = .start s.settings.console.page ∧
          p.members = (s.candidates group.toNat).filter (fun h => (vget p.served h.riser).isSome) ∧
          (∀ h ∈ p.members, ∀ v, vget p.served h.riser = some v → HasOrder t h (.pageOn v.slot)) ∧
          (∀ r, (∀ h ∈ s.candidates group.toNat, h.riser ≠ r) → vget p.served r = none ∧ r ∉ p.skipped ∧
            (t.riser r).staged = (s.riser r).staged) ∧
          (∀ h ∈ s.candidates group.toNat, h.riser ∈ p.skipped ↔ vget p.served h.riser = none) ∧
          (∀ h ∈ s.candidates group.toNat, ∀ k, (s.riser h.riser).lowestFree = some k →
            vget p.served h.riser = some { slot := k, lender := none } ∧ vget (t.riser h.riser).staged k = .page) ∧
          (∀ h ∈ s.candidates group.toNat, (s.riser h.riser).lowestFree = none → SlotsFollowTheirCalls s →
            ∀ i c k, vget (s.riser h.riser).staged k = .carrying i → s.call i = some c → c.state = .connected →
              (∀ i' c' k', vget (s.riser h.riser).staged k' = .carrying i' → s.call i' = some c' → i' ≠ i →
                c'.sequence.getD 0 < c.sequence.getD 0) →
              vget p.served h.riser = some { slot := k, lender := some (i, c.serial) } ∧
              vget (t.riser h.riser).staged k = .page ∧
              t.call i = some { c with state := .held, held := true, talkTimer := c.talkTimer.freeze }) ∧
          (∀ i, (∀ r v, vget p.served r = some v → v.lender.map Prod.fst ≠ some i) → t.call i = s.call i)))

/-- The page ends when its timer expires and, while the console is PAGING, by PAGE-END, which replies with its group and is
refused STATE elsewhere; its end is reported with its cause, and the scan follows (R43, R133, R138, R141, R142). That the
expiry is taken whatever time the timer has left is the model's choice (log entry 4). -/
def Obligations.APageEndReturnsItsSlots : Prop :=
  (∀ (s : State) (p : PageRecord) (n : Nat), Running s → s.page = some p → p.timer = .running n →
    ∃ u, exec .pageTimerExpiry s = .next (State.settled s u) ∧ PageOver s u p ∧
      u.clu.reports.getLast? = some (.pageEnded p.group .timeout)) ∧
  (∀ (s : State) (tag : Byte) (p : PageRecord), Accepts s → s.console = .paging → s.page = some p →
    ∃ u, exec (.pageEnd tag) s = .next ((State.settled s u).reply
        { tag := tag, result := .done, reason := .none, data := [byteOf p.group] }) ∧
      PageOver s u p ∧ u.clu.reports.getLast? = some (.pageEnded p.group .pageEnd) ∧
      u.clu.receiver = .waiting ∧ u.clu.buffer = [] ∧ u.clu.replies = s.clu.replies) ∧
  (∀ (s : State) (tag : Byte), Accepts s → s.console ≠ .paging →
    exec (.pageEnd tag) s = .next (refusal s tag .state []))

/-! ## Laws every step keeps -/

/-- The part right after reset meets the laws its steps keep. -/
def Obligations.ResetMeetsTheLaws : Prop :=
  WithinCapacities State.reset ∧ CallsConsistent State.reset ∧ StoreSound State.reset ∧ LinkGainsBounded State.reset ∧
    QuietTimersCalm State.reset ∧ HandsetsInOneCall State.reset

/-- Every step keeps the capacities: 8 records in either queue of calls, 4 replies, 16 reports, 16 samples in a FIFO, 8 messages
in a send queue, one order for an address, three strikes in a call (R19, R41, R81, R106, R110, R119, R173, R179, R182). -/
def Obligations.StepsKeepTheCapacities : Prop :=
  ∀ s t : State, WithinCapacities s → step s = .next t → WithinCapacities t

/-- Every step keeps the call table, its two queues and the staged schedules in agreement: among them, that a call
is carried in one slot at most (R33, R34, R41, R119). -/
def Obligations.StepsKeepCallsConsistent : Prop :=
  ∀ s t : State, CallsConsistent s → step s = .next t → CallsConsistent t

/-- Every step keeps the handsets of calls apart: the legs of a call name distinct handsets, a handset is an undropped leg of one
call at most, and a page member is on-hook and in no call (R6, R13, R134, R137). -/
def Obligations.StepsKeepHandsetsInOneCall : Prop :=
  ∀ s t : State, HandsetsInOneCall s → step s = .next t → HandsetsInOneCall t

/-- Every step keeps the quiet timers under their conditions: one that is not stopped belongs to an ACTIVE riser with an empty
order queue, both schedules IDLE and every handset on-hook (R53, R92). -/
def Obligations.StepsKeepQuietTimersCalm : Prop :=
  ∀ s t : State, QuietTimersCalm s → step s = .next t → QuietTimersCalm t

/-- Every step keeps each stored unit either passing its test or with its check erased, and the unit that is being written has its
check erased, so that a loss of power at any moment leaves no unit that passes with a content never stored (R195, R196, R198). -/
def Obligations.StepsKeepTheStoreSound : Prop :=
  ∀ s t : State, StoreSound s → step s = .next t → StoreSound t

/-- Every step keeps the working gains of the panel outputs and of the console output between the smaller of the trim floor and the
configured gain, and the configured gain (R158, R160). -/
def Obligations.StepsKeepTheLinkGainsBounded : Prop :=
  ∀ s t : State, LinkGainsBounded s → step s = .next t → LinkGainsBounded t

/-- Live schedules change only at frame boundaries: while the part runs, a step whose command is no frame boundary of a riser leaves
that riser's live schedule as it is, unless the riser is or becomes OFF (R35, R49, R52). -/
def Obligations.LiveSchedulesChangeAtTheirBoundaries : Prop :=
  ∀ (s t : State) (r : Riser), step s = .next t → Running s → Running t →
    (∀ voice, s.pending.head? ≠ some (.riserFrameBoundary r voice)) →
    (s.riser r).state ≠ .off → (t.riser r).state ≠ .off → (t.riser r).live = (s.riser r).live
end

