-- ==== Sys2Proof/Laws/State.lean ====
section
/-! SUPPORT. The tables' laws, and for each update of State one lemma a field: what it writes, and that every other field is
what it was. -/

namespace Sys2Proof

/-! ## Tables -/

variable {α β : Type} {n : Nat}

theorem vget_vset (v : Vector α n) (i j : Fin n) (x : α) : vget (vset v i x) j = if i = j then x else vget v j := by
  simp [vget, vset, Vector.getElem_set, Fin.ext_iff]

@[simp] theorem vget_vset_self (v : Vector α n) (i : Fin n) (x : α) : vget (vset v i x) i = x := by simp [vget_vset]

theorem vget_vset_ne (v : Vector α n) {i j : Fin n} (h : i ≠ j) (x : α) : vget (vset v i x) j = vget v j := by
  simp [vget_vset, h]

@[simp] theorem vget_vmap (f : α → β) (v : Vector α n) (i : Fin n) : vget (vmap f v) i = f (vget v i) := by
  simp [vget, vmap]

@[simp] theorem vget_vtab (f : Fin n → α) (i : Fin n) : vget (vtab f) i = f i := by
  simp [vget, vtab]

@[simp] theorem vget_replicate (x : α) (i : Fin n) : vget (Vector.replicate n x) i = x := by
  simp [vget]

/-- Tables that agree at every index are equal. -/
theorem vget_ext {v w : Vector α n} (h : ∀ i, vget v i = vget w i) : v = w := by
  ext i hi
  exact h ⟨i, hi⟩

theorem vset_vget (v : Vector α n) (i : Fin n) : vset v i (vget v i) = v := by
  apply vget_ext; intro j; rw [vget_vset]; split <;> simp_all

/-- A test of every entry of a table, by index. -/
theorem all_toList (v : Vector α n) (f : α → Bool) : v.toList.all f = true ↔ ∀ i, f (vget v i) = true := by
  rw [List.all_eq_true]
  constructor
  · intro h i
    exact h _ (by simp [vget])
  · intro h x hx
    rw [Vector.mem_toList_iff, Vector.mem_iff_getElem] at hx
    obtain ⟨i, hi, rfl⟩ := hx
    exact h ⟨i, hi⟩

/-- A test of some entry of a table, by index. -/
theorem any_toList (v : Vector α n) (f : α → Bool) : v.toList.any f = true ↔ ∃ i, f (vget v i) = true := by
  rw [List.any_eq_true]
  constructor
  · rintro ⟨x, hx, h⟩
    rw [Vector.mem_toList_iff, Vector.mem_iff_getElem] at hx
    obtain ⟨i, hi, rfl⟩ := hx
    exact ⟨⟨i, hi⟩, h⟩
  · rintro ⟨i, h⟩
    exact ⟨vget v i, by simp [vget], h⟩

end Sys2Proof

namespace Sys2Proof.Machine

variable (s : State)

/-! ## Reading a block after its update -/

@[simp] theorem State.riser_setRiser (r r' : Riser) (u : RiserUnit) :
    (s.setRiser r u).riser r' = if r = r' then u else s.riser r' := vget_vset ..

@[simp] theorem State.panel_setPanel (p p' : Panel) (u : PanelUnit) :
    (s.setPanel p u).panel p' = if p = p' then u else s.panel p' := vget_vset ..

@[simp] theorem State.call_setCall (i j : Rec) (c : Option Call) :
    (s.setCall i c).call j = if i = j then c else s.call j := vget_vset ..

@[simp] theorem State.riser_modRiser (r r' : Riser) (f : RiserUnit → RiserUnit) :
    (s.modRiser r f).riser r' =
      if r = r' then .retimed (s.riserProfile r).quiet (s.riser r) (f (s.riser r)) else s.riser r' := vget_vset ..

@[simp] theorem State.panel_modPanel (p p' : Panel) (f : PanelUnit → PanelUnit) :
    (s.modPanel p f).panel p' = if p = p' then f (s.panel p) else s.panel p' := vget_vset ..

@[simp] theorem State.call_modCall (i j : Rec) (f : Call → Call) :
    (s.modCall i f).call j = if i = j then (s.call i).map f else s.call j := vget_vset ..

@[simp] theorem State.dirPage_setDirPage (p p' : PageIx) (q : DirPage) :
    (s.setDirPage p q).dirPage p' = if p = p' then q else s.dirPage p' := vget_vset ..

/-! ## starting -/

@[simp] theorem State.starting_stage : s.starting.stage = .loading 0 := rfl
@[simp] theorem State.starting_lockHeld : s.starting.lockHeld = s.lockLine := rfl
@[simp] theorem State.starting_torn : s.starting.torn = [] := rfl
@[simp] theorem State.starting_pending : s.starting.pending = s.pending := rfl
@[simp] theorem State.starting_power : s.starting.power = s.power := rfl
@[simp] theorem State.starting_resetLine : s.starting.resetLine = s.resetLine := rfl
@[simp] theorem State.starting_lockLine : s.starting.lockLine = s.lockLine := rfl
@[simp] theorem State.starting_store : s.starting.store = s.store := rfl
@[simp] theorem State.starting_writing : s.starting.writing = s.writing := rfl
@[simp] theorem State.starting_powerLost : s.starting.powerLost = s.powerLost := rfl
@[simp] theorem State.starting_startup : s.starting.startup = s.startup := rfl
@[simp] theorem State.starting_directory : s.starting.directory = s.directory := rfl
@[simp] theorem State.starting_settings : s.starting.settings = s.settings := rfl
@[simp] theorem State.starting_tones : s.starting.tones = s.tones := rfl
@[simp] theorem State.starting_calls : s.starting.calls = s.calls := rfl
@[simp] theorem State.starting_serialNext : s.starting.serialNext = s.serialNext := rfl
@[simp] theorem State.starting_sequenceNext : s.starting.sequenceNext = s.sequenceNext := rfl
@[simp] theorem State.starting_waitQueue : s.starting.waitQueue = s.waitQueue := rfl
@[simp] theorem State.starting_consoleQueue : s.starting.consoleQueue = s.consoleQueue := rfl
@[simp] theorem State.starting_console : s.starting.console = s.console := rfl
@[simp] theorem State.starting_page : s.starting.page = s.page := rfl
@[simp] theorem State.starting_risers : s.starting.risers = s.risers := rfl
@[simp] theorem State.starting_panels : s.starting.panels = s.panels := rfl
@[simp] theorem State.starting_clu : s.starting.clu = s.clu := rfl
@[simp] theorem State.starting_mixer : s.starting.mixer = s.mixer := rfl
@[simp] theorem State.starting_notice : s.starting.notice = s.notice := rfl
@[simp] theorem State.starting_draws : s.starting.draws = s.draws := rfl

/-! ## setRiser -/

@[simp] theorem State.setRiser_pending (r : Riser) (u : RiserUnit) : (s.setRiser r u).pending = s.pending := rfl
@[simp] theorem State.setRiser_power (r : Riser) (u : RiserUnit) : (s.setRiser r u).power = s.power := rfl
@[simp] theorem State.setRiser_stage (r : Riser) (u : RiserUnit) : (s.setRiser r u).stage = s.stage := rfl
@[simp] theorem State.setRiser_resetLine (r : Riser) (u : RiserUnit) : (s.setRiser r u).resetLine = s.resetLine := rfl
@[simp] theorem State.setRiser_lockLine (r : Riser) (u : RiserUnit) : (s.setRiser r u).lockLine = s.lockLine := rfl
@[simp] theorem State.setRiser_lockHeld (r : Riser) (u : RiserUnit) : (s.setRiser r u).lockHeld = s.lockHeld := rfl
@[simp] theorem State.setRiser_store (r : Riser) (u : RiserUnit) : (s.setRiser r u).store = s.store := rfl
@[simp] theorem State.setRiser_writing (r : Riser) (u : RiserUnit) : (s.setRiser r u).writing = s.writing := rfl
@[simp] theorem State.setRiser_powerLost (r : Riser) (u : RiserUnit) : (s.setRiser r u).powerLost = s.powerLost := rfl
@[simp] theorem State.setRiser_torn (r : Riser) (u : RiserUnit) : (s.setRiser r u).torn = s.torn := rfl
@[simp] theorem State.setRiser_startup (r : Riser) (u : RiserUnit) : (s.setRiser r u).startup = s.startup := rfl
@[simp] theorem State.setRiser_directory (r : Riser) (u : RiserUnit) : (s.setRiser r u).directory = s.directory := rfl
@[simp] theorem State.setRiser_settings (r : Riser) (u : RiserUnit) : (s.setRiser r u).settings = s.settings := rfl
@[simp] theorem State.setRiser_tones (r : Riser) (u : RiserUnit) : (s.setRiser r u).tones = s.tones := rfl
@[simp] theorem State.setRiser_calls (r : Riser) (u : RiserUnit) : (s.setRiser r u).calls = s.calls := rfl
@[simp] theorem State.setRiser_serialNext (r : Riser) (u : RiserUnit) : (s.setRiser r u).serialNext = s.serialNext := rfl
@[simp] theorem State.setRiser_sequenceNext (r : Riser) (u : RiserUnit) : (s.setRiser r u).sequenceNext = s.sequenceNext := rfl
@[simp] theorem State.setRiser_waitQueue (r : Riser) (u : RiserUnit) : (s.setRiser r u).waitQueue = s.waitQueue := rfl
@[simp] theorem State.setRiser_consoleQueue (r : Riser) (u : RiserUnit) : (s.setRiser r u).consoleQueue = s.consoleQueue := rfl
@[simp] theorem State.setRiser_console (r : Riser) (u : RiserUnit) : (s.setRiser r u).console = s.console := rfl
@[simp] theorem State.setRiser_page (r : Riser) (u : RiserUnit) : (s.setRiser r u).page = s.page := rfl
@[simp] theorem State.setRiser_risers (r : Riser) (u : RiserUnit) : (s.setRiser r u).risers = vset s.risers r u := rfl
@[simp] theorem State.setRiser_panels (r : Riser) (u : RiserUnit) : (s.setRiser r u).panels = s.panels := rfl
@[simp] theorem State.setRiser_clu (r : Riser) (u : RiserUnit) : (s.setRiser r u).clu = s.clu := rfl
@[simp] theorem State.setRiser_mixer (r : Riser) (u : RiserUnit) : (s.setRiser r u).mixer = s.mixer := rfl
@[simp] theorem State.setRiser_notice (r : Riser) (u : RiserUnit) : (s.setRiser r u).notice = s.notice := rfl
@[simp] theorem State.setRiser_draws (r : Riser) (u : RiserUnit) : (s.setRiser r u).draws = s.draws := rfl
@[simp] theorem State.setRiser_panel (r : Riser) (u : RiserUnit) (p' : Panel) : (s.setRiser r u).panel p' = s.panel p' := rfl
@[simp] theorem State.setRiser_call (r : Riser) (u : RiserUnit) (j : Rec) : (s.setRiser r u).call j = s.call j := rfl
@[simp] theorem State.setRiser_riserProfile (r : Riser) (u : RiserUnit) (r' : Riser) : (s.setRiser r u).riserProfile r' = s.riserProfile r' := rfl
@[simp] theorem State.setRiser_panelProfile (r : Riser) (u : RiserUnit) (p' : Panel) : (s.setRiser r u).panelProfile p' = s.panelProfile p' := rfl
@[simp] theorem State.setRiser_dirPage (r : Riser) (u : RiserUnit) (p' : PageIx) : (s.setRiser r u).dirPage p' = s.dirPage p' := rfl
@[simp] theorem State.setRiser_entry (r : Riser) (u : RiserUnit) (e : EntryIx) : (s.setRiser r u).entry e = s.entry e := rfl

/-! ## setPanel -/

@[simp] theorem State.setPanel_pending (p : Panel) (u : PanelUnit) : (s.setPanel p u).pending = s.pending := rfl
@[simp] theorem State.setPanel_power (p : Panel) (u : PanelUnit) : (s.setPanel p u).power = s.power := rfl
@[simp] theorem State.setPanel_stage (p : Panel) (u : PanelUnit) : (s.setPanel p u).stage = s.stage := rfl
@[simp] theorem State.setPanel_resetLine (p : Panel) (u : PanelUnit) : (s.setPanel p u).resetLine = s.resetLine := rfl
@[simp] theorem State.setPanel_lockLine (p : Panel) (u : PanelUnit) : (s.setPanel p u).lockLine = s.lockLine := rfl
@[simp] theorem State.setPanel_lockHeld (p : Panel) (u : PanelUnit) : (s.setPanel p u).lockHeld = s.lockHeld := rfl
@[simp] theorem State.setPanel_store (p : Panel) (u : PanelUnit) : (s.setPanel p u).store = s.store := rfl
@[simp] theorem State.setPanel_writing (p : Panel) (u : PanelUnit) : (s.setPanel p u).writing = s.writing := rfl
@[simp] theorem State.setPanel_powerLost (p : Panel) (u : PanelUnit) : (s.setPanel p u).powerLost = s.powerLost := rfl
@[simp] theorem State.setPanel_torn (p : Panel) (u : PanelUnit) : (s.setPanel p u).torn = s.torn := rfl
@[simp] theorem State.setPanel_startup (p : Panel) (u : PanelUnit) : (s.setPanel p u).startup = s.startup := rfl
@[simp] theorem State.setPanel_directory (p : Panel) (u : PanelUnit) : (s.setPanel p u).directory = s.directory := rfl
@[simp] theorem State.setPanel_settings (p : Panel) (u : PanelUnit) : (s.setPanel p u).settings = s.settings := rfl
@[simp] theorem State.setPanel_tones (p : Panel) (u : PanelUnit) : (s.setPanel p u).tones = s.tones := rfl
@[simp] theorem State.setPanel_calls (p : Panel) (u : PanelUnit) : (s.setPanel p u).calls = s.calls := rfl
@[simp] theorem State.setPanel_serialNext (p : Panel) (u : PanelUnit) : (s.setPanel p u).serialNext = s.serialNext := rfl
@[simp] theorem State.setPanel_sequenceNext (p : Panel) (u : PanelUnit) : (s.setPanel p u).sequenceNext = s.sequenceNext := rfl
@[simp] theorem State.setPanel_waitQueue (p : Panel) (u : PanelUnit) : (s.setPanel p u).waitQueue = s.waitQueue := rfl
@[simp] theorem State.setPanel_consoleQueue (p : Panel) (u : PanelUnit) : (s.setPanel p u).consoleQueue = s.consoleQueue := rfl
@[simp] theorem State.setPanel_console (p : Panel) (u : PanelUnit) : (s.setPanel p u).console = s.console := rfl
@[simp] theorem State.setPanel_page (p : Panel) (u : PanelUnit) : (s.setPanel p u).page = s.page := rfl
@[simp] theorem State.setPanel_risers (p : Panel) (u : PanelUnit) : (s.setPanel p u).risers = s.risers := rfl
@[simp] theorem State.setPanel_panels (p : Panel) (u : PanelUnit) : (s.setPanel p u).panels = vset s.panels p u := rfl
@[simp] theorem State.setPanel_clu (p : Panel) (u : PanelUnit) : (s.setPanel p u).clu = s.clu := rfl
@[simp] theorem State.setPanel_mixer (p : Panel) (u : PanelUnit) : (s.setPanel p u).mixer = s.mixer := rfl
@[simp] theorem State.setPanel_notice (p : Panel) (u : PanelUnit) : (s.setPanel p u).notice = s.notice := rfl
@[simp] theorem State.setPanel_draws (p : Panel) (u : PanelUnit) : (s.setPanel p u).draws = s.draws := rfl
@[simp] theorem State.setPanel_riser (p : Panel) (u : PanelUnit) (r' : Riser) : (s.setPanel p u).riser r' = s.riser r' := rfl
@[simp] theorem State.setPanel_call (p : Panel) (u : PanelUnit) (j : Rec) : (s.setPanel p u).call j = s.call j := rfl
@[simp] theorem State.setPanel_riserProfile (p : Panel) (u : PanelUnit) (r' : Riser) : (s.setPanel p u).riserProfile r' = s.riserProfile r' := rfl
@[simp] theorem State.setPanel_panelProfile (p : Panel) (u : PanelUnit) (p' : Panel) : (s.setPanel p u).panelProfile p' = s.panelProfile p' := rfl
@[simp] theorem State.setPanel_dirPage (p : Panel) (u : PanelUnit) (p' : PageIx) : (s.setPanel p u).dirPage p' = s.dirPage p' := rfl
@[simp] theorem State.setPanel_entry (p : Panel) (u : PanelUnit) (e : EntryIx) : (s.setPanel p u).entry e = s.entry e := rfl

/-! ## setCall -/

@[simp] theorem State.setCall_pending (i : Rec) (c : Option Call) : (s.setCall i c).pending = s.pending := rfl
@[simp] theorem State.setCall_power (i : Rec) (c : Option Call) : (s.setCall i c).power = s.power := rfl
@[simp] theorem State.setCall_stage (i : Rec) (c : Option Call) : (s.setCall i c).stage = s.stage := rfl
@[simp] theorem State.setCall_resetLine (i : Rec) (c : Option Call) : (s.setCall i c).resetLine = s.resetLine := rfl
@[simp] theorem State.setCall_lockLine (i : Rec) (c : Option Call) : (s.setCall i c).lockLine = s.lockLine := rfl
@[simp] theorem State.setCall_lockHeld (i : Rec) (c : Option Call) : (s.setCall i c).lockHeld = s.lockHeld := rfl
@[simp] theorem State.setCall_store (i : Rec) (c : Option Call) : (s.setCall i c).store = s.store := rfl
@[simp] theorem State.setCall_writing (i : Rec) (c : Option Call) : (s.setCall i c).writing = s.writing := rfl
@[simp] theorem State.setCall_powerLost (i : Rec) (c : Option Call) : (s.setCall i c).powerLost = s.powerLost := rfl
@[simp] theorem State.setCall_torn (i : Rec) (c : Option Call) : (s.setCall i c).torn = s.torn := rfl
@[simp] theorem State.setCall_startup (i : Rec) (c : Option Call) : (s.setCall i c).startup = s.startup := rfl
@[simp] theorem State.setCall_directory (i : Rec) (c : Option Call) : (s.setCall i c).directory = s.directory := rfl
@[simp] theorem State.setCall_settings (i : Rec) (c : Option Call) : (s.setCall i c).settings = s.settings := rfl
@[simp] theorem State.setCall_tones (i : Rec) (c : Option Call) : (s.setCall i c).tones = s.tones := rfl
@[simp] theorem State.setCall_calls (i : Rec) (c : Option Call) : (s.setCall i c).calls = vset s.calls i c := rfl
@[simp] theorem State.setCall_serialNext (i : Rec) (c : Option Call) : (s.setCall i c).serialNext = s.serialNext := rfl
@[simp] theorem State.setCall_sequenceNext (i : Rec) (c : Option Call) : (s.setCall i c).sequenceNext = s.sequenceNext := rfl
@[simp] theorem State.setCall_waitQueue (i : Rec) (c : Option Call) : (s.setCall i c).waitQueue = s.waitQueue := rfl
@[simp] theorem State.setCall_consoleQueue (i : Rec) (c : Option Call) : (s.setCall i c).consoleQueue = s.consoleQueue := rfl
@[simp] theorem State.setCall_console (i : Rec) (c : Option Call) : (s.setCall i c).console = s.console := rfl
@[simp] theorem State.setCall_page (i : Rec) (c : Option Call) : (s.setCall i c).page = s.page := rfl
@[simp] theorem State.setCall_risers (i : Rec) (c : Option Call) : (s.setCall i c).risers = s.risers := rfl
@[simp] theorem State.setCall_panels (i : Rec) (c : Option Call) : (s.setCall i c).panels = s.panels := rfl
@[simp] theorem State.setCall_clu (i : Rec) (c : Option Call) : (s.setCall i c).clu = s.clu := rfl
@[simp] theorem State.setCall_mixer (i : Rec) (c : Option Call) : (s.setCall i c).mixer = s.mixer := rfl
@[simp] theorem State.setCall_notice (i : Rec) (c : Option Call) : (s.setCall i c).notice = s.notice := rfl
@[simp] theorem State.setCall_draws (i : Rec) (c : Option Call) : (s.setCall i c).draws = s.draws := rfl
@[simp] theorem State.setCall_riser (i : Rec) (c : Option Call) (r' : Riser) : (s.setCall i c).riser r' = s.riser r' := rfl
@[simp] theorem State.setCall_panel (i : Rec) (c : Option Call) (p' : Panel) : (s.setCall i c).panel p' = s.panel p' := rfl
@[simp] theorem State.setCall_riserProfile (i : Rec) (c : Option Call) (r' : Riser) : (s.setCall i c).riserProfile r' = s.riserProfile r' := rfl
@[simp] theorem State.setCall_panelProfile (i : Rec) (c : Option Call) (p' : Panel) : (s.setCall i c).panelProfile p' = s.panelProfile p' := rfl
@[simp] theorem State.setCall_dirPage (i : Rec) (c : Option Call) (p' : PageIx) : (s.setCall i c).dirPage p' = s.dirPage p' := rfl
@[simp] theorem State.setCall_entry (i : Rec) (c : Option Call) (e : EntryIx) : (s.setCall i c).entry e = s.entry e := rfl

/-! ## setClu -/

@[simp] theorem State.setClu_pending (c : ConsoleUnit) : (s.setClu c).pending = s.pending := rfl
@[simp] theorem State.setClu_power (c : ConsoleUnit) : (s.setClu c).power = s.power := rfl
@[simp] theorem State.setClu_stage (c : ConsoleUnit) : (s.setClu c).stage = s.stage := rfl
@[simp] theorem State.setClu_resetLine (c : ConsoleUnit) : (s.setClu c).resetLine = s.resetLine := rfl
@[simp] theorem State.setClu_lockLine (c : ConsoleUnit) : (s.setClu c).lockLine = s.lockLine := rfl
@[simp] theorem State.setClu_lockHeld (c : ConsoleUnit) : (s.setClu c).lockHeld = s.lockHeld := rfl
@[simp] theorem State.setClu_store (c : ConsoleUnit) : (s.setClu c).store = s.store := rfl
@[simp] theorem State.setClu_writing (c : ConsoleUnit) : (s.setClu c).writing = s.writing := rfl
@[simp] theorem State.setClu_powerLost (c : ConsoleUnit) : (s.setClu c).powerLost = s.powerLost := rfl
@[simp] theorem State.setClu_torn (c : ConsoleUnit) : (s.setClu c).torn = s.torn := rfl
@[simp] theorem State.setClu_startup (c : ConsoleUnit) : (s.setClu c).startup = s.startup := rfl
@[simp] theorem State.setClu_directory (c : ConsoleUnit) : (s.setClu c).directory = s.directory := rfl
@[simp] theorem State.setClu_settings (c : ConsoleUnit) : (s.setClu c).settings = s.settings := rfl
@[simp] theorem State.setClu_tones (c : ConsoleUnit) : (s.setClu c).tones = s.tones := rfl
@[simp] theorem State.setClu_calls (c : ConsoleUnit) : (s.setClu c).calls = s.calls := rfl
@[simp] theorem State.setClu_serialNext (c : ConsoleUnit) : (s.setClu c).serialNext = s.serialNext := rfl
@[simp] theorem State.setClu_sequenceNext (c : ConsoleUnit) : (s.setClu c).sequenceNext = s.sequenceNext := rfl
@[simp] theorem State.setClu_waitQueue (c : ConsoleUnit) : (s.setClu c).waitQueue = s.waitQueue := rfl
@[simp] theorem State.setClu_consoleQueue (c : ConsoleUnit) : (s.setClu c).consoleQueue = s.consoleQueue := rfl
@[simp] theorem State.setClu_console (c : ConsoleUnit) : (s.setClu c).console = s.console := rfl
@[simp] theorem State.setClu_page (c : ConsoleUnit) : (s.setClu c).page = s.page := rfl
@[simp] theorem State.setClu_risers (c : ConsoleUnit) : (s.setClu c).risers = s.risers := rfl
@[simp] theorem State.setClu_panels (c : ConsoleUnit) : (s.setClu c).panels = s.panels := rfl
@[simp] theorem State.setClu_clu (c : ConsoleUnit) : (s.setClu c).clu = c := rfl
@[simp] theorem State.setClu_mixer (c : ConsoleUnit) : (s.setClu c).mixer = s.mixer := rfl
@[simp] theorem State.setClu_notice (c : ConsoleUnit) : (s.setClu c).notice = s.notice := rfl
@[simp] theorem State.setClu_draws (c : ConsoleUnit) : (s.setClu c).draws = s.draws := rfl
@[simp] theorem State.setClu_riser (c : ConsoleUnit) (r' : Riser) : (s.setClu c).riser r' = s.riser r' := rfl
@[simp] theorem State.setClu_panel (c : ConsoleUnit) (p' : Panel) : (s.setClu c).panel p' = s.panel p' := rfl
@[simp] theorem State.setClu_call (c : ConsoleUnit) (j : Rec) : (s.setClu c).call j = s.call j := rfl
@[simp] theorem State.setClu_riserProfile (c : ConsoleUnit) (r' : Riser) : (s.setClu c).riserProfile r' = s.riserProfile r' := rfl
@[simp] theorem State.setClu_panelProfile (c : ConsoleUnit) (p' : Panel) : (s.setClu c).panelProfile p' = s.panelProfile p' := rfl
@[simp] theorem State.setClu_dirPage (c : ConsoleUnit) (p' : PageIx) : (s.setClu c).dirPage p' = s.dirPage p' := rfl
@[simp] theorem State.setClu_entry (c : ConsoleUnit) (e : EntryIx) : (s.setClu c).entry e = s.entry e := rfl

/-! ## setConsole -/

@[simp] theorem State.setConsole_pending (c : ConsoleState) : (s.setConsole c).pending = s.pending := rfl
@[simp] theorem State.setConsole_power (c : ConsoleState) : (s.setConsole c).power = s.power := rfl
@[simp] theorem State.setConsole_stage (c : ConsoleState) : (s.setConsole c).stage = s.stage := rfl
@[simp] theorem State.setConsole_resetLine (c : ConsoleState) : (s.setConsole c).resetLine = s.resetLine := rfl
@[simp] theorem State.setConsole_lockLine (c : ConsoleState) : (s.setConsole c).lockLine = s.lockLine := rfl
@[simp] theorem State.setConsole_lockHeld (c : ConsoleState) : (s.setConsole c).lockHeld = s.lockHeld := rfl
@[simp] theorem State.setConsole_store (c : ConsoleState) : (s.setConsole c).store = s.store := rfl
@[simp] theorem State.setConsole_writing (c : ConsoleState) : (s.setConsole c).writing = s.writing := rfl
@[simp] theorem State.setConsole_powerLost (c : ConsoleState) : (s.setConsole c).powerLost = s.powerLost := rfl
@[simp] theorem State.setConsole_torn (c : ConsoleState) : (s.setConsole c).torn = s.torn := rfl
@[simp] theorem State.setConsole_startup (c : ConsoleState) : (s.setConsole c).startup = s.startup := rfl
@[simp] theorem State.setConsole_directory (c : ConsoleState) : (s.setConsole c).directory = s.directory := rfl
@[simp] theorem State.setConsole_settings (c : ConsoleState) : (s.setConsole c).settings = s.settings := rfl
@[simp] theorem State.setConsole_tones (c : ConsoleState) : (s.setConsole c).tones = s.tones := rfl
@[simp] theorem State.setConsole_calls (c : ConsoleState) : (s.setConsole c).calls = s.calls := rfl
@[simp] theorem State.setConsole_serialNext (c : ConsoleState) : (s.setConsole c).serialNext = s.serialNext := rfl
@[simp] theorem State.setConsole_sequenceNext (c : ConsoleState) : (s.setConsole c).sequenceNext = s.sequenceNext := rfl
@[simp] theorem State.setConsole_waitQueue (c : ConsoleState) : (s.setConsole c).waitQueue = s.waitQueue := rfl
@[simp] theorem State.setConsole_consoleQueue (c : ConsoleState) : (s.setConsole c).consoleQueue = s.consoleQueue := rfl
@[simp] theorem State.setConsole_console (c : ConsoleState) : (s.setConsole c).console = c := rfl
@[simp] theorem State.setConsole_page (c : ConsoleState) : (s.setConsole c).page = s.page := rfl
@[simp] theorem State.setConsole_risers (c : ConsoleState) : (s.setConsole c).risers = s.risers := rfl
@[simp] theorem State.setConsole_panels (c : ConsoleState) : (s.setConsole c).panels = s.panels := rfl
@[simp] theorem State.setConsole_clu (c : ConsoleState) : (s.setConsole c).clu = s.clu := rfl
@[simp] theorem State.setConsole_mixer (c : ConsoleState) : (s.setConsole c).mixer = s.mixer := rfl
@[simp] theorem State.setConsole_notice (c : ConsoleState) : (s.setConsole c).notice = s.notice := rfl
@[simp] theorem State.setConsole_draws (c : ConsoleState) : (s.setConsole c).draws = s.draws := rfl
@[simp] theorem State.setConsole_riser (c : ConsoleState) (r' : Riser) : (s.setConsole c).riser r' = s.riser r' := rfl
@[simp] theorem State.setConsole_panel (c : ConsoleState) (p' : Panel) : (s.setConsole c).panel p' = s.panel p' := rfl
@[simp] theorem State.setConsole_call (c : ConsoleState) (j : Rec) : (s.setConsole c).call j = s.call j := rfl
@[simp] theorem State.setConsole_riserProfile (c : ConsoleState) (r' : Riser) : (s.setConsole c).riserProfile r' = s.riserProfile r' := rfl
@[simp] theorem State.setConsole_panelProfile (c : ConsoleState) (p' : Panel) : (s.setConsole c).panelProfile p' = s.panelProfile p' := rfl
@[simp] theorem State.setConsole_dirPage (c : ConsoleState) (p' : PageIx) : (s.setConsole c).dirPage p' = s.dirPage p' := rfl
@[simp] theorem State.setConsole_entry (c : ConsoleState) (e : EntryIx) : (s.setConsole c).entry e = s.entry e := rfl

/-! ## setPage -/

@[simp] theorem State.setPage_pending (p : Option PageRecord) : (s.setPage p).pending = s.pending := rfl
@[simp] theorem State.setPage_power (p : Option PageRecord) : (s.setPage p).power = s.power := rfl
@[simp] theorem State.setPage_stage (p : Option PageRecord) : (s.setPage p).stage = s.stage := rfl
@[simp] theorem State.setPage_resetLine (p : Option PageRecord) : (s.setPage p).resetLine = s.resetLine := rfl
@[simp] theorem State.setPage_lockLine (p : Option PageRecord) : (s.setPage p).lockLine = s.lockLine := rfl
@[simp] theorem State.setPage_lockHeld (p : Option PageRecord) : (s.setPage p).lockHeld = s.lockHeld := rfl
@[simp] theorem State.setPage_store (p : Option PageRecord) : (s.setPage p).store = s.store := rfl
@[simp] theorem State.setPage_writing (p : Option PageRecord) : (s.setPage p).writing = s.writing := rfl
@[simp] theorem State.setPage_powerLost (p : Option PageRecord) : (s.setPage p).powerLost = s.powerLost := rfl
@[simp] theorem State.setPage_torn (p : Option PageRecord) : (s.setPage p).torn = s.torn := rfl
@[simp] theorem State.setPage_startup (p : Option PageRecord) : (s.setPage p).startup = s.startup := rfl
@[simp] theorem State.setPage_directory (p : Option PageRecord) : (s.setPage p).directory = s.directory := rfl
@[simp] theorem State.setPage_settings (p : Option PageRecord) : (s.setPage p).settings = s.settings := rfl
@[simp] theorem State.setPage_tones (p : Option PageRecord) : (s.setPage p).tones = s.tones := rfl
@[simp] theorem State.setPage_calls (p : Option PageRecord) : (s.setPage p).calls = s.calls := rfl
@[simp] theorem State.setPage_serialNext (p : Option PageRecord) : (s.setPage p).serialNext = s.serialNext := rfl
@[simp] theorem State.setPage_sequenceNext (p : Option PageRecord) : (s.setPage p).sequenceNext = s.sequenceNext := rfl
@[simp] theorem State.setPage_waitQueue (p : Option PageRecord) : (s.setPage p).waitQueue = s.waitQueue := rfl
@[simp] theorem State.setPage_consoleQueue (p : Option PageRecord) : (s.setPage p).consoleQueue = s.consoleQueue := rfl
@[simp] theorem State.setPage_console (p : Option PageRecord) : (s.setPage p).console = s.console := rfl
@[simp] theorem State.setPage_page (p : Option PageRecord) : (s.setPage p).page = p := rfl
@[simp] theorem State.setPage_risers (p : Option PageRecord) : (s.setPage p).risers = s.risers := rfl
@[simp] theorem State.setPage_panels (p : Option PageRecord) : (s.setPage p).panels = s.panels := rfl
@[simp] theorem State.setPage_clu (p : Option PageRecord) : (s.setPage p).clu = s.clu := rfl
@[simp] theorem State.setPage_mixer (p : Option PageRecord) : (s.setPage p).mixer = s.mixer := rfl
@[simp] theorem State.setPage_notice (p : Option PageRecord) : (s.setPage p).notice = s.notice := rfl
@[simp] theorem State.setPage_draws (p : Option PageRecord) : (s.setPage p).draws = s.draws := rfl
@[simp] theorem State.setPage_riser (p : Option PageRecord) (r' : Riser) : (s.setPage p).riser r' = s.riser r' := rfl
@[simp] theorem State.setPage_panel (p : Option PageRecord) (p' : Panel) : (s.setPage p).panel p' = s.panel p' := rfl
@[simp] theorem State.setPage_call (p : Option PageRecord) (j : Rec) : (s.setPage p).call j = s.call j := rfl
@[simp] theorem State.setPage_riserProfile (p : Option PageRecord) (r' : Riser) : (s.setPage p).riserProfile r' = s.riserProfile r' := rfl
@[simp] theorem State.setPage_panelProfile (p : Option PageRecord) (p' : Panel) : (s.setPage p).panelProfile p' = s.panelProfile p' := rfl
@[simp] theorem State.setPage_dirPage (p : Option PageRecord) (p' : PageIx) : (s.setPage p).dirPage p' = s.dirPage p' := rfl
@[simp] theorem State.setPage_entry (p : Option PageRecord) (e : EntryIx) : (s.setPage p).entry e = s.entry e := rfl

/-! ## setNotice -/

@[simp] theorem State.setNotice_pending (n : Option Notice) : (s.setNotice n).pending = s.pending := rfl
@[simp] theorem State.setNotice_power (n : Option Notice) : (s.setNotice n).power = s.power := rfl
@[simp] theorem State.setNotice_stage (n : Option Notice) : (s.setNotice n).stage = s.stage := rfl
@[simp] theorem State.setNotice_resetLine (n : Option Notice) : (s.setNotice n).resetLine = s.resetLine := rfl
@[simp] theorem State.setNotice_lockLine (n : Option Notice) : (s.setNotice n).lockLine = s.lockLine := rfl
@[simp] theorem State.setNotice_lockHeld (n : Option Notice) : (s.setNotice n).lockHeld = s.lockHeld := rfl
@[simp] theorem State.setNotice_store (n : Option Notice) : (s.setNotice n).store = s.store := rfl
@[simp] theorem State.setNotice_writing (n : Option Notice) : (s.setNotice n).writing = s.writing := rfl
@[simp] theorem State.setNotice_powerLost (n : Option Notice) : (s.setNotice n).powerLost = s.powerLost := rfl
@[simp] theorem State.setNotice_torn (n : Option Notice) : (s.setNotice n).torn = s.torn := rfl
@[simp] theorem State.setNotice_startup (n : Option Notice) : (s.setNotice n).startup = s.startup := rfl
@[simp] theorem State.setNotice_directory (n : Option Notice) : (s.setNotice n).directory = s.directory := rfl
@[simp] theorem State.setNotice_settings (n : Option Notice) : (s.setNotice n).settings = s.settings := rfl
@[simp] theorem State.setNotice_tones (n : Option Notice) : (s.setNotice n).tones = s.tones := rfl
@[simp] theorem State.setNotice_calls (n : Option Notice) : (s.setNotice n).calls = s.calls := rfl
@[simp] theorem State.setNotice_serialNext (n : Option Notice) : (s.setNotice n).serialNext = s.serialNext := rfl
@[simp] theorem State.setNotice_sequenceNext (n : Option Notice) : (s.setNotice n).sequenceNext = s.sequenceNext := rfl
@[simp] theorem State.setNotice_waitQueue (n : Option Notice) : (s.setNotice n).waitQueue = s.waitQueue := rfl
@[simp] theorem State.setNotice_consoleQueue (n : Option Notice) : (s.setNotice n).consoleQueue = s.consoleQueue := rfl
@[simp] theorem State.setNotice_console (n : Option Notice) : (s.setNotice n).console = s.console := rfl
@[simp] theorem State.setNotice_page (n : Option Notice) : (s.setNotice n).page = s.page := rfl
@[simp] theorem State.setNotice_risers (n : Option Notice) : (s.setNotice n).risers = s.risers := rfl
@[simp] theorem State.setNotice_panels (n : Option Notice) : (s.setNotice n).panels = s.panels := rfl
@[simp] theorem State.setNotice_clu (n : Option Notice) : (s.setNotice n).clu = s.clu := rfl
@[simp] theorem State.setNotice_mixer (n : Option Notice) : (s.setNotice n).mixer = s.mixer := rfl
@[simp] theorem State.setNotice_notice (n : Option Notice) : (s.setNotice n).notice = n := rfl
@[simp] theorem State.setNotice_draws (n : Option Notice) : (s.setNotice n).draws = s.draws := rfl
@[simp] theorem State.setNotice_riser (n : Option Notice) (r' : Riser) : (s.setNotice n).riser r' = s.riser r' := rfl
@[simp] theorem State.setNotice_panel (n : Option Notice) (p' : Panel) : (s.setNotice n).panel p' = s.panel p' := rfl
@[simp] theorem State.setNotice_call (n : Option Notice) (j : Rec) : (s.setNotice n).call j = s.call j := rfl
@[simp] theorem State.setNotice_riserProfile (n : Option Notice) (r' : Riser) : (s.setNotice n).riserProfile r' = s.riserProfile r' := rfl
@[simp] theorem State.setNotice_panelProfile (n : Option Notice) (p' : Panel) : (s.setNotice n).panelProfile p' = s.panelProfile p' := rfl
@[simp] theorem State.setNotice_dirPage (n : Option Notice) (p' : PageIx) : (s.setNotice n).dirPage p' = s.dirPage p' := rfl
@[simp] theorem State.setNotice_entry (n : Option Notice) (e : EntryIx) : (s.setNotice n).entry e = s.entry e := rfl

/-! ## setDirectory -/

@[simp] theorem State.setDirectory_pending (d : Vector DirPage 24) : (s.setDirectory d).pending = s.pending := rfl
@[simp] theorem State.setDirectory_power (d : Vector DirPage 24) : (s.setDirectory d).power = s.power := rfl
@[simp] theorem State.setDirectory_stage (d : Vector DirPage 24) : (s.setDirectory d).stage = s.stage := rfl
@[simp] theorem State.setDirectory_resetLine (d : Vector DirPage 24) : (s.setDirectory d).resetLine = s.resetLine := rfl
@[simp] theorem State.setDirectory_lockLine (d : Vector DirPage 24) : (s.setDirectory d).lockLine = s.lockLine := rfl
@[simp] theorem State.setDirectory_lockHeld (d : Vector DirPage 24) : (s.setDirectory d).lockHeld = s.lockHeld := rfl
@[simp] theorem State.setDirectory_store (d : Vector DirPage 24) : (s.setDirectory d).store = s.store := rfl
@[simp] theorem State.setDirectory_writing (d : Vector DirPage 24) : (s.setDirectory d).writing = s.writing := rfl
@[simp] theorem State.setDirectory_powerLost (d : Vector DirPage 24) : (s.setDirectory d).powerLost = s.powerLost := rfl
@[simp] theorem State.setDirectory_torn (d : Vector DirPage 24) : (s.setDirectory d).torn = s.torn := rfl
@[simp] theorem State.setDirectory_startup (d : Vector DirPage 24) : (s.setDirectory d).startup = s.startup := rfl
@[simp] theorem State.setDirectory_directory (d : Vector DirPage 24) : (s.setDirectory d).directory = d := rfl
@[simp] theorem State.setDirectory_settings (d : Vector DirPage 24) : (s.setDirectory d).settings = s.settings := rfl
@[simp] theorem State.setDirectory_tones (d : Vector DirPage 24) : (s.setDirectory d).tones = s.tones := rfl
@[simp] theorem State.setDirectory_calls (d : Vector DirPage 24) : (s.setDirectory d).calls = s.calls := rfl
@[simp] theorem State.setDirectory_serialNext (d : Vector DirPage 24) : (s.setDirectory d).serialNext = s.serialNext := rfl
@[simp] theorem State.setDirectory_sequenceNext (d : Vector DirPage 24) : (s.setDirectory d).sequenceNext = s.sequenceNext := rfl
@[simp] theorem State.setDirectory_waitQueue (d : Vector DirPage 24) : (s.setDirectory d).waitQueue = s.waitQueue := rfl
@[simp] theorem State.setDirectory_consoleQueue (d : Vector DirPage 24) : (s.setDirectory d).consoleQueue = s.consoleQueue := rfl
@[simp] theorem State.setDirectory_console (d : Vector DirPage 24) : (s.setDirectory d).console = s.console := rfl
@[simp] theorem State.setDirectory_page (d : Vector DirPage 24) : (s.setDirectory d).page = s.page := rfl
@[simp] theorem State.setDirectory_risers (d : Vector DirPage 24) : (s.setDirectory d).risers = s.risers := rfl
@[simp] theorem State.setDirectory_panels (d : Vector DirPage 24) : (s.setDirectory d).panels = s.panels := rfl
@[simp] theorem State.setDirectory_clu (d : Vector DirPage 24) : (s.setDirectory d).clu = s.clu := rfl
@[simp] theorem State.setDirectory_mixer (d : Vector DirPage 24) : (s.setDirectory d).mixer = s.mixer := rfl
@[simp] theorem State.setDirectory_notice (d : Vector DirPage 24) : (s.setDirectory d).notice = s.notice := rfl
@[simp] theorem State.setDirectory_draws (d : Vector DirPage 24) : (s.setDirectory d).draws = s.draws := rfl
@[simp] theorem State.setDirectory_riser (d : Vector DirPage 24) (r' : Riser) : (s.setDirectory d).riser r' = s.riser r' := rfl
@[simp] theorem State.setDirectory_panel (d : Vector DirPage 24) (p' : Panel) : (s.setDirectory d).panel p' = s.panel p' := rfl
@[simp] theorem State.setDirectory_call (d : Vector DirPage 24) (j : Rec) : (s.setDirectory d).call j = s.call j := rfl
@[simp] theorem State.setDirectory_riserProfile (d : Vector DirPage 24) (r' : Riser) : (s.setDirectory d).riserProfile r' = s.riserProfile r' := rfl
@[simp] theorem State.setDirectory_panelProfile (d : Vector DirPage 24) (p' : Panel) : (s.setDirectory d).panelProfile p' = s.panelProfile p' := rfl

/-! ## setSettings -/

@[simp] theorem State.setSettings_pending (c : Settings) : (s.setSettings c).pending = s.pending := rfl
@[simp] theorem State.setSettings_power (c : Settings) : (s.setSettings c).power = s.power := rfl
@[simp] theorem State.setSettings_stage (c : Settings) : (s.setSettings c).stage = s.stage := rfl
@[simp] theorem State.setSettings_resetLine (c : Settings) : (s.setSettings c).resetLine = s.resetLine := rfl
@[simp] theorem State.setSettings_lockLine (c : Settings) : (s.setSettings c).lockLine = s.lockLine := rfl
@[simp] theorem State.setSettings_lockHeld (c : Settings) : (s.setSettings c).lockHeld = s.lockHeld := rfl
@[simp] theorem State.setSettings_store (c : Settings) : (s.setSettings c).store = s.store := rfl
@[simp] theorem State.setSettings_writing (c : Settings) : (s.setSettings c).writing = s.writing := rfl
@[simp] theorem State.setSettings_powerLost (c : Settings) : (s.setSettings c).powerLost = s.powerLost := rfl
@[simp] theorem State.setSettings_torn (c : Settings) : (s.setSettings c).torn = s.torn := rfl
@[simp] theorem State.setSettings_startup (c : Settings) : (s.setSettings c).startup = s.startup := rfl
@[simp] theorem State.setSettings_directory (c : Settings) : (s.setSettings c).directory = s.directory := rfl
@[simp] theorem State.setSettings_settings (c : Settings) : (s.setSettings c).settings = c := rfl
@[simp] theorem State.setSettings_tones (c : Settings) : (s.setSettings c).tones = s.tones := rfl
@[simp] theorem State.setSettings_calls (c : Settings) : (s.setSettings c).calls = s.calls := rfl
@[simp] theorem State.setSettings_serialNext (c : Settings) : (s.setSettings c).serialNext = s.serialNext := rfl
@[simp] theorem State.setSettings_sequenceNext (c : Settings) : (s.setSettings c).sequenceNext = s.sequenceNext := rfl
@[simp] theorem State.setSettings_waitQueue (c : Settings) : (s.setSettings c).waitQueue = s.waitQueue := rfl
@[simp] theorem State.setSettings_consoleQueue (c : Settings) : (s.setSettings c).consoleQueue = s.consoleQueue := rfl
@[simp] theorem State.setSettings_console (c : Settings) : (s.setSettings c).console = s.console := rfl
@[simp] theorem State.setSettings_page (c : Settings) : (s.setSettings c).page = s.page := rfl
@[simp] theorem State.setSettings_risers (c : Settings) : (s.setSettings c).risers = s.risers := rfl
@[simp] theorem State.setSettings_panels (c : Settings) : (s.setSettings c).panels = s.panels := rfl
@[simp] theorem State.setSettings_clu (c : Settings) : (s.setSettings c).clu = s.clu := rfl
@[simp] theorem State.setSettings_mixer (c : Settings) : (s.setSettings c).mixer = s.mixer := rfl
@[simp] theorem State.setSettings_notice (c : Settings) : (s.setSettings c).notice = s.notice := rfl
@[simp] theorem State.setSettings_draws (c : Settings) : (s.setSettings c).draws = s.draws := rfl
@[simp] theorem State.setSettings_riser (c : Settings) (r' : Riser) : (s.setSettings c).riser r' = s.riser r' := rfl
@[simp] theorem State.setSettings_panel (c : Settings) (p' : Panel) : (s.setSettings c).panel p' = s.panel p' := rfl
@[simp] theorem State.setSettings_call (c : Settings) (j : Rec) : (s.setSettings c).call j = s.call j := rfl
@[simp] theorem State.setSettings_dirPage (c : Settings) (p' : PageIx) : (s.setSettings c).dirPage p' = s.dirPage p' := rfl
@[simp] theorem State.setSettings_entry (c : Settings) (e : EntryIx) : (s.setSettings c).entry e = s.entry e := rfl

/-! ## setDirPage -/

@[simp] theorem State.setDirPage_pending (p : PageIx) (q : DirPage) : (s.setDirPage p q).pending = s.pending := rfl
@[simp] theorem State.setDirPage_power (p : PageIx) (q : DirPage) : (s.setDirPage p q).power = s.power := rfl
@[simp] theorem State.setDirPage_stage (p : PageIx) (q : DirPage) : (s.setDirPage p q).stage = s.stage := rfl
@[simp] theorem State.setDirPage_resetLine (p : PageIx) (q : DirPage) : (s.setDirPage p q).resetLine = s.resetLine := rfl
@[simp] theorem State.setDirPage_lockLine (p : PageIx) (q : DirPage) : (s.setDirPage p q).lockLine = s.lockLine := rfl
@[simp] theorem State.setDirPage_lockHeld (p : PageIx) (q : DirPage) : (s.setDirPage p q).lockHeld = s.lockHeld := rfl
@[simp] theorem State.setDirPage_store (p : PageIx) (q : DirPage) : (s.setDirPage p q).store = s.store := rfl
@[simp] theorem State.setDirPage_writing (p : PageIx) (q : DirPage) : (s.setDirPage p q).writing = s.writing := rfl
@[simp] theorem State.setDirPage_powerLost (p : PageIx) (q : DirPage) : (s.setDirPage p q).powerLost = s.powerLost := rfl
@[simp] theorem State.setDirPage_torn (p : PageIx) (q : DirPage) : (s.setDirPage p q).torn = s.torn := rfl
@[simp] theorem State.setDirPage_startup (p : PageIx) (q : DirPage) : (s.setDirPage p q).startup = s.startup := rfl
@[simp] theorem State.setDirPage_directory (p : PageIx) (q : DirPage) : (s.setDirPage p q).directory = vset s.directory p q := rfl
@[simp] theorem State.setDirPage_settings (p : PageIx) (q : DirPage) : (s.setDirPage p q).settings = s.settings := rfl
@[simp] theorem State.setDirPage_tones (p : PageIx) (q : DirPage) : (s.setDirPage p q).tones = s.tones := rfl
@[simp] theorem State.setDirPage_calls (p : PageIx) (q : DirPage) : (s.setDirPage p q).calls = s.calls := rfl
@[simp] theorem State.setDirPage_serialNext (p : PageIx) (q : DirPage) : (s.setDirPage p q).serialNext = s.serialNext := rfl
@[simp] theorem State.setDirPage_sequenceNext (p : PageIx) (q : DirPage) : (s.setDirPage p q).sequenceNext = s.sequenceNext := rfl
@[simp] theorem State.setDirPage_waitQueue (p : PageIx) (q : DirPage) : (s.setDirPage p q).waitQueue = s.waitQueue := rfl
@[simp] theorem State.setDirPage_consoleQueue (p : PageIx) (q : DirPage) : (s.setDirPage p q).consoleQueue = s.consoleQueue := rfl
@[simp] theorem State.setDirPage_console (p : PageIx) (q : DirPage) : (s.setDirPage p q).console = s.console := rfl
@[simp] theorem State.setDirPage_page (p : PageIx) (q : DirPage) : (s.setDirPage p q).page = s.page := rfl
@[simp] theorem State.setDirPage_risers (p : PageIx) (q : DirPage) : (s.setDirPage p q).risers = s.risers := rfl
@[simp] theorem State.setDirPage_panels (p : PageIx) (q : DirPage) : (s.setDirPage p q).panels = s.panels := rfl
@[simp] theorem State.setDirPage_clu (p : PageIx) (q : DirPage) : (s.setDirPage p q).clu = s.clu := rfl
@[simp] theorem State.setDirPage_mixer (p : PageIx) (q : DirPage) : (s.setDirPage p q).mixer = s.mixer := rfl
@[simp] theorem State.setDirPage_notice (p : PageIx) (q : DirPage) : (s.setDirPage p q).notice = s.notice := rfl
@[simp] theorem State.setDirPage_draws (p : PageIx) (q : DirPage) : (s.setDirPage p q).draws = s.draws := rfl
@[simp] theorem State.setDirPage_riser (p : PageIx) (q : DirPage) (r' : Riser) : (s.setDirPage p q).riser r' = s.riser r' := rfl
@[simp] theorem State.setDirPage_panel (p : PageIx) (q : DirPage) (p' : Panel) : (s.setDirPage p q).panel p' = s.panel p' := rfl
@[simp] theorem State.setDirPage_call (p : PageIx) (q : DirPage) (j : Rec) : (s.setDirPage p q).call j = s.call j := rfl
@[simp] theorem State.setDirPage_riserProfile (p : PageIx) (q : DirPage) (r' : Riser) : (s.setDirPage p q).riserProfile r' = s.riserProfile r' := rfl
@[simp] theorem State.setDirPage_panelProfile (p : PageIx) (q : DirPage) (p' : Panel) : (s.setDirPage p q).panelProfile p' = s.panelProfile p' := rfl

/-! ## modPanel -/

@[simp] theorem State.modPanel_pending (p : Panel) (f : PanelUnit → PanelUnit) : (s.modPanel p f).pending = s.pending := rfl
@[simp] theorem State.modPanel_power (p : Panel) (f : PanelUnit → PanelUnit) : (s.modPanel p f).power = s.power := rfl
@[simp] theorem State.modPanel_stage (p : Panel) (f : PanelUnit → PanelUnit) : (s.modPanel p f).stage = s.stage := rfl
@[simp] theorem State.modPanel_resetLine (p : Panel) (f : PanelUnit → PanelUnit) : (s.modPanel p f).resetLine = s.resetLine := rfl
@[simp] theorem State.modPanel_lockLine (p : Panel) (f : PanelUnit → PanelUnit) : (s.modPanel p f).lockLine = s.lockLine := rfl
@[simp] theorem State.modPanel_lockHeld (p : Panel) (f : PanelUnit → PanelUnit) : (s.modPanel p f).lockHeld = s.lockHeld := rfl
@[simp] theorem State.modPanel_store (p : Panel) (f : PanelUnit → PanelUnit) : (s.modPanel p f).store = s.store := rfl
@[simp] theorem State.modPanel_writing (p : Panel) (f : PanelUnit → PanelUnit) : (s.modPanel p f).writing = s.writing := rfl
@[simp] theorem State.modPanel_powerLost (p : Panel) (f : PanelUnit → PanelUnit) : (s.modPanel p f).powerLost = s.powerLost := rfl
@[simp] theorem State.modPanel_torn (p : Panel) (f : PanelUnit → PanelUnit) : (s.modPanel p f).torn = s.torn := rfl
@[simp] theorem State.modPanel_startup (p : Panel) (f : PanelUnit → PanelUnit) : (s.modPanel p f).startup = s.startup := rfl
@[simp] theorem State.modPanel_directory (p : Panel) (f : PanelUnit → PanelUnit) : (s.modPanel p f).directory = s.directory := rfl
@[simp] theorem State.modPanel_settings (p : Panel) (f : PanelUnit → PanelUnit) : (s.modPanel p f).settings = s.settings := rfl
@[simp] theorem State.modPanel_tones (p : Panel) (f : PanelUnit → PanelUnit) : (s.modPanel p f).tones = s.tones := rfl
@[simp] theorem State.modPanel_calls (p : Panel) (f : PanelUnit → PanelUnit) : (s.modPanel p f).calls = s.calls := rfl
@[simp] theorem State.modPanel_serialNext (p : Panel) (f : PanelUnit → PanelUnit) : (s.modPanel p f).serialNext = s.serialNext := rfl
@[simp] theorem State.modPanel_sequenceNext (p : Panel) (f : PanelUnit → PanelUnit) : (s.modPanel p f).sequenceNext = s.sequenceNext := rfl
@[simp] theorem State.modPanel_waitQueue (p : Panel) (f : PanelUnit → PanelUnit) : (s.modPanel p f).waitQueue = s.waitQueue := rfl
@[simp] theorem State.modPanel_consoleQueue (p : Panel) (f : PanelUnit → PanelUnit) : (s.modPanel p f).consoleQueue = s.consoleQueue := rfl
@[simp] theorem State.modPanel_console (p : Panel) (f : PanelUnit → PanelUnit) : (s.modPanel p f).console = s.console := rfl
@[simp] theorem State.modPanel_page (p : Panel) (f : PanelUnit → PanelUnit) : (s.modPanel p f).page = s.page := rfl
@[simp] theorem State.modPanel_risers (p : Panel) (f : PanelUnit → PanelUnit) : (s.modPanel p f).risers = s.risers := rfl
@[simp] theorem State.modPanel_panels (p : Panel) (f : PanelUnit → PanelUnit) : (s.modPanel p f).panels = vset s.panels p (f (s.panel p)) := rfl
@[simp] theorem State.modPanel_clu (p : Panel) (f : PanelUnit → PanelUnit) : (s.modPanel p f).clu = s.clu := rfl
@[simp] theorem State.modPanel_mixer (p : Panel) (f : PanelUnit → PanelUnit) : (s.modPanel p f).mixer = s.mixer := rfl
@[simp] theorem State.modPanel_notice (p : Panel) (f : PanelUnit → PanelUnit) : (s.modPanel p f).notice = s.notice := rfl
@[simp] theorem State.modPanel_draws (p : Panel) (f : PanelUnit → PanelUnit) : (s.modPanel p f).draws = s.draws := rfl
@[simp] theorem State.modPanel_riser (p : Panel) (f : PanelUnit → PanelUnit) (r' : Riser) : (s.modPanel p f).riser r' = s.riser r' := rfl
@[simp] theorem State.modPanel_call (p : Panel) (f : PanelUnit → PanelUnit) (j : Rec) : (s.modPanel p f).call j = s.call j := rfl
@[simp] theorem State.modPanel_riserProfile (p : Panel) (f : PanelUnit → PanelUnit) (r' : Riser) : (s.modPanel p f).riserProfile r' = s.riserProfile r' := rfl
@[simp] theorem State.modPanel_panelProfile (p : Panel) (f : PanelUnit → PanelUnit) (p' : Panel) : (s.modPanel p f).panelProfile p' = s.panelProfile p' := rfl
@[simp] theorem State.modPanel_dirPage (p : Panel) (f : PanelUnit → PanelUnit) (p' : PageIx) : (s.modPanel p f).dirPage p' = s.dirPage p' := rfl
@[simp] theorem State.modPanel_entry (p : Panel) (f : PanelUnit → PanelUnit) (e : EntryIx) : (s.modPanel p f).entry e = s.entry e := rfl

/-! ## modClu -/

@[simp] theorem State.modClu_pending (f : ConsoleUnit → ConsoleUnit) : (s.modClu f).pending = s.pending := rfl
@[simp] theorem State.modClu_power (f : ConsoleUnit → ConsoleUnit) : (s.modClu f).power = s.power := rfl
@[simp] theorem State.modClu_stage (f : ConsoleUnit → ConsoleUnit) : (s.modClu f).stage = s.stage := rfl
@[simp] theorem State.modClu_resetLine (f : ConsoleUnit → ConsoleUnit) : (s.modClu f).resetLine = s.resetLine := rfl
@[simp] theorem State.modClu_lockLine (f : ConsoleUnit → ConsoleUnit) : (s.modClu f).lockLine = s.lockLine := rfl
@[simp] theorem State.modClu_lockHeld (f : ConsoleUnit → ConsoleUnit) : (s.modClu f).lockHeld = s.lockHeld := rfl
@[simp] theorem State.modClu_store (f : ConsoleUnit → ConsoleUnit) : (s.modClu f).store = s.store := rfl
@[simp] theorem State.modClu_writing (f : ConsoleUnit → ConsoleUnit) : (s.modClu f).writing = s.writing := rfl
@[simp] theorem State.modClu_powerLost (f : ConsoleUnit → ConsoleUnit) : (s.modClu f).powerLost = s.powerLost := rfl
@[simp] theorem State.modClu_torn (f : ConsoleUnit → ConsoleUnit) : (s.modClu f).torn = s.torn := rfl
@[simp] theorem State.modClu_startup (f : ConsoleUnit → ConsoleUnit) : (s.modClu f).startup = s.startup := rfl
@[simp] theorem State.modClu_directory (f : ConsoleUnit → ConsoleUnit) : (s.modClu f).directory = s.directory := rfl
@[simp] theorem State.modClu_settings (f : ConsoleUnit → ConsoleUnit) : (s.modClu f).settings = s.settings := rfl
@[simp] theorem State.modClu_tones (f : ConsoleUnit → ConsoleUnit) : (s.modClu f).tones = s.tones := rfl
@[simp] theorem State.modClu_calls (f : ConsoleUnit → ConsoleUnit) : (s.modClu f).calls = s.calls := rfl
@[simp] theorem State.modClu_serialNext (f : ConsoleUnit → ConsoleUnit) : (s.modClu f).serialNext = s.serialNext := rfl
@[simp] theorem State.modClu_sequenceNext (f : ConsoleUnit → ConsoleUnit) : (s.modClu f).sequenceNext = s.sequenceNext := rfl
@[simp] theorem State.modClu_waitQueue (f : ConsoleUnit → ConsoleUnit) : (s.modClu f).waitQueue = s.waitQueue := rfl
@[simp] theorem State.modClu_consoleQueue (f : ConsoleUnit → ConsoleUnit) : (s.modClu f).consoleQueue = s.consoleQueue := rfl
@[simp] theorem State.modClu_console (f : ConsoleUnit → ConsoleUnit) : (s.modClu f).console = s.console := rfl
@[simp] theorem State.modClu_page (f : ConsoleUnit → ConsoleUnit) : (s.modClu f).page = s.page := rfl
@[simp] theorem State.modClu_risers (f : ConsoleUnit → ConsoleUnit) : (s.modClu f).risers = s.risers := rfl
@[simp] theorem State.modClu_panels (f : ConsoleUnit → ConsoleUnit) : (s.modClu f).panels = s.panels := rfl
@[simp] theorem State.modClu_clu (f : ConsoleUnit → ConsoleUnit) : (s.modClu f).clu = f s.clu := rfl
@[simp] theorem State.modClu_mixer (f : ConsoleUnit → ConsoleUnit) : (s.modClu f).mixer = s.mixer := rfl
@[simp] theorem State.modClu_notice (f : ConsoleUnit → ConsoleUnit) : (s.modClu f).notice = s.notice := rfl
@[simp] theorem State.modClu_draws (f : ConsoleUnit → ConsoleUnit) : (s.modClu f).draws = s.draws := rfl
@[simp] theorem State.modClu_riser (f : ConsoleUnit → ConsoleUnit) (r' : Riser) : (s.modClu f).riser r' = s.riser r' := rfl
@[simp] theorem State.modClu_panel (f : ConsoleUnit → ConsoleUnit) (p' : Panel) : (s.modClu f).panel p' = s.panel p' := rfl
@[simp] theorem State.modClu_call (f : ConsoleUnit → ConsoleUnit) (j : Rec) : (s.modClu f).call j = s.call j := rfl
@[simp] theorem State.modClu_riserProfile (f : ConsoleUnit → ConsoleUnit) (r' : Riser) : (s.modClu f).riserProfile r' = s.riserProfile r' := rfl
@[simp] theorem State.modClu_panelProfile (f : ConsoleUnit → ConsoleUnit) (p' : Panel) : (s.modClu f).panelProfile p' = s.panelProfile p' := rfl
@[simp] theorem State.modClu_dirPage (f : ConsoleUnit → ConsoleUnit) (p' : PageIx) : (s.modClu f).dirPage p' = s.dirPage p' := rfl
@[simp] theorem State.modClu_entry (f : ConsoleUnit → ConsoleUnit) (e : EntryIx) : (s.modClu f).entry e = s.entry e := rfl

/-! ## modCall -/

@[simp] theorem State.modCall_pending (i : Rec) (f : Call → Call) : (s.modCall i f).pending = s.pending := rfl
@[simp] theorem State.modCall_power (i : Rec) (f : Call → Call) : (s.modCall i f).power = s.power := rfl
@[simp] theorem State.modCall_stage (i : Rec) (f : Call → Call) : (s.modCall i f).stage = s.stage := rfl
@[simp] theorem State.modCall_resetLine (i : Rec) (f : Call → Call) : (s.modCall i f).resetLine = s.resetLine := rfl
@[simp] theorem State.modCall_lockLine (i : Rec) (f : Call → Call) : (s.modCall i f).lockLine = s.lockLine := rfl
@[simp] theorem State.modCall_lockHeld (i : Rec) (f : Call → Call) : (s.modCall i f).lockHeld = s.lockHeld := rfl
@[simp] theorem State.modCall_store (i : Rec) (f : Call → Call) : (s.modCall i f).store = s.store := rfl
@[simp] theorem State.modCall_writing (i : Rec) (f : Call → Call) : (s.modCall i f).writing = s.writing := rfl
@[simp] theorem State.modCall_powerLost (i : Rec) (f : Call → Call) : (s.modCall i f).powerLost = s.powerLost := rfl
@[simp] theorem State.modCall_torn (i : Rec) (f : Call → Call) : (s.modCall i f).torn = s.torn := rfl
@[simp] theorem State.modCall_startup (i : Rec) (f : Call → Call) : (s.modCall i f).startup = s.startup := rfl
@[simp] theorem State.modCall_directory (i : Rec) (f : Call → Call) : (s.modCall i f).directory = s.directory := rfl
@[simp] theorem State.modCall_settings (i : Rec) (f : Call → Call) : (s.modCall i f).settings = s.settings := rfl
@[simp] theorem State.modCall_tones (i : Rec) (f : Call → Call) : (s.modCall i f).tones = s.tones := rfl
@[simp] theorem State.modCall_calls (i : Rec) (f : Call → Call) : (s.modCall i f).calls = vset s.calls i ((s.call i).map f) := rfl
@[simp] theorem State.modCall_serialNext (i : Rec) (f : Call → Call) : (s.modCall i f).serialNext = s.serialNext := rfl
@[simp] theorem State.modCall_sequenceNext (i : Rec) (f : Call → Call) : (s.modCall i f).sequenceNext = s.sequenceNext := rfl
@[simp] theorem State.modCall_waitQueue (i : Rec) (f : Call → Call) : (s.modCall i f).waitQueue = s.waitQueue := rfl
@[simp] theorem State.modCall_consoleQueue (i : Rec) (f : Call → Call) : (s.modCall i f).consoleQueue = s.consoleQueue := rfl
@[simp] theorem State.modCall_console (i : Rec) (f : Call → Call) : (s.modCall i f).console = s.console := rfl
@[simp] theorem State.modCall_page (i : Rec) (f : Call → Call) : (s.modCall i f).page = s.page := rfl
@[simp] theorem State.modCall_risers (i : Rec) (f : Call → Call) : (s.modCall i f).risers = s.risers := rfl
@[simp] theorem State.modCall_panels (i : Rec) (f : Call → Call) : (s.modCall i f).panels = s.panels := rfl
@[simp] theorem State.modCall_clu (i : Rec) (f : Call → Call) : (s.modCall i f).clu = s.clu := rfl
@[simp] theorem State.modCall_mixer (i : Rec) (f : Call → Call) : (s.modCall i f).mixer = s.mixer := rfl
@[simp] theorem State.modCall_notice (i : Rec) (f : Call → Call) : (s.modCall i f).notice = s.notice := rfl
@[simp] theorem State.modCall_draws (i : Rec) (f : Call → Call) : (s.modCall i f).draws = s.draws := rfl
@[simp] theorem State.modCall_riser (i : Rec) (f : Call → Call) (r' : Riser) : (s.modCall i f).riser r' = s.riser r' := rfl
@[simp] theorem State.modCall_panel (i : Rec) (f : Call → Call) (p' : Panel) : (s.modCall i f).panel p' = s.panel p' := rfl
@[simp] theorem State.modCall_riserProfile (i : Rec) (f : Call → Call) (r' : Riser) : (s.modCall i f).riserProfile r' = s.riserProfile r' := rfl
@[simp] theorem State.modCall_panelProfile (i : Rec) (f : Call → Call) (p' : Panel) : (s.modCall i f).panelProfile p' = s.panelProfile p' := rfl
@[simp] theorem State.modCall_dirPage (i : Rec) (f : Call → Call) (p' : PageIx) : (s.modCall i f).dirPage p' = s.dirPage p' := rfl
@[simp] theorem State.modCall_entry (i : Rec) (f : Call → Call) (e : EntryIx) : (s.modCall i f).entry e = s.entry e := rfl

/-! ## modRiser -/

@[simp] theorem State.modRiser_pending (r : Riser) (f : RiserUnit → RiserUnit) : (s.modRiser r f).pending = s.pending := rfl
@[simp] theorem State.modRiser_power (r : Riser) (f : RiserUnit → RiserUnit) : (s.modRiser r f).power = s.power := rfl
@[simp] theorem State.modRiser_stage (r : Riser) (f : RiserUnit → RiserUnit) : (s.modRiser r f).stage = s.stage := rfl
@[simp] theorem State.modRiser_resetLine (r : Riser) (f : RiserUnit → RiserUnit) : (s.modRiser r f).resetLine = s.resetLine := rfl
@[simp] theorem State.modRiser_lockLine (r : Riser) (f : RiserUnit → RiserUnit) : (s.modRiser r f).lockLine = s.lockLine := rfl
@[simp] theorem State.modRiser_lockHeld (r : Riser) (f : RiserUnit → RiserUnit) : (s.modRiser r f).lockHeld = s.lockHeld := rfl
@[simp] theorem State.modRiser_store (r : Riser) (f : RiserUnit → RiserUnit) : (s.modRiser r f).store = s.store := rfl
@[simp] theorem State.modRiser_writing (r : Riser) (f : RiserUnit → RiserUnit) : (s.modRiser r f).writing = s.writing := rfl
@[simp] theorem State.modRiser_powerLost (r : Riser) (f : RiserUnit → RiserUnit) : (s.modRiser r f).powerLost = s.powerLost := rfl
@[simp] theorem State.modRiser_torn (r : Riser) (f : RiserUnit → RiserUnit) : (s.modRiser r f).torn = s.torn := rfl
@[simp] theorem State.modRiser_startup (r : Riser) (f : RiserUnit → RiserUnit) : (s.modRiser r f).startup = s.startup := rfl
@[simp] theorem State.modRiser_directory (r : Riser) (f : RiserUnit → RiserUnit) : (s.modRiser r f).directory = s.directory := rfl
@[simp] theorem State.modRiser_settings (r : Riser) (f : RiserUnit → RiserUnit) : (s.modRiser r f).settings = s.settings := rfl
@[simp] theorem State.modRiser_tones (r : Riser) (f : RiserUnit → RiserUnit) : (s.modRiser r f).tones = s.tones := rfl
@[simp] theorem State.modRiser_calls (r : Riser) (f : RiserUnit → RiserUnit) : (s.modRiser r f).calls = s.calls := rfl
@[simp] theorem State.modRiser_serialNext (r : Riser) (f : RiserUnit → RiserUnit) : (s.modRiser r f).serialNext = s.serialNext := rfl
@[simp] theorem State.modRiser_sequenceNext (r : Riser) (f : RiserUnit → RiserUnit) : (s.modRiser r f).sequenceNext = s.sequenceNext := rfl
@[simp] theorem State.modRiser_waitQueue (r : Riser) (f : RiserUnit → RiserUnit) : (s.modRiser r f).waitQueue = s.waitQueue := rfl
@[simp] theorem State.modRiser_consoleQueue (r : Riser) (f : RiserUnit → RiserUnit) : (s.modRiser r f).consoleQueue = s.consoleQueue := rfl
@[simp] theorem State.modRiser_console (r : Riser) (f : RiserUnit → RiserUnit) : (s.modRiser r f).console = s.console := rfl
@[simp] theorem State.modRiser_page (r : Riser) (f : RiserUnit → RiserUnit) : (s.modRiser r f).page = s.page := rfl
@[simp] theorem State.modRiser_risers (r : Riser) (f : RiserUnit → RiserUnit) : (s.modRiser r f).risers = vset s.risers r (.retimed (s.riserProfile r).quiet (s.riser r) (f (s.riser r))) := rfl
@[simp] theorem State.modRiser_panels (r : Riser) (f : RiserUnit → RiserUnit) : (s.modRiser r f).panels = s.panels := rfl
@[simp] theorem State.modRiser_clu (r : Riser) (f : RiserUnit → RiserUnit) : (s.modRiser r f).clu = s.clu := rfl
@[simp] theorem State.modRiser_mixer (r : Riser) (f : RiserUnit → RiserUnit) : (s.modRiser r f).mixer = s.mixer := rfl
@[simp] theorem State.modRiser_notice (r : Riser) (f : RiserUnit → RiserUnit) : (s.modRiser r f).notice = s.notice := rfl
@[simp] theorem State.modRiser_draws (r : Riser) (f : RiserUnit → RiserUnit) : (s.modRiser r f).draws = s.draws := rfl
@[simp] theorem State.modRiser_panel (r : Riser) (f : RiserUnit → RiserUnit) (p' : Panel) : (s.modRiser r f).panel p' = s.panel p' := rfl
@[simp] theorem State.modRiser_call (r : Riser) (f : RiserUnit → RiserUnit) (j : Rec) : (s.modRiser r f).call j = s.call j := rfl
@[simp] theorem State.modRiser_riserProfile (r : Riser) (f : RiserUnit → RiserUnit) (r' : Riser) : (s.modRiser r f).riserProfile r' = s.riserProfile r' := rfl
@[simp] theorem State.modRiser_panelProfile (r : Riser) (f : RiserUnit → RiserUnit) (p' : Panel) : (s.modRiser r f).panelProfile p' = s.panelProfile p' := rfl
@[simp] theorem State.modRiser_dirPage (r : Riser) (f : RiserUnit → RiserUnit) (p' : PageIx) : (s.modRiser r f).dirPage p' = s.dirPage p' := rfl
@[simp] theorem State.modRiser_entry (r : Riser) (f : RiserUnit → RiserUnit) (e : EntryIx) : (s.modRiser r f).entry e = s.entry e := rfl

/-! ## post -/

@[simp] theorem State.post_pending (x : Report) : (s.post x).pending = s.pending := rfl
@[simp] theorem State.post_power (x : Report) : (s.post x).power = s.power := rfl
@[simp] theorem State.post_stage (x : Report) : (s.post x).stage = s.stage := rfl
@[simp] theorem State.post_resetLine (x : Report) : (s.post x).resetLine = s.resetLine := rfl
@[simp] theorem State.post_lockLine (x : Report) : (s.post x).lockLine = s.lockLine := rfl
@[simp] theorem State.post_lockHeld (x : Report) : (s.post x).lockHeld = s.lockHeld := rfl
@[simp] theorem State.post_store (x : Report) : (s.post x).store = s.store := rfl
@[simp] theorem State.post_writing (x : Report) : (s.post x).writing = s.writing := rfl
@[simp] theorem State.post_powerLost (x : Report) : (s.post x).powerLost = s.powerLost := rfl
@[simp] theorem State.post_torn (x : Report) : (s.post x).torn = s.torn := rfl
@[simp] theorem State.post_startup (x : Report) : (s.post x).startup = s.startup := rfl
@[simp] theorem State.post_directory (x : Report) : (s.post x).directory = s.directory := rfl
@[simp] theorem State.post_settings (x : Report) : (s.post x).settings = s.settings := rfl
@[simp] theorem State.post_tones (x : Report) : (s.post x).tones = s.tones := rfl
@[simp] theorem State.post_calls (x : Report) : (s.post x).calls = s.calls := rfl
@[simp] theorem State.post_serialNext (x : Report) : (s.post x).serialNext = s.serialNext := rfl
@[simp] theorem State.post_sequenceNext (x : Report) : (s.post x).sequenceNext = s.sequenceNext := rfl
@[simp] theorem State.post_waitQueue (x : Report) : (s.post x).waitQueue = s.waitQueue := rfl
@[simp] theorem State.post_consoleQueue (x : Report) : (s.post x).consoleQueue = s.consoleQueue := rfl
@[simp] theorem State.post_console (x : Report) : (s.post x).console = s.console := rfl
@[simp] theorem State.post_page (x : Report) : (s.post x).page = s.page := rfl
@[simp] theorem State.post_risers (x : Report) : (s.post x).risers = s.risers := rfl
@[simp] theorem State.post_panels (x : Report) : (s.post x).panels = s.panels := rfl
@[simp] theorem State.post_clu (x : Report) : (s.post x).clu = s.clu.posted x := rfl
@[simp] theorem State.post_mixer (x : Report) : (s.post x).mixer = s.mixer := rfl
@[simp] theorem State.post_notice (x : Report) : (s.post x).notice = s.notice := rfl
@[simp] theorem State.post_draws (x : Report) : (s.post x).draws = s.draws := rfl
@[simp] theorem State.post_riser (x : Report) (r' : Riser) : (s.post x).riser r' = s.riser r' := rfl
@[simp] theorem State.post_panel (x : Report) (p' : Panel) : (s.post x).panel p' = s.panel p' := rfl
@[simp] theorem State.post_call (x : Report) (j : Rec) : (s.post x).call j = s.call j := rfl
@[simp] theorem State.post_riserProfile (x : Report) (r' : Riser) : (s.post x).riserProfile r' = s.riserProfile r' := rfl
@[simp] theorem State.post_panelProfile (x : Report) (p' : Panel) : (s.post x).panelProfile p' = s.panelProfile p' := rfl
@[simp] theorem State.post_dirPage (x : Report) (p' : PageIx) : (s.post x).dirPage p' = s.dirPage p' := rfl
@[simp] theorem State.post_entry (x : Report) (e : EntryIx) : (s.post x).entry e = s.entry e := rfl

/-! ## reply -/

@[simp] theorem State.reply_pending (x : Reply) : (s.reply x).pending = s.pending := rfl
@[simp] theorem State.reply_power (x : Reply) : (s.reply x).power = s.power := rfl
@[simp] theorem State.reply_stage (x : Reply) : (s.reply x).stage = s.stage := rfl
@[simp] theorem State.reply_resetLine (x : Reply) : (s.reply x).resetLine = s.resetLine := rfl
@[simp] theorem State.reply_lockLine (x : Reply) : (s.reply x).lockLine = s.lockLine := rfl
@[simp] theorem State.reply_lockHeld (x : Reply) : (s.reply x).lockHeld = s.lockHeld := rfl
@[simp] theorem State.reply_store (x : Reply) : (s.reply x).store = s.store := rfl
@[simp] theorem State.reply_writing (x : Reply) : (s.reply x).writing = s.writing := rfl
@[simp] theorem State.reply_powerLost (x : Reply) : (s.reply x).powerLost = s.powerLost := rfl
@[simp] theorem State.reply_torn (x : Reply) : (s.reply x).torn = s.torn := rfl
@[simp] theorem State.reply_startup (x : Reply) : (s.reply x).startup = s.startup := rfl
@[simp] theorem State.reply_directory (x : Reply) : (s.reply x).directory = s.directory := rfl
@[simp] theorem State.reply_settings (x : Reply) : (s.reply x).settings = s.settings := rfl
@[simp] theorem State.reply_tones (x : Reply) : (s.reply x).tones = s.tones := rfl
@[simp] theorem State.reply_calls (x : Reply) : (s.reply x).calls = s.calls := rfl
@[simp] theorem State.reply_serialNext (x : Reply) : (s.reply x).serialNext = s.serialNext := rfl
@[simp] theorem State.reply_sequenceNext (x : Reply) : (s.reply x).sequenceNext = s.sequenceNext := rfl
@[simp] theorem State.reply_waitQueue (x : Reply) : (s.reply x).waitQueue = s.waitQueue := rfl
@[simp] theorem State.reply_consoleQueue (x : Reply) : (s.reply x).consoleQueue = s.consoleQueue := rfl
@[simp] theorem State.reply_console (x : Reply) : (s.reply x).console = s.console := rfl
@[simp] theorem State.reply_page (x : Reply) : (s.reply x).page = s.page := rfl
@[simp] theorem State.reply_risers (x : Reply) : (s.reply x).risers = s.risers := rfl
@[simp] theorem State.reply_panels (x : Reply) : (s.reply x).panels = s.panels := rfl
@[simp] theorem State.reply_clu (x : Reply) : (s.reply x).clu = { s.clu with replies := s.clu.replies ++ [x] } := rfl
@[simp] theorem State.reply_mixer (x : Reply) : (s.reply x).mixer = s.mixer := rfl
@[simp] theorem State.reply_notice (x : Reply) : (s.reply x).notice = s.notice := rfl
@[simp] theorem State.reply_draws (x : Reply) : (s.reply x).draws = s.draws := rfl
@[simp] theorem State.reply_riser (x : Reply) (r' : Riser) : (s.reply x).riser r' = s.riser r' := rfl
@[simp] theorem State.reply_panel (x : Reply) (p' : Panel) : (s.reply x).panel p' = s.panel p' := rfl
@[simp] theorem State.reply_call (x : Reply) (j : Rec) : (s.reply x).call j = s.call j := rfl
@[simp] theorem State.reply_riserProfile (x : Reply) (r' : Riser) : (s.reply x).riserProfile r' = s.riserProfile r' := rfl
@[simp] theorem State.reply_panelProfile (x : Reply) (p' : Panel) : (s.reply x).panelProfile p' = s.panelProfile p' := rfl
@[simp] theorem State.reply_dirPage (x : Reply) (p' : PageIx) : (s.reply x).dirPage p' = s.dirPage p' := rfl
@[simp] theorem State.reply_entry (x : Reply) (e : EntryIx) : (s.reply x).entry e = s.entry e := rfl

end Sys2Proof.Machine
end

