-- ==== Sys2Proof/Laws/Frames.lean ====
section
/-! SUPPORT. What the Call Controller's shared steps can change (`CallTouch`), and one lemma a step that says it changes no
more than that: the lemmas a frame is proved by. -/

namespace Sys2Proof.Machine

/-- `t` is `s` but for what the Call Controller's steps change: the call table, its queues and counters, the console state,
the page and the NOTICE; the counters of directory entries; of a riser its state, staged schedule, orders and the two timers
that follow them; of a panel its current call, end tone, send queue and cursor; of the console its reports and cursor. -/
structure CallTouch (s t : State) : Prop where
  state : t = { s with
    directory := t.directory, calls := t.calls, serialNext := t.serialNext, sequenceNext := t.sequenceNext
    waitQueue := t.waitQueue, consoleQueue := t.consoleQueue, console := t.console, page := t.page, risers := t.risers
    panels := t.panels, clu := t.clu, notice := t.notice }
  riser : ∀ r, t.riser r = { s.riser r with
    state := (t.riser r).state, staged := (t.riser r).staged, queue := (t.riser r).queue
    quietTimer := (t.riser r).quietTimer, wakeTimer := (t.riser r).wakeTimer }
  panel : ∀ p, t.panel p = { s.panel p with
    current := (t.panel p).current, endTone := (t.panel p).endTone, sendQueue := (t.panel p).sendQueue
    cursor := (t.panel p).cursor }
  clu : t.clu = { s.clu with reports := t.clu.reports, gap := t.clu.gap, cursor := t.clu.cursor }
  directory : ∀ p, zeroCounters (t.dirPage p) = zeroCounters (s.dirPage p)

namespace CallTouch

theorem refl (s : State) : CallTouch s s := ⟨rfl, fun _ => rfl, fun _ => rfl, rfl, fun _ => rfl⟩

theorem trans {s t u : State} (h : CallTouch s t) (g : CallTouch t u) : CallTouch s u where
  state := by rw [g.state, h.state]
  riser r := by rw [g.riser r, h.riser r]
  panel p := by rw [g.panel p, h.panel p]
  clu := by rw [g.clu, h.clu]
  directory p := by rw [g.directory p, h.directory p]

/-- Steps taken one after another over a list. -/
theorem foldl {α : Type} {f : State → α → State} (h : ∀ s x, CallTouch s (f s x)) (l : List α) (s : State) :
    CallTouch s (l.foldl f s) := by
  induction l generalizing s with
  | nil => exact refl s
  | cons x l ih => exact (h s x).trans (ih _)

variable {s t : State} (h : CallTouch s t)
include h

theorem pending : t.pending = s.pending := by rw [h.state]
theorem power : t.power = s.power := by rw [h.state]
theorem stage : t.stage = s.stage := by rw [h.state]
theorem resetLine : t.resetLine = s.resetLine := by rw [h.state]
theorem lockLine : t.lockLine = s.lockLine := by rw [h.state]
theorem lockHeld : t.lockHeld = s.lockHeld := by rw [h.state]
theorem store : t.store = s.store := by rw [h.state]
theorem writing : t.writing = s.writing := by rw [h.state]
theorem startup : t.startup = s.startup := by rw [h.state]
theorem settings : t.settings = s.settings := by rw [h.state]
theorem tones : t.tones = s.tones := by rw [h.state]
theorem mixer : t.mixer = s.mixer := by rw [h.state]
theorem draws : t.draws = s.draws := by rw [h.state]
theorem riserProfile (r : Riser) : t.riserProfile r = s.riserProfile r := by unfold State.riserProfile; rw [h.settings]
theorem panelProfile (p : Panel) : t.panelProfile p = s.panelProfile p := by unfold State.panelProfile; rw [h.settings]
theorem live (r : Riser) : (t.riser r).live = (s.riser r).live := by rw [h.riser r]
theorem presence (a : Handset) : t.presence a = s.presence a := by
  unfold State.presence; rw [h.riser a.riser]
theorem link (p : Panel) : (t.panel p).link = (s.panel p).link := by rw [h.panel p]
theorem output (p : Panel) : (t.panel p).output = (s.panel p).output := by rw [h.panel p]
theorem fifo (p : Panel) : (t.panel p).fifo = (s.panel p).fifo := by rw [h.panel p]
theorem cluLink : t.clu.link = s.clu.link := by rw [h.clu]
theorem cluOutput : t.clu.output = s.clu.output := by rw [h.clu]
theorem replies : t.clu.replies = s.clu.replies := by rw [h.clu]

end CallTouch

open CallTouch

/-! ## The building blocks -/

/-- A change of one riser that keeps to its Call Controller fields. -/
theorem modRiser_touch (s : State) (r : Riser) (f : RiserUnit → RiserUnit)
    (hf : ∀ u, f u = { u with
      state := (f u).state, staged := (f u).staged, queue := (f u).queue, quietTimer := (f u).quietTimer
      wakeTimer := (f u).wakeTimer }) : CallTouch s (s.modRiser r f) where
  state := rfl
  riser r' := by
    rw [State.riser_modRiser]
    split
    · subst r'
      unfold RiserUnit.retimed
      have := hf (s.riser r)
      split
      · split
        · exact this
        · rw [this]
      · rw [this]
    · rfl
  panel _ := rfl
  clu := rfl
  directory _ := rfl

/-- A change of one panel that keeps to its Call Controller fields. -/
theorem modPanel_touch (s : State) (p : Panel) (f : PanelUnit → PanelUnit)
    (hf : ∀ u, f u = { u with
      current := (f u).current, endTone := (f u).endTone, sendQueue := (f u).sendQueue, cursor := (f u).cursor }) :
    CallTouch s (s.modPanel p f) where
  state := rfl
  riser _ := rfl
  panel p' := by
    rw [State.panel_modPanel]
    split
    · subst p'; exact hf _
    · rfl
  clu := rfl
  directory _ := rfl

/-- A change of the console unit that keeps to its reports and cursor. -/
theorem modClu_touch (s : State) (f : ConsoleUnit → ConsoleUnit)
    (hf : ∀ c, f c = { c with reports := (f c).reports, gap := (f c).gap, cursor := (f c).cursor }) :
    CallTouch s (s.modClu f) :=
  ⟨rfl, fun _ => rfl, fun _ => rfl, hf _, fun _ => rfl⟩

theorem setCall_touch (s : State) (i : Rec) (c : Option Call) : CallTouch s (s.setCall i c) :=
  ⟨rfl, fun _ => rfl, fun _ => rfl, rfl, fun _ => rfl⟩

theorem modCall_touch (s : State) (i : Rec) (f : Call → Call) : CallTouch s (s.modCall i f) := setCall_touch ..

theorem setConsole_touch (s : State) (c : ConsoleState) : CallTouch s (s.setConsole c) :=
  ⟨rfl, fun _ => rfl, fun _ => rfl, rfl, fun _ => rfl⟩

theorem setPage_touch (s : State) (p : Option PageRecord) : CallTouch s (s.setPage p) :=
  ⟨rfl, fun _ => rfl, fun _ => rfl, rfl, fun _ => rfl⟩

theorem setNotice_touch (s : State) (n : Option Notice) : CallTouch s (s.setNotice n) :=
  ⟨rfl, fun _ => rfl, fun _ => rfl, rfl, fun _ => rfl⟩

/-- A change of the two queues of records. -/
theorem queues_touch (s : State) (w d : List Rec) : CallTouch s { s with waitQueue := w, consoleQueue := d } :=
  ⟨rfl, fun _ => rfl, fun _ => rfl, rfl, fun _ => rfl⟩

theorem waitQueue_touch (s : State) (w : List Rec) : CallTouch s { s with waitQueue := w } :=
  ⟨rfl, fun _ => rfl, fun _ => rfl, rfl, fun _ => rfl⟩

theorem consoleQueue_touch (s : State) (d : List Rec) : CallTouch s { s with consoleQueue := d } :=
  ⟨rfl, fun _ => rfl, fun _ => rfl, rfl, fun _ => rfl⟩

/-- The page of an entry whose counter alone changed. -/
theorem setEntry_counter_touch (s : State) (e : EntryIx) (d : EntryData) (h : s.entry e = some d) (n : BitVec 12) :
    CallTouch s (s.setEntry e (some { d with counter := n })) where
  state := rfl
  riser _ := rfl
  panel _ := rfl
  clu := rfl
  directory p := by
    unfold State.setEntry
    rw [State.dirPage_setDirPage]
    split
    · next hp =>
      subst hp
      apply vget_ext
      intro i
      simp only [zeroCounters, vget_vmap, vget_vset]
      split
      · next hi =>
        subst hi
        have : vget (s.dirPage (pageOf e)) (positionOf e) = some d := h
        simp [this]
      · rfl
    · rfl

theorem posted_fields (c : ConsoleUnit) (x : Report) :
    c.posted x = { c with reports := (c.posted x).reports, gap := (c.posted x).gap } := by
  unfold ConsoleUnit.posted; split <;> rfl

/-! ## Reports, orders, panel messages, slots -/

theorem State.post_touch (s : State) (x : Report) : CallTouch s (s.post x) :=
  modClu_touch _ _ fun c => by rw [posted_fields]

theorem State.postCall_touch (s : State) (i : Rec) (e : CallEvent) : CallTouch s (s.postCall i e) := by
  unfold State.postCall; split
  · exact State.post_touch ..
  · exact refl s

theorem State.enqueue_touch (s : State) (h : Handset) (o : Option Order) : CallTouch s (s.enqueue h o) := by
  unfold State.enqueue; split
  · exact modRiser_touch _ _ _ fun _ => rfl
  · exact refl s

theorem State.order_touch (s : State) (h : Handset) (o : Order) : CallTouch s (s.order h o) := State.enqueue_touch ..
theorem State.reject_touch (s : State) (h : Handset) : CallTouch s (s.reject h) := State.enqueue_touch ..

theorem handed_fields (m : PanelMsg) (u : PanelUnit) : u.handed m = { u with sendQueue := (u.handed m).sendQueue } := by
  unfold PanelUnit.handed; split <;> rfl

theorem endToned_fields (c : EndCause) (u : PanelUnit) :
    u.endToned c = { u with endTone := (u.endToned c).endTone, cursor := (u.endToned c).cursor } := by
  unfold PanelUnit.endToned; split
  · split <;> rfl
  · rfl

theorem endToneStopped_fields (u : PanelUnit) :
    u.endToneStopped = { u with endTone := u.endToneStopped.endTone, cursor := u.endToneStopped.cursor } := by
  unfold PanelUnit.endToneStopped; split <;> rfl

theorem State.hand_touch (s : State) (p : Panel) (m : PanelMsg) : CallTouch s (s.hand p m) :=
  modPanel_touch _ _ _ fun u => by rw [handed_fields]

theorem woken_fields (u : RiserUnit) : u.woken = { u with state := u.woken.state, wakeTimer := u.woken.wakeTimer } := by
  unfold RiserUnit.woken; split <;> rfl

theorem State.edit_touch (s : State) (r : Riser) (k : Slot) (e : SlotEntry) : CallTouch s (s.edit r k e) :=
  modRiser_touch _ _ _ fun u => by
    simp only []
    split
    · rfl
    · rw [woken_fields]

theorem State.releaseOn_touch (s : State) (i : Rec) (r : Riser) : CallTouch s (s.releaseOn i r) := by
  unfold State.releaseOn; split
  · exact modRiser_touch _ _ _ fun _ => rfl
  · exact refl s

theorem State.releaseAll_touch (s : State) (i : Rec) : CallTouch s (s.releaseAll i) :=
  foldl (fun s r => State.releaseOn_touch s i r) _ _

/-! ## The ending of a call -/

theorem State.endLeg_touch (s : State) (l : Leg) : CallTouch s (s.endLeg l) := by
  unfold State.endLeg; split
  · split
    · exact State.order_touch ..
    · split <;> exact State.order_touch ..
    · exact refl s
  · exact refl s

theorem State.consoleForget_touch (s : State) (i : Rec) : CallTouch s (s.consoleForget i) := by
  unfold State.consoleForget; split
  · exact (setConsole_touch s _).trans (modClu_touch _ _ fun _ => rfl)
  · exact refl s

theorem State.noticeForget_touch (s : State) (i : Rec) : CallTouch s (s.noticeForget i) := by
  unfold State.noticeForget; split
  · split
    · exact setNotice_touch ..
    · exact refl s
  · exact refl s

theorem State.panelEnded_touch (s : State) (o : Origin) (c : EndCause) : CallTouch s (s.panelEnded o c) := by
  unfold State.panelEnded; split
  · exact modPanel_touch _ _ _ fun u => by rw [endToned_fields, handed_fields]
  · exact refl s

theorem State.freeIfUnnamed_touch (s : State) (i : Rec) : CallTouch s (s.freeIfUnnamed i) := by
  unfold State.freeIfUnnamed; split
  · split
    · exact (State.noticeForget_touch s i).trans (setCall_touch ..)
    · exact refl s
  · exact refl s

/-- The ending of a call changes no more than the Call Controller's steps do. -/
theorem State.endCall_touch (s : State) (i : Rec) (c : EndCause) : CallTouch s (s.endCall i c) := by
  unfold State.endCall; split
  · exact refl s
  · next call _ =>
    split
    · exact refl s
    · refine .trans ?_ (State.freeIfUnnamed_touch _ i)
      refine .trans ?_ (State.postCall_touch _ i _)
      refine .trans ?_ (State.panelEnded_touch _ _ _)
      refine .trans ?_ (State.noticeForget_touch _ i)
      refine .trans ?_ (State.consoleForget_touch _ i)
      refine .trans ?_ (State.releaseAll_touch _ i)
      refine .trans ?_ (foldl State.endLeg_touch _ _)
      exact (setCall_touch s i _).trans (queues_touch _ _ _)

/-! ## Reservation, ringing, the Wait Queue -/

theorem State.reserve_touch (s : State) (i : Rec) (rs : List Riser) : CallTouch s (s.reserve i rs) :=
  foldl (fun s r => by
    unfold State.reserveOn; split
    · exact State.edit_touch ..
    · exact refl s) _ _

theorem State.callerRinging_touch (s : State) (i : Rec) (o : Origin) : CallTouch s (s.callerRinging i o) := by
  unfold State.callerRinging; split
  · exact modPanel_touch _ _ _ fun u => by rw [handed_fields]
  · split
    · exact modClu_touch _ _ fun _ => rfl
    · exact refl s

theorem State.enterRinging_touch (s : State) (i : Rec) : CallTouch s (s.enterRinging i) := by
  unfold State.enterRinging; split
  · exact refl s
  · refine .trans ?_ (State.postCall_touch _ i _)
    refine .trans ?_ (State.callerRinging_touch _ i _)
    exact (foldl (fun s l => State.order_touch s _ _) _ s).trans (setCall_touch _ i _)

theorem State.joinWait_touch (s : State) (i : Rec) : CallTouch s (s.joinWait i) :=
  ((modCall_touch s i _).trans (waitQueue_touch _ _)).trans (State.postCall_touch _ i _)

theorem State.scan_touch (s : State) : CallTouch s s.scan :=
  foldl (fun s i => by
    unfold State.scanOne; split
    · exact refl s
    · split
      · exact ((waitQueue_touch s _).trans (State.reserve_touch _ i _)).trans (State.enterRinging_touch _ i)
      · exact refl s) _ _

/-- An event followed by its scan changes what the event changes and what the Call Controller's steps do. -/
theorem State.event_touch {f : State → State} (h : ∀ s, CallTouch s (f s)) (s : State) : CallTouch s (s.event f) := by
  unfold State.event State.settled; split
  · exact (h s).trans (State.scan_touch _)
  · exact h s

/-! ## Setup -/

theorem State.takeRecord_touch (s : State) (i : Rec) (k : CallKind) (o : Origin) (c : Option Nat) (st : CallState) :
    CallTouch s (s.takeRecord i k o c st) := ⟨rfl, fun _ => rfl, fun _ => rfl, rfl, fun _ => rfl⟩

theorem State.askSlots_touch (s : State) (i : Rec) (c : Call) : CallTouch s (s.askSlots i c) := by
  unfold State.askSlots; split
  · exact State.endCall_touch ..
  · exact (State.reserve_touch s i _).trans (State.enterRinging_touch _ i)
  · split
    · exact State.joinWait_touch ..
    · exact State.endCall_touch ..

theorem State.setup_touch (s : State) (i : Rec) (code : Nat) : CallTouch s (s.setup i code) := by
  unfold State.setup; split
  · exact State.endCall_touch ..
  · exact State.endCall_touch ..
  · split
    · exact refl s
    · exact (setCall_touch s i _).trans (State.askSlots_touch _ i _)

theorem State.panelCall_touch (s : State) (p : Panel) (code : Nat) : CallTouch s (s.panelCall p code) := by
  unfold State.panelCall; split
  · exact State.hand_touch ..
  · refine .trans (modPanel_touch s p (·.endToneStopped) fun u => by rw [endToneStopped_fields]) ?_
    dsimp only
    split
    · exact State.hand_touch ..
    · split
      · exact (modPanel_touch _ p _ fun u => by rw [endToned_fields, handed_fields]).trans (State.post_touch ..)
      · next i _ =>
        refine .trans ?_ (State.setup_touch _ i code)
        exact .trans (State.takeRecord_touch _ i _ _ _ _) (modPanel_touch _ p _ fun u => rfl)

theorem State.panelCancel_touch (s : State) (p : Panel) : CallTouch s (s.panelCancel p) := by
  unfold State.panelCancel; split
  · exact State.endCall_touch ..
  · exact refl s

/-! ## The answer, hooks and keys -/

theorem State.renumbered_touch (s : State) : CallTouch s s.renumbered :=
  ⟨rfl, fun _ => rfl, fun _ => rfl, rfl, fun _ => rfl⟩

theorem State.takeSequence_touch (s : State) : CallTouch s s.takeSequence.2 := by
  unfold State.takeSequence; dsimp only; split
  · exact (State.renumbered_touch s).trans ⟨rfl, fun _ => rfl, fun _ => rfl, rfl, fun _ => rfl⟩
  · exact ⟨rfl, fun _ => rfl, fun _ => rfl, rfl, fun _ => rfl⟩

theorem State.answerRead_touch (s : State) (e : Option EntryIx) : CallTouch s (s.answerRead e).2 := by
  unfold State.answerRead; split
  · exact refl s
  · split
    · exact refl s
    · exact setEntry_counter_touch s _ _ ‹_› _

theorem State.callerAnswered_touch (s : State) (i : Rec) (o : Origin) : CallTouch s (s.callerAnswered i o) := by
  unfold State.callerAnswered; split
  · exact modPanel_touch _ _ _ fun u => by rw [handed_fields]
  · split
    · exact modClu_touch _ _ fun _ => rfl
    · exact refl s

theorem State.assignTo_touch (s : State) (i : Rec) (h : Handset) : CallTouch s (s.assignTo i h) := by
  unfold State.assignTo; split
  · exact State.order_touch ..
  · exact refl s

theorem State.answer_touch (s : State) (i : Rec) (c : Call) (n : Nat) (l : Leg) : CallTouch s (s.answer i c n l) := by
  unfold State.answer
  refine .trans ?_ (State.postCall_touch _ i _)
  refine .trans ?_ (State.callerAnswered_touch _ i _)
  refine .trans ?_ (foldl (fun s r => State.releaseOn_touch s i r) _ _)
  refine .trans ?_ (foldl (fun s m => State.order_touch s _ _) _ _)
  refine .trans ?_ (State.assignTo_touch _ i _)
  refine .trans ?_ (modRiser_touch _ _ _ fun _ => rfl)
  exact ((State.takeSequence_touch s).trans (State.answerRead_touch _ _)).trans (setCall_touch _ i _)

theorem State.leavePage_touch (s : State) (h : Handset) : CallTouch s (s.leavePage h) := by
  unfold State.leavePage; split
  · exact setPage_touch ..
  · exact refl s

theorem State.offHook_touch (s : State) (h : Handset) : CallTouch s (s.offHook h) := by
  unfold State.offHook; split
  · split
    · exact refl s
    · split
      · split
        · exact State.answer_touch ..
        · exact refl s
      · exact refl s
  · split
    · exact (State.order_touch s _ _).trans (State.leavePage_touch _ _)
    · split
      · exact State.order_touch ..
      · exact refl s

theorem State.onHook_touch (s : State) (h : Handset) : CallTouch s (s.onHook h) := by
  unfold State.onHook; split
  · exact refl s
  · split
    · exact refl s
    · split
      · exact State.endCall_touch ..
      · exact State.endCall_touch ..
      · exact State.endCall_touch ..
      · exact refl s

theorem State.strike_touch (s : State) (i : Rec) (c : Call) (p : Panel) : CallTouch s (s.strike i c p) :=
  ((State.hand_touch s p _).trans (setCall_touch _ i _)).trans (State.postCall_touch _ i _)

theorem State.releaseKey_touch (s : State) (h : Handset) : CallTouch s (s.releaseKey h) := by
  unfold State.releaseKey; split
  · exact refl s
  · split
    · exact refl s
    · split
      · split
        · split
          · exact refl s
          · exact State.strike_touch ..
        · exact State.reject_touch ..
      · exact State.reject_touch ..

theorem State.queueConcierge_touch (s : State) (i : Rec) (h : Handset) : CallTouch s (s.queueConcierge i h) :=
  (((State.takeRecord_touch s i _ _ _ _).trans (modCall_touch _ i _)).trans (consoleQueue_touch _ _)).trans
    (State.postCall_touch _ i _)

theorem State.conciergeKey_touch (s : State) (h : Handset) : CallTouch s (s.conciergeKey h) := by
  unfold State.conciergeKey; split
  · split
    · split
      · exact refl s
      · exact State.reject_touch ..
    · exact refl s
  · split
    · split
      · split
        · exact State.queueConcierge_touch ..
        · exact State.reject_touch ..
      · exact State.reject_touch ..
    · exact State.reject_touch ..

theorem State.dropLeg_touch (s : State) (i : Rec) (c : Call) (h : Handset) : CallTouch s (s.dropLeg i c h) := by
  unfold State.dropLeg; dsimp only
  refine .trans (setCall_touch s i (some { c with legs := c.legs.map fun l =>
    if l.handset = h ∧ l.state = .ringing then { l with state := .dropped } else l })) ?_
  split <;> split <;> first
    | exact (State.releaseOn_touch _ i _).trans (State.endCall_touch ..)
    | exact State.releaseOn_touch ..
    | exact State.endCall_touch ..
    | exact refl _

theorem State.handsetLost_touch (s : State) (h : Handset) : CallTouch s (s.handsetLost h) := by
  unfold State.handsetLost; dsimp only
  refine .trans (State.leavePage_touch s h) ?_
  split
  · exact refl _
  · split
    · exact refl _
    · split
      · split
        · exact State.dropLeg_touch ..
        · exact State.endCall_touch ..
      · exact refl _

/-! ## The page -/

theorem State.lend_touch (s : State) (r : Riser) (i : Rec) (k : Slot) : CallTouch s (s.lend r i k) :=
  (((State.edit_touch s r k _).trans (modCall_touch _ i _)).trans (State.noticeForget_touch _ i)).trans
    (State.postCall_touch _ i _)

theorem State.planOne_touch (x : State × PageRecord) (r : Riser) : CallTouch x.1 (State.planOne x r).1 := by
  unfold State.planOne; split
  · exact State.edit_touch ..
  · exact State.lend_touch ..
  · exact refl _

theorem State.pagePlanned_touch (s : State) (g : Nat) (cs : List Handset) : CallTouch s (s.pagePlanned g cs).1 := by
  have : ∀ (l : List Riser) (x : State × PageRecord), CallTouch x.1 (l.foldl State.planOne x).1 := by
    intro l
    induction l with
    | nil => exact fun x => refl _
    | cons r l ih => exact fun x => (State.planOne_touch x r).trans (ih _)
  exact this (allRisers.filter fun r => cs.any fun h => h.riser = r) (s, .blank g (.start s.settings.console.page))

theorem State.pageOn_touch (p : PageRecord) (s : State) (h : Handset) : CallTouch s (State.pageOn p s h) := by
  unfold State.pageOn; split
  · exact State.order_touch ..
  · exact refl s

theorem State.returnSlot_touch (p : PageRecord) (s : State) (r : Riser) : CallTouch s (State.returnSlot p s r) := by
  unfold State.returnSlot; split
  · exact refl s
  · split
    · exact State.edit_touch ..
    · split
      · exact State.edit_touch ..
      · split
        · exact ((State.edit_touch s r _ _).trans (setCall_touch _ _ _)).trans (State.postCall_touch _ _ _)
        · exact State.edit_touch ..

theorem State.endPage_touch (s : State) (c : PageCause) : CallTouch s (s.endPage c) := by
  unfold State.endPage; split
  · exact refl s
  · refine .trans ?_ (State.post_touch _ _)
    refine .trans ?_ (setConsole_touch _ _)
    refine .trans ?_ (setPage_touch _ _)
    exact (foldl (fun s h => State.order_touch s h _) _ s).trans (foldl (State.returnSlot_touch _) _ _)

theorem State.dropRiser_touch (s : State) (r : Riser) : CallTouch s (s.dropRiser r) := by
  unfold State.dropRiser; split
  · exact refl s
  · split
    · exact refl s
    · next p _ _ v _ =>
      dsimp only
      have h := ((State.edit_touch s r v.slot .idle).trans (setPage_touch _ (some { p with
        served := vset p.served r none, members := p.members.filter fun h => h.riser ≠ r }))).trans
        (State.post_touch _ (.pageDropped r))
      split
      · exact h
      · exact h.trans (State.endPage_touch _ _)

theorem State.riserGone_touch (s : State) (r : Riser) : CallTouch s (s.riserGone r) :=
  (foldl (fun s i => State.endCall_touch s i _) _ s).trans (State.dropRiser_touch _ r)

theorem State.testClearing_touch (s : State) : CallTouch s s.testClearing := foldl State.freeIfUnnamed_touch _ s

/-! ## The console's loss -/

theorem State.unmonitor_touch (s : State) (i : Rec) : CallTouch s (s.unmonitor i) := modCall_touch ..

theorem State.consoleGone_touch (s : State) : CallTouch s s.consoleGone := by
  unfold State.consoleGone; dsimp only
  refine .trans (foldl (fun s i => State.endCall_touch s i .linkLost) (allRecs.filter s.endsWithConsole) s) ?_
  refine .trans ?_ (setConsole_touch _ _)
  refine .trans ?_ (State.endPage_touch _ _)
  split
  · exact State.unmonitor_touch ..
  · exact State.unmonitor_touch ..
  · exact refl _

/-! ## The operator's requests -/

theorem doCallFlat_touch (code : Word) (s : State) : CallTouch s (doCallFlat code s).state := by
  unfold doCallFlat; split
  · exact refl s
  · split
    · exact refl s
    · split
      · exact refl s
      · next i _ =>
        refine .trans ?_ (State.event_touch (fun s => State.setup_touch s i code.toNat) _)
        exact .trans (State.takeRecord_touch s i _ _ _ _) (setConsole_touch _ _)

theorem State.answerHead_touch (s : State) (i : Rec) (c : Call) (h : Handset) (k : Slot) :
    CallTouch s (s.answerHead i c h k) := by
  unfold State.answerHead; dsimp only
  refine .trans ?_ (State.postCall_touch _ i _)
  refine .trans ?_ (setConsole_touch _ _)
  refine .trans ?_ (setCall_touch _ i _)
  exact .trans (.trans (State.edit_touch s _ k _) (consoleQueue_touch _ _))
    (.trans (State.order_touch _ _ _) (State.takeSequence_touch _))

theorem doAnswerNext_touch (s : State) : CallTouch s (doAnswerNext s).state := by
  unfold doAnswerNext; split
  · exact refl s
  · split
    · exact refl s
    · split
      · exact refl s
      · split
        · exact refl s
        · split
          · exact refl s
          · exact State.answerHead_touch ..

theorem doHangUp_touch (s : State) : CallTouch s (doHangUp s).state := by
  unfold doHangUp; split
  · split
    · exact refl s
    · exact State.event_touch (fun s => State.endCall_touch s _ _) s
  · exact refl s

theorem State.monitored_touch (s : State) (i : Rec) (c : Call) (k : ConsoleState) (m : Monitor) :
    CallTouch s (s.monitored i c k m) :=
  ((setConsole_touch s k).trans (setCall_touch _ i _)).trans (setNotice_touch _ _)

theorem doListen_touch (r : Byte) (w : Word) (s : State) : CallTouch s (doListen r w s).state := by
  unfold doListen; split
  · exact refl s
  · exact State.monitored_touch ..

theorem doBarge_touch (r : Byte) (w : Word) (s : State) : CallTouch s (doBarge r w s).state := by
  unfold doBarge; split
  · exact refl s
  · exact State.monitored_touch ..

theorem leaveRecord_touch (i : Rec) (s : State) : CallTouch s (leaveRecord i s).state := by
  unfold leaveRecord; split
  · exact (State.unmonitor_touch s i).trans (setConsole_touch _ _)
  · exact refl s

theorem doLeave_touch (s : State) : CallTouch s (doLeave s).state := by
  unfold doLeave; split
  · exact leaveRecord_touch ..
  · exact leaveRecord_touch ..
  · exact refl s

theorem doClearCall_touch (r : Byte) (w : Word) (s : State) : CallTouch s (doClearCall r w s).state := by
  unfold doClearCall; split
  · exact refl s
  · split
    · exact refl s
    · exact State.event_touch (fun s => State.endCall_touch s _ _) s

theorem doPageStart_touch (g : Byte) (s : State) : CallTouch s (doPageStart g s).state := by
  unfold doPageStart; split
  · exact refl s
  · split
    · exact refl s
    · split
      · exact refl s
      · dsimp only
        split
        · refine .trans ?_ (State.post_touch _ _)
          refine .trans ?_ (setConsole_touch _ _)
          refine .trans ?_ (setPage_touch _ _)
          exact (State.pagePlanned_touch s _ _).trans (foldl (State.pageOn_touch _) _ _)
        · exact refl s

theorem doPageEnd_touch (s : State) : CallTouch s (doPageEnd s).state := by
  unfold doPageEnd; split
  · split
    · exact State.event_touch (fun s => State.endPage_touch s _) s
    · exact refl s
  · exact refl s

end Sys2Proof.Machine
end

