-- ==== Sys2Proof/Laws/Ops.lean ====
section
/-! SUPPORT. What the shared operations answer: events, requests, the scan, slots, sets of risers, naming, limits of samples and
gains, and the queues that never overflow. -/

namespace Sys2Proof.Machine

open Sys2Proof Sys2Proof.Safety

/-! ## Events -/

theorem State.whenRunning_running {s : State} (h : s.stage = .running) (f : State → State) : s.whenRunning f = f s := by
  simp [State.whenRunning, h]

theorem State.whenRunning_quiescent {s : State} (h : s.stage ≠ .running) (f : State → State) : s.whenRunning f = s := by
  unfold State.whenRunning; split
  · contradiction
  · rfl

/-- A scan of an empty Wait Queue changes nothing. -/
theorem State.scan_nothing {s : State} (h : s.waitQueue = []) : s.scan = s := by simp [State.scan, h]

/-- An event that leaves the Wait Queue empty starts no grant (R43). -/
theorem State.event_nothing {s : State} {f : State → State} (h : (f s).waitQueue = []) : s.event f = f s := by
  unfold State.event State.settled
  split
  · exact scan_nothing h
  · rfl

/-- An event that raises no free count is followed by no scan (R43). -/
theorem State.event_unraised {s : State} {f : State → State}
    (h : ∀ r, ((f s).riser r).freeCount ≤ (s.riser r).freeCount) : s.event f = f s := by
  unfold State.event State.settled
  rw [if_neg]
  simp only [List.any_eq_true, decide_eq_true_eq, not_exists, not_and, not_lt]
  exact fun r _ => h r

/-! ## Requests (R177 to R180) -/

/-- A request that arrives while the console link is UP with room for its reply is executed. -/
theorem State.request_accepted {s : State} (h : Accepts s) (tag : Byte) (q : Request) :
    s.request tag q = s.messageArrived.execute tag q := by
  obtain ⟨h1, h2, h3⟩ := h
  have h4 : s.messageArrived.hasRoom = true := decide_eq_true h3
  rw [State.request, State.atReceiver, State.whenRunning_running h1, if_pos h2, if_pos h4]

/-- What an executed request leaves: its state with one more reply (R178). -/
theorem State.execute_eq (s : State) (tag : Byte) (q : Request) :
    s.execute tag q = (q.run s).state.reply
      { tag := tag, result := (q.run s).result, reason := (q.run s).reason, data := (q.run s).data } := rfl

/-- The naming of a call by a record index and a serial (R3). -/
theorem State.naming_range {s : State} {record : Byte} (h : 15 < record.toNat) (serial : Word) :
    s.naming record serial = .error .range := by simp [State.naming, show ¬ record.toNat < 16 by omega]

theorem State.naming_stale {s : State} {record : Byte} {i : Rec} {serial : Word} (h : record.toNat = i.val)
    (hs : ∀ c, s.call i = some c → c.serial ≠ serial) : s.naming record serial = .error .stale := by
  have hl : record.toNat < 16 := by have := i.isLt; omega
  have hi : (⟨record.toNat, hl⟩ : Rec) = i := Fin.ext h
  simp only [State.naming, hl, dif_pos, hi]
  cases hc : s.call i with
  | none => rfl
  | some c => simp [hs c hc]

theorem State.naming_ok {s : State} {record : Byte} {i : Rec} {c : Call} (h : record.toNat = i.val) (hc : s.call i = some c) :
    s.naming record c.serial = .ok (i, c) := by
  have hl : record.toNat < 16 := by have := i.isLt; omega
  have hi : (⟨record.toNat, hl⟩ : Rec) = i := Fin.ext h
  simp [State.naming, hl, hi, hc]

/-! ## Risers and slots (R5, R33 to R37, R92) -/

/-- A change of a riser changes the quiet timer besides what it changes itself, and nothing else. -/
theorem RiserUnit.retimed_eq (period : Nat) (old new : RiserUnit) :
    RiserUnit.retimed period old new = { new with quietTimer := (RiserUnit.retimed period old new).quietTimer } := by
  unfold RiserUnit.retimed; split_ifs <;> rfl

/-- A change that leaves the quiet timer's conditions and the timer as they were. -/
theorem RiserUnit.retimed_same {period : Nat} {old new : RiserUnit} (h : new.calm = old.calm) (hc : old.calm = true) :
    RiserUnit.retimed period old new = new := by simp [RiserUnit.retimed, h, hc]

/-- The conditions of the quiet timer, as the model tests them (R92). -/
theorem RiserUnit.calm_iff (u : RiserUnit) : u.calm = true ↔ Calm u := by
  simp only [RiserUnit.calm, Bool.and_eq_true, beq_iff_eq, List.isEmpty_iff, all_toList, Bool.not_eq_true', Calm, and_assoc,
    forall_and]

/-- Any change of a riser leaves a quiet timer that is stopped or runs under its conditions. -/
theorem RiserUnit.retimed_calm {period : Nat} {old new : RiserUnit}
    (h : (RiserUnit.retimed period old new).quietTimer ≠ .stopped) : Calm (RiserUnit.retimed period old new) := by
  rw [← calm_iff]
  revert h
  unfold RiserUnit.retimed
  split_ifs with hn ho
  · exact fun _ => hn
  · exact fun _ => hn
  · exact fun h => absurd rfl h

theorem Call.mem_riserSet {c : Call} {r : Riser} :
    r ∈ c.riserSet ↔ ∃ l ∈ c.legs, l.state ≠ .dropped ∧ l.handset.riser = r := by
  simp [Call.riserSet, Call.liveLegs, allRisers]

theorem Call.riserSet_nodup (c : Call) : c.riserSet.Nodup := (List.nodup_finRange 8).filter _

theorem RiserUnit.freeCount_eq_zero {u : RiserUnit} (h : u.inService = true) :
    u.freeCount = 0 ↔ ∀ k, u.slotFree k = false := by
  simp [RiserUnit.freeCount, h, allSlots, List.countP_eq_zero]

/-- The lowest free slot: free, and no lower one is. -/
theorem RiserUnit.lowestFree_eq_some {u : RiserUnit} {k : Slot} :
    u.lowestFree = some k ↔ u.inService = true ∧ u.slotFree k = true ∧ ∀ j, j.val < k.val → u.slotFree j = false := by
  unfold RiserUnit.lowestFree
  split
  next h =>
    simp only [h, true_and]
    constructor
    · intro hf
      refine ⟨by simpa using List.find?_some hf, fun j hj => ?_⟩
      simp only [allSlots, List.find?_eq_some_iff_getElem] at hf
      obtain ⟨_, n, hn, hk, hlt⟩ := hf
      have hk' : n = k.val := by rw [← hk]; simp
      have := hlt j.val (by omega)
      simpa using this
    · rintro ⟨hk, hlt⟩
      simp only [allSlots, List.find?_eq_some_iff_getElem]
      refine ⟨hk, k.val, by simp, by simp, fun j hj => ?_⟩
      have := hlt ⟨j, by omega⟩ hj
      simpa using this
  next h => simp [h]

theorem RiserUnit.lowestFree_eq_none {u : RiserUnit} : u.lowestFree = none ↔ u.freeCount = 0 := by
  unfold RiserUnit.lowestFree RiserUnit.freeCount
  split
  · simp [allSlots, List.countP_eq_zero]
  · simp

theorem State.modRiser_staged (s : State) (r : Riser) (f : RiserUnit → RiserUnit) (r' : Riser) :
    ((s.modRiser r f).riser r').staged = if r = r' then (f (s.riser r)).staged else (s.riser r').staged := by
  rw [State.riser_modRiser]; split
  · rw [RiserUnit.retimed_eq]
  · rfl

/-- What the release of a record on one riser leaves of the staged schedules (R48). -/
theorem State.releaseOn_staged (s : State) (i : Rec) (r r' : Riser) (k : Slot) :
    vget ((s.releaseOn i r).riser r').staged k =
      if r' = r ∧ (vget (s.riser r').staged k).names i = true then .idle else vget (s.riser r').staged k := by
  unfold State.releaseOn
  split
  · rw [State.modRiser_staged]
    by_cases hr : r = r'
    · subst hr; simp
    · simp [hr, Ne.symm hr]
  next h =>
    rw [any_toList, not_exists] at h
    rw [if_neg]
    rintro ⟨rfl, hn⟩
    exact h k hn

/-- The release of a record on a list of risers. -/
theorem State.releaseList_staged (i : Rec) (l : List Riser) (s : State) (r : Riser) (k : Slot) :
    vget ((l.foldl (fun s r => s.releaseOn i r) s).riser r).staged k =
      if r ∈ l ∧ (vget (s.riser r).staged k).names i = true then .idle else vget (s.riser r).staged k := by
  induction l generalizing s with
  | nil => simp
  | cons x l ih =>
    rw [List.foldl_cons, ih, State.releaseOn_staged]
    by_cases hn : (vget (s.riser r).staged k).names i = true
    · have hi : SlotEntry.idle.names i = false := rfl
      by_cases hx : r = x
      · subst hx; simp [hi, hn]
      · simp [hn, hx]
    · simp [hn]

/-- After the release of every staged entry that names a record none names it (R28). -/
theorem State.releaseAll_staged (s : State) (i : Rec) (r : Riser) (k : Slot) :
    vget ((s.releaseAll i).riser r).staged k =
      if (vget (s.riser r).staged k).names i = true then .idle else vget (s.riser r).staged k := by
  rw [State.releaseAll, State.releaseList_staged]
  simp [allRisers]

/-- An edit of one staged entry (R34). -/
theorem State.edit_staged (s : State) (r r' : Riser) (k k' : Slot) (e : SlotEntry) :
    vget ((s.edit r k e).riser r').staged k' =
      if r = r' ∧ k = k' then e else vget (s.riser r').staged k' := by
  rw [State.edit, State.modRiser_staged]
  by_cases hr : r = r'
  · subst hr
    by_cases he : e = .idle
    · simp [he, vget_vset]
    · have hw : ∀ u : RiserUnit, u.woken.staged = u.staged := fun u => by unfold RiserUnit.woken; split <;> rfl
      simp [he, hw, vget_vset]
  · simp [hr]

/-! ## Records (R2, R6) -/

/-- The record a new call takes is FREE, and every lower one is not. -/
theorem State.freeRecord_free {s : State} {i : Rec} (h : s.freeRecord = some i) : s.call i = none := by
  simpa using List.find?_some h

/-- The record a handset's live leg stands in. -/
theorem State.liveRecord_some {s : State} {h : Handset} {i : Rec} (hr : s.liveRecord h = some i) :
    ∃ c, s.call i = some c ∧ c.hasLive h = true := by
  have := List.find?_some hr
  cases hc : s.call i with
  | none => simp [hc] at this
  | some c => exact ⟨c, rfl, by simpa [hc] using this⟩

/-! ## Limits (R106, R110, R151, R152, R158, R182) -/

theorem limited_bounds (t : Int) : -8192 ≤ limited t ∧ limited t ≤ 8191 := by unfold limited; split_ifs <;> omega

theorem limited_eq (t : Int) : limited t = max (-8192) (min 8191 t) := by unfold limited; split_ifs <;> omega

/-- The sample that carries a limited sum holds exactly that number. -/
theorem saturated_toInt (t : Int) : (saturated t).toInt = limited t := by
  have := limited_bounds t
  rw [saturated, BitVec.toInt_ofInt, Int.bmod_eq_of_le] <;> omega

theorem trimmed_le (floor w : Nat) : trimmed floor w ≤ w := by unfold trimmed; split <;> omega

theorem trimmed_ge {floor w n : Nat} (hw : min floor n ≤ w) : min floor n ≤ trimmed floor w := by
  unfold trimmed; split <;> omega

theorem ConsoleUnit.posted_length {c : ConsoleUnit} {n : Nat} (x : Report) (hn : Config.reportPlaces ≤ n)
    (h : c.reports.length ≤ n) : (c.posted x).reports.length ≤ n := by
  unfold ConsoleUnit.posted
  split
  · simp only [List.length_append, List.length_singleton]; omega
  · simp only [Config.reportPlaces] at *; simp only [List.length_append, List.length_drop, List.length_singleton]; omega

theorem Fifo.arrived_length {f : Fifo} (x : Sample) (h : f.samples.length ≤ Config.fifoPlaces) :
    (f.arrived x).samples.length ≤ Config.fifoPlaces := by
  unfold Fifo.arrived; split
  · simp only [List.length_append, List.length_singleton]; omega
  · exact h

theorem Fifo.taken_length (f : Fifo) : f.taken.samples.length ≤ f.samples.length := by
  unfold Fifo.taken; split
  · split
    next h => simp [h]
    · split <;> simp
  · simp

theorem sendQueued_length {q : List PanelMsg} (m : PanelMsg) (h : q.length ≤ Config.sendPlaces) :
    (sendQueued m q).length ≤ Config.sendPlaces := by
  unfold sendQueued
  split_ifs
  · exact h
  · simp only [List.length_append, List.length_singleton]; omega
  · simp only [List.length_append, List.length_drop, List.length_singleton]; simp only [Config.sendPlaces] at *; omega

/-- The slots field of a CALLS item takes three bytes, present or absent. -/
theorem slotsBytes_length (slots : List (Riser × Slot)) : (slotsBytes slots).length = 3 := by
  unfold slotsBytes; split <;> rfl

end Sys2Proof.Machine
end

