-- ==== Sys2Proof/WellFormed.lean ====
section
/-! DEFINITION. When a command's operands are ones the part's links can carry. -/

namespace Sys2Proof

/-- A handset sends at most one sample in a slot's uplink half of one frame (R77). -/
def voiceWF (voice : List (Addr × Sample)) : Bool := (voice.map Prod.fst).Nodup

/-- A complete message is its length byte and five more bytes long, and its length byte is at most 64 (R175). -/
def completeMessage (message : List Byte) : Bool :=
  match message with
  | _ :: _ :: n :: _ => n.toNat ≤ Config.maxBody && message.length == n.toNat + 5
  | _ => false

/-- The checks on a command's operands; every other bound stands in the operands' types. -/
def Instr.wf : Instr → Bool
  | .powerOn => true
  | .powerLoss => true
  | .resetAssert => true
  | .resetRelease => true
  | .unitLoaded => true
  | .lockChange _ => true
  | .wakePulse _ => true
  | .orderSelection _ => true
  | .answerArrival _ _ => true
  | .riserFrameBoundary _ voice => voiceWF voice
  | .reversalPhaseEnd _ => true
  | .reversalTimerExpiry _ => true
  | .quietTimerExpiry _ => true
  | .wakeTimerExpiry _ => true
  | .ringTimerExpiry _ => true
  | .talkTimerExpiry _ => true
  | .waitTimerExpiry _ => true
  | .queueTimeoutExpiry _ => true
  | .strikeTimerExpiry _ => true
  | .pageTimerExpiry => true
  | .endToneExpiry _ => true
  | .storeCompletion => true
  | .windowEnd _ => true
  | .noticeEnd => true
  | .panelFrameArrival _ _ => true
  | .panelWindowClose _ => true
  | .panelTransmitBoundary _ => true
  | .consoleFrameArrival _ => true
  | .consoleWindowClose => true
  | .consoleTransmitBoundary => true
  | .invalidMessage message => completeMessage message
  | .read _ _ _ _ _ => true
  | .status _ _ => true
  | .writeEntries _ _ items => items.length ≤ 20
  | .clearCounters _ _ => true
  | .protect _ _ => true
  | .panelSet _ _ _ _ _ _ _ => true
  | .consoleSet _ _ _ _ _ _ _ _ => true
  | .riserSet _ _ _ _ _ _ => true
  | .mixSet _ _ _ => true
  | .serviceEnter _ => true
  | .serviceLeave _ => true
  | .toneWrite _ _ _ _ samples => samples.length ≤ 30
  | .store _ _ => true
  | .answerNext _ => true
  | .callFlat _ _ => true
  | .hangUp _ => true
  | .listen _ _ _ => true
  | .barge _ _ _ => true
  | .leave _ => true
  | .clearCall _ _ _ => true
  | .pageStart _ _ => true
  | .pageEnd _ => true

end Sys2Proof
end

