-- ==== Sys2Proof/Tests/Slice0.lean ====
section
/-! SUPPORT. Tests: the checks of WellFormed, the manual's worked examples, one step of each command on a small state, and for each
statement a state and operands that meet its hypotheses. Expected results are the manual's or computed from it by hand. -/

set_option Elab.async false

namespace Sys2Proof.Tests

open Sys2Proof Sys2Proof.Machine Sys2Proof.Safety

/-! ## WellFormed refuses an ill-formed command for each of its checks -/

theorem test_wf_refuses_two_samples_of_one_handset : (Instr.riserFrameBoundary 0 [(3, 1), (3, 2)]).wf = false := by decide
theorem test_wf_refuses_incomplete_message : (Instr.invalidMessage [0x15, 1, 0, 0xEA]).wf = false := by decide
theorem test_wf_refuses_21_items :
    (Instr.writeEntries 0 ⟨0, 0, false, false, false, 0, 0⟩ (List.replicate 21 ⟨false, 0, 0, 0⟩)).wf = false := by decide
theorem test_wf_refuses_31_samples : (Instr.toneWrite 0 0 0 0 (List.replicate 31 0)).wf = false := by decide
theorem test_wf_takes_a_complete_message : (Instr.invalidMessage [0x15, 1, 0, 0xEA, 0xFE]).wf = true := by decide

/-! ## States the tests start from -/

/-- The state a command leaves. -/
def after (c : Instr) (s : State) : State :=
  match exec c s with
  | .next t => t
  | _ => .reset

def h1 : Handset := { riser := 0, addr := 1 }
def h2 : Handset := { riser := 0, addr := 2 }
def h3 : Handset := { riser := 0, addr := 3 }

/-- S0 just enabled, with handsets 0 to 3 PRESENT and on-hook. -/
def riser0 : RiserUnit :=
  { RiserUnit.enabled .standard with
    presence := vtab fun a => { present := decide (a.val < 4), offHook := false, misses := 0 } }

def entryFor (h : Handset) : EntryData :=
  { code := 7, handset := h, gain := 200, group := 3, release := true, monitor := true, dnd := false, counter := 4095 }

/-- The part running: P0 and the console link UP, S0 ACTIVE, and dial code 7 held by h1 and h2 in entries 0 and 1. -/
def ready : State :=
  { State.reset with
    stage := .running, powerLost := false
    directory := vset (Vector.replicate 24 .empty) 0 (vset (vset DirPage.empty 0 (some (entryFor h1))) 1 (some (entryFor h2)))
    risers := vset (Vector.replicate 8 .atRest) 0 riser0
    panels := vset (Vector.replicate 6 .atRest) 0 (PanelUnit.atRest.up 64)
    clu := ConsoleUnit.atRest.up 64 }

def legFor (e : EntryIx) (h : Handset) : Leg :=
  { entry := some e, handset := h, release := true, monitor := true, state := .ringing }

/-- An ENTRY call of P0 to dial code 7, as it rings. -/
def ringCall : Call :=
  { Call.fresh 9 .entry (.panel 0) (some 7) .ringing with
    legs := [legFor 0 h1, legFor 1 h2], ringTimer := .start 30 }

/-- `ready` with record 0 holding a call, and the first slot of S0 as a schedule entry. -/
def withCall (c : Call) (e : SlotEntry) (s : State) : State :=
  { s.setCall 0 (some c) with
    risers := vset s.risers 0 { s.riser 0 with staged := vset (s.riser 0).staged 0 e, live := vset (s.riser 0).live 0 e }
    panels := vset s.panels 0 { s.panel 0 with current := some 0 } }

def ringing : State := withCall ringCall (.reserved 0) ready

/-- The same call CONNECTED to h1. -/
def talkCall : Call :=
  { ringCall with
    state := .connected, legs := [{ legFor 0 h1 with state := .answered }, { legFor 1 h2 with state := .dropped }]
    answered := some 0, listenGain := some 200, sequence := some 0, ringTimer := .stopped, talkTimer := .start 180 }

def setHook (h : Handset) (off : Bool) (s : State) : State :=
  s.setRiser h.riser { s.riser h.riser with
    presence := vset (s.riser h.riser).presence h.addr { present := true, offHook := off, misses := 0 } }

def talking : State := setHook h1 true { withCall talkCall (.carrying 0) ready with sequenceNext := 1 }

/-- A QUEUED call. -/
def queuedCall : Call := { ringCall with state := .queued, ringTimer := .stopped, waitTimer := .start 20 }
def waiting : State := { ready.setCall 0 (some queuedCall) with waitQueue := [0] }

/-- h3 waits in the Console Queue with record 1. -/
def deskCall : Call :=
  { Call.fresh 5 .concierge (.handset h3) none .waitingDesk with
    legs := [{ entry := none, handset := h3, release := false, monitor := false, state := .answered }]
    answered := some 0, waitTimer := .start 90 }
def caller : State := setHook h3 true { ready.setCall 1 (some deskCall) with consoleQueue := [1] }

/-- A page of group 3 that borrows the slot of the call in record 0. -/
def heldCall : Call := { talkCall with state := .held, held := true, talkTimer := .frozen 8000 }
def pageOfThree : PageRecord :=
  { group := 3, served := vset (Vector.replicate 8 none) 0 (some { slot := 0, lender := some (0, 9) }), skipped := []
    members := [h2], timer := .start 30 }
def paging : State :=
  { withCall heldCall .page ready with console := .paging, page := some pageOfThree, sequenceNext := 1 }

/-- The frame in progress carries an order, or a POLL, to a handset of S0. -/
def sentTo (a : Addr) (o : Option Order) (q : List OrderEntry) (s : State) : State :=
  s.setRiser 0 { s.riser 0 with sent := some { addr := a, order := o }, queue := q }

def onlyReply (s : State) : Option (Result × Reason × List Byte) :=
  match s.clu.replies with
  | [x] => some (x.result, x.reason, x.data)
  | _ => none

/-! ## The manual's worked examples -/

/-- Section 8.2, forming a check. -/
theorem test_check_example_1 : checkOf [0x12, 0x07, 0x02, 0x00, 0x05] = 0xE6F8 := by decide
theorem test_check_example_2 : checkOf [0xF0, 0x10, 0x20, 0x00] = 0xEFEE := by decide
theorem test_check_example_passes : checkPasses [0xF0, 0x10, 0x20, 0x00] 0xEFEE = true := by decide

/-- Section 10.4, one order and its answer: ASSIGN(2) to address 17 is 0x89C2, answered off-hook by 0x8CB. -/
theorem test_order_word_example : makeOrderWord 17 (Order.assign 2).code (Order.assign 2).slotBits false = 0x89C2 := by decide
theorem test_answer_word_example : readAnswer 17 0x8CB = some { offHook := true, key := .none } := by decide
theorem test_answer_of_another_address : readAnswer 16 0x8CB = none := by decide
theorem test_answer_with_failed_check : readAnswer 17 0x8CA = none := by decide

/-- Table 5.2: the FIFO of P3 running dry, take by take. -/
def dry0 : Fifo := { samples := [120], running := true, uplink := 95, empties := 0 }
def dry1 : Fifo := ((dry0.taken).taken).arrived 131
def dry2 : Fifo := ((((dry1.taken).taken).taken).arrived 140).arrived 146
theorem test_fifo_first_rows : dry0.taken = { samples := [], running := true, uplink := 120, empties := 0 } ∧
    dry1 = { samples := [131], running := true, uplink := 120, empties := 1 } := by decide
theorem test_fifo_last_rows : dry2 = { samples := [140, 146], running := true, uplink := 0, empties := 2 } ∧
    dry2.taken = { samples := [146], running := true, uplink := 140, empties := 0 } := by decide

/-- Table 7.3: a loud caller's working gain, window by window. -/
theorem test_trim_example : [200, 175, 154, 135].map (trimmed 16) = [175, 154, 135, 119] := by decide
theorem test_trim_example_goes_on :
    [119, 105, 92, 81, 71, 63, 56, 49, 43, 38, 34, 30, 27, 24, 21, 19, 17, 16].map (trimmed 16) =
      [105, 92, 81, 71, 63, 56, 49, 43, 38, 34, 30, 27, 24, 21, 19, 17, 16, 16] := by decide
theorem test_recovery_example :
    ({ working := 119, tally := 0, clean := 7, position := 1023, endTaken := false } : Output).windowEnded 8 16 200 =
      { working := 120, tally := 0, clean := 0, position := 0, endTaken := false } := by decide

/-- R151: floor((x × g + 32) / 64), of negative values too. -/
theorem test_contribution_rounds : [contribution (-1) 32, contribution 1 32, contribution (-3) 32, contribution 100 64] =
    [0, 1, -1, 100] := by decide
theorem test_sums_saturate : (saturated 8192).toInt = 8191 ∧ (saturated (-8193)).toInt = -8192 := by decide

/-- R162: the built-in triangle. -/
theorem test_built_in_triangle : [0, 10, 20, 30, 39].map (fun p => (builtInSample p).toInt) = [0, 4000, 0, -4000, -400] := by
  decide

/-- R208: the handset byte, and the two-byte sample field of a link. -/
theorem test_handset_byte : handsetByte { riser := 7, addr := 31 } = 0xFF ∧ sampleFrom (sampleField (-1)) = -1 := by decide

/-- R209, R210: a LISTEN message from Table 10.3, written out byte by byte: kind 0x13, tag, length 3, record, serial, check. -/
theorem test_listen_message : (Request.listen 2 0x0102).message 7 = [0x13, 0x07, 0x03, 0x02, 0x01, 0x02, 0xE8, 0xF4] := by decide

/-! ## Power, reset and start-up -/

theorem test_power_loss : (after .powerLoss talking).power = false ∧ (after .powerLoss talking).call 0 = none := by
  decide +kernel
theorem test_power_on_starts_or_holds : (after .powerOn { talking with power := false }).stage = .loading 0 ∧
    (after .powerOn { talking with power := false, resetLine := true }).stage = .held := by decide +kernel
theorem test_reset_assert : (after .resetAssert talking).stage = .held ∧ (after .resetAssert talking).clu = .atRest ∧
    (after .resetAssert talking).resetLine = true := by decide +kernel
theorem test_reset_release : (after .resetRelease { State.reset with stage := .held, lockLine := true }).stage = .loading 0 ∧
    (after .resetRelease { State.reset with stage := .held, lockLine := true }).lockHeld = true := by decide +kernel

/-- A unit whose check is erased is torn (R195, R203). -/
def tornReset : State :=
  { State.reset with store := Store.factory.begun (.page 0 .empty) }
theorem test_unit_loaded_torn : (after .unitLoaded tornReset).torn = [0] ∧ (after .unitLoaded tornReset).stage = .loading 1 := by
  decide +kernel
theorem test_start_up_ends : (after .unitLoaded { State.reset with stage := .loading 25 }).stage = .running ∧
    (after .unitLoaded { State.reset with stage := .loading 25 }).startup = some (.powerOn, []) := by decide +kernel
theorem test_lock_change : (after (.lockChange true) ready).lockHeld = true ∧
    (after (.lockChange true) { State.reset with stage := .held }).lockHeld = false := by decide +kernel
theorem test_store_completion :
    (after .storeCompletion { ready with writing := some (.tones .builtIn) }).clu.reports = [.store 25] := by decide +kernel

/-! ## Riser lines -/

def quietS0 : State := ready.setRiser 0 { riser0 with state := .quiet, quietTimer := .stopped }
theorem test_wake_pulse : ((after (.wakePulse 0) quietS0).riser 0).state = .waking := by decide +kernel
theorem test_order_selection_polls : ((after (.orderSelection 0) ready).riser 0).orderWord = some 0x000F ∧
    ((after (.orderSelection 0) ready).riser 0).pollPointer = 1 := by decide +kernel

/-- An off-hook of h1 answers the call: address 00001, hook 1 and key 00 give the nibbles 0x0 and 0xC, so the check is 3 (R212). -/
theorem test_answer_connects :
    (((after (.answerArrival 0 (some 0x0C3)) (sentTo 1 none [] ringing)).call 0).map (·.state)) = some .connected := by
  decide +kernel
theorem test_answer_miss : (((after (.answerArrival 0 none) (sentTo 1 none [] ready)).presence h1).misses) = 1 := by
  decide +kernel
theorem test_boundary_copies : vget ((after (.riserFrameBoundary 0 [])
    (ready.setRiser 0 { riser0 with staged := vset riser0.staged 2 .page })).riser 0).live 2 = .page := by decide +kernel
/-- R77, R76: one handset TALKING on a slot gives its sample, two give 0; and an ASSIGN delivered in the frame counts from the
next one, since the uplink halves come before the signalling slot. -/
theorem test_uplink_of_talkers :
    let on (u : RiserUnit) (a : Addr) : RiserUnit := { u with heard := vset u.heard a { condition := .talking 0, present := true } }
    let u := on { riser0 with live := vset riser0.live 0 .page } 1
    u.received [(1, 5)] 0 = 5 ∧ (on u 2).received [(1, 5), (2, 6)] 0 = 0 ∧
      (u.delivered { addr := 2, order := some (.assign 0) }).received [(1, 5), (2, 6)] 0 = 5 ∧
      (vget (u.delivered { addr := 2, order := some (.assign 0) }).hearing 2).condition = .talking 0 := by decide +kernel
theorem test_reversal_timer : ((after (.reversalTimerExpiry 0) ready).riser 0).reversal.due = true := by decide +kernel
theorem test_reversal_phase_end : ((after (.reversalPhaseEnd 0)
    (ready.setRiser 0 { riser0 with reversal := { Reversal.phase .preMute 16 with done := 16 } })).riser 0).polarity = .reversed ∧
    ((after (.reversalPhaseEnd 0) (ready.setRiser 0 { riser0 with reversal := .phase .preMute 16 })).riser 0).reversal =
      .phase .preMute 16 := by decide +kernel
theorem test_quiet_timer : ((after (.quietTimerExpiry 0) ready).riser 0).state = .quiet := by decide +kernel
theorem test_wake_timer : ((after (.wakeTimerExpiry 0) (after (.wakePulse 0) quietS0)).riser 0).wakeTimer = .stopped := by
  decide +kernel

/-! ## Timers and the ends the Mixer counts -/

/-- The live schedule still names the record, so it stays in CLEARING (R31). -/
theorem test_talk_timer : ((after (.talkTimerExpiry 0) talking).call 0).map (fun c => (c.state, c.endCause)) =
    some (.clearing, some .talkTimeout) := by decide +kernel
theorem test_ring_timer : (after (.ringTimerExpiry 0) ringing).clu.reports =
    [.call (.ended .noAnswer false) (some (0, 9)) .entry (.panel 0) (some .clearing)] := by decide +kernel
theorem test_wait_timer : (after (.waitTimerExpiry 0) waiting).call 0 = none ∧ (after (.waitTimerExpiry 0) waiting).waitQueue = [] := by
  decide +kernel
theorem test_queue_timeout : (after (.queueTimeoutExpiry 1) caller).consoleQueue = [] := by decide +kernel
def striking : State := talking.setCall 0 (some { talkCall with strikes := 1, strikeTimer := .start 5 })
theorem test_strike_timer : ((after (.strikeTimerExpiry 0) striking).call 0).map (·.strikeTimer) = some .stopped := by
  decide +kernel
theorem test_page_timer : ((after .pageTimerExpiry paging).call 0).map (fun c => (c.state, c.talkTimer)) =
    some (.connected, .running 8000) := by decide +kernel
def toned : State := ready.setPanel 0 ((ready.panel 0).endToned .busy)
theorem test_end_tone : (toned.panel 0).endTone.isSome = true ∧ ((after (.endToneExpiry 0) toned).panel 0).endTone = none := by
  decide +kernel
def clipped (position : Nat) : State :=
  { ready with clu := { ready.clu with
      output := some { working := 64, tally := 8, clean := 3, position := position, endTaken := false } } }
/-- R157: the computation that reaches 1024 ends the window, and the event for that end finds it taken. -/
theorem test_window_ends_at_its_computation :
    (after .consoleTransmitBoundary (clipped 1023)).clu.output =
      some { working := 56, tally := 0, clean := 0, position := 0, endTaken := true } ∧
    (after (.windowEnd .console) (after .consoleTransmitBoundary (clipped 1023))).clu.output =
      some { working := 56, tally := 0, clean := 0, position := 0, endTaken := false } := by decide +kernel
theorem test_window_does_not_end_early : after (.windowEnd .console) (clipped 5) = clipped 5 := by decide +kernel
def noticed (count : Nat) : State := { talking with notice := some { record := 0, serial := 9, count := count } }
theorem test_notice_end : (after .noticeEnd (noticed 1600)).notice = none ∧ after .noticeEnd (noticed 1599) = noticed 1599 := by
  decide +kernel

/-! ## Panel links -/

def callFrame (code : Word) : PanelFrame := makePanelFrame 0 0x01 code
theorem test_panel_call_rings : ((after (.panelFrameArrival 0 (callFrame 7)) ready).call 0).map (·.state) = some .ringing ∧
    vget ((after (.panelFrameArrival 0 (callFrame 7)) ready).riser 0).staged 0 = .reserved 0 := by decide +kernel
theorem test_panel_call_unknown : (after (.panelFrameArrival 0 (callFrame 8)) ready).clu.reports =
    [.call (.ended .unknown false) (some (0, 0)) .entry (.panel 0) (some .clearing)] := by decide +kernel
theorem test_panel_window_close : ((after (.panelWindowClose 0) ready).panel 0).link.bad = 1 := by decide +kernel
/-- R102: a frame whose check fails and the close of its window are one bad frame. -/
theorem test_bad_frame_counts_once :
    ((after (.panelWindowClose 0) (after (.panelFrameArrival 0 { callFrame 7 with check := 0 }) ready)).panel 0).link.bad = 1 := by
  decide +kernel
theorem test_panel_transmit : ((after (.panelTransmitBoundary 0) ready).panel 0).frame = some (makePanelFrame 0 0 0) := by
  decide +kernel

/-! ## The console link -/

theorem test_console_frame : (after (.consoleFrameArrival (makeConsoleFrame 5 (some (true, 0x15)))) ready).clu.buffer = [0x15] := by
  decide +kernel
def fadingConsole : State := { ready with clu := { ready.clu with link := { state := .up, good := 0, bad := 3 } } }
theorem test_console_window_close : (after .consoleWindowClose fadingConsole).clu.link.state = .hunt ∧
    (after .consoleWindowClose fadingConsole).clu.reports = [.link .lost none none] := by decide +kernel
def reporting : State :=
  { ready with clu := { ready.clu with reports := [.store 3], replies := [⟨7, .done, .none, []⟩] } }
theorem test_console_transmit : (after .consoleTransmitBoundary reporting).clu.frame =
    some (makeConsoleFrame 0 (some (true, 0x40))) := by decide +kernel
theorem test_invalid_message_check : onlyReply (after (.invalidMessage [0x15, 1, 0, 0, 0]) ready) = some (.refused, .check, []) := by
  decide +kernel
theorem test_invalid_message_unknown_kind :
    onlyReply (after (.invalidMessage (makeMessage 0x0E 1 [])) ready) = some (.refused, .unknownKind, []) := by decide +kernel

/-! ## The management requests -/

/-- R2, Table 1.1, R208: a QUEUED record's slots are absent; a RINGING one's are given. -/
theorem test_read_calls_gives_slots :
    (waiting.callItem 0 0).extract 40 43 = [0xFF, 0xFF, 0xFF] ∧ (ringing.callItem 0 0).extract 40 43 = [0x01, 0x00, 0x00] := by
  decide +kernel
theorem test_read_directory : onlyReply (after (.read 1 0 0 0 1) ready) =
    some (.done, .none, [0, 0, 0, 0, 1, 0, 1, 0xE3, 0, 7, 0, 1, 200]) := by decide +kernel
theorem test_read_tone_out_of_range : onlyReply (after (.read 1 7 0 164 1) ready) = some (.refused, .range, []) := by
  decide +kernel
theorem test_status_range : onlyReply (after (.status 1 4) ready) = some (.refused, .range, []) := by decide +kernel
theorem test_status_page : onlyReply (after (.status 1 3) ready) = some (.done, .none,
    [3, 0, 0, 0, 0] ++ List.replicate 24 0xFF ++ [0, 0, 0]) := by decide +kernel

/-- R68: 17 items from position 3 are written by their last 16, the first of them at position 4. -/
theorem test_write_entries_overlong : onlyReply (after (.writeEntries 1 ⟨64, 2, false, false, false, 3, 0⟩
    (List.replicate 17 ⟨true, 1, 0, 1⟩)) ready) = some (.done, .none, [2, 4, 16]) := by decide +kernel
theorem test_write_entries_range : onlyReply (after (.writeEntries 1 ⟨64, 2, false, false, false, 3, 0⟩
    [⟨true, 9999, 7, 31⟩, ⟨true, 10000, 0, 1⟩]) ready) = some (.refused, .range, [1]) := by decide +kernel
theorem test_clear_counters : (((after (.clearCounters 1 0) ready).entry 0).map (·.counter)) = some 0 := by decide +kernel
def locked : State := { ready with lockHeld := true, settings := { Settings.standard with protection := 1 } }
theorem test_clear_counters_locked : onlyReply (after (.clearCounters 1 0) locked) = some (.refused, .locked, []) := by
  decide +kernel
theorem test_protect : (after (.protect 1 0x800001) ready).settings.protection = 0x800001 ∧
    onlyReply (after (.protect 1 0x1000000) locked) = some (.refused, .range, []) := by decide +kernel
/-- R101: the first frame begins at the entry to HUNT. -/
theorem test_first_frame_at_hunt : ((after (.panelSet 1 1 1 64 30 180 5) { ready with settings := { Settings.standard with
    panels := vset Settings.standard.panels 1 { PanelProfile.standard with installed := false } } }).panel 1).frame =
    some { sync := 0x5C, sample := 0, code := 0, param := 0, check := 0xFFFF } := by decide +kernel
theorem test_panel_set_clamps : onlyReply (after (.panelSet 1 0 9 10 200 5 0) ready) =
    some (.adjusted, .none, [0, 1, 10, 120, 0, 10, 1]) := by decide +kernel
theorem test_panel_set_removes : ((after (.panelSet 1 0 0 64 30 180 5) ready).panel 0).link.state = .down := by decide +kernel
/-- R189: a panel removed in HUNT is reported REMOVED as well, with no call. -/
def seeking : State := ready.setPanel 0 { ready.panel 0 with link := { state := .hunt, good := 2, bad := 0 }, output := none }
theorem test_panel_set_removes_from_hunt :
    ((after (.panelSet 1 0 0 64 30 180 5) seeking).panel 0).link = { state := .down, good := 0, bad := 0 } ∧
    (after (.panelSet 1 0 0 64 30 180 5) seeking).clu.reports = [.link .removed (some 0) none] := by decide +kernel
theorem test_console_set : onlyReply (after (.consoleSet 1 64 64 30 180 90 4 61) ready) =
    some (.adjusted, .none, [64, 64, 30, 0, 180, 0, 90, 5, 60]) := by decide +kernel
theorem test_riser_set_disables : ((after (.riserSet 1 0 0 60 120 16) ready).riser 0).state = .draining := by decide +kernel
theorem test_riser_set_enables : ((after (.riserSet 1 7 1 0 120 16) ready).riser 7).state = .active ∧
    ((after (.riserSet 1 7 1 0 120 16) ready).riser 7).quietTimer = .stopped := by decide +kernel
theorem test_mix_set : onlyReply (after (.mixSet 1 0 70) ready) = some (.adjusted, .none, [1, 70]) ∧
    ((after (.mixSet 1 0 70) ready).clu.output.map (·.working)) = some 64 := by decide +kernel
theorem test_service_enter : (after (.serviceEnter 1) ready).mixer = .service := by decide +kernel
theorem test_service_leave : (after (.serviceLeave 1) { ready with mixer := .service }).mixer = .normal := by decide +kernel
theorem test_tone_write_mode : onlyReply (after (.toneWrite 1 0 0 0 []) ready) = some (.refused, .mode, []) := by decide +kernel
theorem test_tone_write_wraps : vget (vget (after (.toneWrite 1 3 39 9 [0, 0x7FFF]) { ready with mixer := .service }).tones.waves 3) 0 =
    8191 := by decide +kernel
theorem test_store : (after (.store 1 25) ready).writing = some (.tones .builtIn) ∧ (after (.store 1 25) ready).store.tones.check = none := by
  decide +kernel

/-! ## The operator requests -/

theorem test_answer_next : onlyReply (after (.answerNext 1) caller) = some (.done, .none, [1, 0, 5, 3, 0]) ∧
    ((after (.answerNext 1) caller).call 1).map (·.state) = some .connected := by decide +kernel
theorem test_call_flat : onlyReply (after (.callFlat 1 7) ready) = some (.done, .none, [0, 0, 0]) ∧
    (after (.callFlat 1 7) ready).console = .talk 0 := by decide +kernel
theorem test_hang_up : onlyReply (after (.hangUp 1) { talking with console := .talk 0 }) = some (.done, .none, [0, 0, 9, 13]) := by
  decide +kernel
theorem test_listen : (after (.listen 1 0 9) talking).console = .listen 0 ∧
    (after (.listen 1 0 9) talking).notice = some { record := 0, serial := 9, count := 0 } := by decide +kernel
theorem test_barge_stale : onlyReply (after (.barge 1 0 8) talking) = some (.refused, .stale, []) := by decide +kernel
theorem test_leave : (after (.leave 1) { talking with console := .barge 0 }).console = .idle := by decide +kernel
theorem test_clear_call : ((after (.clearCall 1 0 9) talking).call 0).map (·.endCause) = some (some .cleared) := by decide +kernel
theorem test_page_start : (after (.pageStart 1 3) ready).console = .paging ∧
    vget ((after (.pageStart 1 3) ready).riser 0).staged 0 = .page := by decide +kernel
theorem test_page_end_state : onlyReply (after (.pageEnd 1) ready) = some (.refused, .state, []) := by decide +kernel
theorem test_page_end : (after (.pageEnd 1) paging).page = none ∧
    vget ((after (.pageEnd 1) paging).riser 0).staged 0 = .carrying 0 := by decide +kernel

/-! ## Witnesses: for each statement with hypotheses, a state and operands that meet them, clause by clause -/

theorem witness_TimePassesWhenNoCommandWaits : Running ready ∧ ready.pending = [] := by decide +kernel

theorem witness_PowerAndResetQuiesceThePart : { talking with power := false }.power = false ∧
    Instr.resetAssert ∈ [Instr.powerOn, .powerLoss, .resetAssert] ∧ talking.power = true ∧
    Instr.powerOn ∈ [Instr.powerOn, .powerLoss, .resetAssert] ∧ talking.resetLine = false := by decide +kernel

def inReset : State := { State.reset with stage := .held }
theorem witness_StartUpBeginsAndLoadsTheUnitsInTurn : inReset.power = true ∧ inReset.stage = .held ∧ ready.stage ≠ .held ∧
    State.reset.stage = .loading 0 ∧ { State.reset with stage := .loading 23 }.stage = .loading 23 ∧
    { State.reset with stage := .loading 24 }.stage = .loading 24 := by decide +kernel

def lastUnit : State := { State.reset with stage := .loading 25 }
theorem witness_StartUpEndsWithTheLastUnit : lastUnit.stage = .loading 25 ∧ (∀ r, lastUnit.riser r = .atRest) ∧
    (∀ p, lastUnit.panel p = .atRest) ∧ lastUnit.clu = .atRest ∧ NothingWaits lastUnit := by decide +kernel

def writingOf (w : Writing) : State := { ready with writing := some w }
theorem witness_AStoreTakesAndWritesASnapshot : Accepts ready ∧ Running (writingOf (.page 23 .empty)) ∧
    (writingOf (.page 23 .empty)).writing = some (.page 23 .empty) ∧
    (writingOf (.settings .standard)).writing = some (.settings .standard) ∧
    (writingOf (.tones .builtIn)).writing = some (.tones .builtIn) := by decide +kernel

def oneOrder (o : Order) : OrderEntry := { addr := 1, order := some o, refusal := false, inFlight := true, changed := false }
def ordered : State := sentTo 1 (some .ringOff) [oneOrder .ringOff] ready
theorem witness_OrderSelectionSendsTheHeadOrPolls : Running ready ∧ (ready.riser 0).frames = true ∧
    (ready.riser 0).queue = [] ∧ (ordered.riser 0).frames = true ∧ (ordered.riser 0).queue = [oneOrder .ringOff] := by
  decide +kernel

def missed (n : Nat) : State :=
  sentTo 1 none [] (ready.setRiser 0 { riser0 with
    presence := vset riser0.presence 1 { present := true, offHook := false, misses := n } })
theorem witness_MissesSendTheOrderRoundAndEndPresence : Running (missed 1) ∧
    ((missed 1).riser 0).sent = some { addr := 1, order := none } ∧
    (none : Option (BitVec 12)).bind (readAnswer 1) = none ∧ (some (0x0C2 : BitVec 12)).bind (readAnswer 1) = none ∧
    (vget ((missed 1).riser 0).presence 1).misses < 2 ∧ (vget ((missed 2).riser 0).presence 1).present = true ∧
    2 ≤ (vget ((missed 2).riser 0).presence 1).misses ∧ (missed 2).liveRecord h1 = none ∧ (missed 2).page = none := by
  decide +kernel

theorem witness_AHitDeliversTheOrder : Running ordered ∧
    (ordered.riser 0).sent = some { addr := 1, order := some .ringOff } ∧
    readAnswer 1 0x087 = some { offHook := false, key := .none } ∧ (vget (ordered.riser 0).presence 1).present = true ∧
    (vget (ordered.riser 0).presence 1).offHook = false := by decide +kernel

theorem witness_AHitHandsHookBeforeKey : Running ordered ∧
    (ordered.riser 0).sent = some { addr := 1, order := some .ringOff } ∧
    readAnswer 1 0x0D2 = some { offHook := true, key := .release } := by decide +kernel

def wakeOver : State := ready.setRiser 0 { riser0 with state := .waking, wakeTimer := .stopped }
def draining : State := after (.riserSet 1 0 0 60 120 16) ready
theorem witness_ABoundaryCopiesStagedIntoLive : Running ready ∧ (ready.riser 0).frames = true ∧
    (ready.riser 0).state ≠ .draining ∧ (wakeOver.riser 0).frames = true ∧ (wakeOver.riser 0).state = .waking ∧
    (wakeOver.riser 0).wakeTimer = .stopped ∧ Running draining ∧ (draining.riser 0).frames = true ∧
    (draining.riser 0).state = .draining := by decide +kernel

/-- The NOTICE of a joined call at its last frame, and a HELD call whose slot the part has not lent. -/
def lastNotice : State := { talking with notice := some { record := 0, serial := 9, count := 1599 } }
def heldInSlot : State := withCall heldCall (.carrying 0) ready
theorem witness_ABoundaryTakesUplinksAndMixesTheSlotOutputs : Running talking ∧ (talking.riser 0).state = .active ∧
    vget (talking.riser 0).staged 0 = .carrying 0 ∧ vget (talking.riser 0).staged 1 = .idle ∧
    (∀ k', k' ≠ 0 → vget (talking.riser 0).staged k' ≠ .carrying 0) ∧ talking.call 0 = some talkCall ∧
    talkCall.state = .connected ∧ vget (paging.riser 0).staged 0 = .page ∧ vget (ringing.riser 0).staged 0 = .reserved 0 ∧
    lastNotice.notice.map (fun n => (n.record, n.serial, n.count)) = some (0, talkCall.serial, 1599) ∧
    heldInSlot.call 0 = some heldCall ∧ heldCall.state = .held ∧ vget (heldInSlot.riser 0).staged 0 = .carrying 0 ∧
    (wakeOver.riser 0).state = .waking := by decide +kernel

theorem witness_AReversalLastsTwiceTheMuteAndEightFrames : Running ready ∧ (ready.riser 0).state = .active ∧
    ((after (.reversalTimerExpiry 0) ready).riser 0).reversal.due = true ∧
    ((after (.reversalTimerExpiry 0) ready).riser 0).reversal.sub = .normal ∧
    ((after (.reversalTimerExpiry 0) ready).riser 0).state = .active := by decide +kernel

theorem witness_WakePulsesRiserTimersAndPhaseEnds : Running ready ∧ (ready.riser 0).state = .active ∧
    (ready.riser 0).reversalTimer = .running 960000 ∧ (ready.riser 0).quietTimer = .running 480000 ∧
    ((after (.wakePulse 0) quietS0).riser 0).wakeTimer = .running 160 := by decide +kernel
theorem witness_phase_ends : (Reversal.phase .swap 8).done < (Reversal.phase .swap 8).length ∧
    ¬ ({ Reversal.phase .swap 8 with done := 8 }).done < (Reversal.phase .swap 8).length ∧
    (((RiserUnit.reversalCounted .standard)
      { riser0 with reversal := { Reversal.phase .swap 8 with done := 7 } }).reversal.endTaken) = true := by decide +kernel

theorem witness_TimersEndTheirCalls : Running ringing ∧ ringing.call 0 = some ringCall ∧ ringCall.state = .ringing ∧
    ringCall.ringTimer = .running 240000 ∧ Running talking ∧ talking.call 0 = some talkCall ∧ talkCall.state = .connected ∧
    talkCall.talkTimer = .running 1440000 ∧ Running waiting ∧ waiting.call 0 = some queuedCall ∧
    queuedCall.state = .queued ∧ queuedCall.waitTimer = .running 160000 ∧ Running caller ∧ caller.call 1 = some deskCall ∧
    deskCall.state = .waitingDesk ∧ deskCall.waitTimer = .running 720000 := by decide +kernel

def mixedOnce : State := after (.riserFrameBoundary 0 []) talking
theorem witness_StrikesTonesNoticesAndWindowsEnd : Running striking ∧
    striking.call 0 = some { talkCall with strikes := 1, strikeTimer := .running 40000 } ∧ Running toned ∧
    (toned.panel 0).endTone = some { wave := .busy, timer := .running 24000 } ∧ Running ready ∧
    ((ready.panel 0).output.map (·.endTaken)) = some false ∧ (clipped 1024).clu.output.map (·.position) = some 1024 ∧
    (clipped 1023).clu.output.map (·.position) = some 1023 ∧
    (after .consoleTransmitBoundary (clipped 1023)).clu.output.map (·.endTaken) = some true ∧
    Running mixedOnce ∧ (vget (mixedOnce.riser 0).outputs 0).map (·.out.endTaken) = some false ∧
    (noticed 1600).notice.map (·.count) = some 1600 ∧ (noticed 1599).notice.map (·.count) = some 1599 ∧
    ready.notice = none ∧ (ready.panel 1).output = none ∧ vget (ready.riser 0).outputs 0 = none ∧ (after .consoleWindowClose fadingConsole).clu.output = none := by
  decide +kernel

def targetsOf (s : State) (code : Nat) : List (EntryIx × EntryData) :=
  match s.lookup code with
  | .targets list => list
  | _ => []
theorem witness_LookupPicksTheRingableTargets : targetsOf ready 7 = [(0, entryFor h1), (1, entryFor h2)] ∧
    ready.entry 1 = some (entryFor h2) ∧ (entryFor h2).code = 7 ∧
    (allEntries.countP fun e' => e'.val < (1 : EntryIx).val && (ready.entry e').any fun d' => d'.code = 7) < 4 ∧
    (∀ e', e'.val < (1 : EntryIx).val → (ready.entry e').any (fun d' => d'.code = 7 && d'.handset = h2) = false) ∧
    (entryFor h2).dnd = false ∧ ready.liveRecord h2 = none ∧ ready.isMember h2 = false ∧
    (ready.presence h2).present = true := by decide +kernel

def crowded : State := waiting.setRiser 0 { riser0 with staged := Vector.replicate 4 .page }
def overflowing : State := { crowded with waitQueue := List.replicate 8 0 }
theorem witness_SlotsAreGrantedAllOrNothing : waiting.call 0 = some queuedCall ∧ queuedCall.state ≠ .clearing ∧
    queuedCall.riserSet = [0] ∧ (waiting.riser 0).inService = true ∧ (waiting.riser 0).slotFree 0 = true ∧
    (∀ k, (crowded.riser 0).slotFree k = false) ∧ crowded.waitQueue.length < 8 ∧ ¬ overflowing.waitQueue.length < 8 ∧
    ((waiting.setRiser 0 .atRest).riser 0).inService = false := by decide +kernel

theorem witness_TheWaitQueueIsScannedWhenSlotsFree : waiting.call 0 = some queuedCall ∧ queuedCall.state = .queued ∧
    AllFree waiting queuedCall.riserSet ∧ (legFor 0 h1) ∈ queuedCall.legs ∧ (legFor 0 h1).state = .ringing ∧
    TakesOrders waiting h1 ∧ (crowded.riser 0).freeCount < (waiting.riser 0).freeCount ∧ 0 ∈ crowded.scan.waitQueue ∧
    crowded.scan.call 0 = some queuedCall ∧ ¬ AllFree crowded queuedCall.riserSet := by decide +kernel

/-- No record is FREE. -/
def crowdedTable : State := { ready with calls := Vector.replicate 16 (some talkCall) }
theorem witness_APanelCallRings : Running ready ∧ (ready.panel 0).link.state = .up ∧ panelFrameGood (callFrame 7) = true ∧
    (callFrame 7).code = 0x01 ∧ (ringing.panel 0).current = some 0 ∧ Running ringing ∧
    (ringing.panel 0).link.state = .up ∧ (ready.panel 0).current = none ∧ 9999 < (callFrame 10000).param.toNat ∧ (callFrame 10000).code = 0x01 ∧ Running crowdedTable ∧
    (crowdedTable.panel 0).link.state = .up ∧ (crowdedTable.panel 0).current = none ∧ crowdedTable.freeRecord = none ∧ (callFrame 7).param.toNat ≤ 9999 ∧
    ready.freeRecord = some 0 ∧ targetsOf ready 7 ≠ [] ∧
    (∀ x ∈ targetsOf ready 7,
      (ready.riser x.2.handset.riser).inService = true ∧ 0 < (ready.riser x.2.handset.riser).freeCount) := by
  decide +kernel

theorem witness_TheFirstOffHookWinsTheCall : ringing.call 0 = some ringCall ∧ ringCall.state = .ringing ∧
    ringing.liveRecord h2 = some 0 ∧ ringCall.findLeg h2 = some (legFor 1 h2, 1) ∧ (legFor 1 h2).state = .ringing ∧
    (ringing.presence h2).offHook = false ∧ (ringCall.legs.map (·.handset)).Nodup := by decide +kernel

/-- Two calls in talk when the counter of connect sequences is spent: the older HELD, the younger CONNECTED. -/
def spent : State :=
  { (talking.setCall 1 (some { talkCall with sequence := some 65000 })).setCall 0 (some { heldCall with sequence := some 40 })
      with sequenceNext := 65535 }
/-- R4: they become 0 and 1, and the next call gets 2. -/
theorem test_connect_sequences_are_renumbered : spent.takeSequence.1 = 2 ∧
    (spent.takeSequence.2.call 0).bind (·.sequence) = some 0 ∧ (spent.takeSequence.2.call 1).bind (·.sequence) = some 1 := by
  decide +kernel
theorem witness_ConnectSequencesAreRenumberedInOrder : talking.sequenceNext < 65535 ∧ 65535 ≤ spent.sequenceNext ∧
    spent.call 0 = some { heldCall with sequence := some 40 } ∧ spent.call 1 = some { talkCall with sequence := some 65000 } ∧
    spent.call 2 = none ∧ (spent.setCall 2 (some queuedCall)).call 2 = some queuedCall := by decide +kernel

/-- A page member that is on-hook; a late answer's handset; and a call whose two legs ring. -/
theorem witness_OffHooksAndLossesBesideTheAnswer : paging.isMember h2 = true ∧ (paging.presence h2).offHook = false ∧
    paging.liveRecord h2 = none ∧ TakesOrders paging h2 ∧ talking.liveRecord h2 = none ∧ talking.isMember h2 = false ∧
    ({ legFor 1 h2 with state := .dropped } : Leg) ∈ talkCall.legs ∧ talking.call 0 = some talkCall ∧
    waiting.liveRecord h1 = some 0 ∧ waiting.call 0 = some queuedCall ∧ queuedCall.state ≠ .ringing ∧
    ringing.liveRecord h1 = some 0 ∧ ringing.call 0 = some ringCall ∧ (ringCall.legs.map (·.handset)).Nodup ∧
    legFor 0 h1 ∈ ringCall.legs ∧ ringCall.state ≠ .clearing ∧ talking.liveRecord h1 = some 0 ∧ ready.liveRecord h1 = none := by
  decide +kernel

def cancelFrame : PanelFrame := makePanelFrame 0 0x02 0
def heldOffHook : State := setHook h1 true paging
theorem witness_CancelAndOnHookEndCalls : Running ringing ∧ (ringing.panel 0).link.state = .up ∧
    panelFrameGood cancelFrame = true ∧ cancelFrame.code = 0x02 ∧ (ringing.panel 0).current = some 0 ∧
    ringing.call 0 = some ringCall ∧ ringCall.state ≠ .clearing ∧ (ready.panel 0).current = none ∧
    talking.liveRecord h1 = some 0 ∧ talking.call 0 = some talkCall ∧ (talking.presence h1).offHook = true ∧
    heldOffHook.liveRecord h1 = some 0 ∧ heldOffHook.call 0 = some heldCall ∧ (heldOffHook.presence h1).offHook = true ∧
    caller.liveRecord h3 = some 1 ∧ caller.call 1 = some deskCall ∧ (caller.presence h3).offHook = true := by
  decide +kernel

theorem witness_AReleaseKeyStrikesTheDoor : talking.liveRecord h1 = some 0 ∧ talking.call 0 = some talkCall ∧
    talkCall.findLeg h1 = some ({ legFor 0 h1 with state := .answered }, 0) ∧ talkCall.origin = .panel 0 ∧
    talkCall.state = .connected ∧ talkCall.kind = .entry ∧ talkCall.strikes < 3 ∧ heldCall.state ≠ .connected := by
  decide +kernel

def lifted : State := setHook h3 true ready
theorem witness_AConciergeKeyJoinsTheConsoleQueue : lifted.liveRecord h3 = none ∧ (lifted.presence h3).offHook = true ∧
    lifted.freeRecord = some 0 ∧ lifted.consoleQueue.length < 8 ∧ ready.liveRecord h3 = none ∧
    (ready.presence h3).offHook = false ∧ caller.liveRecord h3 = some 1 ∧ caller.call 1 = some deskCall := by
  decide +kernel

theorem witness_MessagesAndOrdersJoinTheirQueues : (ready.panel 0).link.state = .up ∧ TakesOrders ready h1 := by
  decide +kernel

def hunting (good : Nat) : State :=
  ready.setPanel 0 { PanelUnit.atRest with link := { state := .hunt, good := good, bad := 0 } }
def idleFrame : PanelFrame := makePanelFrame 3 0x00 0
def badFrame : PanelFrame := { idleFrame with check := 0 }
theorem witness_APanelLinkCountsItsFrames : Running (hunting 1) ∧ ((hunting 1).panel 0).link.state = .hunt ∧
    panelFrameGood idleFrame = true ∧ ((hunting 1).panel 0).link.good + 1 < 3 ∧ ¬ ((hunting 2).panel 0).link.good + 1 < 3 ∧
    badFrame.sync = 0x5C ∧ panelFrameGood badFrame = false ∧ (ready.panel 0).link.state = .up ∧
    panelFrameGood { badFrame with sync := 0 } = false ∧ (ready.panel 1).link.state = .down ∧ idleFrame.code ≠ 0x01 ∧
    idleFrame.code ≠ 0x02 ∧ (ready.panel 0).link.bad + 1 < 4 := by decide +kernel

def fading (s : State) : State := s.setPanel 0 { s.panel 0 with link := { state := .up, good := 0, bad := 3 } }
theorem witness_TheFourthBadFrameLosesAPanelLink : Running (fading ringing) ∧
    ((fading ringing).panel 0).link.state = .up ∧ 3 ≤ ((fading ringing).panel 0).link.bad ∧
    ((fading ringing).panel 0).current = some 0 ∧ (fading ringing).call 0 = some ringCall ∧
    ((fading ready).panel 0).current = none := by decide +kernel

def withFifo (f : Fifo) : State := ready.setPanel 0 { ready.panel 0 with fifo := f }
theorem witness_APanelTransmitTakesOneSample : Running (withFifo dry0) ∧ ((withFifo dry0).panel 0).link.state = .up ∧
    ((withFifo dry0).panel 0).fifo.running = true ∧ ((withFifo dry0).panel 0).fifo.samples = [120] ∧
    ((withFifo dry0.taken).panel 0).fifo.samples = [] ∧ (ready.panel 0).fifo.running = false ∧
    Running (hunting 1) ∧ ((hunting 1).panel 0).link.state = .hunt ∧ (ready.panel 1).link.state = .down := by decide +kernel

def ringbackAt (n : Nat) : State := ringing.setPanel 0 { ringing.panel 0 with cursor := some { tone := .ringback, phase := n } }
theorem talking_voice : AnsweredVoice talking 0 talkCall 0 :=
  ⟨{ legFor 0 h1 with state := .answered }, by decide +kernel, Or.inl ⟨0, by decide +kernel, by decide +kernel, by decide +kernel⟩⟩
theorem witness_APanelTransmitMixesThePanelOutput : Running talking ∧ (talking.panel 0).link.state = .up ∧
    (talking.panel 0).output.map (·.working) = some 64 ∧ (talking.panel 0).current = some 0 ∧
    talking.call 0 = some talkCall ∧ talkCall.state = .connected ∧ (ringbackAt 7999).call 0 = some ringCall ∧
    ((ringbackAt 7999).panel 0).cursor = some { tone := .ringback, phase := 7999 } ∧ (paging.panel 0).current = some 0 ∧
    paging.call 0 = some heldCall ∧ heldCall.state ≠ .connected ∧ heldCall.state ≠ .ringing ∧ (toned.panel 0).current = none ∧
    (toned.panel 0).endTone = some { wave := .busy, timer := .running 24000 } ∧
    (toned.panel 0).cursor = some { tone := .busy, phase := 0 } ∧ (ready.panel 0).endTone = none := by
  decide +kernel

def huntingConsole (good : Nat) : State :=
  { ready with
    startup := some (.powerOn, [3])
    clu := { ConsoleUnit.atRest with link := { state := .hunt, good := good, bad := 0 } } }
theorem witness_AConsoleFrameFeedsTheReceiver : Running (huntingConsole 1) ∧
    consoleFrameGood (makeConsoleFrame 5 (some (false, 64))) = true ∧ (huntingConsole 1).clu.link.state = .hunt ∧
    (huntingConsole 1).clu.link.good + 1 < 3 ∧ 3 ≤ (huntingConsole 2).clu.link.good + 1 ∧ ready.clu.link.state = .up ∧
    messageParts ([0x03, 1] ++ [64]) = none ∧ ([0x03, 1] : List Byte).length = 2 ∧ 64 < (65 : Byte).toNat ∧
    (messageParts ([0x15, 1, 0, 0xEA] ++ [0xFE])).isSome = true := by decide +kernel
/-- R175: a length byte of 65 is answered REFUSED LENGTH, and the receiver skips. -/
theorem test_length_over_64 :
    let s := after (.consoleFrameArrival (makeConsoleFrame 5 (some (false, 65))))
      { ready with clu := { ready.clu with receiver := .assembling, buffer := [0x03, 9] } }
    s.clu.receiver = .skipping ∧ s.clu.replies = [⟨9, .refused, .length, []⟩] := by decide +kernel

def badConsoleFrame : ConsoleFrame := { makeConsoleFrame 5 none with check := 0 }
theorem witness_TheFourthBadFrameLosesTheConsoleLink : Running fadingConsole ∧ fadingConsole.clu.link.state = .up ∧
    consoleFrameGood badConsoleFrame = false ∧ badConsoleFrame.sync = 0x5C ∧ Running (huntingConsole 2) ∧
    (huntingConsole 2).clu.link.state = .hunt ∧ ready.clu.link.bad + 1 < 4 ∧ 3 ≤ fadingConsole.clu.link.bad ∧
    fadingConsole.console = .idle ∧ fadingConsole.page = none ∧ paging.page = some pageOfThree ∧ paging.console = .paging ∧
    vget pageOfThree.served 0 = some { slot := 0, lender := some (0, 9) } ∧ paging.call 0 = some heldCall ∧
    heldCall.serial = 9 ∧ heldCall.state = .held ∧ heldCall.kind = .entry := by decide +kernel

theorem witness_RepliesAreSentBeforeReports : Running reporting ∧ reporting.clu.link.state = .up ∧
    reporting.clu.outgoing = none ∧ reporting.clu.replies = [⟨7, .done, .none, []⟩] ∧
    (after .consoleTransmitBoundary reporting).clu.outgoing.isSome = true ∧ fadingConsole.clu.replies = [] ∧
    ready.clu.reports = [] ∧ Running (huntingConsole 1) ∧ (huntingConsole 1).clu.link.state = .hunt := by decide +kernel

def operatorTalk : State := { talking with console := .talk 0 }
def operatorRings : State :=
  { ringing with console := .talk 0, clu := { ringing.clu with cursor := some { tone := .ringback, phase := 7999 } } }
theorem witness_AConsoleTransmitMixesTheConsoleOutput : Running operatorTalk ∧ operatorTalk.clu.link.state = .up ∧
    operatorTalk.clu.output.map (·.working) = some 64 ∧ operatorTalk.console = .talk 0 ∧
    operatorTalk.call 0 = some talkCall ∧ talkCall.state = .connected ∧ talkCall.origin = .panel 0 ∧
    operatorRings.call 0 = some ringCall ∧ operatorRings.clu.cursor = some { tone := .ringback, phase := 7999 } ∧
    (after (.listen 1 0 9) talking).console = .listen 0 ∧ ready.console = .idle ∧ paging.console = .paging := by
  decide +kernel

theorem witness_AnInvalidMessageIsRefusedOrDiscarded : Running ready ∧ ready.clu.link.state = .up ∧
    (List.replicate 64 (0 : Byte)).length ≤ 64 := by decide +kernel

theorem witness_ChecksAndOrderWordsAreFormedAndRead : checkPasses [0x12, 0x07, 0x02, 0x00, 0x05] 0xE6F8 = true ∧
    checkPasses [0xFF, 0xFF] 0xFFFF = true ∧ checkOf [0xFF, 0xFF] = 0 ∧ (15 : Nat) < 16 ∧ (3 : Nat) < 4 ∧
    nibbleSum (0x8CA : BitVec 12).toNat % 16 ≠ 15 ∧ nibbleSum (0x8CB : BitVec 12).toNat % 16 = 15 ∧
    (0x8CB : BitVec 12).toNat / 128 = (17 : Addr).val ∧ (0x8CB : BitVec 12).toNat / 128 ≠ (16 : Addr).val := by decide

theorem witness_EveryRequestIsReadBackAsWritten :
    (Request.writeEntries ⟨64, 23, true, false, true, 15, 15⟩ (List.replicate 20 ⟨true, 9999, 7, 31⟩)).fits = true := by decide

/-- The hypothesis of the statements of READ, STATUS, WRITE-ENTRIES, CLEAR-COUNTERS, PROTECT, CONSOLE-SET, MIX-SET, SERVICE-ENTER,
SERVICE-LEAVE, TONE-WRITE and STORE. -/
theorem witness_requests_are_accepted : Accepts ready := by decide +kernel

def faultyItems : List WriteItem := [⟨true, 9999, 7, 31⟩, ⟨true, 10000, 0, 1⟩]
theorem witness_WriteEntriesWritesEveryItemInOrder : Accepts locked ∧ (List.replicate 20 (⟨true, 9999, 7, 31⟩ : WriteItem)).length ≤ 20 ∧
    faultyItems[1]? = some ⟨true, 10000, 0, 1⟩ ∧ Guarded locked (Fin.ofNat 24 0) ∧ ¬ Guarded locked (Fin.ofNat 24 1) := by
  decide +kernel

def lockedClear : State := { locked with pending := [.clearCounters 1 0] }
theorem witness_AGuardedPageKeepsItsEntries : step lockedClear = .next (after (.clearCounters 1 0) locked) ∧
    Running lockedClear ∧ Running (after (.clearCounters 1 0) locked) ∧ Guarded lockedClear 0 := by
  refine ⟨rfl, by decide +kernel, by decide +kernel, by decide +kernel⟩

def uninstalled : State :=
  { ready with settings := { Settings.standard with
    panels := vset Settings.standard.panels 1 { PanelProfile.standard with installed := false } } }
theorem witness_PanelSetTakesEffect : Accepts ready ∧ (5 : Nat) < (6 : Byte).toNat ∧ (0 : Byte).toNat = (0 : Panel).val ∧
    (ready.panelProfile 0).installed = true ∧ (ready.panel 0).link.state = .up ∧ Accepts uninstalled ∧
    Accepts seeking ∧ (seeking.panelProfile 0).installed = true ∧ (seeking.panel 0).link.state = .hunt ∧
    (seeking.panel 0).current = none ∧
    (uninstalled.panelProfile 1).installed = false ∧ (uninstalled.panel 1).link.state = .down ∧ Accepts ringing ∧
    (ringing.panel 0).current = some 0 ∧ ringing.call 0 = some ringCall ∧ ringCall.state ≠ .clearing := by decide +kernel

theorem witness_RiserSetEnablesAndDisables : Accepts ringing ∧ (7 : Nat) < (8 : Byte).toNat ∧ Accepts paging ∧ paging.page = some pageOfThree ∧ (vget pageOfThree.served 0).isSome = true ∧
    (7 : Byte).toNat = (7 : Riser).val ∧ (ringing.riser 7).state = .off ∧ (ringing.riser 0).state = .active ∧
    (quietS0.riser 0).state = .quiet ∧ Accepts quietS0 ∧ ringing.call 0 = some ringCall ∧ 0 ∈ ringCall.riserSet := by
  decide +kernel

theorem witness_MixerRequestsTakeEffect : Accepts { ready with mixer := .service } ∧ (List.replicate 30 (0 : Word)).length ≤ 30 ∧
    ¬ { ready with mixer := .service }.mixer = .normal := by decide +kernel

theorem witness_CallFlatSetsUpADeskCall : Accepts ready ∧ ready.console = .idle ∧ (7 : Word).toNat ≤ 9999 ∧
    9999 < (10000 : Word).toNat ∧ ready.freeRecord = some 0 ∧
    (∀ r k, (vget (ready.riser r).staged k).names 0 = false) ∧ Accepts crowdedTable ∧
    crowdedTable.freeRecord = none ∧ Accepts paging ∧ paging.console ≠ .idle ∧ targetsOf ready 7 ≠ [] ∧
    (∀ e, (ready.entry e).any (fun d => d.code = 8) = false) ∧ (∀ r, (ready.riser r).live.toList.any (·.names 0) = false) := by
  decide +kernel

def crowdedCaller : State := caller.setRiser 0 { caller.riser 0 with staged := Vector.replicate 4 .page }
theorem witness_AnswerNextConnectsTheHead : Accepts caller ∧ caller.console = .idle ∧ caller.consoleQueue = [1] ∧
    caller.call 1 = some deskCall ∧ deskCall.origin = .handset h3 ∧ caller.consoleQueue.Nodup ∧
    (caller.riser 0).inService = true ∧ (caller.riser 0).slotFree 0 = true ∧
    ready.consoleQueue = [] ∧ Accepts crowdedCaller ∧ (crowdedCaller.riser 0).freeCount = 0 := by decide +kernel

def clearingCall : State := after (.clearCall 1 0 9) talking
theorem witness_TheOperatorEndsCalls : Accepts operatorTalk ∧ operatorTalk.console = .talk 0 ∧
    operatorTalk.call 0 = some talkCall ∧ talkCall.state ≠ .clearing ∧ (∀ i, ready.console ≠ .talk i) ∧ Accepts talking ∧
    talking.call 0 = some talkCall ∧ talkCall.serial = 9 ∧ Accepts clearingCall ∧
    (clearingCall.call 0).map (fun c => (c.serial, c.state)) = some (9, .clearing) := by decide +kernel

theorem witness_MonitoringStartsAndEnds : Accepts talking ∧ talking.console = .idle ∧ (0 : Byte).toNat = (0 : Rec).val ∧
    talking.call 0 = some talkCall ∧ talkCall.serial = 9 ∧ (talkCall.answeredLeg.map (·.monitor)) = some true ∧
    Accepts (after (.listen 1 0 9) talking) ∧ (after (.listen 1 0 9) talking).console = .listen 0 ∧
    ((after (.listen 1 0 9) talking).call 0).isSome = true ∧
    (∀ i, ready.console ≠ .listen i ∧ ready.console ≠ .barge i) := by decide +kernel

/-- S0 without a free slot: the call of record 0 in slot 0, and page entries in the others. -/
def fullS0 : State :=
  talking.setRiser 0 { talking.riser 0 with
    staged := vset (Vector.replicate 4 .page) 0 (.carrying 0), live := vset (Vector.replicate 4 .page) 0 (.carrying 0) }
/-- The same with its call HELD, so that it lends nothing. -/
def heldFull : State := fullS0.setCall 0 (some heldCall)
theorem only_call_of_fullS0 {i : Rec} {c : Call} (h : fullS0.call i = some c) : i = 0 ∧ c = talkCall := by
  have h0 : ∀ j, j ≠ 0 → fullS0.call j = none := by decide +kernel
  have h1 : fullS0.call 0 = some talkCall := by decide +kernel
  by_cases hi : i = 0
  · subst hi; rw [h1] at h; cases h; exact ⟨rfl, rfl⟩
  · rw [h0 i hi] at h; cases h
theorem fullS0_carries : ∀ r k i, vget (fullS0.riser r).staged k = .carrying i → r = 0 ∧ k = 0 ∧ i = 0 := by decide +kernel
theorem fullS0_slots : SlotsFollowTheirCalls fullS0 where
  reserved := by
    have h : ∀ r k i, vget (fullS0.riser r).staged k ≠ .reserved i := by decide +kernel
    exact fun r k i e => absurd e (h r k i)
  carrying r k i e := by
    obtain ⟨rfl, rfl, rfl⟩ := fullS0_carries r k i e
    exact ⟨talkCall, by decide +kernel, rfl⟩
  oneARiser := by decide +kernel
  oneCarries r k r' k' i e e' := (fullS0_carries r k i e).1.trans (fullS0_carries r' k' i e').1.symm
theorem witness_PageStartTakesOrBorrowsSlots : Accepts ready ∧ ready.console = .idle ∧ ready.candidates 3 = [h1, h2] ∧
    (ready.riser h1.riser).lowestFree = some 0 ∧ ready.candidates 4 = [] ∧ Accepts fullS0 ∧ fullS0.console = .idle ∧
    fullS0.candidates 3 = [h2] ∧ (fullS0.riser 0).lowestFree = none ∧ vget (fullS0.riser 0).staged 0 = .carrying 0 ∧
    fullS0.call 0 = some talkCall ∧ talkCall.state = .connected ∧ Accepts heldFull ∧ heldFull.candidates 3 = [h2] ∧
    (heldFull.riser 0).lowestFree = none ∧ heldFull.call 0 = some heldCall := by decide +kernel

theorem witness_APageEndReturnsItsSlots : Running paging ∧ paging.page = some pageOfThree ∧
    pageOfThree.timer = .running 240000 ∧ Accepts paging ∧ paging.console = .paging ∧
    ready.console ≠ .paging ∧ heldCall.serial = 9 ∧ heldCall.state = .held := by decide +kernel

def stepping : State := { ready with pending := [.noticeEnd] }
theorem witness_LiveSchedulesChangeAtTheirBoundaries : step stepping = .next (after .noticeEnd ready) ∧ Running stepping ∧
    Running (after .noticeEnd ready) ∧ (stepping.riser 0).state ≠ .off ∧ ((after .noticeEnd ready).riser 0).state ≠ .off ∧
    ∀ voice, stepping.pending.head? ≠ some (.riserFrameBoundary 0 voice) := by
  refine ⟨rfl, by decide +kernel, by decide +kernel, by decide +kernel, by decide +kernel, fun voice h => ?_⟩
  simp [stepping] at h

theorem ready_has_no_call (i : Rec) : ready.call i = none := by revert i; decide +kernel

theorem witness_StepsKeepTheCapacities : WithinCapacities stepping ∧ step stepping = .next (after .noticeEnd ready) where
  left :=
    { waitQueue := by decide +kernel, consoleQueue := by decide +kernel, replies := by decide +kernel
      reports := by decide +kernel, consoleFifo := by decide +kernel, panelFifo := by decide +kernel
      sendQueue := by decide +kernel, orders := by decide +kernel
      strikes := fun i c h => by rw [show stepping.call i = none from ready_has_no_call i] at h; cases h }
  right := rfl

theorem witness_StepsKeepCallsConsistent : CallsConsistent stepping ∧ step stepping = .next (after .noticeEnd ready) := by
  have hc : ∀ i, stepping.call i = none := ready_has_no_call
  have hs : ∀ r k, vget (stepping.riser r).staged k = .idle := by decide +kernel
  refine ⟨⟨⟨fun i => ?_, fun i => ?_, by decide +kernel, by decide +kernel⟩, ⟨?_, ?_, ?_, ?_⟩⟩, rfl⟩
  · simp [hc, show stepping.waitQueue = [] from rfl]
  · simp [hc, show stepping.consoleQueue = [] from rfl]
  · intro r k i h; rw [hs] at h; cases h
  · intro r k i h; rw [hs] at h; cases h
  · intro r k k' i h; rw [hs] at h; cases h
  · intro r k r' k' i h; rw [hs] at h; cases h

theorem witness_StepsKeepHandsetsInOneCall : HandsetsInOneCall stepping ∧ step stepping = .next (after .noticeEnd ready) where
  left :=
    { legs := fun i c h => by rw [show stepping.call i = none from ready_has_no_call i] at h; cases h
      once := fun i j c d h hc => by rw [show stepping.call i = none from ready_has_no_call i] at hc; cases hc
      apart := fun p h hp => by cases hp }
  right := rfl

theorem ready_quiet : ∀ r, (ready.riser r).quietTimer ≠ .stopped → (ready.riser r).calm = true := by decide +kernel
theorem witness_StepsKeepQuietTimersCalm : QuietTimersCalm stepping ∧ (stepping.riser 0).quietTimer = .running 480000 ∧
    step stepping = .next (after .noticeEnd ready) :=
  ⟨fun r h => (RiserUnit.calm_iff _).mp (ready_quiet r h), by decide +kernel, rfl⟩

theorem witness_StepsKeepTheStoreSound : StoreSound stepping ∧ step stepping = .next (after .noticeEnd ready) where
  left :=
    { pages := fun p => Or.inr (by revert p; decide +kernel), settings := Or.inr (by decide +kernel)
      tones := Or.inr (by decide +kernel), writing := fun w h => by cases h }
  right := rfl

theorem ready_panel_gains (p : Panel) : ((ready.panel p).output.all fun o =>
    decide (min ready.settings.floor (ready.panelProfile p).gain ≤ o.working ∧ o.working ≤ (ready.panelProfile p).gain)) = true := by
  revert p; decide +kernel

theorem witness_StepsKeepTheLinkGainsBounded :
    LinkGainsBounded stepping ∧ step stepping = .next (after .noticeEnd ready) where
  left :=
    { panels := fun p o h => by
        have hp := ready_panel_gains p
        rw [show (ready.panel p).output = some o from h] at hp
        simp only [Option.all_some, decide_eq_true_eq] at hp
        exact hp
      console := fun o h => by cases h; unfold GainBounded; decide +kernel
      atRest := fun h => absurd rfl h }
  right := rfl

end Sys2Proof.Tests
end

