-- ==== Sys2Proof/Proofs/Rules.lean ====
section
/-! PROOFS. The rules of the shared operations: what each one writes and what it leaves. First the operations on a riser (orders,
slots, the quiet timer), then those on the Call Controller's own fields, then the answers to requests. -/

namespace Sys2Proof.Machine

open Sys2Proof Sys2Proof.Safety

/-! ## Tables and filters -/

theorem vset_vset {α : Type} {n : Nat} (v : Vector α n) (i : Fin n) (x y : α) : vset (vset v i x) i y = vset v i y := by
  apply vget_ext; intro j; simp only [vget_vset]; split <;> rfl

theorem option_filter_filter {α : Type} (p : α → Bool) (o : Option α) : (o.filter p).filter p = o.filter p := by
  cases o <;> simp [Option.filter]; split <;> simp_all

/-! ## The quiet timer follows its conditions (R92) -/

/-- One change of a riser that leaves the quiet timer alone lets the timer follow its conditions. -/
theorem quietTimerFollows_modRiser (s : State) (r : Riser) {f : RiserUnit → RiserUnit}
    (hf : (f (s.riser r)).quietTimer = (s.riser r).quietTimer) : QuietTimerFollows s (s.modRiser r f) r := by
  have hcalm : Calm ((s.modRiser r f).riser r) ↔ (f (s.riser r)).calm = true := by
    rw [← RiserUnit.calm_iff, State.riser_modRiser, if_pos rfl, RiserUnit.retimed_eq]
    rfl
  refine ⟨fun h h' => ?_, fun h h' => ?_, fun h => ?_⟩ <;> rw [hcalm] at *
  · simp [RiserUnit.retimed, h', (RiserUnit.calm_iff _).mpr h, hf]
  · rw [← RiserUnit.calm_iff] at h
    simp [RiserUnit.retimed, h', h, Timer.period, Timer.start, Config.framesPerSecond]
    rfl
  · simp [RiserUnit.retimed, h]

/-- A state whose riser and profile are the same gives the timer nothing to follow. -/
theorem quietTimerFollows_congr {s t t' : State} {r : Riser} (h : QuietTimerFollows s t r)
    (hr : t'.riser r = t.riser r) (hp : t'.riserProfile r = t.riserProfile r) : QuietTimerFollows s t' r := by
  refine ⟨?_, ?_, ?_⟩ <;> rw [hr]
  · exact h.kept
  · rw [hp]; exact h.started
  · exact h.stopped

/-- Two changes one after the other: the second must not bring back conditions that the first broke. -/
theorem quietTimerFollows_trans {s t u : State} {r : Riser} (h : QuietTimerFollows s t r) (g : QuietTimerFollows t u r)
    (hp : u.riserProfile r = t.riserProfile r)
    (hc : Calm (s.riser r) → ¬ Calm (t.riser r) → ¬ Calm (u.riser r)) : QuietTimerFollows s u r where
  kept hs hu := by
    have ht : Calm (t.riser r) := by_contra fun ht => hc hs ht hu
    rw [g.kept ht hu, h.kept hs ht]
  started hs hu := by
    by_cases ht : Calm (t.riser r)
    · rw [g.kept ht hu, h.started hs ht, hp]
    · exact g.started ht hu
  stopped := g.stopped

/-- A change that fails one of the conditions stops the quiet timer. -/
theorem RiserUnit.retimed_stopped {period : Nat} {old new : RiserUnit} (h : new.calm = false) :
    RiserUnit.retimed period old new = { new with quietTimer := .stopped } := by simp [RiserUnit.retimed, h]

/-- A handset off-hook fails the conditions of the quiet timer. -/
theorem RiserUnit.calm_offHook {u : RiserUnit} {a : Addr} (h : (vget u.presence a).offHook = true) : u.calm = false := by
  rw [← Bool.not_eq_true, RiserUnit.calm_iff]
  rintro ⟨-, -, -, hp⟩
  simp [hp a] at h

/-- A riser that is not ACTIVE fails the conditions of the quiet timer. -/
theorem RiserUnit.calm_state {u : RiserUnit} (h : u.state ≠ .active) : u.calm = false := by
  rw [← Bool.not_eq_true, RiserUnit.calm_iff]
  exact fun hc => h hc.1

/-! ## The order queue (R82) -/

/-- Entries of other addresses stay as they are. -/
theorem mem_enqueued_of_ne {a : Addr} {o : Option Order} {q : List OrderEntry} {e : OrderEntry} (h : e.addr ≠ a) :
    e ∈ enqueued a o q ↔ e ∈ q := by
  have haddr : ∀ x : OrderEntry, (x.retaken o).addr = x.addr := fun x => by cases o <;> rfl
  unfold enqueued
  split
  · simp only [List.mem_map]
    constructor
    · rintro ⟨x, hx, rfl⟩
      split at h
      next hxa => exact absurd ((haddr x).trans hxa) h
      next hxa => rwa [if_neg hxa]
    · exact fun he => ⟨e, he, if_neg h⟩
  · simp only [List.mem_append, List.mem_singleton, or_iff_left_iff_imp]
    rintro rfl
    exact absurd rfl h

/-- An order that joins stands in the queue for its address. -/
theorem exists_mem_enqueued (a : Addr) (o : Order) (q : List OrderEntry) :
    ∃ e ∈ enqueued a (some o) q, e.addr = a ∧ e.order = some o := by
  unfold enqueued
  split
  next h =>
    obtain ⟨x, hx, hxa⟩ := List.any_eq_true.mp h
    have hxa : x.addr = a := by simpa using hxa
    exact ⟨x.retaken (some o), List.mem_map.mpr ⟨x, hx, if_pos hxa⟩, hxa, rfl⟩
  · exact ⟨_, List.mem_append_right _ (List.mem_singleton.mpr rfl), rfl, rfl⟩

/-- No address gets a second entry. -/
theorem enqueued_nodup {a : Addr} {o : Option Order} {q : List OrderEntry} (h : (q.map (·.addr)).Nodup) :
    ((enqueued a o q).map (·.addr)).Nodup := by
  have haddr : ∀ x : OrderEntry, (if x.addr = a then x.retaken o else x).addr = x.addr := fun x => by
    split
    · cases o <;> rfl
    · rfl
  unfold enqueued
  split
  · rw [List.map_map]
    rwa [show (OrderEntry.addr ∘ fun e : OrderEntry => if e.addr = a then e.retaken o else e) = OrderEntry.addr from
      funext haddr]
  next hq =>
    rw [List.map_append, List.map_singleton, List.nodup_append]
    refine ⟨h, List.nodup_singleton _, fun x hx y hy => ?_⟩
    obtain ⟨e, he, rfl⟩ := List.mem_map.mp hx
    rw [List.mem_singleton.mp hy]
    rintro rfl
    exact hq (List.any_eq_true.mpr ⟨e, he, by simp⟩)

/-! ## Orders sent to handsets -/

/-- Between `s` and `t` orders have gone to handsets of a set, and nothing else has happened but that quiet timers followed. -/
structure OrdersTo (hs : Handset → Prop) (s t : State) : Prop where
  state  : t = { s with risers := t.risers }
  riser  : ∀ r, t.riser r = { s.riser r with queue := (t.riser r).queue, quietTimer := (t.riser r).quietTimer }
  others : ∀ r e, ¬ hs { riser := r, addr := e.addr } → (e ∈ (t.riser r).queue ↔ e ∈ (s.riser r).queue)

namespace OrdersTo

variable {hs : Handset → Prop} {s t u : State}

theorem refl (hs : Handset → Prop) (s : State) : OrdersTo hs s s := ⟨rfl, fun _ => rfl, fun _ _ _ => Iff.rfl⟩

theorem trans (h : OrdersTo hs s t) (g : OrdersTo hs t u) : OrdersTo hs s u where
  state := by rw [g.state, h.state]
  riser r := by rw [g.riser r, h.riser r]
  others r e he := (g.others r e he).trans (h.others r e he)

theorem mono {hs' : Handset → Prop} (h : OrdersTo hs s t) (hsub : ∀ x, hs x → hs' x) : OrdersTo hs' s t :=
  ⟨h.state, h.riser, fun r e he => h.others r e fun hx => he (hsub _ hx)⟩

theorem foldl {α : Type} {f : State → α → State} {l : List α} (h : ∀ x ∈ l, ∀ s, OrdersTo hs s (f s x)) (s : State) :
    OrdersTo hs s (l.foldl f s) := by
  induction l generalizing s with
  | nil => exact refl hs s
  | cons x l ih =>
    exact (h x (List.mem_cons_self ..) s).trans (ih (fun y hy => h y (List.mem_cons_of_mem _ hy)) _)

theorem call (h : OrdersTo hs s t) (j : Rec) : t.call j = s.call j := by rw [h.state]; rfl
theorem presence (h : OrdersTo hs s t) (x : Handset) : t.presence x = s.presence x := by
  unfold State.presence; rw [h.riser x.riser]
theorem live (h : OrdersTo hs s t) (r : Riser) : (t.riser r).live = (s.riser r).live := by rw [h.riser r]
theorem staged (h : OrdersTo hs s t) (r : Riser) : (t.riser r).staged = (s.riser r).staged := by rw [h.riser r]
theorem inService (h : OrdersTo hs s t) (r : Riser) : (t.riser r).inService = (s.riser r).inService := by
  rw [h.riser r]; rfl
theorem slotFree (h : OrdersTo hs s t) (r : Riser) (k : Slot) : (t.riser r).slotFree k = (s.riser r).slotFree k := by
  rw [h.riser r]; rfl
theorem freeCount (h : OrdersTo hs s t) (r : Riser) : (t.riser r).freeCount = (s.riser r).freeCount := by
  rw [h.riser r]; rfl
theorem takesOrders (h : OrdersTo hs s t) (x : Handset) : TakesOrders t x ↔ TakesOrders s x := by
  unfold TakesOrders; rw [h.inService, h.presence]

/-- The order of a handset that is not among those addressed stays. -/
theorem hasOrder (h : OrdersTo hs s t) {x : Handset} (hx : ¬ hs x) {o : Order} (ho : HasOrder s x o) : HasOrder t x o := by
  obtain ⟨e, he, ha, heo⟩ := ho
  exact ⟨e, (h.others x.riser e (by rw [ha]; exact hx)).mpr he, ha, heo⟩

end OrdersTo

theorem State.enqueue_orders (s : State) (h : Handset) (o : Option Order) : OrdersTo (· = h) s (s.enqueue h o) := by
  unfold State.enqueue
  split
  · refine ⟨rfl, fun r => ?_, fun r e he => ?_⟩ <;> rw [State.riser_modRiser] <;> split
    · next hr => subst hr; rw [RiserUnit.retimed_eq]
    · rfl
    · next hr =>
      subst hr
      rw [RiserUnit.retimed_eq]
      exact mem_enqueued_of_ne fun ha => he (by rw [ha])
    · rfl
  · exact .refl _ s

theorem State.order_orders (s : State) (h : Handset) (o : Order) : OrdersTo (· = h) s (s.order h o) := s.enqueue_orders h _
theorem State.reject_orders (s : State) (h : Handset) : OrdersTo (· = h) s (s.reject h) := s.enqueue_orders h _

/-- An order sent to a handset that takes orders waits for it. -/
theorem State.hasOrder_order {s : State} {h : Handset} (ht : TakesOrders s h) (o : Order) : HasOrder (s.order h o) h o := by
  obtain ⟨hin, hp⟩ := ht
  unfold HasOrder State.order State.enqueue
  rw [if_pos (by simp [hin, hp]), State.riser_modRiser, if_pos rfl, RiserUnit.retimed_eq]
  exact exists_mem_enqueued h.addr o _

/-- Orders sent for the items of a list, each to the handset of its item: an item's order waits when no other item of the list
has its handset. -/
theorem State.hasOrder_foldl {α : Type} {f : State → α → State} {g : α → Handset} (hf : ∀ s x, OrdersTo (· = g x) s (f s x))
    {l : List α} {x : α} {o : Order} (hx : x ∈ l) (hu : ∀ y ∈ l, g y = g x → y = x) {s : State}
    (ho : ∀ v, v.presence (g x) = s.presence (g x) → TakesOrders v (g x) → HasOrder (f v x) (g x) o)
    (ht : TakesOrders s (g x)) : HasOrder (l.foldl f s) (g x) o := by
  induction l generalizing s with
  | nil => simp at hx
  | cons y l ih =>
    rw [List.foldl_cons]
    by_cases hl : x ∈ l
    · refine ih hl (fun z hz => hu z (List.mem_cons_of_mem _ hz)) (fun v hv => ho v ?_) (((hf s y).takesOrders _).mpr ht)
      rw [hv, (hf s y).presence]
    · obtain rfl : x = y := by simpa [hl] using hx
      have hrest : OrdersTo (· ≠ g x) (f s x) (l.foldl f (f s x)) :=
        .foldl (fun z hz s => (hf s z).mono fun w hw hwx => hl (by
          have := hu z (List.mem_cons_of_mem _ hz) (hw ▸ hwx)
          rwa [← this])) _
      exact hrest.hasOrder (fun h => h rfl) (ho s rfl ht)

/-! ## Slots (R33 to R39) -/

/-- Between `s` and `t` staged entries of risers have changed, with what follows from that: a wake, and the quiet timers. -/
structure SlotsTo (s t : State) : Prop where
  state : t = { s with risers := t.risers }
  riser : ∀ r, t.riser r = { s.riser r with
    state := (t.riser r).state, staged := (t.riser r).staged, quietTimer := (t.riser r).quietTimer
    wakeTimer := (t.riser r).wakeTimer }
  woken : ∀ r, (t.riser r).state = (s.riser r).state ∨ (s.riser r).state = .quiet ∧ (t.riser r).state = .waking

namespace SlotsTo

variable {s t u : State}

theorem refl (s : State) : SlotsTo s s := ⟨rfl, fun _ => rfl, fun _ => .inl rfl⟩

theorem trans (h : SlotsTo s t) (g : SlotsTo t u) : SlotsTo s u where
  state := by rw [g.state, h.state]
  riser r := by rw [g.riser r, h.riser r]
  woken r := by
    rcases h.woken r with h1 | ⟨h1, h2⟩ <;> rcases g.woken r with g1 | ⟨g1, g2⟩
    · exact .inl (g1.trans h1)
    · exact .inr ⟨h1 ▸ g1, g2⟩
    · exact .inr ⟨h1, g1.trans h2⟩
    · exact .inr ⟨h1, g2⟩

theorem foldl {α : Type} {f : State → α → State} (h : ∀ s x, SlotsTo s (f s x)) (l : List α) (s : State) :
    SlotsTo s (l.foldl f s) := by
  induction l generalizing s with
  | nil => exact refl s
  | cons x l ih => exact (h s x).trans (ih _)

theorem call (h : SlotsTo s t) (j : Rec) : t.call j = s.call j := by rw [h.state]; rfl
theorem presence (h : SlotsTo s t) (x : Handset) : t.presence x = s.presence x := by
  unfold State.presence; rw [h.riser x.riser]
theorem live (h : SlotsTo s t) (r : Riser) : (t.riser r).live = (s.riser r).live := by rw [h.riser r]
theorem queue (h : SlotsTo s t) (r : Riser) : (t.riser r).queue = (s.riser r).queue := by rw [h.riser r]
theorem inService (h : SlotsTo s t) (r : Riser) : (t.riser r).inService = (s.riser r).inService := by
  unfold RiserUnit.inService
  rcases h.woken r with hr | ⟨h1, h2⟩
  · rw [hr]
  · rw [h1, h2]
theorem takesOrders (h : SlotsTo s t) (x : Handset) : TakesOrders t x ↔ TakesOrders s x := by
  unfold TakesOrders; rw [h.inService, h.presence]
theorem hasOrder (h : SlotsTo s t) {x : Handset} {o : Order} (ho : HasOrder s x o) : HasOrder t x o := by
  unfold HasOrder; rw [h.queue]; exact ho

end SlotsTo

/-- A change of one riser's staged entries alone. -/
theorem State.modRiser_slots (s : State) (r : Riser) {f : RiserUnit → RiserUnit}
    (hf : ∀ u, f u = { u with staged := (f u).staged }) : SlotsTo s (s.modRiser r f) := by
  refine ⟨rfl, fun r' => ?_, fun r' => .inl ?_⟩ <;> rw [State.riser_modRiser] <;> split
  · next hr => subst hr; rw [RiserUnit.retimed_eq, hf]
  · rfl
  · next hr => subst hr; rw [RiserUnit.retimed_eq, hf]
  · rfl

theorem State.releaseOn_slots (s : State) (i : Rec) (r : Riser) : SlotsTo s (s.releaseOn i r) := by
  unfold State.releaseOn; split
  · exact s.modRiser_slots r fun _ => rfl
  · exact .refl s

theorem State.releaseAll_slots (s : State) (i : Rec) : SlotsTo s (s.releaseAll i) :=
  .foldl (fun s r => s.releaseOn_slots i r) _ s

/-- A release leaves the riser's state and wake timer. -/
theorem State.releaseOn_riser (s : State) (i : Rec) (r r' : Riser) : (s.releaseOn i r).riser r' = { s.riser r' with
    staged := ((s.releaseOn i r).riser r').staged, quietTimer := ((s.releaseOn i r).riser r').quietTimer } := by
  unfold State.releaseOn
  split
  · rw [State.riser_modRiser]
    split
    next hr => subst hr; rw [RiserUnit.retimed_eq]
    · rfl
  · rfl

theorem State.releaseList_riser (i : Rec) (l : List Riser) (s : State) (r : Riser) :
    (l.foldl (fun s r => s.releaseOn i r) s).riser r = { s.riser r with
      staged := ((l.foldl (fun s r => s.releaseOn i r) s).riser r).staged
      quietTimer := ((l.foldl (fun s r => s.releaseOn i r) s).riser r).quietTimer } := by
  induction l generalizing s with
  | nil => rfl
  | cons x l ih => rw [List.foldl_cons, ih, State.releaseOn_riser]

theorem State.carryAnswer_slots (s : State) (i : Rec) (r : Riser) : SlotsTo s (s.carryAnswer i r) :=
  s.modRiser_slots r fun _ => rfl

theorem State.edit_idle (s : State) (r : Riser) (k : Slot) :
    s.edit r k .idle = s.modRiser r fun u => { u with staged := vset u.staged k .idle } := rfl

theorem State.edit_busy (s : State) (r : Riser) (k : Slot) {e : SlotEntry} (he : e ≠ .idle) :
    s.edit r k e = s.modRiser r fun u => { u with staged := vset u.staged k e }.woken := by
  unfold State.edit; simp only [if_neg he]

theorem RiserUnit.woken_staged (u : RiserUnit) : u.woken.staged = u.staged := by rw [woken_fields]

/-- Waking takes a QUIET riser to WAKING and leaves the state of any other. -/
theorem RiserUnit.woken_state (u : RiserUnit) :
    u.woken.state = u.state ∨ u.state = .quiet ∧ u.woken.state = .waking := by
  unfold RiserUnit.woken
  split
  · next h => exact .inr ⟨h, rfl⟩
  · exact .inl rfl

theorem State.edit_slots (s : State) (r : Riser) (k : Slot) (e : SlotEntry) : SlotsTo s (s.edit r k e) := by
  by_cases he : e = .idle
  · rw [he, State.edit_idle]; exact s.modRiser_slots r fun _ => rfl
  · rw [State.edit_busy s r k he]
    refine ⟨rfl, fun r' => ?_, fun r' => ?_⟩ <;> rw [State.riser_modRiser] <;> split
    · next hr => subst hr; rw [RiserUnit.retimed_eq, woken_fields]
    · rfl
    · next hr => subst hr; rw [RiserUnit.retimed_eq]; exact RiserUnit.woken_state _
    · exact .inl rfl

/-- An edit that reserves, carries or pages wakes a QUIET riser (R39). -/
theorem State.edit_wakes {s : State} {r : Riser} {k : Slot} {e : SlotEntry} (he : e ≠ .idle)
    (hq : (s.riser r).state = .quiet) : ((s.edit r k e).riser r).state = .waking := by
  rw [State.edit_busy s r k he, State.riser_modRiser, if_pos rfl, RiserUnit.retimed_eq]
  simp [RiserUnit.woken, hq]

/-- A slot is free when no schedule names anything for it. -/
theorem RiserUnit.slotFree_iff {u : RiserUnit} {k : Slot} :
    u.slotFree k = true ↔ vget u.live k = .idle ∧ vget u.staged k = .idle := by
  simp [RiserUnit.slotFree]

/-- Where every staged entry is what it was or not IDLE, no slot becomes free. -/
theorem SlotsTo.slotFree_of {s t : State} (h : SlotsTo s t) {r : Riser}
    (hk : ∀ k, vget (t.riser r).staged k = .idle → vget (s.riser r).staged k = .idle) {k : Slot}
    (hf : (t.riser r).slotFree k = true) : (s.riser r).slotFree k = true := by
  rw [RiserUnit.slotFree_iff] at *
  exact ⟨by rw [← h.live]; exact hf.1, hk k hf.2⟩

/-- Fewer free slots give no greater free count. -/
theorem RiserUnit.freeCount_le {u v : RiserUnit} (hs : v.inService = u.inService)
    (hf : ∀ k, v.slotFree k = true → u.slotFree k = true) : v.freeCount ≤ u.freeCount := by
  unfold RiserUnit.freeCount
  rw [hs]
  split
  · exact List.countP_mono_left fun k _ => hf k
  · exact Nat.le_refl _

/-- A riser's free count depends on its state and its two schedules alone. -/
theorem RiserUnit.freeCount_congr {u v : RiserUnit} (hs : v.state = u.state) (hl : v.live = u.live)
    (hg : v.staged = u.staged) : v.freeCount = u.freeCount := by
  have : ∀ k, v.slotFree k = u.slotFree k := fun k => by simp [RiserUnit.slotFree, hl, hg]
  rw [RiserUnit.freeCount, RiserUnit.freeCount, RiserUnit.inService, RiserUnit.inService, hs,
    show v.slotFree = u.slotFree from funext this]

/-! ## The scan after an event (R43) -/

/-- An event that raises no free count is not followed by a scan. -/
theorem State.settled_unraised {s t : State} (h : ∀ r, (t.riser r).freeCount ≤ (s.riser r).freeCount) :
    State.settled s t = t := by
  unfold State.settled
  rw [if_neg]
  simpa [allRisers] using h

/-- The scan is judged by the free counts before the event alone. -/
theorem State.settled_congr {s s' : State} (h : ∀ r, (s'.riser r).freeCount = (s.riser r).freeCount) (t : State) :
    State.settled s' t = State.settled s t := by
  unfold State.settled; simp only [h]

/-! ## Reports (R182) -/

theorem ConsoleUnit.posted_eq (c : ConsoleUnit) (x : Report) :
    c.posted x = { c with reports := (c.posted x).reports, gap := (c.posted x).gap } := posted_fields c x

@[simp] theorem ConsoleUnit.posted_replies (c : ConsoleUnit) (x : Report) : (c.posted x).replies = c.replies := by
  rw [posted_fields]
@[simp] theorem ConsoleUnit.posted_fifo (c : ConsoleUnit) (x : Report) : (c.posted x).fifo = c.fifo := by rw [posted_fields]
@[simp] theorem ConsoleUnit.posted_link (c : ConsoleUnit) (x : Report) : (c.posted x).link = c.link := by rw [posted_fields]
@[simp] theorem ConsoleUnit.posted_cursor (c : ConsoleUnit) (x : Report) : (c.posted x).cursor = c.cursor := by
  rw [posted_fields]

/-- A report posted on a console unit whose reports, gap and cursor alone have changed. -/
theorem ConsoleUnit.posted_of_eq {c d : ConsoleUnit} (h : d = { c with reports := d.reports, gap := d.gap, cursor := d.cursor })
    (x : Report) : d.posted x =
      { c with reports := (d.posted x).reports, gap := (d.posted x).gap, cursor := (d.posted x).cursor } := by
  rw [ConsoleUnit.posted_cursor]
  exact (ConsoleUnit.posted_eq d x).trans (congrArg (fun u : ConsoleUnit =>
    ({ u with reports := (d.posted x).reports, gap := (d.posted x).gap } : ConsoleUnit)) h)

/-- A report just posted is the last of the queue. -/
theorem ConsoleUnit.posted_getLast (c : ConsoleUnit) (x : Report) : (c.posted x).reports.getLast? = some x := by
  unfold ConsoleUnit.posted; split <;> simp

/-- A report stands in the queue with at most n reports after it. -/
def ConsoleUnit.Recent (n : Nat) (x : Report) (c : ConsoleUnit) : Prop :=
  ∃ older newer, c.reports = older ++ x :: newer ∧ newer.length ≤ n

theorem ConsoleUnit.Recent.mem {n : Nat} {x : Report} {c : ConsoleUnit} (h : c.Recent n x) : x ∈ c.reports := by
  obtain ⟨older, newer, hr, -⟩ := h
  simp [hr]

theorem ConsoleUnit.recent_posted (c : ConsoleUnit) (x : Report) : (c.posted x).Recent 0 x := by
  unfold ConsoleUnit.posted
  split
  · exact ⟨_, [], rfl, Nat.le_refl _⟩
  · exact ⟨_, [], rfl, Nat.le_refl _⟩

/-- A full queue loses its oldest report, which is not one of the last fifteen. -/
theorem ConsoleUnit.Recent.posted {n : Nat} {x : Report} {c : ConsoleUnit} (h : c.Recent n x) (hn : n < 15) (y : Report) :
    (c.posted y).Recent (n + 1) x := by
  obtain ⟨older, newer, hr, hl⟩ := h
  unfold ConsoleUnit.posted
  split
  · exact ⟨older, newer ++ [y], by simp [hr], by simpa using hl⟩
  next hfull =>
    cases older with
    | nil =>
      rw [hr] at hfull
      simp only [Config.reportPlaces, List.nil_append, List.length_cons, not_lt] at hfull
      omega
    | cons z older => exact ⟨older, newer ++ [y], by simp [hr], by simpa using hl⟩

theorem ConsoleUnit.Recent.congr {n : Nat} {x : Report} {c d : ConsoleUnit} (h : c.Recent n x) (hd : d.reports = c.reports) :
    d.Recent n x := by
  unfold ConsoleUnit.Recent; rw [hd]; exact h

/-- A CALL report of a record that is not FREE. -/
theorem State.postCall_eq {s : State} {i : Rec} {c : Call} (h : s.call i = some c) (e : CallEvent) :
    s.postCall i e = s.post (.call e (some (i, c.serial)) c.kind c.origin (some c.state)) := by
  simp [State.postCall, h]

/-- A CALL report changes the console unit alone. -/
theorem State.postCall_state (s : State) (i : Rec) (e : CallEvent) :
    s.postCall i e = { s with clu := (s.postCall i e).clu } := by
  unfold State.postCall; split <;> rfl

/-! ## Panel messages and end tones (R110, R113) -/

section
variable (u : PanelUnit) (m : PanelMsg) (cause : EndCause)

@[simp] theorem PanelUnit.handed_link : (u.handed m).link = u.link := by rw [handed_fields]
@[simp] theorem PanelUnit.handed_fifo : (u.handed m).fifo = u.fifo := by rw [handed_fields]
@[simp] theorem PanelUnit.handed_current : (u.handed m).current = u.current := by rw [handed_fields]
@[simp] theorem PanelUnit.handed_endTone : (u.handed m).endTone = u.endTone := by rw [handed_fields]
@[simp] theorem PanelUnit.handed_cursor : (u.handed m).cursor = u.cursor := by rw [handed_fields]
@[simp] theorem PanelUnit.handed_output : (u.handed m).output = u.output := by rw [handed_fields]
@[simp] theorem PanelUnit.endToned_link : (u.endToned cause).link = u.link := by rw [endToned_fields]
@[simp] theorem PanelUnit.endToned_fifo : (u.endToned cause).fifo = u.fifo := by rw [endToned_fields]
@[simp] theorem PanelUnit.endToned_current : (u.endToned cause).current = u.current := by rw [endToned_fields]
@[simp] theorem PanelUnit.endToned_sendQueue : (u.endToned cause).sendQueue = u.sendQueue := by rw [endToned_fields]
@[simp] theorem PanelUnit.endToned_output : (u.endToned cause).output = u.output := by rw [endToned_fields]
@[simp] theorem PanelUnit.endToneStopped_link : u.endToneStopped.link = u.link := by rw [endToneStopped_fields]
@[simp] theorem PanelUnit.endToneStopped_fifo : u.endToneStopped.fifo = u.fifo := by rw [endToneStopped_fields]
@[simp] theorem PanelUnit.endToneStopped_current : u.endToneStopped.current = u.current := by rw [endToneStopped_fields]
@[simp] theorem PanelUnit.endToneStopped_sendQueue : u.endToneStopped.sendQueue = u.sendQueue := by
  rw [endToneStopped_fields]
@[simp] theorem PanelUnit.endToneStopped_output : u.endToneStopped.output = u.output := by rw [endToneStopped_fields]
@[simp] theorem PanelUnit.endToneStopped_endTone : u.endToneStopped.endTone = none := by
  unfold PanelUnit.endToneStopped; split
  · rfl
  · assumption

end

/-- A message handed to a panel in UP. -/
theorem PanelUnit.handed_up {u : PanelUnit} (h : u.link.state = .up) (m : PanelMsg) :
    u.handed m = { u with sendQueue := sendQueued m u.sendQueue } := by
  unfold PanelUnit.handed; rw [if_pos h]

/-- A message for a panel that is not in UP is not queued. -/
theorem PanelUnit.handed_notUp {u : PanelUnit} (h : u.link.state ≠ .up) (m : PanelMsg) : u.handed m = u := by
  unfold PanelUnit.handed; rw [if_neg h]

/-! ## Requests (R177 to R180) -/

/-- A request whose execution refuses it leaves its reply and nothing else. -/
theorem State.request_refused {s : State} (h : Accepts s) {tag : Byte} {q : Request} {reason : Reason} {detail : List Byte}
    (hq : q.run s.messageArrived = refuse s.messageArrived reason detail) :
    s.request tag q = refusal s tag reason detail := by
  rw [State.request_accepted h, State.execute_eq, hq]; rfl

/-- A request that is carried out leaves what it makes of the state, and its reply. -/
theorem State.request_finished {s t : State} (h : Accepts s) {tag : Byte} {q : Request} {data : List Byte}
    (hq : q.run s.messageArrived = finished t data) :
    s.request tag q = t.reply { tag := tag, result := .done, reason := .none, data := data } := by
  rw [State.request_accepted h, State.execute_eq, hq]; rfl

end Sys2Proof.Machine
end

