-- ==== Sys2Proof/Proofs/Endings.lean ====
section
/-! PROOFS. The ending of a call (R28 to R31): what it makes of the whole state, said once, and from it `Ended`. -/

namespace Sys2Proof.Machine

open Sys2Proof Sys2Proof.Safety

/-! ## The steps of an ending -/

theorem State.noticeForget_eq (s : State) (i : Rec) :
    s.noticeForget i = { s with notice := s.notice.filter fun n => n.record ≠ i } := by
  unfold State.noticeForget
  split
  · next n hn =>
    by_cases hi : n.record = i
    · simp [hi, hn, State.setNotice, Option.filter]
    · simp [hi, hn, Option.filter]; rw [← hn]
  · next hn => simp [hn]; rw [← hn]

theorem State.consoleForget_eq (s : State) (i : Rec) :
    s.consoleForget i = { s with
      console := if s.console.names i then .idle else s.console
      clu := if s.console.names i then { s.clu with cursor := none } else s.clu } := by
  unfold State.consoleForget; split <;> rfl

/-- What the ending of its call does at a panel: the panels after it. -/
theorem State.panelEnded_state (s : State) (o : Origin) (cause : EndCause) :
    s.panelEnded o cause = { s with panels := (s.panelEnded o cause).panels } := by
  unfold State.panelEnded; split <;> rfl

theorem State.panelEnded_congr {s t : State} (h : t.panels = s.panels) (o : Origin) (cause : EndCause) :
    (t.panelEnded o cause).panels = (s.panelEnded o cause).panels := by
  unfold State.panelEnded
  split
  · simp only [State.modPanel_panels, State.panel, h]
  · exact h

theorem State.liveNames_congr {s t : State} (h : ∀ r, (t.riser r).live = (s.riser r).live) (i : Rec) :
    t.liveNames i = s.liveNames i := by
  unfold State.liveNames; simp only [h]

theorem State.liveNames_eq_false {s : State} {i : Rec} :
    s.liveNames i = false ↔ ∀ r k, (vget (s.riser r).live k).names i = false := by
  rw [← Bool.not_eq_true, State.liveNames, List.any_eq_true]
  simp only [any_toList, allRisers, List.mem_finRange, true_and, not_exists, Bool.not_eq_true]

theorem State.freeIfUnnamed_eq {s : State} {i : Rec} {c : Call} (h : s.call i = some c) (hc : c.state = .clearing) :
    s.freeIfUnnamed i = { s with
      calls := vset s.calls i (if s.liveNames i then some c else none)
      notice := if s.liveNames i then s.notice else s.notice.filter fun n => n.record ≠ i } := by
  unfold State.freeIfUnnamed
  rw [h]
  simp only [hc, true_and]
  split
  next hl => simp only [hl, State.noticeForget_eq]; rfl
  next hl =>
    have hl : s.liveNames i = true := by simpa using hl
    have hv : vset s.calls i (some c) = s.calls := by rw [← h]; exact vset_vget _ _
    simp [hl, hv]

/-- The order of a leg whose call ends goes to its handset, and none for a DROPPED leg. -/
theorem State.endLeg_orders (s : State) (l : Leg) :
    OrdersTo (fun x => x = l.handset ∧ l.state ≠ .dropped) s (s.endLeg l) := by
  unfold State.endLeg
  split
  · split
    next hl => exact (s.order_orders _ _).mono fun x hx => ⟨hx, by simp [hl]⟩
    next hl => split <;> exact (State.order_orders ..).mono fun x hx => ⟨hx, by simp [hl]⟩
    · exact .refl _ s
  · exact .refl _ s

/-- What the handset of a RINGING leg, and that of an ANSWERED one, is sent (R28). -/
theorem State.endLeg_hasOrder {s : State} {l : Leg} (h : TakesOrders s l.handset) :
    (l.state = .ringing → HasOrder (s.endLeg l) l.handset .ringOff) ∧
    (l.state = .answered →
      HasOrder (s.endLeg l) l.handset (if (s.presence l.handset).offHook then .drop else .unassign)) := by
  unfold State.endLeg
  rw [if_pos h.2]
  refine ⟨fun hl => ?_, fun hl => ?_⟩ <;> simp only [hl]
  · exact State.hasOrder_order h _
  · split <;> exact State.hasOrder_order h _

/-! ## The ending -/

/-- The risers after the ending of a call, in `t`: its staged entries are released and its legs' handsets sent their orders. -/
structure LegsEnded (s t : State) (i : Rec) (c : Call) : Prop where
  riser  : ∀ r, t.riser r = { s.riser r with
    staged := (t.riser r).staged, queue := (t.riser r).queue, quietTimer := (t.riser r).quietTimer }
  staged : ∀ r k, vget (t.riser r).staged k =
    if (vget (s.riser r).staged k).names i then .idle else vget (s.riser r).staged k
  others : ∀ r e, (∀ l ∈ c.legs, l.state ≠ .dropped → l.handset ≠ { riser := r, addr := e.addr }) →
    (e ∈ (t.riser r).queue ↔ e ∈ (s.riser r).queue)
  orders : ∀ l ∈ c.legs, TakesOrders s l.handset → (∀ m ∈ c.legs, m.handset = l.handset → m = l) →
    (l.state = .ringing → HasOrder t l.handset .ringOff) ∧
    (l.state = .answered → HasOrder t l.handset (if (s.presence l.handset).offHook then .drop else .unassign))

/-- The risers alone are looked at. -/
theorem LegsEnded.congr {s s' t t' : State} {i : Rec} {c : Call} (h : LegsEnded s t i c) (hs : s'.risers = s.risers)
    (ht : t'.risers = t.risers) : LegsEnded s' t' i c := by
  cases s; cases s'; cases t; cases t'
  cases hs; cases ht
  exact ⟨h.riser, h.staged, h.others, h.orders⟩

/-- The orders of the legs, then the release of the record's staged entries. -/
theorem legsEnded_foldl (s : State) (i : Rec) (c : Call) : LegsEnded s ((c.legs.foldl State.endLeg s).releaseAll i) i c := by
  have hsent : OrdersTo (fun x => ∃ l ∈ c.legs, l.state ≠ .dropped ∧ l.handset = x) s (c.legs.foldl State.endLeg s) :=
    .foldl (fun l hl s => (s.endLeg_orders l).mono fun x ⟨hx, hd⟩ => ⟨l, hl, hd, hx.symm⟩) s
  have hreleased := (c.legs.foldl State.endLeg s).releaseAll_slots i
  refine ⟨fun r => ?_, fun r k => ?_, fun r e he => ?_, fun l hl ht hu => ?_⟩
  · have hstate : ((c.legs.foldl State.endLeg s).releaseAll i).riser r = { (c.legs.foldl State.endLeg s).riser r with
        staged := (((c.legs.foldl State.endLeg s).releaseAll i).riser r).staged
        quietTimer := (((c.legs.foldl State.endLeg s).releaseAll i).riser r).quietTimer } :=
      State.releaseList_riser i allRisers _ r
    rw [hstate, hsent.riser r]
  · rw [State.releaseAll_staged, hsent.staged]
  · rw [hreleased.queue]
    exact hsent.others r e fun ⟨l, hl, hd, hx⟩ => he l hl hd hx
  · have hfold : ∀ o, (∀ v, v.presence l.handset = s.presence l.handset → TakesOrders v l.handset →
        HasOrder (v.endLeg l) l.handset o) → HasOrder (c.legs.foldl State.endLeg s) l.handset o := fun o ho =>
      State.hasOrder_foldl (g := Leg.handset) (fun s x => (s.endLeg_orders x).mono fun _ h => h.1) hl hu ho ht
    refine ⟨fun hs => hreleased.hasOrder (hfold _ fun v _ hv => (State.endLeg_hasOrder hv).1 hs),
      fun hs => hreleased.hasOrder (hfold _ fun v hp hv => ?_)⟩
    rw [← hp]
    exact (State.endLeg_hasOrder hv).2 hs

/-- The record in CLEARING, out of its queue. -/
def State.recordCleared (s : State) (i : Rec) (c : Call) (cause : EndCause) : State :=
  (s.setCall i (some (c.cleared cause))).leaveQueues i

/-- The state once the legs' handsets have their orders and the record's staged entries are released. -/
@[irreducible] def State.legsReleased (s : State) (i : Rec) (c : Call) (cause : EndCause) : State :=
  (c.legs.foldl State.endLeg (s.recordCleared i c cause)).releaseAll i

theorem State.legsReleased_state (s : State) (i : Rec) (c : Call) (cause : EndCause) :
    s.legsReleased i c cause = { s.recordCleared i c cause with risers := (s.legsReleased i c cause).risers } := by
  have h1 : OrdersTo (fun _ => True) (s.recordCleared i c cause) (c.legs.foldl State.endLeg (s.recordCleared i c cause)) :=
    .foldl (fun l _ s => (s.endLeg_orders l).mono fun _ _ => trivial) _
  unfold State.legsReleased
  rw [((c.legs.foldl State.endLeg (s.recordCleared i c cause)).releaseAll_slots i).state, h1.state]

theorem State.legsReleased_legs (s : State) (i : Rec) (c : Call) (cause : EndCause) :
    LegsEnded s (s.legsReleased i c cause) i c := by
  unfold State.legsReleased
  exact (legsEnded_foldl (s.recordCleared i c cause) i c).congr (s' := s) rfl rfl

/-- The state before the record is tested for FREE. -/
def State.endedUntested (s : State) (i : Rec) (c : Call) (cause : EndCause) : State :=
  ((((s.legsReleased i c cause).consoleForget i).noticeForget i).panelEnded c.origin cause).postCall i (.ended cause c.held)

theorem State.endCall_steps {s : State} {i : Rec} {c : Call} (h : s.call i = some c) (hc : c.state ≠ .clearing)
    (cause : EndCause) : s.endCall i cause = (s.endedUntested i c cause).freeIfUnnamed i := by
  unfold State.endCall
  rw [h]
  simp only [if_neg hc]
  unfold State.endedUntested State.legsReleased
  rfl

theorem State.endedUntested_eq (s : State) (i : Rec) (c : Call) (cause : EndCause) :
    s.endedUntested i c cause = { s.recordCleared i c cause with
      risers := (s.legsReleased i c cause).risers
      console := if s.console.names i then .idle else s.console
      panels := (s.panelEnded c.origin cause).panels
      clu := (if s.console.names i then { s.clu with cursor := none } else s.clu).posted
        (.call (.ended cause c.held) (some (i, c.serial)) c.kind c.origin (some .clearing))
      notice := s.notice.filter fun n => n.record ≠ i } := by
  have hpanels := State.panelEnded_congr (s := s) (t := ((s.legsReleased i c cause).consoleForget i).noticeForget i)
    (by rw [State.noticeForget_eq, State.consoleForget_eq, State.legsReleased_state]; rfl) c.origin cause
  have hrecord : ((((s.legsReleased i c cause).consoleForget i).noticeForget i).panelEnded c.origin cause).call i =
      some (c.cleared cause) := by
    rw [State.panelEnded_state, State.noticeForget_eq, State.consoleForget_eq, State.legsReleased_state]
    exact vget_vset_self ..
  rw [State.endedUntested, State.postCall_eq hrecord, State.panelEnded_state, hpanels, State.noticeForget_eq,
    State.consoleForget_eq, State.legsReleased_state]
  rfl

/-- The ending of a call that is not in CLEARING, block by block. -/
theorem State.endCall_eq {s : State} {i : Rec} {c : Call} (h : s.call i = some c) (hc : c.state ≠ .clearing) (cause : EndCause) :
    s.endCall i cause = { s with
      calls := vset s.calls i (if s.liveNames i then some (c.cleared cause) else none)
      waitQueue := s.waitQueue.filter (· ≠ i), consoleQueue := s.consoleQueue.filter (· ≠ i)
      console := if s.console.names i then .idle else s.console
      risers := (s.legsReleased i c cause).risers
      panels := (s.panelEnded c.origin cause).panels
      clu := (if s.console.names i then { s.clu with cursor := none } else s.clu).posted
        (.call (.ended cause c.held) (some (i, c.serial)) c.kind c.origin (some .clearing))
      notice := s.notice.filter fun n => n.record ≠ i } := by
  have hrecord : (s.endedUntested i c cause).call i = some (c.cleared cause) := by
    rw [State.endedUntested_eq]; exact vget_vset_self ..
  have hlive : (s.endedUntested i c cause).liveNames i = s.liveNames i := State.liveNames_congr (fun r => by
    have hl : ((s.legsReleased i c cause).riser r).live = (s.riser r).live := by rw [(s.legsReleased_legs i c cause).riser r]
    rw [State.endedUntested_eq]; exact hl) i
  rw [State.endCall_steps h hc, State.freeIfUnnamed_eq hrecord rfl, hlive, State.endedUntested_eq]
  simp only [State.recordCleared, State.leaveQueues, State.setCall, vset_vset, option_filter_filter, ite_self]

theorem State.endCall_legs {s : State} {i : Rec} {c : Call} (h : s.call i = some c) (hc : c.state ≠ .clearing)
    (cause : EndCause) : LegsEnded s (s.endCall i cause) i c := by
  rw [State.endCall_eq h hc]
  exact (s.legsReleased_legs i c cause).congr rfl rfl

/-! ## What an ending leaves alone -/

section
variable {s : State} {i : Rec} {c : Call} (h : s.call i = some c) (hc : c.state ≠ .clearing) (cause : EndCause)
include h hc

theorem State.endCall_calls :
    (s.endCall i cause).calls = vset s.calls i (if s.liveNames i then some (c.cleared cause) else none) := by
  rw [State.endCall_eq h hc]

theorem State.endCall_clu : (s.endCall i cause).clu =
    (if s.console.names i then { s.clu with cursor := none } else s.clu).posted
      (.call (.ended cause c.held) (some (i, c.serial)) c.kind c.origin (some .clearing)) := by
  rw [State.endCall_eq h hc]

theorem State.endCall_panels : (s.endCall i cause).panels = (s.panelEnded c.origin cause).panels := by
  rw [State.endCall_eq h hc]

end

/-! ## The panel of an ended call (R29, R113) -/

theorem State.panelEnded_panel (s : State) (p : Panel) (cause : EndCause) :
    (s.panelEnded (.panel p) cause).panel p =
      ({ s.panel p with current := none, cursor := none }.handed (.ended cause)).endToned cause := by
  unfold State.panelEnded; rw [State.panel_modPanel, if_pos rfl]

/-- The end tone that a cause starts on a panel in UP whose call is gone. -/
theorem PanelUnit.endToned_tone {u v : PanelUnit} (hu : u.link.state = .up) (ht : u.endTone = v.endTone) (hn : u.cursor = none)
    (cause : EndCause) : ((u.endToned cause).endTone, (u.endToned cause).cursor) = endToneOf v cause := by
  unfold PanelUnit.endToned
  cases cause <;> simp [EndCause.wave, hu, endToneOf, EndWave.tone, Timer.start, Config.endToneSeconds,
    Config.framesPerSecond, ht, hn]

/-! ## Ended -/

/-- The ending of a call that is not in CLEARING (R28, R29, R31, R32). -/
theorem State.endCall_ended {s : State} {i : Rec} {c : Call} (h : s.call i = some c) (hc : c.state ≠ .clearing)
    (cause : EndCause) : Ended s (s.endCall i cause) i c cause := by
  have hl := State.endCall_legs h hc cause
  have hpanel : ∀ p, c.origin = .panel p → (s.endCall i cause).panel p =
      ({ s.panel p with current := none, cursor := none }.handed (.ended cause)).endToned cause := fun p hp => by
    rw [← State.panelEnded_panel, State.panel, State.endCall_panels h hc, hp]; rfl
  have hup : ∀ p, c.origin = .panel p → ((s.endCall i cause).panel p).link.state = .up → (s.panel p).link.state = .up :=
    fun p hp hu => by
      simpa [hpanel p hp] using hu
  refine
    { record := ?_, queues := ?_, staged := hl.staged, console := ?_, notice := ?_, panel := fun p hp => ?_
      message := fun p hp hu => ?_, tone := fun p hp hu => ?_, orders := fun l hm ht hone => ?_, others := hl.others
      report := ?_, calls := fun j hj => ?_, live := fun r => by rw [hl.riser r], frame := ?_ }
  · unfold State.call; rw [State.endCall_calls h hc]; exact vget_vset_self ..
  · rw [State.endCall_eq h hc]; exact ⟨rfl, rfl⟩
  · rw [State.endCall_eq h hc]
  · rw [State.endCall_eq h hc]
  · simp [hpanel p hp]
  · rw [hpanel p hp, PanelUnit.endToned_sendQueue]
    simp [PanelUnit.handed, hup p hp hu, sendQueued, Config.sendPlaces]
    split <;> simp
  · rw [hpanel p hp]
    exact PanelUnit.endToned_tone (by simpa using hup p hp hu) (by simp) (by simp) _
  · have hpres : (s.endCall i cause).presence l.handset = s.presence l.handset := by
      unfold State.presence; rw [hl.riser]
    rw [hpres]
    exact hl.orders l hm ht hone
  · rw [State.endCall_clu h hc]
    exact ⟨_, (ConsoleUnit.recent_posted _ _).mem⟩
  · unfold State.call; rw [State.endCall_calls h hc]; exact vget_vset_ne _ (Ne.symm hj) _
  · rw [State.endCall_eq h hc]

/-- What any ending may change, also of a record that is FREE or in CLEARING already. -/
theorem State.endCall_state (s : State) (i : Rec) (cause : EndCause) : s.endCall i cause = { s with
    calls := (s.endCall i cause).calls, waitQueue := (s.endCall i cause).waitQueue
    consoleQueue := (s.endCall i cause).consoleQueue, console := (s.endCall i cause).console
    risers := (s.endCall i cause).risers, panels := (s.endCall i cause).panels, clu := (s.endCall i cause).clu
    notice := (s.endCall i cause).notice } := by
  cases h : s.call i with
  | none =>
    have hself : s.endCall i cause = s := by unfold State.endCall; rw [h]
    rw [hself]
  | some c =>
    by_cases hc : c.state = .clearing
    · have hself : s.endCall i cause = s := by unfold State.endCall; rw [h]; exact if_pos hc
      rw [hself]
    · rw [State.endCall_eq h hc]

/-- What an ending looks at: two states that agree in it are ended alike. -/
structure EndsAlike (s v : State) : Prop where
  state : v = { s with risers := v.risers, panels := v.panels, clu := v.clu }
  riser : ∀ r, (v.riser r).live = (s.riser r).live ∧ (v.riser r).staged = (s.riser r).staged ∧
    (v.riser r).queue = (s.riser r).queue ∧ (v.riser r).state = (s.riser r).state ∧
    ∀ a, (vget (v.riser r).presence a).present = (vget (s.riser r).presence a).present
  panel : ∀ p, (v.panel p).sendQueue = (s.panel p).sendQueue ∧ (v.panel p).endTone = (s.panel p).endTone

theorem EndsAlike.takesOrders {s v : State} (a : EndsAlike s v) {x : Handset} (h : TakesOrders s x) : TakesOrders v x := by
  obtain ⟨h1, h2⟩ := h
  obtain ⟨-, -, -, hs, hp⟩ := a.riser x.riser
  exact ⟨by rw [← h1, RiserUnit.inService, RiserUnit.inService, hs], by rw [← h2]; exact hp x.addr⟩

/-- An event that prepares a call's ending without touching what an ending looks at. -/
theorem ended_of_alike {s v t : State} {i : Rec} {c : Call} {cause : EndCause} (h : Ended v t i c cause) (a : EndsAlike s v) :
    Ended s t i c cause := by
  have hcall : ∀ j, v.call j = s.call j := fun j => by rw [a.state]; rfl
  have hlive : v.liveNames i = s.liveNames i := State.liveNames_congr (fun r => (a.riser r).1) i
  refine
    { record := by rw [h.record, hlive], queues := ?_, staged := fun r k => ?_, console := ?_, notice := ?_, panel := h.panel
      message := fun p hp hu => ?_, tone := fun p hp hu => ?_, orders := fun l hm ht => h.orders l hm (a.takesOrders ht)
      others := fun r e he => ?_, report := h.report, calls := fun j hj => by rw [h.calls j hj, hcall]
      live := fun r => by rw [h.live, (a.riser r).1], frame := ?_ }
  · rw [a.state] at h; exact h.queues
  · rw [h.staged, (a.riser r).2.1]
  · rw [a.state] at h; exact h.console
  · rw [a.state] at h; exact h.notice
  · rw [h.message p hp hu, (a.panel p).1]
  · rw [h.tone p hp hu, endToneOf, endToneOf, (a.panel p).2]
  · rw [h.others r e he, (a.riser r).2.2.1]
  · rw [h.frame, a.state]

end Sys2Proof.Machine
end

