-- ==== Sys2Proof/Proofs/Kept.lean ====
section
/-! PROOFS. What the shared operations keep of the capacities and of the handsets of calls: one relation, `Kept`, one lemma an
operation, and from it the two laws. -/

namespace Sys2Proof.Machine

open Sys2Proof Sys2Proof.Safety

/-! ## Kept -/

/-- Call `d` has the legs of call `c`, none of them live that was not, and counts no strike over the limit. -/
structure Call.Shrinks (c d : Call) : Prop where
  handsets : d.legs.map (·.handset) = c.legs.map (·.handset)
  live     : ∀ h, d.hasLive h = true → c.hasLive h = true
  strikes  : c.strikes ≤ Config.strikesPerCall → d.strikes ≤ Config.strikesPerCall

theorem Call.Shrinks.of_legs {c d : Call} (hl : d.legs = c.legs) (hs : d.strikes = c.strikes) : c.Shrinks d :=
  ⟨by rw [hl], fun h hd => by unfold Call.hasLive at *; rwa [hl] at hd, fun h => by rwa [hs]⟩

/-- A call whose legs change state alone, none of them from DROPPED to live. -/
theorem Call.Shrinks.of_map {c d : Call} {f : Leg → Leg} (hl : d.legs = c.legs.map f) (hh : ∀ l, (f l).handset = l.handset)
    (hf : ∀ l, (f l).state ≠ .dropped → l.state ≠ .dropped) (hs : d.strikes = c.strikes) : c.Shrinks d where
  handsets := by rw [hl, List.map_map]; exact List.map_congr_left fun l _ => hh l
  live h hd := by
    simp only [Call.hasLive, hl, List.any_map, List.any_eq_true, Function.comp, Bool.and_eq_true, decide_eq_true_eq] at *
    obtain ⟨l, hm, ha, hst⟩ := hd
    exact ⟨l, hm, by rw [← hh, ha], hf l hst⟩
  strikes h := by rwa [hs]

/-- From `s` to `t` no queue grows past its places, no address gets a second order, no call gets a live leg or a strike over
the limit, no handset joins the page, and none goes off-hook. -/
structure Kept (s t : State) : Prop where
  waitQueue    : s.waitQueue.length ≤ Config.queuePlaces → t.waitQueue.length ≤ Config.queuePlaces
  consoleQueue : s.consoleQueue.length ≤ Config.queuePlaces → t.consoleQueue.length ≤ Config.queuePlaces
  replies      : t.clu.replies.length ≤ s.clu.replies.length
  reports      : s.clu.reports.length ≤ Config.reportPlaces → t.clu.reports.length ≤ Config.reportPlaces
  consoleFifo  : s.clu.fifo.samples.length ≤ Config.fifoPlaces → t.clu.fifo.samples.length ≤ Config.fifoPlaces
  panelFifo    : ∀ p, (s.panel p).fifo.samples.length ≤ Config.fifoPlaces → (t.panel p).fifo.samples.length ≤ Config.fifoPlaces
  sendQueue    : ∀ p, (s.panel p).sendQueue.length ≤ Config.sendPlaces → (t.panel p).sendQueue.length ≤ Config.sendPlaces
  orders       : ∀ r, ((s.riser r).queue.map (·.addr)).Nodup → ((t.riser r).queue.map (·.addr)).Nodup
  calls        : ∀ i d, t.call i = some d → d.legs = [] ∧ d.strikes ≤ Config.strikesPerCall ∨ ∃ c, s.call i = some c ∧ c.Shrinks d
  members      : ∀ q, t.page = some q → ∃ p, s.page = some p ∧ ∀ h ∈ q.members, h ∈ p.members
  offHook      : ∀ h, (t.presence h).offHook = true → (s.presence h).offHook = true

namespace Kept

theorem refl (s : State) : Kept s s :=
  ⟨id, id, Nat.le_refl _, id, id, fun _ => id, fun _ => id, fun _ => id, fun _ d h => .inr ⟨d, h, .of_legs rfl rfl⟩,
    fun q h => ⟨q, h, fun _ => id⟩, fun _ => id⟩

theorem trans {s t u : State} (h : Kept s t) (g : Kept t u) : Kept s u where
  waitQueue := g.waitQueue ∘ h.waitQueue
  consoleQueue := g.consoleQueue ∘ h.consoleQueue
  replies := g.replies.trans h.replies
  reports := g.reports ∘ h.reports
  consoleFifo := g.consoleFifo ∘ h.consoleFifo
  panelFifo p := g.panelFifo p ∘ h.panelFifo p
  sendQueue p := g.sendQueue p ∘ h.sendQueue p
  orders r := g.orders r ∘ h.orders r
  calls i e he := by
    rcases g.calls i e he with hn | ⟨d, hd, hde⟩
    · exact .inl hn
    rcases h.calls i d hd with ⟨hl, hs⟩ | ⟨c, hc, hcd⟩
    · exact .inl ⟨by simpa [hl] using hde.handsets, hde.strikes hs⟩
    · exact .inr ⟨c, hc, hde.handsets.trans hcd.handsets, fun x hx => hcd.live x (hde.live x hx), hde.strikes ∘ hcd.strikes⟩
  members q hq := by
    obtain ⟨p, hp, hsub⟩ := g.members q hq
    obtain ⟨p', hp', hsub'⟩ := h.members p hp
    exact ⟨p', hp', fun x hx => hsub' x (hsub x hx)⟩
  offHook x := h.offHook x ∘ g.offHook x

/-- Steps taken one after another over a list. -/
theorem foldl {α : Type} {f : State → α → State} (h : ∀ s x, Kept s (f s x)) (l : List α) (s : State) :
    Kept s (l.foldl f s) := by
  induction l generalizing s with
  | nil => exact refl s
  | cons x l ih => exact (h s x).trans (ih _)

/-- No queue of the part grows past its places (R41, R81, R106, R110, R119, R179, R182). -/
theorem capacities {s t : State} (h : Kept s t) (hs : WithinCapacities s) : WithinCapacities t where
  waitQueue := h.waitQueue hs.waitQueue
  consoleQueue := h.consoleQueue hs.consoleQueue
  replies := h.replies.trans hs.replies
  reports := h.reports hs.reports
  consoleFifo := h.consoleFifo hs.consoleFifo
  panelFifo p := h.panelFifo p (hs.panelFifo p)
  sendQueue p := h.sendQueue p (hs.sendQueue p)
  orders r := h.orders r (hs.orders r)
  strikes i d hd := by
    rcases h.calls i d hd with ⟨-, hn⟩ | ⟨c, hc, hcd⟩
    · exact hn
    · exact hcd.strikes (hs.strikes i c hc)

/-- A live leg of a call was one before. -/
theorem hasLive {s t : State} (h : Kept s t) {i : Rec} {d : Call} {x : Handset} (hd : t.call i = some d)
    (hx : d.hasLive x = true) : ∃ c, s.call i = some c ∧ c.hasLive x = true := by
  rcases h.calls i d hd with ⟨hl, -⟩ | ⟨c, hc, hcd⟩
  · simp [Call.hasLive, hl] at hx
  · exact ⟨c, hc, hcd.live x hx⟩

/-- The handsets of calls stay apart (R6, R137). -/
theorem handsets {s t : State} (h : Kept s t) (hs : HandsetsInOneCall s) : HandsetsInOneCall t where
  legs i d hd := by
    rcases h.calls i d hd with ⟨hl, -⟩ | ⟨c, hc, hcd⟩
    · simp [hl]
    · rw [hcd.handsets]; exact hs.legs i c hc
  once i j d e x hd he hdx hex := by
    obtain ⟨c, hc, hcx⟩ := h.hasLive hd hdx
    obtain ⟨c', hc', hcx'⟩ := h.hasLive he hex
    exact hs.once i j c c' x hc hc' hcx hcx'
  apart q x hq hx := by
    obtain ⟨p, hp, hsub⟩ := h.members q hq
    obtain ⟨hoff, hlive⟩ := hs.apart p x hp (hsub x hx)
    refine ⟨?_, fun i d hd => ?_⟩
    · rw [← Bool.not_eq_true] at *
      exact fun ht => hoff (h.offHook x ht)
    · rw [← Bool.not_eq_true]
      intro ht
      obtain ⟨c, hc, hcx⟩ := h.hasLive hd ht
      simp [hlive i c hc] at hcx

/-! ### One block changed -/

/-- Nothing changed but blocks that no law here speaks of. -/
theorem of_rest {s t : State} (hc : t.calls = s.calls) (hw : t.waitQueue = s.waitQueue) (hd : t.consoleQueue = s.consoleQueue)
    (hp : t.page = s.page) (hr : t.risers = s.risers) (hn : t.panels = s.panels) (hu : t.clu = s.clu) : Kept s t := by
  cases s; cases t
  cases hc; cases hw; cases hd; cases hp; cases hr; cases hn; cases hu
  exact ⟨id, id, Nat.le_refl _, id, id, fun _ => id, fun _ => id, fun _ => id, fun _ d h => .inr ⟨d, h, .of_legs rfl rfl⟩,
    fun q h => ⟨q, h, fun _ => id⟩, fun _ => id⟩

theorem setConsole (s : State) (c : ConsoleState) : Kept s (s.setConsole c) := of_rest rfl rfl rfl rfl rfl rfl rfl

theorem setNotice (s : State) (n : Option Notice) : Kept s (s.setNotice n) := of_rest rfl rfl rfl rfl rfl rfl rfl

/-- The risers changed, each without a second order for an address and without an off-hook handset that was not. -/
theorem risers {s : State} {rs : Vector RiserUnit 8}
    (hq : ∀ r, ((s.riser r).queue.map (·.addr)).Nodup → ((vget rs r).queue.map (·.addr)).Nodup)
    (hp : ∀ r a, (vget (vget rs r).presence a).offHook = true → (vget (s.riser r).presence a).offHook = true) :
    Kept s { s with risers := rs } :=
  { refl s with orders := hq, offHook := fun h => hp h.riser h.addr }

/-- The panels changed, each keeping to the places of its FIFO and its send queue. -/
theorem panels {s : State} {ps : Vector PanelUnit 6}
    (hf : ∀ p, (s.panel p).fifo.samples.length ≤ Config.fifoPlaces → (vget ps p).fifo.samples.length ≤ Config.fifoPlaces)
    (hq : ∀ p, (s.panel p).sendQueue.length ≤ Config.sendPlaces → (vget ps p).sendQueue.length ≤ Config.sendPlaces) :
    Kept s { s with panels := ps } :=
  { refl s with panelFifo := hf, sendQueue := hq }

/-- The calls changed, each shrinking, ending, or coming without a leg. -/
theorem callTable {s : State} {cs : Vector (Option Call) 16}
    (hc : ∀ i d, vget cs i = some d → d.legs = [] ∧ d.strikes ≤ Config.strikesPerCall ∨ ∃ c, s.call i = some c ∧ c.Shrinks d) :
    Kept s { s with calls := cs } :=
  { refl s with calls := hc }

/-- The two queues of records changed, each keeping to its places. -/
theorem queues {s : State} {w d : List Rec} (hw : s.waitQueue.length ≤ Config.queuePlaces → w.length ≤ Config.queuePlaces)
    (hd : s.consoleQueue.length ≤ Config.queuePlaces → d.length ≤ Config.queuePlaces) :
    Kept s { s with waitQueue := w, consoleQueue := d } :=
  { refl s with waitQueue := hw, consoleQueue := hd }

/-- The console unit changed, its queues keeping to their places. -/
theorem setClu {s : State} {c : ConsoleUnit} (hr : c.replies.length ≤ s.clu.replies.length)
    (hp : s.clu.reports.length ≤ Config.reportPlaces → c.reports.length ≤ Config.reportPlaces)
    (hf : s.clu.fifo.samples.length ≤ Config.fifoPlaces → c.fifo.samples.length ≤ Config.fifoPlaces) :
    Kept s (s.setClu c) :=
  { refl s with replies := hr, reports := hp, consoleFifo := hf }

/-- The page record changed, with no member that it had not. -/
theorem setPage {s : State} {q : Option PageRecord}
    (h : ∀ q', q = some q' → ∃ p, s.page = some p ∧ ∀ h ∈ q'.members, h ∈ p.members) : Kept s (s.setPage q) :=
  { refl s with members := h }

theorem setRiser {s : State} {r : Riser} {u : RiserUnit}
    (hq : ((s.riser r).queue.map (·.addr)).Nodup → (u.queue.map (·.addr)).Nodup)
    (hp : ∀ a, (vget u.presence a).offHook = true → (vget (s.riser r).presence a).offHook = true) : Kept s (s.setRiser r u) := by
  refine risers (fun r' => ?_) fun r' => ?_ <;> rw [vget_vset] <;> split
  · next h => subst h; exact hq
  · exact id
  · next h => subst h; exact hp
  · exact fun _ => id

theorem modRiser {s : State} {r : Riser} {f : RiserUnit → RiserUnit}
    (hq : ((s.riser r).queue.map (·.addr)).Nodup → ((f (s.riser r)).queue.map (·.addr)).Nodup)
    (hp : ∀ a, (vget (f (s.riser r)).presence a).offHook = true → (vget (s.riser r).presence a).offHook = true) :
    Kept s (s.modRiser r f) := by
  unfold State.modRiser
  rw [RiserUnit.retimed_eq]
  exact setRiser hq hp

/-- A change of a riser that leaves its orders and its presence records. -/
theorem modRiser_rest {s : State} {r : Riser} {f : RiserUnit → RiserUnit} (hq : (f (s.riser r)).queue = (s.riser r).queue)
    (hp : (f (s.riser r)).presence = (s.riser r).presence) : Kept s (s.modRiser r f) :=
  modRiser (by rw [hq]; exact id) (by rw [hp]; exact fun _ => id)

theorem setPanel {s : State} {p : Panel} {u : PanelUnit}
    (hf : (s.panel p).fifo.samples.length ≤ Config.fifoPlaces → u.fifo.samples.length ≤ Config.fifoPlaces)
    (hq : (s.panel p).sendQueue.length ≤ Config.sendPlaces → u.sendQueue.length ≤ Config.sendPlaces) :
    Kept s (s.setPanel p u) := by
  refine panels (fun p' => ?_) fun p' => ?_ <;> rw [vget_vset] <;> split
  · next h => subst h; exact hf
  · exact id
  · next h => subst h; exact hq
  · exact id

/-- A change of a panel that leaves its FIFO and its send queue. -/
theorem modPanel_rest {s : State} {p : Panel} {f : PanelUnit → PanelUnit} (hf : (f (s.panel p)).fifo = (s.panel p).fifo)
    (hq : (f (s.panel p)).sendQueue = (s.panel p).sendQueue) : Kept s (s.modPanel p f) :=
  setPanel (by rw [hf]; exact id) (by rw [hq]; exact id)

/-- A change of the console unit that leaves its replies, its reports and its FIFO. -/
theorem modClu_rest {s : State} {f : ConsoleUnit → ConsoleUnit} (hr : (f s.clu).replies = s.clu.replies)
    (hp : (f s.clu).reports = s.clu.reports) (hf : (f s.clu).fifo = s.clu.fifo) : Kept s (s.modClu f) :=
  setClu (by rw [hr]) (by rw [hp]; exact id) (by rw [hf]; exact id)

theorem setCall {s : State} {i : Rec} {c d : Call} (h : s.call i = some c) (hd : c.Shrinks d) : Kept s (s.setCall i (some d)) :=
  callTable fun j e he => by
    rw [vget_vset] at he
    split at he
    next hj => subst hj; cases he; exact .inr ⟨c, h, hd⟩
    next => exact .inr ⟨e, he, .of_legs rfl rfl⟩

theorem setCall_none (s : State) (i : Rec) : Kept s (s.setCall i none) :=
  callTable fun j e he => by
    rw [vget_vset] at he
    split at he
    · cases he
    · exact .inr ⟨e, he, .of_legs rfl rfl⟩

theorem modCall {s : State} {i : Rec} {f : Call → Call} (h : ∀ c : Call, c.Shrinks (f c)) : Kept s (s.modCall i f) :=
  callTable fun j e he => by
    rw [vget_vset] at he
    split at he
    next hj =>
      subst hj
      obtain ⟨c, hc, rfl⟩ := Option.map_eq_some_iff.mp he
      exact .inr ⟨c, hc, h c⟩
    next => exact .inr ⟨e, he, .of_legs rfl rfl⟩

theorem mapCalls {s : State} {f : Call → Call} (h : ∀ c : Call, c.Shrinks (f c)) :
    Kept s { s with calls := vmap (Option.map f) s.calls } :=
  callTable fun j e he => by
    rw [vget_vmap] at he
    obtain ⟨c, hc, rfl⟩ := Option.map_eq_some_iff.mp he
    exact .inr ⟨c, hc, h c⟩

/-- Slots change no queue, no call and no presence record. -/
theorem slots {s t : State} (h : SlotsTo s t) : Kept s t := by
  rw [h.state]
  refine risers (fun r => ?_) fun r a => ?_
  · rw [show vget t.risers r = t.riser r from rfl, h.queue]; exact id
  · rw [show vget t.risers r = t.riser r from rfl, h.riser r]; exact id

end Kept

/-! ## Reports, orders, panel messages -/

theorem State.post_kept (s : State) (x : Report) : Kept s (s.post x) :=
  .setClu (by simp) (ConsoleUnit.posted_length x (Nat.le_refl _)) (by simp)

theorem State.postCall_kept (s : State) (i : Rec) (e : CallEvent) : Kept s (s.postCall i e) := by
  unfold State.postCall; split
  · exact State.post_kept ..
  · exact .refl s

theorem State.enqueue_kept (s : State) (h : Handset) (o : Option Order) : Kept s (s.enqueue h o) := by
  unfold State.enqueue; split
  · exact .modRiser enqueued_nodup fun _ => id
  · exact .refl s

theorem State.order_kept (s : State) (h : Handset) (o : Order) : Kept s (s.order h o) := State.enqueue_kept ..
theorem State.reject_kept (s : State) (h : Handset) : Kept s (s.reject h) := State.enqueue_kept ..

theorem handed_length {u : PanelUnit} (m : PanelMsg) (h : u.sendQueue.length ≤ Config.sendPlaces) :
    (u.handed m).sendQueue.length ≤ Config.sendPlaces := by
  unfold PanelUnit.handed; split
  · exact sendQueued_length m h
  · exact h

theorem State.hand_kept (s : State) (p : Panel) (m : PanelMsg) : Kept s (s.hand p m) :=
  .setPanel (by simp) (handed_length m)

/-! ## The ending of a call -/

theorem State.endLeg_kept (s : State) (l : Leg) : Kept s (s.endLeg l) := by
  unfold State.endLeg; split
  · split
    · exact State.order_kept ..
    · split <;> exact State.order_kept ..
    · exact .refl s
  · exact .refl s

theorem Call.cleared_shrinks (c : Call) (cause : EndCause) : c.Shrinks (c.cleared cause) :=
  .of_map (f := fun l => { l with state := .dropped }) rfl (fun _ => rfl) (fun _ h => absurd rfl h) rfl

theorem State.leaveQueues_kept (s : State) (i : Rec) : Kept s (s.leaveQueues i) :=
  .queues (List.length_filter_le _ _).trans (List.length_filter_le _ _).trans

theorem State.consoleForget_kept (s : State) (i : Rec) : Kept s (s.consoleForget i) := by
  unfold State.consoleForget; split
  · exact .trans (t := s.setConsole .idle) (.of_rest rfl rfl rfl rfl rfl rfl rfl) (.modClu_rest rfl rfl rfl)
  · exact .refl s

theorem State.noticeForget_kept (s : State) (i : Rec) : Kept s (s.noticeForget i) := by
  rw [State.noticeForget_eq]; exact .of_rest rfl rfl rfl rfl rfl rfl rfl

theorem State.panelEnded_kept (s : State) (o : Origin) (c : EndCause) : Kept s (s.panelEnded o c) := by
  unfold State.panelEnded; split
  · exact .setPanel (by simp) fun h => by
      rw [PanelUnit.endToned_sendQueue]; exact handed_length _ h
  · exact .refl s

theorem State.freeIfUnnamed_kept (s : State) (i : Rec) : Kept s (s.freeIfUnnamed i) := by
  unfold State.freeIfUnnamed; split
  · split
    · exact (State.noticeForget_kept s i).trans (.setCall_none _ i)
    · exact .refl s
  · exact .refl s

theorem State.endCall_kept (s : State) (i : Rec) (c : EndCause) : Kept s (s.endCall i c) := by
  unfold State.endCall; split
  · exact .refl s
  · next call hcall =>
    split
    · exact .refl s
    · refine .trans ?_ (State.freeIfUnnamed_kept _ i)
      refine .trans ?_ (State.postCall_kept _ i _)
      refine .trans ?_ (State.panelEnded_kept _ _ _)
      refine .trans ?_ (State.noticeForget_kept _ i)
      refine .trans ?_ (State.consoleForget_kept _ i)
      refine .trans ?_ (.slots (State.releaseAll_slots _ i))
      refine .trans ?_ (.foldl State.endLeg_kept _ _)
      exact .trans (.setCall hcall (call.cleared_shrinks c)) (State.leaveQueues_kept _ i)

/-! ## Reservation, ringing, the Wait Queue -/

theorem State.reserveOn_slots (i : Rec) (s : State) (r : Riser) : SlotsTo s (State.reserveOn i s r) := by
  unfold State.reserveOn; split
  · exact State.edit_slots ..
  · exact .refl s

theorem State.reserve_slots (s : State) (i : Rec) (rs : List Riser) : SlotsTo s (s.reserve i rs) :=
  .foldl (State.reserveOn_slots i) rs s

theorem State.callerRinging_kept (s : State) (i : Rec) (o : Origin) : Kept s (s.callerRinging i o) := by
  unfold State.callerRinging; split
  · exact .setPanel (by simp) fun h => handed_length _ h
  · split
    · exact .modClu_rest rfl rfl rfl
    · exact .refl s

theorem State.enterRinging_kept (s : State) (i : Rec) : Kept s (s.enterRinging i) := by
  unfold State.enterRinging; split
  · exact .refl s
  next c hc =>
    have hcall : ((c.legs.filter fun l => l.state = .ringing).foldl (fun s l => s.order l.handset .ringOn) s).call i = some c := by
      rw [← hc]
      exact (OrdersTo.foldl (hs := fun _ => True) (fun l _ s => (s.order_orders _ _).mono fun _ _ => trivial) s).call i
    refine .trans ?_ (State.postCall_kept _ i _)
    refine .trans ?_ (State.callerRinging_kept _ i _)
    exact .trans (.foldl (fun s l => State.order_kept s _ _) _ s) (.setCall hcall (.of_legs rfl rfl))

theorem State.joinWait_kept {s : State} (h : s.waitQueue.length < Config.queuePlaces) (i : Rec) : Kept s (s.joinWait i) := by
  unfold State.joinWait
  refine .trans ?_ (State.postCall_kept _ i _)
  exact .trans (.modCall (i := i) (f := fun c => { c with state := .queued, waitTimer := .start s.settings.wait })
    fun _ => .of_legs rfl rfl) (.queues (fun _ => by rw [List.length_append]; exact h) id)

theorem State.scanOne_kept (s : State) (i : Rec) : Kept s (s.scanOne i) := by
  unfold State.scanOne; split
  · exact .refl s
  · split
    · exact .trans (.trans (.queues (List.length_filter_le _ _).trans id) (.slots (State.reserve_slots _ i _)))
        (State.enterRinging_kept _ i)
    · exact .refl s

theorem State.scan_kept (s : State) : Kept s s.scan := .foldl State.scanOne_kept _ s

theorem State.settled_kept {s t u : State} (h : Kept s u) : Kept s (State.settled t u) := by
  unfold State.settled; split
  · exact h.trans u.scan_kept
  · exact h

theorem State.event_kept {f : State → State} {s : State} (h : Kept s (f s)) : Kept s (s.event f) := State.settled_kept h

theorem State.askSlots_kept (s : State) (i : Rec) (c : Call) : Kept s (s.askSlots i c) := by
  unfold State.askSlots; split
  · exact State.endCall_kept ..
  · exact .trans (.slots (s.reserve_slots i _)) (State.enterRinging_kept _ i)
  · split
    next h => exact State.joinWait_kept h i
    · exact State.endCall_kept ..

theorem State.takeRecord_kept (s : State) (i : Rec) (k : CallKind) (o : Origin) (c : Option Nat) (st : CallState) :
    Kept s (s.takeRecord i k o c st) := by
  refine .trans (t := s.setCall i (some (.fresh s.serialNext k o c st))) (.callTable fun j e he => ?_)
    (.of_rest rfl rfl rfl rfl rfl rfl rfl)
  rw [vget_vset] at he
  split at he
  · cases he; exact .inl ⟨rfl, Nat.zero_le _⟩
  · exact .inr ⟨e, he, .of_legs rfl rfl⟩

theorem State.panelCancel_kept (s : State) (p : Panel) : Kept s (s.panelCancel p) := by
  unfold State.panelCancel; split
  · exact State.endCall_kept ..
  · exact .refl s

/-! ## The answer, hooks and keys -/

theorem Call.sequence_shrinks (c : Call) (q : Option Nat) : c.Shrinks { c with sequence := q } := .of_legs rfl rfl

theorem State.renumbered_kept (s : State) : Kept s s.renumbered :=
  .trans (t := { s with calls := s.renumbered.calls })
    (.mapCalls fun c => by split; exacts [c.sequence_shrinks _, .of_legs rfl rfl]) (.of_rest rfl rfl rfl rfl rfl rfl rfl)

theorem State.takeSequence_kept (s : State) : Kept s s.takeSequence.2 := by
  unfold State.takeSequence; dsimp only; split
  · exact (State.renumbered_kept s).trans (.of_rest rfl rfl rfl rfl rfl rfl rfl)
  · exact .of_rest rfl rfl rfl rfl rfl rfl rfl

theorem State.answerRead_kept (s : State) (e : Option EntryIx) : Kept s (s.answerRead e).2 := by
  unfold State.answerRead; split
  · exact .refl s
  · split
    · exact .refl s
    · exact .of_rest rfl rfl rfl rfl rfl rfl rfl

theorem State.callerAnswered_kept (s : State) (i : Rec) (o : Origin) : Kept s (s.callerAnswered i o) := by
  unfold State.callerAnswered; split
  · exact .setPanel (by simp) fun h => handed_length _ h
  · split
    · exact .modClu_rest rfl rfl rfl
    · exact .refl s

theorem State.assignTo_kept (s : State) (i : Rec) (h : Handset) : Kept s (s.assignTo i h) := by
  unfold State.assignTo; split
  · exact State.order_kept ..
  · exact .refl s

/-- The legs after an answer: the winner was live, and no other leg is live that was not. -/
theorem wonLegs_shrinks {c d : Call} {n : Nat} {l : Leg} (hl : c.legs[n]? = some l) (hd : l.state ≠ .dropped)
    (hw : d.legs = wonLegs n c.legs) (hs : d.strikes = c.strikes) : c.Shrinks d where
  handsets := by
    refine List.ext_getElem? fun m => ?_
    rw [hw, wonLegs, List.getElem?_map, List.getElem?_mapIdx, List.getElem?_map, Option.map_map]
    congr 1
    funext x
    simp only [Function.comp]
    split_ifs <;> rfl
  live h hlive := by
    simp only [Call.hasLive, hw, wonLegs, List.any_eq_true, List.mem_mapIdx, Bool.and_eq_true, decide_eq_true_eq] at *
    obtain ⟨x, ⟨m, hm, rfl⟩, hx, hst⟩ := hlive
    refine ⟨c.legs[m], List.getElem_mem _, ?_, ?_⟩
    · split_ifs at hx <;> exact hx
    · by_cases hmn : m = n
      · subst hmn
        rw [List.getElem?_eq_getElem hm] at hl
        cases hl
        exact hd
      · rw [if_neg hmn] at hst
        split_ifs at hst with hr
        · exact absurd rfl hst
        · exact hst
  strikes h := by rwa [hs]

theorem State.renumbered_call (s : State) (i : Rec) : s.renumbered.call i =
    (s.call i).map fun c => if c.inTalk then { c with sequence := c.sequence.map s.rank } else c := vget_vmap ..

theorem State.takeSequence_call_shrinks {s : State} {i : Rec} {c : Call} (h : s.call i = some c) :
    ∃ d, s.takeSequence.2.call i = some d ∧ d.legs = c.legs ∧ d.strikes = c.strikes := by
  by_cases hn : 65535 ≤ s.sequenceNext
  · refine ⟨if c.inTalk then { c with sequence := c.sequence.map s.rank } else c, ?_, ?_⟩
    · rw [State.takeSequence, if_pos hn]
      exact (State.renumbered_call s i).trans (congrArg _ h)
    · split <;> exact ⟨rfl, rfl⟩
  · exact ⟨c, by rw [State.takeSequence, if_neg hn]; exact h, rfl, rfl⟩

theorem State.answerRead_call (s : State) (e : Option EntryIx) (i : Rec) : (s.answerRead e).2.call i = s.call i := by
  unfold State.answerRead; split
  · rfl
  · split <;> rfl

theorem State.answer_kept {s : State} {i : Rec} {c : Call} {n : Nat} {l : Leg} (h : s.call i = some c)
    (hl : c.legs[n]? = some l) (hd : l.state ≠ .dropped) : Kept s (s.answer i c n l) := by
  unfold State.answer
  refine .trans ?_ (State.postCall_kept _ i _)
  refine .trans ?_ (State.callerAnswered_kept _ i _)
  refine .trans ?_ (.foldl (fun s r => .slots (State.releaseOn_slots s i r)) _ _)
  refine .trans ?_ (.foldl (fun s m => State.order_kept s _ _) _ _)
  refine .trans ?_ (State.assignTo_kept _ i _)
  refine .trans ?_ (.slots (State.carryAnswer_slots _ i _))
  refine .trans ((State.takeSequence_kept s).trans (State.answerRead_kept _ l.entry)) ?_
  obtain ⟨d, hdc, hlegs, hstr⟩ := State.takeSequence_call_shrinks h
  have hc : (s.takeSequence.2.answerRead l.entry).2.call i = some d := by rw [State.answerRead_call, hdc]
  have hl' : d.legs[n]? = some l := by rw [hlegs]; exact hl
  exact .setCall hc (wonLegs_shrinks hl' hd (by rw [hlegs]) hstr.symm)

/-- The leg found for a handset: the leg of that index, live, and the handset's own. -/
theorem Call.findLeg_some {c : Call} {h : Handset} {l : Leg} {n : Nat} (hf : c.findLeg h = some (l, n)) :
    c.legs[n]? = some l ∧ l.handset = h ∧ l.state ≠ .dropped := by
  have hp := List.find?_some hf
  have hm := List.mem_of_find?_eq_some hf
  rw [List.mem_zipIdx_iff_getElem?] at hm
  simp only [Bool.and_eq_true, decide_eq_true_eq] at hp
  exact ⟨hm, hp⟩

theorem State.leavePage_kept (s : State) (h : Handset) : Kept s (s.leavePage h) := by
  unfold State.leavePage; split
  · next p hp =>
    exact .setPage fun q hq => ⟨p, hp, fun x hx => by cases hq; exact List.mem_of_mem_filter hx⟩
  · exact .refl s

theorem State.offHook_kept (s : State) (h : Handset) : Kept s (s.offHook h) := by
  unfold State.offHook; split
  · split
    · exact .refl s
    next c hc =>
      split
      next l n hf =>
        obtain ⟨hl, -, hd⟩ := Call.findLeg_some hf
        split
        · exact State.answer_kept hc hl hd
        · exact .refl s
      · exact .refl s
  · split
    · exact (State.order_kept s _ _).trans (State.leavePage_kept _ _)
    · split
      · exact State.order_kept ..
      · exact .refl s

theorem State.onHook_kept (s : State) (h : Handset) : Kept s (s.onHook h) := by
  unfold State.onHook; split
  · exact .refl s
  · split
    · exact .refl s
    · split
      · exact State.endCall_kept ..
      · exact State.endCall_kept ..
      · exact State.endCall_kept ..
      · exact .refl s

/-- A strike is counted below the limit only (R19). -/
theorem State.releaseKey_kept (s : State) (h : Handset) : Kept s (s.releaseKey h) := by
  unfold State.releaseKey; split
  · exact .refl s
  next i _ =>
    split
    · exact .refl s
    next c hc =>
      split
      next l n p _ _ =>
        split
        next hm =>
          split
          · exact .refl s
          · have hlt : c.strikes < Config.strikesPerCall := by
              unfold Call.mayStrike at hm
              simp only [Bool.and_eq_true, decide_eq_true_eq] at hm
              exact hm.2
            refine .trans (.trans (State.hand_kept s p _) (.setCall (c := c) hc ?_)) (State.postCall_kept _ i _)
            exact ⟨rfl, fun _ => id, fun _ => hlt⟩
        · exact State.reject_kept ..
      · exact State.reject_kept ..

/-! ## A handset is lost -/

/-- A call whose RINGING leg of a handset is DROPPED. -/
def Call.legLost (c : Call) (h : Handset) : Call :=
  { c with legs := c.legs.map fun l => if l.handset = h ∧ l.state = .ringing then { l with state := .dropped } else l }

/-- The state once a RINGING leg is DROPPED, before its call is tested for its last leg. -/
def State.legDropped (s : State) (i : Rec) (c : Call) (h : Handset) : State :=
  if c.state = .ringing ∧ h.riser ∉ (c.legLost h).riserSet then
    (s.setCall i (some (c.legLost h))).releaseOn i h.riser
  else s.setCall i (some (c.legLost h))

theorem State.dropLeg_eq (s : State) (i : Rec) (c : Call) (h : Handset) : s.dropLeg i c h =
    if (c.legLost h).liveLegs.isEmpty then (s.legDropped i c h).endCall i .handsetLost else s.legDropped i c h := rfl

theorem Call.legLost_shrinks (c : Call) (h : Handset) : c.Shrinks (c.legLost h) := by
  refine .of_map (f := fun l => if l.handset = h ∧ l.state = .ringing then { l with state := .dropped } else l) rfl
    (fun l => ?_) (fun l hl => ?_) rfl
  · split <;> rfl
  · split at hl
    · exact absurd rfl hl
    · exact hl

theorem State.legDropped_kept {s : State} {i : Rec} {c : Call} (hc : s.call i = some c) (h : Handset) :
    Kept s (s.legDropped i c h) := by
  unfold State.legDropped; split
  · exact .trans (.setCall hc (c.legLost_shrinks h)) (.slots (State.releaseOn_slots ..))
  · exact .setCall hc (c.legLost_shrinks h)

theorem State.dropLeg_kept {s : State} {i : Rec} {c : Call} (hc : s.call i = some c) (h : Handset) :
    Kept s (s.dropLeg i c h) := by
  rw [State.dropLeg_eq]; split
  · exact (State.legDropped_kept hc h).trans (State.endCall_kept ..)
  · exact State.legDropped_kept hc h

theorem State.handsetLost_kept (s : State) (h : Handset) : Kept s (s.handsetLost h) := by
  unfold State.handsetLost; dsimp only
  refine .trans (State.leavePage_kept s h) ?_
  split
  · exact .refl _
  · split
    · exact .refl _
    next c hc =>
      split
      · split
        · exact State.dropLeg_kept hc h
        · exact State.endCall_kept ..
      · exact .refl _

/-! ## The page -/

theorem State.lend_kept (s : State) (r : Riser) (i : Rec) (k : Slot) : Kept s (s.lend r i k) := by
  unfold State.lend
  refine .trans ?_ (State.postCall_kept _ i _)
  refine .trans ?_ (State.noticeForget_kept _ i)
  refine .trans (.slots (State.edit_slots s r k .page)) ?_
  exact .modCall fun _ => .of_legs rfl rfl

theorem State.planOne_kept (x : State × PageRecord) (r : Riser) : Kept x.1 (State.planOne x r).1 := by
  unfold State.planOne; split
  · exact .slots (State.edit_slots ..)
  · exact State.lend_kept ..
  · exact .refl _

theorem State.pagePlanned_kept (s : State) (g : Nat) (cs : List Handset) : Kept s (s.pagePlanned g cs).1 := by
  have hplan : ∀ (l : List Riser) (x : State × PageRecord), Kept x.1 (l.foldl State.planOne x).1 := fun l => by
    induction l with
    | nil => exact fun x => .refl _
    | cons r l ih => exact fun x => (State.planOne_kept x r).trans (ih _)
  exact hplan (allRisers.filter fun r => cs.any fun h => h.riser = r) (s, .blank g (.start s.settings.console.page))

theorem State.pageOn_kept (p : PageRecord) (s : State) (h : Handset) : Kept s (State.pageOn p s h) := by
  unfold State.pageOn; split
  · exact State.order_kept ..
  · exact .refl s

theorem State.returnSlot_kept (p : PageRecord) (s : State) (r : Riser) : Kept s (State.returnSlot p s r) := by
  unfold State.returnSlot; split
  · exact .refl s
  · split
    · exact .slots (State.edit_slots ..)
    · split
      · exact .slots (State.edit_slots ..)
      next c hc =>
        split
        · refine .trans ?_ (State.postCall_kept ..)
          refine .trans (.slots (State.edit_slots s r _ _)) (.setCall (c := c) ?_ (.of_legs rfl rfl))
          rw [(State.edit_slots s r _ _).call]; exact hc
        · exact .slots (State.edit_slots ..)

theorem State.endPage_kept (s : State) (c : PageCause) : Kept s (s.endPage c) := by
  unfold State.endPage; split
  · exact .refl s
  · refine .trans ?_ (State.post_kept _ _)
    refine .trans ?_ (.setConsole _ _)
    refine .trans ?_ (.setPage (q := none) fun q hq => by cases hq)
    exact (Kept.foldl (fun s h => State.order_kept s h _) _ s).trans (.foldl (State.returnSlot_kept _) _ _)

theorem State.dropRiser_kept (s : State) (r : Riser) : Kept s (s.dropRiser r) := by
  unfold State.dropRiser; split
  · exact .refl s
  next p hp =>
    split
    · exact .refl s
    next v hv =>
      dsimp only
      have hdrop : Kept s (((s.edit r v.slot .idle).setPage (some { p with
          served := vset p.served r none, members := p.members.filter fun h => h.riser ≠ r })).post (.pageDropped r)) :=
        .trans (.trans (.slots (State.edit_slots s r v.slot .idle)) (.setPage fun q hq => ⟨p, by
          rw [(State.edit_slots s r v.slot .idle).state]; exact hp, fun x hx => by
          cases hq; exact List.mem_of_mem_filter hx⟩)) (State.post_kept ..)
      split
      · exact hdrop
      · exact hdrop.trans (State.endPage_kept ..)

/-! ## Risers -/

theorem State.riserGone_kept (s : State) (r : Riser) : Kept s (s.riserGone r) :=
  (Kept.foldl (fun s i => State.endCall_kept s i _) _ s).trans (State.dropRiser_kept _ r)

theorem State.testClearing_kept (s : State) : Kept s s.testClearing := .foldl State.freeIfUnnamed_kept _ s

theorem State.enableRiser_kept (s : State) (r : Riser) : Kept s (s.enableRiser r) := by
  unfold State.enableRiser; split
  · refine .trans ?_ (State.post_kept ..)
    exact .setRiser (fun _ => List.nodup_nil) fun a h => by simp [RiserUnit.enabled, RiserUnit.atRest, Presence.absent] at h
  · exact .refl s

theorem State.riserOff_kept (s : State) (r : Riser) (e : RiserEvent) : Kept s (s.riserOff r e) := by
  unfold State.riserOff
  refine .trans ?_ (State.post_kept ..)
  refine .trans ?_ (State.testClearing_kept _)
  exact .setRiser (fun _ => List.nodup_nil) fun a h => by simp [RiserUnit.switchedOff, RiserUnit.atRest, Presence.absent] at h

theorem State.disableRiser_kept (s : State) (r : Riser) : Kept s (s.disableRiser r) := by
  unfold State.disableRiser; split
  · refine .trans ?_ (State.riserGone_kept ..)
    exact .setRiser (fun _ => List.nodup_nil) fun _ => id
  · refine .trans (.trans ?_ (State.riserGone_kept ..)) (State.riserOff_kept ..)
    exact .setRiser (fun _ => List.nodup_nil) fun _ => id
  · refine .trans (.trans ?_ (State.riserGone_kept ..)) (State.riserOff_kept ..)
    exact .setRiser (fun _ => List.nodup_nil) fun _ => id
  · exact .refl s

/-! ## Panel links -/

/-- A panel whose link leaves UP or HUNT: its output is discarded and its end tone stops. -/
def PanelUnit.leaving (target : LinkState) (u : PanelUnit) : PanelUnit :=
  ({ u with link := { u.link with state := target }, output := none }).endToneStopped

/-- The loss of a panel link up to the ending of its call. -/
def State.panelLeft (s : State) (p : Panel) (target : LinkState) : State :=
  match (s.panel p).current with
  | some i => (s.modPanel p (·.leaving target)).endCall i .linkLost
  | none => s.modPanel p (·.leaving target)

/-- What is left of a panel link that has left UP or HUNT. -/
def PanelUnit.drained (u : PanelUnit) : PanelUnit :=
  { u with link := { u.link with good := 0, bad := 0 }, sendQueue := [], fifo := u.fifo.emptied }

theorem State.panelLost_eq (s : State) (p : Panel) (target : LinkState) (event : LinkEvent) : s.panelLost p target event =
    ((s.panelLeft p target).modPanel p (·.drained)).post
      (.link event (some p) ((s.panel p).current.bind fun i => (s.call i).map fun c => (i, c.serial))) := rfl

theorem State.panelLeft_kept (s : State) (p : Panel) (l : LinkState) : Kept s (s.panelLeft p l) := by
  have h : Kept s (s.modPanel p (·.leaving l)) :=
    .modPanel_rest (by simp [PanelUnit.leaving]) (by simp [PanelUnit.leaving])
  unfold State.panelLeft; split
  · exact h.trans (State.endCall_kept ..)
  · exact h

theorem State.panelLost_kept (s : State) (p : Panel) (l : LinkState) (e : LinkEvent) : Kept s (s.panelLost p l e) := by
  rw [State.panelLost_eq]
  refine .trans (.trans (State.panelLeft_kept s p l) ?_) (State.post_kept ..)
  exact .setPanel (fun _ => Nat.zero_le _) fun _ => Nat.zero_le _

theorem State.panelBad_kept (s : State) (p : Panel) : Kept s (s.panelBad p) := by
  unfold State.panelBad; split
  · exact .refl s
  · exact .modPanel_rest rfl rfl
  · split
    · exact .modPanel_rest rfl rfl
    · exact State.event_kept (State.panelLost_kept ..)

/-- A changed gain resets the panel's output (R156). -/
def State.panelGained (s : State) (p : Panel) (old new : PanelProfile) : State :=
  if new.gain = old.gain then s else s.modPanel p fun u => { u with output := u.output.map fun _ => .fresh new.gain }

theorem State.panelChanged_eq (s : State) (p : Panel) (old new : PanelProfile) {v : State} (hv : v = s.panelGained p old new) :
    s.panelChanged p old new =
      if new.installed = old.installed then v
      else if new.installed then if (v.panel p).link.state = .down then v.modPanel p (·.hunting) else v
      else if (v.panel p).link.state = .down then v else v.panelLost p .down .removed := by subst hv; rfl

theorem State.panelGained_kept (s : State) (p : Panel) (old new : PanelProfile) : Kept s (s.panelGained p old new) := by
  unfold State.panelGained; split
  · exact .refl s
  · exact .modPanel_rest rfl rfl

theorem State.panelChanged_kept (s : State) (p : Panel) (old new : PanelProfile) : Kept s (s.panelChanged p old new) := by
  have hgain := s.panelGained_kept p old new
  rw [State.panelChanged_eq s p old new rfl]
  split
  · exact hgain
  · split
    · split
      · exact hgain.trans (.modPanel_rest rfl rfl)
      · exact hgain
    · split
      · exact hgain
      · exact hgain.trans (State.panelLost_kept ..)

/-! ## The console link -/

theorem State.consoleGone_kept (s : State) : Kept s s.consoleGone := by
  unfold State.consoleGone; dsimp only
  refine .trans (.foldl (fun s i => State.endCall_kept s i .linkLost) (allRecs.filter s.endsWithConsole) s) ?_
  refine .trans ?_ (.setConsole _ _)
  refine .trans ?_ (State.endPage_kept _ _)
  split
  · exact .modCall fun _ => .of_legs rfl rfl
  · exact .modCall fun _ => .of_legs rfl rfl
  · exact .refl _

theorem State.consoleLost_kept (s : State) : Kept s s.consoleLost := by
  unfold State.consoleLost
  refine .trans (.trans ?_ (State.consoleGone_kept _)) (State.post_kept ..)
  exact .setClu (Nat.zero_le _) (fun _ => Nat.zero_le _) fun _ => Nat.zero_le _

theorem State.consoleBad_kept (s : State) : Kept s s.consoleBad := by
  unfold State.consoleBad; split
  · exact .refl s
  · exact .modClu_rest rfl rfl rfl
  · split
    · exact .modClu_rest rfl rfl rfl
    · exact State.event_kept (State.consoleLost_kept _)

end Sys2Proof.Machine
end

