-- ==== Sys2Proof/Proofs/KeptSteps.lean ====
section
/-! PROOFS. Every step keeps the capacities, and the handsets of calls apart: the few operations that give a call legs, a page
members or a handset its hook, then the commands one by one. -/

namespace Sys2Proof.Machine

open Sys2Proof Sys2Proof.Safety

/-- From `s` to `t` the two laws are kept. -/
structure Preserves (s t : State) : Prop where
  capacities : WithinCapacities s → WithinCapacities t
  handsets   : HandsetsInOneCall s → HandsetsInOneCall t

namespace Preserves

theorem refl (s : State) : Preserves s s := ⟨id, id⟩

theorem trans {s t u : State} (h : Preserves s t) (g : Preserves t u) : Preserves s u :=
  ⟨g.capacities ∘ h.capacities, g.handsets ∘ h.handsets⟩

end Preserves

theorem Kept.preserves {s t : State} (h : Kept s t) : Preserves s t := ⟨h.capacities, h.handsets⟩

/-- Nothing changed but blocks that no law here speaks of. -/
theorem Preserves.of_rest {s t : State} (hc : t.calls = s.calls) (hw : t.waitQueue = s.waitQueue)
    (hd : t.consoleQueue = s.consoleQueue) (hp : t.page = s.page) (hr : t.risers = s.risers) (hn : t.panels = s.panels)
    (hu : t.clu = s.clu) : Preserves s t := (Kept.of_rest hc hw hd hp hr hn hu).preserves

theorem Preserves.settled {s t u : State} (h : Preserves s u) : Preserves s (State.settled t u) := by
  unfold State.settled; split
  · exact h.trans u.scan_kept.preserves
  · exact h

theorem Preserves.event {f : State → State} {s : State} (h : Preserves s (f s)) : Preserves s (s.event f) := h.settled

theorem Preserves.whenRunning {f : State → State} {s : State} (h : Preserves s (f s)) : Preserves s (s.whenRunning f) := by
  unfold State.whenRunning; split
  · exact h
  · exact .refl s

/-! ## Legs given to a call (R5, R6) -/

/-- No record holds a live leg of a handset that has no live record. -/
theorem State.liveRecord_none {s : State} {h : Handset} :
    s.liveRecord h = none ↔ ∀ i c, s.call i = some c → c.hasLive h = false := by
  simp only [State.liveRecord, List.find?_eq_none, allRecs, List.mem_finRange, true_implies]
  refine forall_congr' fun i => ?_
  cases hc : s.call i with
  | none => simp
  | some c => simp

theorem State.isMember_iff {s : State} {h : Handset} : s.isMember h = true ↔ ∃ p, s.page = some p ∧ h ∈ p.members := by
  unfold State.isMember
  cases s.page with
  | none => simp
  | some p => simp

/-- A call is given legs: their handsets are distinct, live in no other call, and no members of the page. -/
theorem handsets_giveLegs {s : State} (hs : HandsetsInOneCall s) {i : Rec} {d : Call}
    (hn : (d.legs.map (·.handset)).Nodup)
    (ho : ∀ l ∈ d.legs, ∀ j c, j ≠ i → s.call j = some c → c.hasLive l.handset = false)
    (hp : ∀ l ∈ d.legs, ∀ p, s.page = some p → l.handset ∉ p.members) : HandsetsInOneCall (s.setCall i (some d)) := by
  have hleg : ∀ h, d.hasLive h = true → ∃ l ∈ d.legs, l.handset = h := fun h hd => by
    obtain ⟨l, hl, hh⟩ := List.any_eq_true.mp hd
    exact ⟨l, hl, by simp at hh; exact hh.1⟩
  have hcall : ∀ j c, (s.setCall i (some d)).call j = some c → j = i ∧ c = d ∨ j ≠ i ∧ s.call j = some c := fun j c hc => by
    rw [State.call_setCall] at hc
    split at hc
    next hij => cases hc; exact .inl ⟨hij.symm, rfl⟩
    next hij => exact .inr ⟨Ne.symm hij, hc⟩
  refine ⟨fun j c hc => ?_, fun j k c e h hc he hch heh => ?_, fun p h hpg hm => ⟨(hs.apart p h hpg hm).1, fun j c hc => ?_⟩⟩
  · rcases hcall j c hc with ⟨-, rfl⟩ | ⟨-, hc⟩
    · exact hn
    · exact hs.legs j c hc
  · rcases hcall j c hc with ⟨rfl, rfl⟩ | ⟨hj, hcj⟩ <;> rcases hcall k e he with ⟨hk, rfl⟩ | ⟨hk, hek⟩
    · exact hk.symm
    · obtain ⟨l, hl, rfl⟩ := hleg h hch
      simp [ho l hl k e hk hek] at heh
    · obtain ⟨l, hl, rfl⟩ := hleg h heh
      simp [ho l hl j c (hk ▸ hj) hcj] at hch
    · exact hs.once j k c e h hcj hek hch heh
  · rcases hcall j c hc with ⟨-, rfl⟩ | ⟨-, hc⟩
    · rw [← Bool.not_eq_true]
      intro hch
      obtain ⟨l, hl, rfl⟩ := hleg h hch
      exact hp l hl p hpg hm
    · exact (hs.apart p h hpg hm).2 j c hc

/-- Of the entries kept no two name the same handset (R58). -/
theorem distinctHandsets_nodup (l : List (EntryIx × EntryData)) : ((distinctHandsets l).map fun x => x.2.handset).Nodup := by
  induction l with
  | nil => exact List.nodup_nil
  | cons x l ih =>
    rw [distinctHandsets, List.map_cons, List.nodup_cons]
    refine ⟨fun hm => ?_, ih.sublist (List.filter_sublist.map _)⟩
    obtain ⟨y, hy, he⟩ := List.mem_map.mp hm
    simp [he] at hy

/-- What a lookup hands on (R58, R59): targets with distinct handsets, each rung by no call and paged by none. -/
theorem State.lookup_targets {s : State} {code : Nat} {list : List (EntryIx × EntryData)} (h : s.lookup code = .targets list) :
    (list.map fun x => x.2.handset).Nodup ∧ ∀ x ∈ list, s.liveRecord x.2.handset = none ∧ s.isMember x.2.handset = false := by
  have hl : list = (distinctHandsets (s.collected code)).filter fun x => !s.excluded x.2 := by
    unfold State.lookup at h
    split at h
    · cases h
    · split at h
      · cases h
      · cases h; rfl
  rw [hl]
  refine ⟨(distinctHandsets_nodup _).sublist (List.filter_sublist.map _), fun x hx => ?_⟩
  have hx := (List.mem_filter.mp hx).2
  simp only [State.excluded, Bool.not_eq_true', Bool.or_eq_false_iff, Option.isSome_eq_false_iff, Option.isNone_iff_eq_none] at hx
  exact ⟨hx.1.2, hx.2⟩

theorem legOf_handsets (list : List (EntryIx × EntryData)) :
    (list.map legOf).map (·.handset) = list.map fun x => x.2.handset := by
  rw [List.map_map]; rfl

theorem State.setup_preserves (s : State) (i : Rec) (code : Nat) : Preserves s (s.setup i code) := by
  unfold State.setup
  split
  · exact (State.endCall_kept ..).preserves
  · exact (State.endCall_kept ..).preserves
  next list hl =>
    obtain ⟨hn, hfree⟩ := State.lookup_targets hl
    split
    · exact .refl s
    next c hc =>
      refine .trans ?_ (State.askSlots_kept _ i _).preserves
      refine ⟨fun hs => { hs with strikes := fun j d hd => ?_ }, fun hs => handsets_giveLegs hs ?_ ?_ ?_⟩
      · rw [State.call_setCall] at hd
        split at hd
        · cases hd; exact hs.strikes i c hc
        · exact hs.strikes j d hd
      · exact (legOf_handsets list).symm ▸ hn
      · intro l hl j d _ hd
        obtain ⟨x, hx, rfl⟩ := List.mem_map.mp hl
        exact State.liveRecord_none.mp (hfree x hx).1 j d hd
      · intro l hl p hp hm
        obtain ⟨x, hx, rfl⟩ := List.mem_map.mp hl
        have hmem : s.isMember x.2.handset = true := State.isMember_iff.mpr ⟨p, hp, hm⟩
        rw [(hfree x hx).2] at hmem
        cases hmem

theorem State.panelCall_preserves (s : State) (p : Panel) (code : Nat) : Preserves s (s.panelCall p code) := by
  unfold State.panelCall
  split
  · exact (State.hand_kept ..).preserves
  · have hstop : Kept s (s.modPanel p (·.endToneStopped)) := .modPanel_rest (by simp) (by simp)
    dsimp only
    split
    · exact (hstop.trans (State.hand_kept ..)).preserves
    · split
      · refine (hstop.trans (.trans ?_ (State.post_kept ..))).preserves
        exact .setPanel (by simp) fun h => by rw [PanelUnit.endToned_sendQueue]; exact handed_length _ h
      next i _ =>
        refine .trans (Kept.preserves ?_) (State.setup_preserves _ i code)
        exact hstop.trans (.trans (State.takeRecord_kept _ i _ _ _ _) (.modPanel_rest rfl rfl))

/-! ## The keys (R120, R121) -/

/-- A CONCIERGE call is given its handset, which is in no call and, off-hook, on no page. -/
theorem State.queueConcierge_preserves {s : State} {i : Rec} {h : Handset} (hl : s.liveRecord h = none)
    (ho : (s.presence h).offHook = true) (hq : s.consoleQueue.length < Config.queuePlaces) :
    Preserves s (s.queueConcierge i h) := by
  unfold State.queueConcierge
  refine .trans ?_ (State.postCall_kept _ i _).preserves
  refine .trans ?_ (Kept.queues id fun _ => by rw [List.length_append]; exact hq).preserves
  have hnew : (s.takeRecord i .concierge (.handset h) none .waitingDesk).call i =
    some (.fresh s.serialNext .concierge (.handset h) none .waitingDesk) := vget_vset_self ..
  rw [State.modCall, hnew]
  refine .trans (State.takeRecord_kept s i .concierge (.handset h) none .waitingDesk).preserves
    ⟨fun hs => { hs with strikes := fun j d hd => ?_ }, fun hs => handsets_giveLegs hs (by simp) ?_ ?_⟩
  · rw [State.call_setCall] at hd
    split at hd
    · cases hd; exact Nat.zero_le _
    · exact hs.strikes j d hd
  · intro l hl' j d hj hd
    obtain rfl : l = _ := List.mem_singleton.mp hl'
    exact State.liveRecord_none.mp hl j d ((vget_vset_ne _ (Ne.symm hj) _).symm.trans hd)
  · intro l hl' p hp hm
    obtain rfl : l = _ := List.mem_singleton.mp hl'
    have hoff : (s.presence h).offHook = false := (hs.apart p h hp hm).1
    rw [ho] at hoff
    cases hoff

theorem State.conciergeKey_preserves (s : State) (h : Handset) : Preserves s (s.conciergeKey h) := by
  unfold State.conciergeKey
  split
  · split
    · split
      · exact .refl s
      · exact (State.reject_kept ..).preserves
    · exact .refl s
  next hl =>
    split
    next ho =>
      split
      · split
        next hq => exact State.queueConcierge_preserves hl ho hq
        · exact (State.reject_kept ..).preserves
      · exact (State.reject_kept ..).preserves
    · exact (State.reject_kept ..).preserves

theorem State.keyEvent_preserves (s : State) (h : Handset) (k : Key) : Preserves s (s.keyEvent h k) := by
  unfold State.keyEvent
  split
  · exact .refl s
  · exact (State.event_kept (State.releaseKey_kept s h)).preserves
  · exact .event (State.conciergeKey_preserves s h)

/-! ## Hooks (R15, R87) -/

/-- A hook state set in a presence record. -/
def State.hooked (s : State) (h : Handset) (off : Bool) : State :=
  s.modRiser h.riser fun u => u.withPresence h.addr { s.presence h with offHook := off }

theorem State.hookEvent_eq (s : State) (h : Handset) (off : Bool) : s.hookEvent h off =
    if (s.presence h).offHook = off then s
    else (s.hooked h off).event fun s => if off then s.offHook h else s.onHook h := rfl

theorem State.hooked_riser (s : State) (h : Handset) (off : Bool) (r : Riser) : (s.hooked h off).riser r =
    if h.riser = r then { s.riser r with
      presence := vset (s.riser r).presence h.addr { s.presence h with offHook := off }
      quietTimer := ((s.hooked h off).riser r).quietTimer } else s.riser r := by
  unfold State.hooked
  rw [State.riser_modRiser]
  split
  next hr => subst hr; rw [RiserUnit.retimed_eq]; rfl
  · rfl

theorem State.hooked_presence (s : State) (h x : Handset) (off : Bool) : (s.hooked h off).presence x =
    if x = h then { s.presence h with offHook := off } else s.presence x := by
  unfold State.presence
  rw [State.hooked_riser]
  split
  next hr =>
    rw [vget_vset]
    by_cases ha : h.addr = x.addr
    · have hx : x = h := by cases x; cases h; simp_all
      simp [hx, State.presence]
    · have hx : x ≠ h := fun hx => ha (by rw [hx])
      simp [ha, hx]
  next hr =>
    have hx : x ≠ h := fun hx => hr (by rw [hx])
    simp [hx]

theorem State.hooked_orders (s : State) (h : Handset) (off : Bool) (r : Riser) :
    ((s.hooked h off).riser r).queue = (s.riser r).queue := by
  rw [State.hooked_riser]; split <;> rfl

theorem State.hooked_capacities {s : State} (hs : WithinCapacities s) (h : Handset) (off : Bool) :
    WithinCapacities (s.hooked h off) :=
  { hs with orders := fun r => by rw [State.hooked_orders]; exact hs.orders r }

/-- The handsets of calls stay apart when a handset that is no page member changes its hook. -/
theorem State.hooked_handsets {s : State} (hs : HandsetsInOneCall s) {h : Handset} {off : Bool}
    (hm : off = true → s.isMember h = false) : HandsetsInOneCall (s.hooked h off) := by
  refine ⟨hs.legs, hs.once, fun p x hp hx => ⟨?_, (hs.apart p x hp hx).2⟩⟩
  rw [State.hooked_presence]
  split
  next hxh =>
    subst hxh
    cases off with
    | false => rfl
    | true =>
      have hmem : s.isMember x = true := State.isMember_iff.mpr ⟨p, hp, hx⟩
      rw [hm rfl] at hmem
      cases hmem
  next => exact (hs.apart p x hp hx).1

/-- The laws of handsets look at the calls, the page and the hooks alone. -/
theorem handsets_congr {s t : State} (hs : HandsetsInOneCall s) (hc : t.calls = s.calls) (hp : t.page = s.page)
    (ho : ∀ h, (t.presence h).offHook = (s.presence h).offHook) : HandsetsInOneCall t := by
  have hcall : ∀ i, t.call i = s.call i := fun i => by unfold State.call; rw [hc]
  refine ⟨fun i c h => hs.legs i c (hcall i ▸ h), fun i j c d h h1 h2 => hs.once i j c d h (hcall i ▸ h1) (hcall j ▸ h2),
    fun p h h1 h2 => ?_⟩
  rw [hp] at h1
  rw [ho]
  exact ⟨(hs.apart p h h1 h2).1, fun i c h => (hs.apart p _ h1 h2).2 i c (hcall i ▸ h)⟩

theorem State.leavePage_isMember (s : State) (h : Handset) : (s.leavePage h).isMember h = false := by
  rw [← Bool.not_eq_true, State.isMember_iff]
  rintro ⟨q, hq, hm⟩
  unfold State.leavePage at hq
  split at hq
  next p _ => cases hq; simp at hm
  next hp => rw [hp] at hq; cases hq

/-- An off-hook of a page member takes it from the page, so that the handsets stay apart. -/
theorem State.offHook_handsets {s : State} (hs : HandsetsInOneCall s) (h : Handset) :
    HandsetsInOneCall ((s.hooked h true).offHook h) := by
  cases hm : s.isMember h with
  | false => exact (State.offHook_kept _ h).handsets (State.hooked_handsets hs fun _ => hm)
  | true =>
    obtain ⟨p, hp, hmem⟩ := State.isMember_iff.mp hm
    have hl : (s.hooked h true).liveRecord h = none := State.liveRecord_none.mpr (hs.apart p h hp hmem).2
    have hstep : (s.hooked h true).offHook h = ((s.hooked h true).order h .pageOff).leavePage h := by
      unfold State.offHook
      rw [hl]
      exact if_pos hm
    have hleft : HandsetsInOneCall ((s.leavePage h).hooked h true) :=
      State.hooked_handsets ((State.leavePage_kept s h).handsets hs) fun _ => State.leavePage_isMember s h
    rw [hstep]
    have hsent := (s.hooked h true).order_orders h .pageOff
    refine handsets_congr hleft ?_ ?_ fun x => ?_
    · rw [State.leavePage, State.leavePage, hsent.state]
      simp [State.hooked, hp]
    · rw [State.leavePage, State.leavePage, hsent.state]
      simp [State.hooked, hp]
    · rw [(State.leavePage_touch _ _).presence, hsent.presence, State.hooked_presence, State.hooked_presence,
        (State.leavePage_touch _ _).presence, (State.leavePage_touch _ _).presence]

theorem State.hookEvent_preserves (s : State) (h : Handset) (off : Bool) : Preserves s (s.hookEvent h off) := by
  rw [State.hookEvent_eq]
  split
  · exact .refl s
  · have hstep : Preserves s (if off then (s.hooked h off).offHook h else (s.hooked h off).onHook h) := by
      cases off with
      | true => exact ⟨fun hs => (State.offHook_kept _ h).capacities (State.hooked_capacities hs h true),
          fun hs => State.offHook_handsets hs h⟩
      | false => exact ⟨fun hs => (State.onHook_kept _ h).capacities (State.hooked_capacities hs h false),
          fun hs => (State.onHook_kept _ h).handsets (State.hooked_handsets hs nofun)⟩
    exact hstep.settled

/-! ## Answers on a riser -/

theorem settledByHit_nodup {a : Addr} {q : List OrderEntry} (h : (q.map (·.addr)).Nodup) :
    ((settledByHit a q).map (·.addr)).Nodup := by
  refine h.sublist ?_
  unfold settledByHit
  induction q with
  | nil => exact List.Sublist.slnil
  | cons e q ih =>
    rw [List.map_cons, List.nodup_cons] at h
    rw [List.filterMap_cons]
    split_ifs
    · exact (ih h.2).cons_cons _
    · exact (ih h.2).cons _
    · exact (ih h.2).cons_cons _

theorem settledByMiss_nodup {a : Addr} {q : List OrderEntry} (h : (q.map (·.addr)).Nodup) :
    ((settledByMiss a q).map (·.addr)).Nodup := by
  have hperm : (settledByMiss a q).map (·.addr) =
      (q.filter (fun e => !(e.addr = a && e.inFlight)) ++ q.filter fun e => !!(e.addr = a && e.inFlight)).map (·.addr) := by
    simp [settledByMiss, Function.comp_def]
  rw [hperm]
  refine (((List.filter_append_perm (fun e : OrderEntry => !(e.addr = a && e.inFlight)) q).map (·.addr)).nodup_iff).mpr h

theorem State.miss_preserves (s : State) (r : Riser) (x : Sent) : Preserves s (s.miss r x) := by
  have hsame : ∀ {p : Presence} (a : Addr), p.offHook = true → p.offHook = (vget (s.riser r).presence x.addr).offHook →
      a = x.addr → (vget (s.riser r).presence a).offHook = true := fun a hp he ha => by rw [ha, ← he, hp]
  unfold State.miss
  dsimp only
  split
  · split
    · refine Kept.preserves (.modRiser settledByMiss_nodup fun a ha => ?_)
      simp only [RiserUnit.withPresence, vget_vset] at ha
      split at ha
      next hx => exact hsame a ha rfl hx.symm
      · exact ha
    · refine .trans (Kept.preserves (.trans (.modRiser (fun h => ?_) fun a ha => ?_) (State.post_kept ..)))
        (State.event_kept (State.handsetLost_kept _ _)).preserves
      · exact h.sublist (List.filter_sublist.map _)
      · simp only [RiserUnit.withPresence, vget_vset] at ha
        split at ha
        · cases ha
        · exact ha
  · exact Kept.preserves (.modRiser settledByMiss_nodup fun _ => id)

theorem RiserUnit.delivered_presence (u : RiserUnit) (x : Sent) : (u.delivered x).presence = u.presence := by
  unfold RiserUnit.delivered; split <;> rfl

theorem RiserUnit.delivered_queue (u : RiserUnit) (x : Sent) : (u.delivered x).queue = u.queue := by
  unfold RiserUnit.delivered; split <;> rfl

theorem State.hit_preserves (s : State) (r : Riser) (x : Sent) (w : Answer) : Preserves s (s.hit r x w) := by
  unfold State.hit
  dsimp only
  refine .trans ?_ (State.keyEvent_preserves _ _ _)
  refine .trans ?_ (State.hookEvent_preserves _ _ _)
  have hsettled : Kept s (s.modRiser r fun u => (({ u with sent := none, queue := settledByHit x.addr u.queue }).delivered
      x).withPresence x.addr { s.presence { riser := r, addr := x.addr } with present := true, misses := 0 }) := by
    refine .modRiser (fun h => ?_) fun a ha => ?_
    · rw [RiserUnit.withPresence, RiserUnit.delivered_queue]; exact settledByHit_nodup h
    · simp only [RiserUnit.withPresence, RiserUnit.delivered_presence, vget_vset] at ha
      split at ha
      next hx => rw [← hx]; exact ha
      · exact ha
  split
  · exact hsettled.preserves
  · exact (hsettled.trans (State.post_kept ..)).preserves

/-! ## The page's members (R134) -/

/-- A candidate is on-hook and in no call. -/
theorem State.candidates_apart {s : State} {g : Nat} {h : Handset} (hc : h ∈ s.candidates g) :
    (s.presence h).offHook = false ∧ s.liveRecord h = none := by
  have hc := (List.mem_filter.mp hc).2
  simp only [State.isCandidate, Bool.and_eq_true, Bool.not_eq_true', Option.isNone_iff_eq_none] at hc
  exact ⟨hc.2.1.2, hc.2.2⟩

/-- A page begins, or takes the place of another, with members that are on-hook and in no call. -/
theorem handsets_setPage {s : State} (hs : HandsetsInOneCall s) {p : PageRecord}
    (hm : ∀ h ∈ p.members, (s.presence h).offHook = false ∧ s.liveRecord h = none) : HandsetsInOneCall (s.setPage (some p)) where
  legs := hs.legs
  once := hs.once
  apart q h hq hh := by
    cases hq
    exact ⟨(hm h hh).1, State.liveRecord_none.mp (hm h hh).2⟩

theorem doPageStart_preserves (g : Byte) (s : State) : Preserves s (doPageStart g s).state := by
  unfold doPageStart
  split
  · exact .refl s
  · split
    · exact .refl s
    · split
      · exact .refl s
      · dsimp only
        split
        · refine .trans ?_ (State.post_kept ..).preserves
          refine .trans ?_ (Kept.setConsole ..).preserves
          have hplan := (s.pagePlanned_kept g.toNat (s.candidates g.toNat)).trans
            (.foldl (State.pageOn_kept (s.pagePlanned g.toNat (s.candidates g.toNat)).2)
              (s.pagePlanned g.toNat (s.candidates g.toNat)).2.members _)
          refine ⟨fun hs => { hplan.capacities hs with }, fun hs => handsets_setPage (hplan.handsets hs) fun h hh => ?_⟩
          obtain ⟨ho, hl⟩ := State.candidates_apart (List.mem_of_mem_filter hh)
          refine ⟨?_, State.liveRecord_none.mpr fun i c hc => ?_⟩
          · rw [← Bool.not_eq_true] at *
            exact fun h' => ho (hplan.offHook h h')
          · rw [← Bool.not_eq_true]
            intro hch
            obtain ⟨d, hd, hdh⟩ := hplan.hasLive hc hch
            rw [State.liveRecord_none.mp hl i d hd] at hdh
            cases hdh
        · exact .refl s

/-! ## The requests -/

/-- A run of a request keeps the laws and adds no reply. -/
structure Runs (s t : State) : Prop where
  preserves : Preserves s t
  replies   : t.clu.replies.length ≤ s.clu.replies.length

theorem Kept.runs {s t : State} (h : Kept s t) : Runs s t := ⟨h.preserves, h.replies⟩

theorem CallTouch.runs {s t : State} (h : CallTouch s t) (hp : Preserves s t) : Runs s t :=
  ⟨hp, by rw [h.replies]⟩

theorem Runs.refl (s : State) : Runs s s := (Kept.refl s).runs

/-- Nothing changed but blocks that no law here speaks of. -/
theorem Runs.of_rest {s t : State} (hc : t.calls = s.calls) (hw : t.waitQueue = s.waitQueue)
    (hd : t.consoleQueue = s.consoleQueue) (hp : t.page = s.page) (hr : t.risers = s.risers) (hn : t.panels = s.panels)
    (hu : t.clu = s.clu) : Runs s t := (Kept.of_rest hc hw hd hp hr hn hu).runs

theorem Kept.setSettings (s : State) (c : Settings) : Kept s (s.setSettings c) := of_rest rfl rfl rfl rfl rfl rfl rfl

theorem doStatus_kept (part : Byte) (s : State) : Kept s (doStatus part s).state := by
  unfold doStatus; split
  · exact .refl s
  · refine iteInduction (motive := fun t => Kept s t) (fun _ => ?_) fun _ => .refl s
    refine .panels (fun p => ?_) fun p => ?_ <;> rw [vget_vmap] <;> exact id

theorem doWriteEntries_kept (h : WriteHead) (items : List WriteItem) (s : State) : Kept s (doWriteEntries h items s).state := by
  unfold doWriteEntries
  split
  · exact .refl s
  · split
    · exact .refl s
    · split
      · exact .refl s
      · exact .of_rest rfl rfl rfl rfl rfl rfl rfl

theorem State.consoleGained_kept (s : State) (old new : ConsoleProfile) : Kept s (s.consoleGained old new) := by
  have hgain : Kept s (if new.gain = old.gain then s
      else s.modClu fun c => { c with output := c.output.map fun _ => .fresh new.gain }) := by
    split
    · exact .refl s
    · exact .modClu_rest rfl rfl rfl
  unfold State.consoleGained
  refine iteInduction (motive := fun t => Kept s t) (fun _ => hgain) fun _ => .trans hgain ?_
  refine .risers (fun r => ?_) fun r a => ?_ <;> rw [vget_vmap] <;> exact id

theorem doConsoleSet_kept (gain pageGain ring : Byte) (talk queue : Word) (page wait : Byte) (s : State) :
    Kept s (doConsoleSet gain pageGain ring talk queue page wait s).state := by
  unfold doConsoleSet
  dsimp only [settledReply]
  exact .trans (Kept.setSettings ..) (State.consoleGained_kept ..)

theorem doPanelSet_kept (panel installed gain ring : Byte) (talk : Word) (strike : Byte) (s : State) :
    Kept s (doPanelSet panel installed gain ring talk strike s).state := by
  unfold doPanelSet; split
  · exact .refl s
  · dsimp only [settledReply]
    refine .trans ?_ (State.event_kept (State.panelChanged_kept ..))
    exact Kept.setSettings ..

theorem RiserUnit.periodsWritten_fields (m : RiserProfile) (u : RiserUnit) : u.periodsWritten m =
    { u with quietTimer := (u.periodsWritten m).quietTimer, reversalTimer := (u.periodsWritten m).reversalTimer } := by
  unfold RiserUnit.periodsWritten; dsimp only; split_ifs <;> rfl

theorem doRiserSet_kept (riser enable quiet reversal mute : Byte) (s : State) :
    Kept s (doRiserSet riser enable quiet reversal mute s).state := by
  unfold doRiserSet; split
  · exact .refl s
  · have hperiods : ∀ (s : State) (r : Riser) (m : RiserProfile), Kept s (s.modRiser r (·.periodsWritten m)) := fun s r m =>
      .modRiser_rest (by rw [RiserUnit.periodsWritten_fields]) (by rw [RiserUnit.periodsWritten_fields])
    dsimp only [settledReply]
    refine .trans ?_ (State.event_kept ?_)
    · exact Kept.setSettings ..
    · split
      · exact (hperiods ..).trans (State.enableRiser_kept ..)
      · exact (hperiods ..).trans (State.disableRiser_kept ..)

theorem State.raisedAll_kept (s : State) (floor : Nat) : Kept s (s.raisedAll floor) := by
  have hk := Kept.refl s
  have hr : ∀ r, (s.raisedAll floor).riser r = _ := fun r => vget_vmap ..
  have hp : ∀ p, (s.raisedAll floor).panel p = _ := fun p => vget_vtab ..
  exact { hk with
    orders := fun r => by rw [hr]; exact id
    offHook := fun h => by rw [State.presence, hr]; exact id
    panelFifo := fun p => by rw [hp]; exact id
    sendQueue := fun p => by rw [hp]; exact id }

theorem doToneWrite_kept (wave start level : Byte) (samples : List Word) (s : State) :
    Kept s (doToneWrite wave start level samples s).state := by
  unfold doToneWrite; split
  · exact .refl s
  · split
    · exact .refl s
    · split
      · exact .refl s
      · exact .of_rest rfl rfl rfl rfl rfl rfl rfl

theorem doHangUp_kept (s : State) : Kept s (doHangUp s).state := by
  unfold doHangUp; split
  next i _ =>
    split
    · exact .refl s
    next c _ => exact State.event_kept (f := fun s => s.endCall i (hangUpCause c)) (State.endCall_kept ..)
  · exact .refl s

theorem doClearCall_kept (record : Byte) (serial : Word) (s : State) : Kept s (doClearCall record serial s).state := by
  unfold doClearCall; split
  · exact .refl s
  next i _ _ =>
    split
    · exact .refl s
    · exact State.event_kept (f := fun s => s.endCall i .cleared) (State.endCall_kept ..)

theorem State.answerHead_kept (s : State) {i : Rec} {c : Call} (hc : s.call i = some c) (h : Handset) (k : Slot) :
    Kept s (s.answerHead i c h k) := by
  unfold State.answerHead
  dsimp only
  refine .trans ?_ (State.postCall_kept _ i _)
  refine .trans ?_ (Kept.setConsole ..)
  have hedit := s.edit_slots h.riser k (.carrying i)
  have hqueue : Kept s { s.edit h.riser k (.carrying i) with consoleQueue := s.consoleQueue.filter (· ≠ i) } :=
    .trans (.slots hedit) (.queues (w := (s.edit h.riser k (.carrying i)).waitQueue) id (by
      rw [show (s.edit h.riser k (.carrying i)).consoleQueue = s.consoleQueue by rw [hedit.state]]
      exact (List.length_filter_le _ _).trans))
  refine .trans (.trans hqueue (.trans (State.order_kept _ h (.assign k)) (State.takeSequence_kept _))) ?_
  have hcall : (({ s.edit h.riser k (.carrying i) with consoleQueue := s.consoleQueue.filter (· ≠ i) } : State).order h
      (.assign k)).call i = some c := by
    rw [(State.order_orders _ h _).call, ← hc]; exact hedit.call i
  obtain ⟨d, hd, hl, hs⟩ := State.takeSequence_call_shrinks hcall
  exact .setCall hd (.of_legs hl.symm hs.symm)

theorem doAnswerNext_kept (s : State) : Kept s (doAnswerNext s).state := by
  unfold doAnswerNext; split
  · exact .refl s
  · split
    · exact .refl s
    · split
      · exact .refl s
      next c hc =>
        split
        · exact .refl s
        · split
          · exact .refl s
          · exact State.answerHead_kept s hc _ _

theorem State.naming_call {s : State} {record : Byte} {serial : Word} {i : Rec} {c : Call}
    (h : s.naming record serial = .ok (i, c)) : s.call i = some c := by
  unfold State.naming at h
  split at h
  · split at h
    next hc =>
      split at h
      · cases h; exact hc
      · cases h
    · cases h
  · cases h

theorem State.mayMonitor_call {s : State} {record : Byte} {serial : Word} {i : Rec} {c : Call}
    (h : s.mayMonitor record serial = .ok (i, c)) : s.call i = some c := by
  unfold State.mayMonitor at h
  split at h
  · cases h
  · split at h
    · cases h
    next hn =>
      split at h
      · split at h
        · split at h
          · cases h; exact State.naming_call hn
          · cases h
        · cases h
      · cases h

theorem State.monitored_kept {s : State} {i : Rec} {c : Call} (hc : s.call i = some c) (k : ConsoleState) (m : Monitor) :
    Kept s (s.monitored i c k m) := by
  unfold State.monitored
  refine .trans (t := (s.setConsole k).setCall i (some { c with monitor := m })) (.trans (Kept.setConsole s k) ?_)
    (.of_rest rfl rfl rfl rfl rfl rfl rfl)
  exact .setCall (c := c) hc (.of_legs rfl rfl)

theorem leaveRecord_kept (i : Rec) (s : State) : Kept s (leaveRecord i s).state := by
  unfold leaveRecord; split
  · refine .trans ?_ (Kept.setConsole _ _)
    exact .modCall fun _ => .of_legs rfl rfl
  · exact .refl s

theorem doCallFlat_preserves (code : Word) (s : State) : Preserves s (doCallFlat code s).state := by
  unfold doCallFlat; split
  · exact .refl s
  · split
    · exact .refl s
    · split
      · exact .refl s
      next i _ =>
        dsimp only [finished]
        refine .trans (Kept.preserves ?_) (.event (f := fun s => s.setup i code.toNat) (State.setup_preserves _ i code.toNat))
        refine .trans ?_ (Kept.setConsole ..)
        exact State.takeRecord_kept ..

/-- Every request keeps the laws, and none adds a reply itself. -/
theorem Request.run_runs (q : Request) (s : State) : Runs s (q.run s).state := by
  cases q with
  | read table riser start count =>
    simp only [Request.run, doRead]
    split
    · exact .refl s
    · refine iteInduction (motive := fun t => Runs s t) (fun _ => ?_) fun _ => .refl s
      exact .of_rest rfl rfl rfl rfl rfl rfl rfl
  | status part => exact (doStatus_kept part s).runs
  | writeEntries head items => exact (doWriteEntries_kept head items s).runs
  | clearCounters page =>
    simp only [Request.run, doClearCounters]
    split
    · exact .refl s
    · split
      · exact .refl s
      · exact .of_rest rfl rfl rfl rfl rfl rfl rfl
  | protect mask =>
    simp only [Request.run, doProtect]
    split
    · exact .refl s
    · split
      · exact .refl s
      · exact .of_rest rfl rfl rfl rfl rfl rfl rfl
  | panelSet panel installed gain ring talk strike => exact (doPanelSet_kept ..).runs
  | consoleSet gain pageGain ring talk queue page wait => exact (doConsoleSet_kept ..).runs
  | riserSet riser enable quiet reversal mute => exact (doRiserSet_kept ..).runs
  | mixSet clip floor => exact ((Kept.setSettings s _).trans (State.raisedAll_kept ..)).runs
  | serviceEnter => exact .of_rest rfl rfl rfl rfl rfl rfl rfl
  | serviceLeave => exact .of_rest rfl rfl rfl rfl rfl rfl rfl
  | toneWrite wave start level samples => exact (doToneWrite_kept ..).runs
  | store unit =>
    simp only [Request.run, doStore]
    split
    · exact .refl s
    · split
      · exact .refl s
      · exact .of_rest rfl rfl rfl rfl rfl rfl rfl
  | answerNext => exact (doAnswerNext_kept s).runs
  | callFlat code => exact (doCallFlat_touch code s).runs (doCallFlat_preserves code s)
  | hangUp => exact (doHangUp_kept s).runs
  | listen record serial =>
    simp only [Request.run, doListen]
    split
    · exact .refl s
    next h => exact (State.monitored_kept (State.mayMonitor_call h) ..).runs
  | barge record serial =>
    simp only [Request.run, doBarge]
    split
    · exact .refl s
    next h => exact (State.monitored_kept (State.mayMonitor_call h) ..).runs
  | leave =>
    simp only [Request.run, doLeave]
    split
    · exact (leaveRecord_kept ..).runs
    · exact (leaveRecord_kept ..).runs
    · exact .refl s
  | clearCall record serial => exact (doClearCall_kept ..).runs
  | pageStart group => exact (doPageStart_touch group s).runs (doPageStart_preserves group s)
  | pageEnd =>
    simp only [Request.run, doPageEnd]
    split
    · split
      · exact (State.event_kept (f := fun s => s.endPage .pageEnd) (State.endPage_kept ..)).runs
      · exact .refl s
    · exact .refl s

/-! ## Messages (R174 to R179) -/

/-- A reply joins where there is room for it (R179). -/
theorem State.reply_preserves {s t : State} (h : Preserves s t) (hr : t.clu.replies.length < Config.replyPlaces) (x : Reply) :
    Preserves s (t.reply x) :=
  h.trans ⟨fun ht => { ht with replies := by simpa [State.reply, State.modClu, State.setClu] using hr },
    fun ht => handsets_congr ht rfl rfl fun _ => rfl⟩

theorem State.execute_preserves {s : State} (hr : s.hasRoom = true) (tag : Byte) (q : Request) :
    Preserves s (s.execute tag q) :=
  State.reply_preserves (q.run_runs s).preserves
    (Nat.lt_of_le_of_lt (q.run_runs s).replies (of_decide_eq_true hr)) _

theorem State.refuseMessage_preserves {s : State} (hr : s.hasRoom = true) (tag : Byte) (reason : Reason) :
    Preserves s (s.refuseMessage tag reason) :=
  State.reply_preserves (.refl s) (of_decide_eq_true hr) _

theorem State.examine_preserves (s : State) (m : MessageParts) : Preserves s (s.examine m) := by
  unfold State.examine
  split
  next hr =>
    split
    · split
      · exact State.refuseMessage_preserves hr ..
      · exact State.refuseMessage_preserves hr ..
      · exact State.execute_preserves hr ..
    · exact State.refuseMessage_preserves hr ..
  · exact .refl s

theorem State.messageArrived_kept (s : State) : Kept s s.messageArrived := .modClu_rest rfl rfl rfl

theorem State.atReceiver_preserves {s : State} {f : State → State} (h : ∀ s, Preserves s (f s)) :
    Preserves s (s.atReceiver f) := by
  unfold State.atReceiver
  refine .whenRunning ?_
  split
  · exact s.messageArrived_kept.preserves.trans (h _)
  · exact .refl s

theorem State.request_preserves (s : State) (tag : Byte) (q : Request) : Preserves s (s.request tag q) := by
  refine State.atReceiver_preserves fun s => ?_
  split
  next hr => exact State.execute_preserves hr tag q
  · exact .refl s

theorem State.appended_preserves (s : State) (b : Byte) : Preserves s (s.appended b) := by
  unfold State.appended
  dsimp only
  split
  · split
    · have hskip : Kept s (s.modClu fun c => { c with receiver := .skipping, buffer := [] }) := .modClu_rest rfl rfl rfl
      split
      next hr => exact hskip.preserves.trans (State.refuseMessage_preserves hr ..)
      · exact hskip.preserves
    · exact Kept.preserves (.modClu_rest rfl rfl rfl)
  · split
    · exact s.messageArrived_kept.preserves.trans (State.examine_preserves ..)
    · exact Kept.preserves (.modClu_rest rfl rfl rfl)

theorem State.controlField_preserves (s : State) (flags b : Byte) : Preserves s (s.controlField flags b) := by
  unfold State.controlField State.controlByte
  split
  · split
    · exact Kept.preserves (.modClu_rest rfl rfl rfl)
    · split
      · exact State.appended_preserves ..
      · exact .refl s
  · exact .refl s

theorem State.postStartup_kept (s : State) : Kept s s.postStartup := by
  unfold State.postStartup
  split
  · exact (State.post_kept ..).trans (.of_rest rfl rfl rfl rfl rfl rfl rfl)
  · exact .refl s

theorem State.consoleUp_kept (s : State) : Kept s s.consoleUp := by
  unfold State.consoleUp
  refine .trans (.trans ?_ (State.post_kept ..)) (State.postStartup_kept _)
  exact .setClu (Nat.le_refl _) id fun _ => Nat.zero_le _

theorem State.consoleGood_preserves (s : State) (f : ConsoleFrame) : Preserves s (s.consoleGood f) := by
  unfold State.consoleGood
  split
  · exact .refl s
  · split
    · exact Kept.preserves (.modClu_rest rfl rfl rfl)
    · exact (State.consoleUp_kept s).preserves
  · refine .trans (Kept.preserves ?_) (State.controlField_preserves ..)
    exact .setClu (Nat.le_refl _) id (Fifo.arrived_length _)

theorem State.panelGood_preserves (s : State) (p : Panel) (f : PanelFrame) : Preserves s (s.panelGood p f) := by
  unfold State.panelGood
  split
  · exact .refl s
  · split
    · exact Kept.preserves (.modPanel_rest rfl rfl)
    · refine Kept.preserves (.trans ?_ (State.post_kept ..))
      exact .setPanel (fun _ => Nat.zero_le _) fun _ => Nat.zero_le _
  · have hframe : Kept s (s.modPanel p fun u => { u with
        link := { u.link with bad := 0 }, fifo := u.fifo.arrived (sampleFrom f.sample) }) :=
      .setPanel (Fifo.arrived_length _) id
    refine .trans hframe.preserves ?_
    unfold State.panelControl
    split
    · exact .event (State.panelCall_preserves ..)
    · split
      · exact (State.event_kept (f := fun s => s.panelCancel p) (State.panelCancel_kept ..)).preserves
      · exact .refl _


/-- A quiescent part meets both laws: its queues are empty and it has no call. -/
theorem quiesced_laws {t : State} (hc : ∀ i, t.call i = none) (hp : t.page = none) (hw : t.waitQueue = [])
    (hd : t.consoleQueue = []) (hr : ∀ r, t.riser r = .atRest) (hn : ∀ p, t.panel p = .atRest) (hu : t.clu = .atRest) :
    WithinCapacities t ∧ HandsetsInOneCall t := by
  constructor
  · refine ⟨by simp [hw], by simp [hd], by simp [hu, ConsoleUnit.atRest], by simp [hu, ConsoleUnit.atRest],
      by simp [hu, ConsoleUnit.atRest, Fifo.primed], fun p => ?_, fun p => ?_, fun r => ?_, fun i c h => ?_⟩
    · simp [hn, PanelUnit.atRest, Fifo.primed]
    · simp [hn, PanelUnit.atRest]
    · simp [hr, RiserUnit.atRest]
    · rw [hc] at h; cases h
  · refine ⟨fun i c h => ?_, fun i _ c _ _ h => ?_, fun p _ h => ?_⟩
    · rw [hc] at h; cases h
    · rw [hc] at h; cases h
    · rw [hp] at h; cases h

theorem State.quiesced_preserves (s : State) : Preserves s s.quiesced :=
  have h := quiesced_laws (t := s.quiesced) (fun _ => vget_replicate ..) rfl rfl rfl (fun _ => vget_replicate ..)
    (fun _ => vget_replicate ..) rfl
  ⟨fun _ => h.1, fun _ => h.2⟩

theorem State.loaded_kept (s : State) (u : UnitIx) : Kept s (s.loaded u) := by
  unfold State.loaded
  dsimp only
  split_ifs <;> exact .of_rest rfl rfl rfl rfl rfl rfl rfl

theorem State.startRiser_kept (s : State) (r : Riser) : Kept s (s.startRiser r) := by
  unfold State.startRiser; split
  · exact State.enableRiser_kept ..
  · exact .refl s

theorem State.startPanel_kept (s : State) (p : Panel) : Kept s (s.startPanel p) := by
  unfold State.startPanel; split
  · exact .modPanel_rest rfl rfl
  · exact .refl s

theorem State.started_kept (s : State) : Kept s s.started := by
  have hclu : ∀ v : State, Kept v (v.modClu fun c => { c with link := { c.link with state := .hunt, good := 0 } }) :=
    fun v => .modClu_rest rfl rfl rfl
  unfold State.started
  refine .trans (.trans ?_ (.foldl State.startPanel_kept _ _)) (hclu _)
  refine .trans ?_ (.foldl State.startRiser_kept _ _)
  exact .of_rest rfl rfl rfl rfl rfl rfl rfl

theorem State.tick_kept (s : State) (h : s.stage = .running) : Kept s s.tick := by
  rw [State.tick, State.whenRunning_running h]
  have hcalls : Kept s { s with calls := vmap (Option.map Call.ticked) s.calls } :=
    .mapCalls fun _ => .of_legs rfl rfl
  have hpage := hcalls.trans (.setPage (q := s.page.map fun p => { p with timer := p.timer.tick }) fun q hq => by
    obtain ⟨p, hp, rfl⟩ := Option.map_eq_some_iff.mp hq
    exact ⟨p, hp, fun _ => id⟩)
  have hrisers := hpage.trans (.risers (rs := vmap RiserUnit.ticked s.risers)
    (fun r => by rw [vget_vmap]; exact id) fun r a => by rw [vget_vmap]; exact id)
  exact hrisers.trans (.panels (ps := vmap PanelUnit.ticked s.panels)
    (fun p => by rw [vget_vmap]; exact id) fun p => by rw [vget_vmap]; exact id)

theorem State.tick_preserves (s : State) : Preserves s s.tick := by
  by_cases h : s.stage = .running
  · exact (s.tick_kept h).preserves
  · rw [State.tick, State.whenRunning_quiescent h]; exact .refl s

/-! ## The Mixer and the transmit boundaries -/

theorem State.mixSlot_kept (r : Riser) (s : State) (k : Slot) : Kept s (State.mixSlot r s k) := by
  unfold State.mixSlot
  dsimp only
  split
  · exact .setRiser id fun _ => id
  · split
    · refine .trans ?_ (Kept.setNotice _ _)
      exact .setRiser id fun _ => id
    · exact .setRiser id fun _ => id

theorem State.mixPanel_fields (s : State) (p : Panel) : (s.mixPanel p).2 =
    { s.panel p with output := (s.mixPanel p).2.output, cursor := (s.mixPanel p).2.cursor } := by
  unfold State.mixPanel
  dsimp only
  split <;> rfl

theorem PanelUnit.nextControl_fifo (u : PanelUnit) : u.nextControl.2.fifo = u.fifo := by
  unfold PanelUnit.nextControl; split <;> rfl

theorem PanelUnit.nextControl_sendQueue (u : PanelUnit) : u.nextControl.2.sendQueue = u.sendQueue.tail := by
  unfold PanelUnit.nextControl
  split
  next h => rw [h]; rfl
  next h => rw [h]; rfl

theorem execPanelTransmitBoundary_preserves (p : Panel) (s : State) {t : State}
    (h : execPanelTransmitBoundary p s = .next t) : Preserves s t := by
  cases h
  refine .whenRunning ?_
  dsimp only
  split
  · exact .refl s
  · exact Kept.preserves (.modPanel_rest rfl rfl)
  · have htake : Kept s (s.modPanel p fun u => { u with fifo := u.fifo.taken, underrun := u.underrun || u.fifo.underruns }) :=
      .setPanel (fun h => (Fifo.taken_length _).trans h) id
    refine (htake.trans (.setPanel ?_ ?_)).preserves
    · dsimp only
      rw [PanelUnit.nextControl_fifo, State.mixPanel_fields]; exact id
    · dsimp only
      rw [PanelUnit.nextControl_sendQueue, State.mixPanel_fields, List.length_tail]; exact fun h => (Nat.sub_le _ _).trans h

theorem State.mixConsole_fields (s : State) : s.mixConsole.2 =
    { s.clu with output := s.mixConsole.2.output, cursor := s.mixConsole.2.cursor } := by
  unfold State.mixConsole
  split <;> rfl

theorem ConsoleUnit.begun_fields (c : ConsoleUnit) (bytes : List Byte) (b : Bool) :
    (c.begun bytes b).2 = { c with outgoing := (c.begun bytes b).2.outgoing } := by
  unfold ConsoleUnit.begun; split <;> rfl

/-- The choice of the next byte takes from the two queues and leaves the FIFO. -/
theorem ConsoleUnit.nextByte_queues (c : ConsoleUnit) : c.nextByte.2.replies.length ≤ c.replies.length ∧
    c.nextByte.2.reports.length ≤ c.reports.length ∧ c.nextByte.2.fifo = c.fifo := by
  unfold ConsoleUnit.nextByte
  split
  · split <;> exact ⟨Nat.le_refl _, Nat.le_refl _, rfl⟩
  · split
    next h => rw [ConsoleUnit.begun_fields, h]; exact ⟨Nat.le_succ _, Nat.le_refl _, rfl⟩
    · split
      next h => rw [ConsoleUnit.begun_fields, h]; exact ⟨Nat.le_refl _, Nat.le_succ _, rfl⟩
      · exact ⟨Nat.le_refl _, Nat.le_refl _, rfl⟩

theorem State.nextByte_mixed (s : State) : s.mixConsole.2.nextByte.2.replies.length ≤ s.clu.replies.length ∧
    s.mixConsole.2.nextByte.2.reports.length ≤ s.clu.reports.length ∧ s.mixConsole.2.nextByte.2.fifo = s.clu.fifo := by
  obtain ⟨hrep, hpos, hfifo⟩ := s.mixConsole.2.nextByte_queues
  have hrep' : s.mixConsole.2.replies = s.clu.replies := by rw [State.mixConsole_fields]
  have hpos' : s.mixConsole.2.reports = s.clu.reports := by rw [State.mixConsole_fields]
  have hfifo' : s.mixConsole.2.fifo = s.clu.fifo := by rw [State.mixConsole_fields]
  exact ⟨hrep' ▸ hrep, hpos' ▸ hpos, hfifo.trans hfifo'⟩

theorem execConsoleTransmitBoundary_preserves (s : State) {t : State} (h : execConsoleTransmitBoundary s = .next t) :
    Preserves s t := by
  cases h
  refine .whenRunning ?_
  dsimp only
  split
  · exact .refl s
  · exact Kept.preserves (.modClu_rest rfl rfl rfl)
  · have htake : Kept s (s.modClu fun c => { c with fifo := c.fifo.taken }) :=
      .setClu (Nat.le_refl _) id fun h => (Fifo.taken_length _).trans h
    obtain ⟨hrep, hpos, hfifo⟩ := (s.modClu fun c => { c with fifo := c.fifo.taken }).nextByte_mixed
    refine (htake.trans (.setClu ?_ ?_ ?_)).preserves
    · exact hrep
    · exact hpos.trans
    · dsimp only; rw [hfifo]; exact id

/-! ## The riser events -/

theorem RiserUnit.selected_orders (u : RiserUnit) : u.selected.queue.map (·.addr) = u.queue.map (·.addr) ∧
    u.selected.presence = u.presence := by
  unfold RiserUnit.selected
  split
  · exact ⟨rfl, rfl⟩
  · split
    next h => rw [h]; exact ⟨rfl, rfl⟩
    next h => rw [h]; exact ⟨rfl, rfl⟩

/-- The steps of the reversal sequence change its own fields, the polarity and its timer. -/
theorem RiserUnit.phaseEnded_fields (m : RiserProfile) (u : RiserUnit) : u.phaseEnded m = { u with
    polarity := (u.phaseEnded m).polarity, reversal := (u.phaseEnded m).reversal
    reversalTimer := (u.phaseEnded m).reversalTimer } := by
  unfold RiserUnit.phaseEnded RiserUnit.beginPostMute
  split
  · rfl
  · rfl
  · split <;> rfl
  · rfl

theorem RiserUnit.muted_fields (u : RiserUnit) : u.muted = { u with uplink := u.muted.uplink } := by
  unfold RiserUnit.muted; split <;> rfl

theorem RiserUnit.reversalCounted_fields (m : RiserProfile) (u : RiserUnit) : u.reversalCounted m = { u with
    polarity := (u.reversalCounted m).polarity, reversal := (u.reversalCounted m).reversal
    reversalTimer := (u.reversalCounted m).reversalTimer } := by
  unfold RiserUnit.reversalCounted
  split
  · split
    · split
      · unfold RiserUnit.beginPreMute; split <;> rfl
      · rfl
    · split
      · rfl
      · dsimp only; rw [RiserUnit.phaseEnded_fields]
  · rfl

theorem State.boundaryState_kept (s : State) (r : Riser) : Kept s (s.boundaryState r) := by
  unfold State.boundaryState
  split
  · split
    · exact .modRiser_rest rfl rfl
    · exact .refl s
  · dsimp only
    split
    · exact (State.riserOff_kept ..).trans (State.enableRiser_kept ..)
    · exact State.riserOff_kept ..
  · exact .refl s

theorem execRiserFrameBoundary_preserves (r : Riser) (voice : List (Addr × Sample)) (s : State) {t : State}
    (h : execRiserFrameBoundary r voice s = .next t) : Preserves s t := by
  cases h
  refine .whenRunning ?_
  dsimp only
  split
  · have hcopied : Kept s (s.copied r voice) := .modRiser_rest rfl rfl
    have hevent := State.event_kept (f := fun s => ((s.copied r voice).testClearing).boundaryState r)
      (hcopied.trans ((State.testClearing_kept _).trans (State.boundaryState_kept ..)))
    refine (hevent.trans (.trans ?_ (.foldl (State.mixSlot_kept r) _ _))).preserves
    refine .modRiser_rest ?_ ?_ <;> rw [RiserUnit.muted_fields, RiserUnit.reversalCounted_fields]
  · exact .refl s

/-! ## Every command -/

theorem execRiser_preserves {s : State} {r : Riser} {f : RiserUnit → RiserUnit} {p : Prop} [Decidable p]
    (h : Kept s (s.modRiser r f)) : Preserves s (if p then s.modRiser r f else s) := by
  split
  · exact h.preserves
  · exact .refl s

/-- The expiry of a timer of a call, taken or not. -/
theorem expiry_preserves {s : State} {i : Rec} {p : Call → Prop} [∀ c, Decidable (p c)] {cause : EndCause} :
    Preserves s (match s.call i with
      | some c => if p c then s.event fun s => s.endCall i cause else s
      | none => s) := by
  split
  · split
    · exact (State.event_kept (f := fun s => s.endCall i cause) (State.endCall_kept ..)).preserves
    · exact .refl s
  · exact .refl s

/-- Every command keeps the two laws. -/
theorem exec_preserves (c : Instr) (s t : State) (h : exec c s = .next t) : Preserves s t := by
  cases c with
  | powerOn =>
    cases h
    refine .trans (s.quiesced_preserves) (Kept.preserves ?_)
    exact iteInduction (motive := fun t => Kept _ t) (fun _ => .of_rest rfl rfl rfl rfl rfl rfl rfl)
      fun _ => .of_rest rfl rfl rfl rfl rfl rfl rfl
  | powerLoss =>
    cases h
    exact s.quiesced_preserves.trans (.of_rest rfl rfl rfl rfl rfl rfl rfl)
  | resetAssert =>
    cases h
    refine iteInduction (motive := fun t => Preserves s t) (fun _ => ?_) fun _ => ?_
    · exact s.quiesced_preserves.trans (.of_rest rfl rfl rfl rfl rfl rfl rfl)
    · exact .of_rest rfl rfl rfl rfl rfl rfl rfl
  | resetRelease =>
    cases h
    refine Kept.preserves ?_
    exact iteInduction (motive := fun t => Kept _ t) (fun _ => .of_rest rfl rfl rfl rfl rfl rfl rfl)
      fun _ => .of_rest rfl rfl rfl rfl rfl rfl rfl
  | unitLoaded =>
    cases h
    split
    next u _ =>
      split
      · exact (State.loaded_kept s u).preserves.trans (.of_rest rfl rfl rfl rfl rfl rfl rfl)
      · exact ((State.loaded_kept s u).trans (State.event_kept (State.started_kept _))).preserves
    · exact .refl s
  | lockChange asserted =>
    cases h
    split
    · exact .of_rest rfl rfl rfl rfl rfl rfl rfl
    · exact .of_rest rfl rfl rfl rfl rfl rfl rfl
  | wakePulse r =>
    cases h
    exact .whenRunning (execRiser_preserves (.modRiser_rest (by rw [woken_fields]) (by rw [woken_fields])))
  | orderSelection r =>
    cases h
    refine .whenRunning (execRiser_preserves (.modRiser (fun hn => ?_) fun a => ?_))
    · rw [(RiserUnit.selected_orders _).1]; exact hn
    · rw [(RiserUnit.selected_orders _).2]; exact id
  | answerArrival r word =>
    cases h
    refine .whenRunning ?_
    split
    · exact .refl s
    · split
      · exact State.hit_preserves ..
      · exact State.miss_preserves ..
  | riserFrameBoundary r voice => exact execRiserFrameBoundary_preserves r voice s h
  | reversalPhaseEnd r =>
    cases h
    refine .whenRunning (execRiser_preserves (.modRiser_rest ?_ ?_)) <;> split_ifs
    · rfl
    · rw [RiserUnit.muted_fields, RiserUnit.phaseEnded_fields]
    · rfl
    · rfl
    · rw [RiserUnit.muted_fields, RiserUnit.phaseEnded_fields]
    · rfl
  | reversalTimerExpiry r => cases h; exact .whenRunning (execRiser_preserves (.modRiser_rest rfl rfl))
  | quietTimerExpiry r => cases h; exact .whenRunning (execRiser_preserves (.modRiser_rest rfl rfl))
  | wakeTimerExpiry r => cases h; exact .whenRunning (execRiser_preserves (.modRiser_rest rfl rfl))
  | ringTimerExpiry i => cases h; exact .whenRunning expiry_preserves
  | talkTimerExpiry i => cases h; exact .whenRunning expiry_preserves
  | waitTimerExpiry i => cases h; exact .whenRunning expiry_preserves
  | queueTimeoutExpiry i => cases h; exact .whenRunning expiry_preserves
  | strikeTimerExpiry i =>
    cases h
    refine .whenRunning ?_
    split
    next c hc =>
      split
      · exact Kept.preserves (.setCall (c := c) hc (.of_legs rfl rfl))
      · exact .refl s
    · exact .refl s
  | pageTimerExpiry =>
    cases h
    refine .whenRunning ?_
    split
    · split
      · exact (State.event_kept (f := fun s => s.endPage .timeout) (State.endPage_kept ..)).preserves
      · exact .refl s
    · exact .refl s
  | endToneExpiry p => cases h; exact .whenRunning (Kept.preserves (.modPanel_rest (by simp) (by simp)))
  | storeCompletion =>
    cases h
    refine .whenRunning ?_
    split
    next w _ =>
      refine Kept.preserves (.trans (t := { s with store := s.store.written w, writing := none }) ?_ (State.post_kept ..))
      exact .of_rest rfl rfl rfl rfl rfl rfl rfl
    · exact .refl s
  | windowEnd o =>
    cases h
    refine .whenRunning ?_
    split
    · exact Kept.preserves (.setRiser id fun _ => id)
    · exact Kept.preserves (.modPanel_rest rfl rfl)
    · exact Kept.preserves (.modClu_rest rfl rfl rfl)
  | noticeEnd =>
    cases h
    refine .whenRunning ?_
    split
    · split
      · exact .of_rest rfl rfl rfl rfl rfl rfl rfl
      · exact .refl s
    · exact .refl s
  | panelFrameArrival p frame =>
    cases h
    refine .whenRunning ?_
    split
    · exact State.panelGood_preserves ..
    · split
      · exact (State.panelBad_kept ..).preserves
      · exact .refl s
  | panelWindowClose p =>
    cases h
    refine .whenRunning ?_
    split
    · exact (State.panelBad_kept ..).preserves
    · exact .refl s
  | panelTransmitBoundary p => exact execPanelTransmitBoundary_preserves p s h
  | consoleFrameArrival frame =>
    cases h
    refine .whenRunning ?_
    split
    · exact State.consoleGood_preserves ..
    · split
      · exact (State.consoleBad_kept _).preserves
      · exact .refl s
  | consoleWindowClose =>
    cases h
    refine .whenRunning ?_
    split
    · exact (State.consoleBad_kept _).preserves
    · exact .refl s
  | consoleTransmitBoundary => exact execConsoleTransmitBoundary_preserves s h
  | invalidMessage message =>
    cases h
    split
    · exact State.atReceiver_preserves fun s => State.examine_preserves s _
    · exact .refl s
  | read tag table riser start count => cases h; exact State.request_preserves ..
  | status tag part => cases h; exact State.request_preserves ..
  | writeEntries tag head items => cases h; exact State.request_preserves ..
  | clearCounters tag page => cases h; exact State.request_preserves ..
  | protect tag mask => cases h; exact State.request_preserves ..
  | panelSet tag panel installed gain ring talk strike => cases h; exact State.request_preserves ..
  | consoleSet tag gain pageGain ring talk queue page wait => cases h; exact State.request_preserves ..
  | riserSet tag riser enable quiet reversal mute => cases h; exact State.request_preserves ..
  | mixSet tag clip floor => cases h; exact State.request_preserves ..
  | serviceEnter tag => cases h; exact State.request_preserves ..
  | serviceLeave tag => cases h; exact State.request_preserves ..
  | toneWrite tag wave start level samples => cases h; exact State.request_preserves ..
  | store tag unit => cases h; exact State.request_preserves ..
  | answerNext tag => cases h; exact State.request_preserves ..
  | callFlat tag code => cases h; exact State.request_preserves ..
  | hangUp tag => cases h; exact State.request_preserves ..
  | listen tag record serial => cases h; exact State.request_preserves ..
  | barge tag record serial => cases h; exact State.request_preserves ..
  | leave tag => cases h; exact State.request_preserves ..
  | clearCall tag record serial => cases h; exact State.request_preserves ..
  | pageStart tag group => cases h; exact State.request_preserves ..
  | pageEnd tag => cases h; exact State.request_preserves ..

/-- Every step keeps the two laws. -/
theorem step_preserves {s t : State} (h : step s = .next t) : Preserves s t := by
  unfold step at h
  split at h
  next c rest _ =>
    exact .trans (.of_rest (t := { s with pending := rest }) rfl rfl rfl rfl rfl rfl rfl) (exec_preserves c _ t h)
  · cases h; exact s.tick_preserves

/-- Settles O54, through what each command keeps. -/
theorem stepsKeepTheCapacities : Obligations.StepsKeepTheCapacities := fun _ _ hs h => (step_preserves h).capacities hs

/-- Settles O56, through what each command keeps. -/
theorem stepsKeepHandsetsInOneCall : Obligations.StepsKeepHandsetsInOneCall := fun _ _ hs h => (step_preserves h).handsets hs

end Sys2Proof.Machine
end

