-- ==== Sys2Proof/Proofs/Timers.lean ====
section
/-! PROOFS. A step, the passing of time, power and reset, the laws at reset, and the expiries and ends that the Call Controller's
timers and the Mixer give. -/

namespace Sys2Proof.Machine

open Sys2Proof Sys2Proof.Safety

/-! ## A step and a frame period -/

/-- Settles O1: the front command is the one a step matches on. -/
theorem stepTakesTheFrontCommand : Obligations.StepTakesTheFrontCommand := fun _ _ _ => rfl

section
variable {s : State} (h : s.stage = .running)
include h

theorem State.tick_call (i : Rec) : s.tick.call i = (s.call i).map Call.ticked := by
  rw [State.tick, State.whenRunning_running h]; exact vget_vmap ..

theorem State.tick_riser (r : Riser) : s.tick.riser r = (s.riser r).ticked := by
  rw [State.tick, State.whenRunning_running h]; exact vget_vmap ..

theorem State.tick_panel (p : Panel) : s.tick.panel p = (s.panel p).ticked := by
  rw [State.tick, State.whenRunning_running h]; exact vget_vmap ..

end

/-- Settles O2: a frame period changes each block by its own tick. -/
theorem timePassesWhenNoCommandWaits : Obligations.TimePassesWhenNoCommandWaits := by
  refine ⟨fun _ => rfl, fun _ => rfl, rfl, fun s hr hp => ⟨s.tick, ?_, ?_, State.tick_call hr, ?_, State.tick_riser hr,
    State.tick_panel hr⟩⟩
  · unfold step; rw [hp]
  · rw [State.tick, State.whenRunning_running hr]
  · rw [State.tick, State.whenRunning_running hr]

/-! ## Power and reset (R200) -/

/-- What POWER_ON, POWER_LOSS and RESET_ASSERT share: every block quiescent, the stored units, the LOCK line and the waiting
commands kept. -/
structure QuietBlocks (s t : State) : Prop where
  calls  : ∀ i, t.call i = none
  risers : ∀ r, t.riser r = .atRest
  panels : ∀ p, t.panel p = .atRest
  clu    : t.clu = .atRest
  rest   : t.serialNext = 0 ∧ t.sequenceNext = 0 ∧ t.waitQueue = [] ∧ t.consoleQueue = [] ∧
      t.console = .idle ∧ t.page = none ∧ t.mixer = .normal ∧ t.notice = none ∧ t.writing = none ∧ t.startup = none
  kept   : t.store = s.store ∧ t.lockLine = s.lockLine ∧ t.pending = s.pending

/-- Changes of the power, the RESET line and the start-up of a quiescent part leave its blocks quiescent. -/
theorem quietBlocks_quiesced (s : State) (power resetLine : Bool) (stage : Stage) (lockHeld powerLost : Bool)
    (torn : List UnitIx) : QuietBlocks s { s.quiesced with
      power := power, resetLine := resetLine, stage := stage, lockHeld := lockHeld, powerLost := powerLost, torn := torn } :=
  ⟨fun _ => vget_replicate .., fun _ => vget_replicate .., fun _ => vget_replicate .., rfl,
    ⟨rfl, rfl, rfl, rfl, rfl, rfl, rfl, rfl, rfl, rfl⟩, ⟨rfl, rfl, rfl⟩⟩

/-- Each of the three commands leaves the quiescent part, with its own power, lines and stage (log entry 17). -/
theorem powerAndReset_quiesce {s : State} {c : Instr} (hc : c ∈ [Instr.powerOn, .powerLoss, .resetAssert])
    (hp : c = .resetAssert → s.power = true) :
    ∃ t, exec c s = .next t ∧ QuietBlocks s t ∧ t.power = (c != .powerLoss) ∧
      t.resetLine = (s.resetLine || c == .resetAssert) ∧
      (if c = .powerOn ∧ s.resetLine = false then t.stage = .loading 0 ∧ t.lockHeld = s.lockLine ∧ t.torn = []
        else t.stage = .held) ∧ t.powerLost = (s.powerLost || c != .resetAssert) := by
  simp only [List.mem_cons, List.not_mem_nil, or_false] at hc
  rcases hc with rfl | rfl | rfl
  · cases hr : s.resetLine
    · exact ⟨_, congrArg Host.Outcome.next (if_neg (by simp [hr])), quietBlocks_quiesced s true s.resetLine (.loading 0) s.lockLine true [],
        rfl, by simp [State.quiesced, hr], by simp [State.quiesced], by simp⟩
    · exact ⟨_, congrArg Host.Outcome.next (if_pos hr), quietBlocks_quiesced s true s.resetLine .held s.lockHeld true [],
        rfl, by simp [State.quiesced, hr], by simp, by simp⟩
  · exact ⟨_, rfl, quietBlocks_quiesced s false s.resetLine .held s.lockHeld true [], rfl, by simp [State.quiesced], by simp,
      by simp⟩
  · exact ⟨_, congrArg Host.Outcome.next (if_pos (hp rfl)),
      quietBlocks_quiesced s s.power true .held s.lockHeld s.powerLost [], by simp [State.quiesced, hp], by simp, by simp,
      by simp [State.quiesced]⟩

/-- Settles O3: the rest values of the blocks, read off the quiescent part. -/
theorem powerAndResetQuiesceThePart : Obligations.PowerAndResetQuiesceThePart := by
  refine ⟨fun s hp => by simp [exec, execResetAssert, hp], fun s c hc hp => ?_⟩
  obtain ⟨t, he, hq, h1, h2, h3, h4⟩ := powerAndReset_quiesce hc hp
  obtain ⟨r1, r2, r3, r4, r5, r6, r7, r8, r9, r10⟩ := hq.rest
  obtain ⟨k1, k2, k3⟩ := hq.kept
  refine ⟨t, he, h1, h2, h3, h4, hq.calls, r1, r2, r3, r4, r5, r6, r7, r8, r9, r10, fun r => ?_, fun p => ?_, ?_, k1, k2, k3⟩
  · rw [hq.risers]
    simp [RiserUnit.atRest, Reversal.none, Presence.absent]
  · rw [hq.panels]
    simp [PanelUnit.atRest, Fifo.primed]
  · rw [hq.clu]
    simp [ConsoleUnit.atRest, Fifo.primed]

/-! ## The laws at reset (R1, R195) -/

/-- The check formed over bytes passes over them (R176, R195). -/
theorem checkPasses_checkOf (bytes : List Byte) : checkPasses bytes (checkOf bytes) = true := by
  have hsum : ∀ w : Word, onesAdd w (~~~ w) = 0xFFFF := fun w => by
    have hn : w.toNat + (~~~ w).toNat = 65535 := by rw [BitVec.toNat_not]; have := w.isLt; omega
    rw [onesAdd, hn]
    rfl
  rw [checkPasses, checkOf, hsum]
  rfl

theorem unitSound_whole {α : Type} (bytes : α → List Byte) (content : α) : UnitSound bytes (.whole bytes content) :=
  .inr (checkPasses_checkOf _)

/-- A part whose blocks are quiescent keeps every law of the calls, the risers and the links. -/
theorem quietBlocks_laws {s t : State} (h : QuietBlocks s t) : CallsConsistent t ∧ QuietTimersCalm t ∧
    ∀ p, (t.panel p).output = none := by
  obtain ⟨-, -, hw, hd, -⟩ := h.rest
  have hstaged : ∀ r k, vget (t.riser r).staged k = .idle := fun r k => by rw [h.risers]; exact vget_replicate ..
  refine ⟨⟨⟨fun i => ?_, fun i => ?_, by simp [hw], by simp [hd]⟩, fun r k i hk => ?_, fun r k i hk => ?_,
    fun r k _ i hk => ?_, fun r k _ _ i hk => ?_⟩, fun r hr => ?_, fun p => by rw [h.panels]; rfl⟩
  · simp [hw, h.calls]
  · simp [hd, h.calls]
  · simp [hstaged] at hk
  · simp [hstaged] at hk
  · simp [hstaged, SlotEntry.names] at hk
  · simp [hstaged] at hk
  · simp [h.risers, RiserUnit.atRest] at hr

/-- Settles O53: the part at reset is quiescent, and its stored units are those of delivery. -/
theorem resetMeetsTheLaws : Obligations.ResetMeetsTheLaws := by
  have hquiet : QuietBlocks State.reset State.reset :=
    ⟨fun _ => vget_replicate .., fun _ => vget_replicate .., fun _ => vget_replicate .., rfl,
      ⟨rfl, rfl, rfl, rfl, rfl, rfl, rfl, rfl, rfl, rfl⟩, ⟨rfl, rfl, rfl⟩⟩
  obtain ⟨hcalls, htimers, houtputs⟩ := quietBlocks_laws hquiet
  have hkept := quiesced_laws hquiet.calls rfl rfl rfl hquiet.risers hquiet.panels rfl
  refine ⟨hkept.1, hcalls, ⟨fun p => ?_, unitSound_whole .., unitSound_whole .., fun w hw => ?_⟩,
    ⟨fun p o ho => ?_, fun o ho => ?_, fun _ => ⟨houtputs, rfl⟩⟩, htimers, hkept.2⟩
  · simpa [State.reset, Store.factory] using unitSound_whole pageBytes DirPage.empty
  · cases hw
  · rw [houtputs] at ho; cases ho
  · cases ho

/-! ## The Call Controller's timers (R23, R24, R46, R123) -/

/-- Settles O14: each expiry is the ending of its call, as an event. -/
theorem timersEndTheirCalls : Obligations.TimersEndTheirCalls := by
  intro s i c n hr hc
  have hlive : ∀ {st : CallState}, st ≠ .clearing → c.state = st → c.state ≠ .clearing := fun h he => he ▸ h
  refine ⟨fun hs ht => ⟨_, ?_, State.endCall_ended hc (hlive (by decide) hs) _⟩,
    fun hs ht => ⟨_, ?_, State.endCall_ended hc (hlive (by decide) hs) _⟩,
    fun hs ht => ⟨_, ?_, State.endCall_ended hc (hlive (by decide) hs) _⟩,
    fun hs ht => ⟨_, ?_, State.endCall_ended hc (hlive (by decide) hs) _⟩⟩
  · simp [exec, execRingTimerExpiry, State.whenRunning_running hr, hc, hs, ht, Timer.isRunning, State.event]
  · simp [exec, execTalkTimerExpiry, State.whenRunning_running hr, hc, hs, ht, Timer.isRunning, State.event]
  · simp [exec, execWaitTimerExpiry, State.whenRunning_running hr, hc, hs, ht, Timer.isRunning, State.event]
  · simp [exec, execQueueTimeoutExpiry, State.whenRunning_running hr, hc, hs, ht, Timer.isRunning, State.event]

/-! ## Strikes, end tones, NOTICEs and windows (R21, R113, R157 to R159, R166) -/

theorem Output.windowEnded_law (clip floor configured : Nat) (o : Output) :
    WindowLaw clip floor configured o (o.windowEnded clip floor configured) := by
  have hclean : Config.cleanWindows = 8 := rfl
  unfold Output.windowEnded
  refine ⟨?_, fun h => ?_, fun h h0 => ?_, fun h h0 hc => ?_, fun h h0 hc => ?_⟩
  · split_ifs <;> simp_all
  · rw [if_pos h]; exact ⟨rfl, rfl⟩
  · rw [if_neg (by omega), if_neg h0]; exact ⟨rfl, rfl⟩
  · rw [if_neg (by omega), if_pos h0, if_pos (by omega)]; exact ⟨rfl, rfl⟩
  · rw [if_neg (by omega), if_pos h0, if_neg (by omega)]; exact ⟨rfl, rfl⟩

theorem Output.endedOnce_law (clip floor configured : Nat) (o : Output) :
    WindowEndLaw clip floor configured o (o.endedOnce clip floor configured) := by
  have hlength : Config.windowLength = 1024 := rfl
  unfold Output.endedOnce
  refine ⟨fun h => by rw [if_pos h], fun h hp => ?_, fun h hp => ?_⟩
  · rw [if_neg (by simp [h]), if_pos (by omega)]
    exact Output.windowEnded_law ..
  · rw [if_neg (by simp [h]), if_neg (by omega)]

theorem State.setPanel_self (s : State) (p : Panel) : s.setPanel p (s.panel p) = s := by
  rw [State.setPanel, State.panel, vset_vget]

/-- Settles O15: an expiry stops its own timer, a window's end is that of its output. -/
theorem strikesTonesNoticesAndWindowsEnd : Obligations.StrikesTonesNoticesAndWindowsEnd := by
  refine ⟨fun s i c n hr hc ht => ?_, fun s p e hr he => ?_, fun s n hr hn => ?_, fun s hr hn => ?_,
    fun s p o hr ho => ⟨_, ?_, Output.endedOnce_law ..⟩, fun s p hr ho => ?_, fun s o hr ho => ⟨_, ?_, Output.endedOnce_law ..⟩,
    fun s hr ho => ?_, fun s r k x hr ho => ⟨_, ?_, Output.endedOnce_law ..⟩, fun s r k hr ho => ?_⟩
  · simp [exec, execStrikeTimerExpiry, State.whenRunning_running hr, hc, ht, Timer.isRunning]
  · simp [exec, execEndToneExpiry, State.whenRunning_running hr, State.modPanel, PanelUnit.endToneStopped, he]
  · simp only [exec, execNoticeEnd, State.whenRunning_running hr, hn]
    rfl
  · simp [exec, execNoticeEnd, State.whenRunning_running hr, hn]
  · simp [exec, execWindowEnd, State.whenRunning_running hr, State.modPanel, ho]
  · simp only [exec, execWindowEnd, State.whenRunning_running hr, State.modPanel, ho, Option.map_none]
    rw [← ho, State.setPanel_self]
  · simp [exec, execWindowEnd, State.whenRunning_running hr, State.modClu, State.setClu, ho]
  · simp only [exec, execWindowEnd, State.whenRunning_running hr, State.modClu, State.setClu, ho, Option.map_none]
    rw [← ho]
  · simp only [exec, execWindowEnd, State.whenRunning_running hr, ho, Option.map_some]
    rfl
  · simp only [exec, execWindowEnd, State.whenRunning_running hr, ho, Option.map_none]
    rw [← ho, vset_vget]

end Sys2Proof.Machine
end

