-- ==== Sys2Proof/Proofs/Operator.lean ====
section
/-! PROOFS. The operator's requests that end a call or monitor one (sections 6.1, 6.3 and 6.4). -/

namespace Sys2Proof.Machine

open Sys2Proof Sys2Proof.Safety

/-! ## A request's message at the receiver (R175) -/

/-- The arrival of a request's message is nothing that an ending looks at. -/
theorem State.messageArrived_alike (s : State) : EndsAlike s s.messageArrived :=
  ⟨rfl, fun _ => ⟨rfl, rfl, rfl, rfl, fun _ => rfl⟩, fun _ => ⟨rfl, rfl⟩⟩

/-- A request whose event ends a call: the reply follows the event and its scan. -/
theorem State.request_ends {s : State} (h : Accepts s) {tag : Byte} {q : Request} {i : Rec} {c : Call} {cause : EndCause}
    {data : List Byte} (hc : s.call i = some c) (hl : c.state ≠ .clearing)
    (hq : q.run s.messageArrived = finished (s.messageArrived.event fun s => s.endCall i cause) data) :
    ∃ u, s.request tag q = (State.settled s u).reply { tag := tag, result := .done, reason := .none, data := data } ∧
      Ended s u i c cause ∧ u.clu.receiver = .waiting ∧ u.clu.buffer = [] ∧ u.clu.replies = s.clu.replies := by
  have hclu := (s.messageArrived.endCall_touch i cause).clu
  refine ⟨s.messageArrived.endCall i cause, ?_, ended_of_alike
    (State.endCall_ended (s := s.messageArrived) hc hl cause) s.messageArrived_alike, ?_⟩
  · rw [State.request_finished h hq, State.event, State.settled_congr (s := s) (s' := s.messageArrived) fun _ => rfl]
  · rw [hclu]; exact ⟨rfl, rfl, rfl⟩

/-! ## HANG-UP and CLEAR-CALL (R127, R128) -/

theorem hangUpCause_eq (c : Call) :
    hangUpCause c = if c.state = .queued ∨ c.state = .ringing then .cancelled else .deskGone := by
  unfold hangUpCause
  cases c.state <;> rfl

/-- Settles O49: both requests are the ending of a call, as an event. -/
theorem theOperatorEndsCalls : Obligations.TheOperatorEndsCalls := by
  refine ⟨fun s tag ha => ⟨fun hn => ?_, fun i c hi hc hl => ?_⟩, fun s tag record serial ha => ⟨fun hr => ?_, fun i hi =>
    ⟨fun c hc hs hl => ?_, fun hs => ?_, fun c hc hs hl => ?_⟩⟩⟩
  · refine congrArg Host.Outcome.next (State.request_refused ha ?_)
    simp only [Request.run, doHangUp]
    split
    next i hi => exact absurd hi (hn i)
    · rfl
  · have hrun : doHangUp s.messageArrived = finished (s.messageArrived.event fun s => s.endCall i (hangUpCause c))
        (namedBytes i c.serial ++ [byteOf (hangUpCause c).code]) := by
      simp only [doHangUp, show s.messageArrived.console = .talk i from hi, show s.messageArrived.call i = some c from hc]
    obtain ⟨u, hu, hrest⟩ := State.request_ends ha (tag := tag) (q := .hangUp) hc hl hrun
    rw [hangUpCause_eq] at hu hrest
    exact ⟨u, _, congrArg Host.Outcome.next hu, rfl, hrest⟩
  · refine congrArg Host.Outcome.next (State.request_refused ha ?_)
    simp only [Request.run, doClearCall, State.naming_range hr]
  · subst hs
    refine (State.request_ends ha (q := .clearCall record c.serial) hc hl ?_).imp fun u h =>
      ⟨congrArg Host.Outcome.next h.1, h.2⟩
    simp only [Request.run, doClearCall, State.naming_ok hi (show s.messageArrived.call i = some c from hc), if_neg hl]
    rfl
  · refine congrArg Host.Outcome.next (State.request_refused ha ?_)
    simp only [Request.run, doClearCall, State.naming_stale (s := s.messageArrived) hi hs]
  · subst hs
    refine congrArg Host.Outcome.next (State.request_refused ha ?_)
    simp only [Request.run, doClearCall, State.naming_ok hi (show s.messageArrived.call i = some c from hc), if_pos hl]

/-! ## LISTEN, BARGE and LEAVE (R129, R130, R132) -/

section
variable {s : State} {record : Byte} {serial : Word}

theorem State.mayMonitor_busy (h : s.console ≠ .idle) : s.mayMonitor record serial = .error .busy := by
  rw [State.mayMonitor, if_pos h]

/-- In IDLE a record not so named is refused as the naming says. -/
theorem State.mayMonitor_unnamed {e : Reason} (h : s.console = .idle) (hn : s.naming record serial = .error e) :
    s.mayMonitor record serial = .error e := by
  rw [State.mayMonitor, if_neg (by simp [h]), hn]

/-- In IDLE a named call may be monitored when it is a CONNECTED ENTRY call whose answered leg allows it. -/
theorem State.mayMonitor_named {i : Rec} {c : Call} (h : s.console = .idle) (hn : s.naming record serial = .ok (i, c)) :
    s.mayMonitor record serial =
      if c.state ≠ .connected ∨ c.kind ≠ .entry then .error .state
      else if (c.answeredLeg.map (·.monitor)) ≠ some true then .error .denied
      else .ok (i, c) := by
  rw [State.mayMonitor, if_neg (by simp [h]), hn]
  by_cases hs : c.state = .connected ∧ c.kind = .entry
  · simp only [if_pos hs]
    rw [if_neg (by tauto)]
    cases c.answeredLeg with
    | none => rfl
    | some l => cases hm : l.monitor <;> simp [hm]
  · simp only [if_neg hs]
    rw [if_pos (by tauto)]

end

/-- LISTEN and BARGE alike: refused by their tests, and carried out when they pass. -/
theorem monitor_runs {tag record : Byte} {serial : Word} {e : Instr} {console : Rec → ConsoleState} {monitor : Monitor}
    (he : (e = Instr.listen tag record serial ∧ console = ConsoleState.listen ∧ monitor = Monitor.listen) ∨
      (e = Instr.barge tag record serial ∧ console = ConsoleState.barge ∧ monitor = Monitor.barge)) :
    ∃ q : Request, (∀ s, exec e s = .next (s.request tag q)) ∧
      (∀ s x, s.mayMonitor record serial = .error x → q.run s = refuse s x) ∧
      ∀ s i c, s.mayMonitor record serial = .ok (i, c) →
        q.run s = finished (s.monitored i c (console i) monitor) (namedBytes i c.serial) := by
  rcases he with ⟨rfl, rfl, rfl⟩ | ⟨rfl, rfl, rfl⟩
  · exact ⟨.listen record serial, fun _ => rfl, fun s x h => by simp only [Request.run, doListen, h],
      fun s i c h => by simp only [Request.run, doListen, h]⟩
  · exact ⟨.barge record serial, fun _ => rfl, fun s x h => by simp only [Request.run, doBarge, h],
      fun s i c h => by simp only [Request.run, doBarge, h]⟩

/-- LEAVE on the record that the console monitors. -/
theorem leaveRecord_eq {s : State} {i : Rec} {c : Call} (h : s.call i = some c) :
    leaveRecord i s = finished { s with console := .idle, calls := vset s.calls i (some { c with monitor := .none }) }
      (namedBytes i c.serial) := by
  unfold leaveRecord
  rw [h]
  simp only [State.unmonitor, State.modCall, h]
  rfl

/-- Settles O50: the tests in their order, then the effects. -/
theorem monitoringStartsAndEnds : Obligations.MonitoringStartsAndEnds := by
  refine ⟨fun s tag record serial ha e console monitor he => ?_, fun s tag ha => ⟨fun i c hi hc => ?_, fun hn => ?_⟩⟩
  · obtain ⟨q, hexec, hrefuse, hdone⟩ := monitor_runs he
    have hrefused : ∀ {x}, s.messageArrived.mayMonitor record serial = .error x → exec e s = .next (refusal s tag x []) :=
      fun h => by rw [hexec, State.request_refused ha (hrefuse _ _ h)]
    refine ⟨fun hn => hrefused (State.mayMonitor_busy hn), fun hi hr => hrefused (State.mayMonitor_unnamed hi
      (State.naming_range hr _)), fun i hi hr => ⟨fun hs => hrefused (State.mayMonitor_unnamed hi
      (State.naming_stale (s := s.messageArrived) hr hs)), fun c hc hs => ?_⟩⟩
    subst hs
    have hmay := State.mayMonitor_named (s := s.messageArrived) hi (State.naming_ok hr hc)
    split_ifs at hmay ⊢ with hstate hdenied
    · exact hrefused hmay
    · exact hrefused hmay
    · rw [hexec, State.request_finished ha (hdone _ _ _ hmay)]
      rfl
  · refine congrArg Host.Outcome.next ((State.request_finished ha (q := .leave) (t := { s.messageArrived with
      console := .idle, calls := vset s.calls i (some { c with monitor := .none }) }) (data := namedBytes i c.serial) ?_).trans rfl)
    rcases hi with hi | hi
    · simp only [Request.run, doLeave, show s.messageArrived.console = .listen i from hi]
      exact leaveRecord_eq (s := s.messageArrived) hc
    · simp only [Request.run, doLeave, show s.messageArrived.console = .barge i from hi]
      exact leaveRecord_eq (s := s.messageArrived) hc
  · refine congrArg Host.Outcome.next (State.request_refused ha ?_)
    simp only [Request.run, doLeave]
    split
    next i hi => exact absurd hi (hn i).1
    next i hi => exact absurd hi (hn i).2
    · rfl

end Sys2Proof.Machine
end

