-- ==== Sys2Proof/Proofs/Sequences.lean ====
section
/-! PROOFS. The connect sequences and their renumbering (R4). -/

namespace Sys2Proof.Machine

open Sys2Proof Sys2Proof.Safety

/-- A test that holds of one more member counts more. -/
theorem countP_lt_of_imp {α : Type} {p q : α → Bool} {l : List α} {x : α} (h : ∀ y, p y = true → q y = true) (hx : x ∈ l)
    (hq : q x = true) (hp : p x = false) : l.countP p < l.countP q := by
  induction l with
  | nil => cases hx
  | cons y l ih =>
    rw [List.countP_cons, List.countP_cons]
    have hle : l.countP p ≤ l.countP q := List.countP_mono_left fun z _ => h z
    rcases List.mem_cons.mp hx with rfl | hx
    · simp [hp, hq]; omega
    · have := ih hx
      have := h y
      split_ifs <;> simp_all

theorem Call.inTalk_iff (c : Call) : c.inTalk = true ↔ c.state = .connected ∨ c.state = .held := by simp [Call.inTalk]

/-- The calls that hold a place in the order of connection. -/
theorem State.renumbered_next (s : State) : s.renumbered.sequenceNext = allRecs.countP fun i => (s.call i).any Call.inTalk :=
  List.countP_congr fun i _ => by cases h : s.call i <;> simp

/-- The calls that stand before a connect sequence. -/
theorem State.rank_eq (s : State) (q : Nat) :
    s.rank q = allRecs.countP fun i => (s.call i).any fun c => c.inTalk && c.sequence.any (· < q) :=
  List.countP_congr fun i _ => by
    cases h : s.call i with
    | none => simp
    | some c => cases hc : c.sequence <;> simp [hc]

section
variable {s : State} {i : Rec} {c : Call} {n : Nat} (h : s.call i = some c) (ht : c.inTalk = true) (hn : c.sequence = some n)
include h ht hn

/-- A call's own number is less than the count of the calls in the order: it does not stand before itself. -/
theorem State.rank_lt : s.rank n < s.renumbered.sequenceNext := by
  rw [State.rank_eq, State.renumbered_next]
  refine countP_lt_of_imp (x := i) (fun j hj => ?_) (List.mem_finRange i) (by simp [h, ht]) (by simp [h, hn])
  cases hd : s.call j <;> simp_all

/-- The renumbering keeps the order: a call stands before any later sequence than its own. -/
theorem State.rank_lt_rank {m : Nat} (hm : n < m) : s.rank n < s.rank m := by
  rw [State.rank_eq, State.rank_eq]
  refine countP_lt_of_imp (x := i) (fun j hj => ?_) (List.mem_finRange i) (by simp [h, ht, hn, hm]) (by simp [h, hn])
  cases hd : s.call j with
  | none => simp [hd] at hj
  | some d =>
    simp only [hd, Option.any_some, Bool.and_eq_true, Option.any_eq_true, decide_eq_true_eq] at hj ⊢
    obtain ⟨hd, k, hk, hlt⟩ := hj
    exact ⟨hd, k, hk, hlt.trans hm⟩

end

theorem State.takeSequence_below {s : State} (h : s.sequenceNext < 65535) :
    s.takeSequence = (s.sequenceNext, { s with sequenceNext := s.sequenceNext + 1 }) := by
  rw [State.takeSequence, if_neg (by omega)]

theorem State.takeSequence_full {s : State} (h : 65535 ≤ s.sequenceNext) : s.takeSequence =
    (s.renumbered.sequenceNext, { s.renumbered with sequenceNext := s.renumbered.sequenceNext + 1 }) := by
  rw [State.takeSequence, if_pos h]

/-- A call that holds a place receives its rank, whose number every other call keeps. -/
theorem State.renumbered_inTalk {s : State} {i : Rec} {c : Call} {n : Nat} (h : s.call i = some c) (ht : c.inTalk = true)
    (hn : c.sequence = some n) : s.renumbered.call i = some { c with sequence := some (s.rank n) } := by
  rw [State.renumbered_call, h, Option.map_some, if_pos ht, hn, Option.map_some]

/-- Settles O21: the numbers given out are the ranks of the sequences. -/
theorem connectSequencesAreRenumberedInOrder : Obligations.ConnectSequencesAreRenumberedInOrder := by
  refine fun s => ⟨State.takeSequence_below, fun hs => ?_⟩
  have hcall : ∀ i, s.takeSequence.2.call i = s.renumbered.call i := fun i => by rw [State.takeSequence_full hs]; rfl
  have hfirst : s.takeSequence.1 = s.renumbered.sequenceNext := by rw [State.takeSequence_full hs]
  refine ⟨hfirst.trans s.renumbered_next, by rw [State.takeSequence_full hs]; rfl, fun i hi => ?_, fun i c hi h1 h2 => ?_,
    fun i c n hi ht hn => ⟨s.rank n, ?_, ?_⟩, fun i j c d c' d' n m n' m' hi hj hc hd hn hm hc' hd' hn' hm' hlt => ?_⟩
  · rw [hcall, State.renumbered_call, hi]; rfl
  · rw [hcall, State.renumbered_call, hi, Option.map_some, if_neg]
    rw [Call.inTalk_iff]; tauto
  · rw [hcall, State.renumbered_inTalk hi (c.inTalk_iff.mpr ht) hn]
  · rw [hfirst]; exact State.rank_lt hi (c.inTalk_iff.mpr ht) hn
  · have hc := c.inTalk_iff.mpr hc
    rw [hcall, State.renumbered_inTalk hi hc hn] at hc'
    rw [hcall, State.renumbered_inTalk hj (d.inTalk_iff.mpr hd) hm] at hd'
    cases hc'; cases hd'; cases hn'; cases hm'
    exact State.rank_lt_rank hi hc hn hlt

/-! ## What a number given out leaves alone -/

theorem State.takeSequence_state (s : State) : s.takeSequence.2 =
    { s with calls := s.takeSequence.2.calls, sequenceNext := s.takeSequence.2.sequenceNext } := by
  unfold State.takeSequence
  dsimp only
  split <;> rfl

/-- The numbers look at the call table and the counter alone. -/
theorem State.takeSequence_congr {s t : State} (hc : t.calls = s.calls) (hn : t.sequenceNext = s.sequenceNext) :
    t.takeSequence.1 = s.takeSequence.1 ∧ t.takeSequence.2.calls = s.takeSequence.2.calls ∧
      t.takeSequence.2.sequenceNext = s.takeSequence.2.sequenceNext := by
  have hrank : t.rank = s.rank := funext fun q => by simp only [State.rank, State.call, hc]
  have hrenumbered : t.renumbered.calls = s.renumbered.calls ∧ t.renumbered.sequenceNext = s.renumbered.sequenceNext := by
    simp only [State.renumbered, State.call, hc, hrank, and_self]
  unfold State.takeSequence
  rw [hn]
  dsimp only
  split
  · exact ⟨hrenumbered.2, hrenumbered.1, congrArg (· + 1) hrenumbered.2⟩
  · exact ⟨hn, hc, congrArg (· + 1) hn⟩

end Sys2Proof.Machine
end

