-- ==== Sys2Proof/Proofs/Handsets.lean ====
section
/-! PROOFS. The events of handsets beside the answer: hooks, keys and losses (sections 1.2 to 1.4, 4.3, 6.2 and 6.5), and a
panel's CANCEL. -/

namespace Sys2Proof.Machine

open Sys2Proof Sys2Proof.Safety

/-! ## Events that raise no free count -/

/-- A change of one riser, its quiet timer read off the state after it. -/
theorem State.modRiser_eq (s : State) (r : Riser) (f : RiserUnit → RiserUnit) : s.modRiser r f =
    s.setRiser r { f (s.riser r) with quietTimer := ((s.modRiser r f).riser r).quietTimer } := by
  rw [State.riser_modRiser, if_pos rfl, ← RiserUnit.retimed_eq]; rfl

/-- The riser changed, but for its quiet timer. -/
theorem State.modRiser_self (s : State) (r : Riser) (f : RiserUnit → RiserUnit) : (s.modRiser r f).riser r =
    { f (s.riser r) with quietTimer := ((s.modRiser r f).riser r).quietTimer } := by
  rw [State.riser_modRiser, if_pos rfl, ← RiserUnit.retimed_eq]

/-- An event that leaves the risers is followed by no scan. -/
theorem State.event_risers {s t : State} {f : State → State} (hf : f s = t) (ht : t.risers = s.risers) : s.event f = t := by
  rw [State.event, hf]
  exact State.settled_unraised fun r => by simp only [State.riser, ht, Nat.le_refl]

/-- Orders raise no free count. -/
theorem OrdersTo.settled {hs : Handset → Prop} {s t : State} (h : OrdersTo hs s t) : State.settled s t = t :=
  State.settled_unraised fun r => Nat.le_of_eq (h.freeCount r)

/-! ## A panel's CANCEL (R26) -/

/-- A good frame on an UP link, before its message is taken. -/
def PanelUnit.framed (f : PanelFrame) (u : PanelUnit) : PanelUnit :=
  { u with link := { u.link with bad := 0 }, fifo := u.fifo.arrived (sampleFrom f.sample) }

theorem exec_panelFrame_up {s : State} {p : Panel} {f : PanelFrame} (hr : Running s) (hu : (s.panel p).link.state = .up)
    (hf : panelFrameGood f = true) :
    exec (.panelFrameArrival p f) s = .next ((s.modPanel p (·.framed f)).panelControl p f.code f.param) := by
  simp only [exec, execPanelFrameArrival, State.whenRunning_running hr, if_pos hf, State.panelGood, hu]
  rfl

/-- A good frame is nothing that an ending looks at. -/
theorem State.framed_alike (s : State) (p : Panel) (f : PanelFrame) : EndsAlike s (s.modPanel p (·.framed f)) := by
  refine ⟨rfl, fun _ => ⟨rfl, rfl, rfl, rfl, fun _ => rfl⟩, fun q => ?_⟩
  rw [State.panel_modPanel]
  split
  · next hq => subst hq; exact ⟨rfl, rfl⟩
  · exact ⟨rfl, rfl⟩

theorem State.panelCancel_call {s : State} {p : Panel} {i : Rec} (h : (s.panel p).current = some i) :
    s.panelCancel p = s.endCall i .cancelled := by
  unfold State.panelCancel; rw [h]

theorem State.panelCancel_none {s : State} {p : Panel} (h : (s.panel p).current = none) : s.panelCancel p = s := by
  unfold State.panelCancel; rw [h]

/-! ## Hook states (R87) -/

/-- A hook state is nothing that an ending looks at. -/
theorem State.hooked_alike (s : State) (h : Handset) (off : Bool) : EndsAlike s (s.hooked h off) := by
  refine ⟨rfl, fun r => ?_, fun _ => ⟨rfl, rfl⟩⟩
  rw [State.hooked_riser]
  split
  · next hr =>
    subst hr
    refine ⟨rfl, rfl, rfl, rfl, fun a => ?_⟩
    simp only [vget_vset]
    split
    · next ha => subst ha; rfl
    · rfl
  · exact ⟨rfl, rfl, rfl, rfl, fun _ => rfl⟩

theorem State.hooked_freeCount (s : State) (h : Handset) (off : Bool) (r : Riser) :
    ((s.hooked h off).riser r).freeCount = (s.riser r).freeCount := by
  obtain ⟨hl, hg, -, hs, -⟩ := (s.hooked_alike h off).riser r
  exact RiserUnit.freeCount_congr hs hl hg

theorem State.hooked_eq (s : State) (h : Handset) (off : Bool) : s.hooked h off = s.setRiser h.riser { s.riser h.riser with
    presence := vset (s.riser h.riser).presence h.addr { s.presence h with offHook := off }
    quietTimer := ((s.hooked h off).riser h.riser).quietTimer } := State.modRiser_eq ..

/-- A hit that changes the hook is the Call Controller's event, whose scan is judged by the part before the hit. -/
theorem State.hookEvent_changed {s : State} {h : Handset} {off : Bool} (hp : (s.presence h).offHook ≠ off) :
    s.hookEvent h off =
      State.settled s (if off then (s.hooked h off).offHook h else (s.hooked h off).onHook h) := by
  rw [State.hookEvent_eq, if_neg hp, State.event, State.settled_congr (s.hooked_freeCount h off)]

/-- An on-hook of a live leg ends its call, or does nothing. -/
theorem State.onHook_live {s : State} {h : Handset} {i : Rec} {c : Call} (hl : s.liveRecord h = some i) (hc : s.call i = some c) :
    s.onHook h = if c.state = .connected ∨ c.state = .held then s.endCall i .hungUp
      else if c.state = .waitingDesk then s.endCall i .deskGone else s := by
  unfold State.onHook
  simp only [hl, hc]
  cases hs : c.state <;> simp

/-- Settles O23: CANCEL and the on-hook are endings, as events. -/
theorem cancelAndOnHookEndCalls : Obligations.CancelAndOnHookEndCalls := by
  refine ⟨fun s p f hr hu hf hcode => ?_, fun s h i c hl hc hp => ?_⟩
  · have hexec := exec_panelFrame_up hr hu hf
    have hcurrent : ((s.modPanel p (·.framed f)).panel p).current = (s.panel p).current := by
      rw [State.panel_modPanel, if_pos rfl]; rfl
    have hcontrol : (s.modPanel p (·.framed f)).panelControl p f.code f.param =
        State.settled s ((s.modPanel p (·.framed f)).panelCancel p) := by
      rw [State.panelControl, hcode, if_neg (by decide), if_pos rfl]
      exact State.settled_congr (s := s) (fun _ => rfl) _
    refine ⟨fun i c hi hc hs => ⟨(s.modPanel p (·.framed f)).endCall i .cancelled, ?_, ?_⟩, fun hn => ?_⟩
    · rw [hexec, hcontrol, State.panelCancel_call (hcurrent.trans hi)]
    · exact ended_of_alike (State.endCall_ended (s := s.modPanel p (·.framed f)) hc hs _) (s.framed_alike p f)
    · rw [hexec, hcontrol, State.panelCancel_none (hcurrent.trans hn)]
      exact congrArg Host.Outcome.next (State.settled_unraised fun _ => Nat.le_refl _)
  · have hevent : s.hookEvent h false = State.settled s ((s.hooked h false).onHook h) :=
      State.hookEvent_changed (by rw [hp]; decide)
    have honHook := State.onHook_live (s := s.hooked h false) (h := h) hl hc
    refine ⟨(s.hooked h false).onHook h, hevent, ?_, ?_⟩
    · rw [(State.onHook_touch _ h).presence, State.hooked_presence, if_pos rfl]
    · have hended : ∀ cause, c.state ≠ .clearing → Ended s ((s.hooked h false).endCall i cause) i c cause := fun cause hs =>
        ended_of_alike (State.endCall_ended (s := s.hooked h false) hc hs cause) (s.hooked_alike h false)
      have hrest : (s.hooked h false).onHook h = s.hooked h false →
          s.hookEvent h false = (s.hooked h false).onHook h ∧ QuietTimerFollows s ((s.hooked h false).onHook h) h.riser ∧
          (s.hooked h false).onHook h = s.setRiser h.riser { s.riser h.riser with
            presence := vset (s.riser h.riser).presence h.addr { s.presence h with offHook := false }
            quietTimer := (((s.hooked h false).onHook h).riser h.riser).quietTimer } := fun he => by
        rw [hevent, he]
        exact ⟨State.settled_unraised fun r => Nat.le_of_eq (s.hooked_freeCount h false r),
          quietTimerFollows_modRiser s h.riser rfl, s.hooked_eq h false⟩
      cases hs : c.state <;> rw [hs] at honHook hended
      case connected => rw [honHook, if_pos (by decide)]; exact hended _ (by decide)
      case held => rw [honHook, if_pos (by decide)]; exact hended _ (by decide)
      case waitingDesk => rw [honHook, if_neg (by decide), if_pos rfl]; exact hended _ (by decide)
      all_goals exact hrest honHook

/-! ## Keys (R19, R20, R120, R121) -/

/-- A CALL report about a record that was just written. -/
theorem State.postCall_setCall (s : State) (i : Rec) (c : Call) (e : CallEvent) : (s.setCall i (some c)).postCall i e =
    (s.setCall i (some c)).post (.call e (some (i, c.serial)) c.kind c.origin (some c.state)) :=
  State.postCall_eq (by rw [State.call_setCall, if_pos rfl]) e

theorem Call.mayStrike_iff (c : Call) (l : Leg) : c.mayStrike l = true ↔
    c.state = .connected ∧ c.kind = .entry ∧ l.state = .answered ∧ l.release = true ∧ c.strikes < 3 := by
  simp only [Call.mayStrike, Bool.and_eq_true, beq_iff_eq, decide_eq_true_eq, and_assoc]
  rfl

theorem State.event_reject {s : State} {h : Handset} {f : State → State} (hf : f s = s.reject h) : s.event f = s.reject h := by
  rw [State.event, hf, (s.reject_orders h).settled]

/-- Settles O24: a strike and a refusal raise no free count, so the key's event is what the key does. -/
theorem aReleaseKeyStrikesTheDoor : Obligations.AReleaseKeyStrikesTheDoor := by
  intro s h i c l n p hl hc hf ho
  have hkey : s.releaseKey h = if c.mayStrike l then if c.strikeTimer.isRunning then s else s.strike i c p else s.reject h := by
    unfold State.releaseKey
    simp only [hl, hc, hf, ho]
  split_ifs with hm hrun
  · rw [if_pos ((c.mayStrike_iff l).mpr hm), if_pos hrun] at hkey
    exact State.event_risers (f := fun s => s.releaseKey h) hkey rfl
  · rw [if_pos ((c.mayStrike_iff l).mpr hm), if_neg hrun] at hkey
    have hstrike : s.strike i c p = { s with
        panels := vset s.panels p ((s.panel p).handed (.strike (s.panelProfile p).strike))
        calls := vset s.calls i (some { c with strikes := c.strikes + 1, strikeTimer := .start (s.panelProfile p).strike })
        clu := s.clu.posted (.call (.strike (c.strikes + 1) (s.panelProfile p).strike) (some (i, c.serial)) c.kind
          (.panel p) (some .connected)) } := by
      rw [← ho, ← hm.1]
      exact State.postCall_setCall ..
    exact State.event_risers (f := fun s => s.releaseKey h) (hkey.trans hstrike) rfl
  · rw [if_neg (fun h => hm ((c.mayStrike_iff l).mp h))] at hkey
    exact State.event_reject (f := fun s => s.releaseKey h) hkey

theorem State.queueConcierge_eq (s : State) (i : Rec) (h : Handset) : s.queueConcierge i h = { s with
    calls := vset s.calls i (some { Call.fresh s.serialNext .concierge (.handset h) none .waitingDesk with
      legs := [{ entry := none, handset := h, release := false, monitor := false, state := .answered }]
      answered := some 0, waitTimer := .start s.settings.console.queue })
    serialNext := s.serialNext + 1, consoleQueue := s.consoleQueue ++ [i]
    clu := s.clu.posted (.call (.waiting h) (some (i, s.serialNext)) .concierge (.handset h) (some .waitingDesk)) } := by
  have htaken : (s.takeRecord i .concierge (.handset h) none .waitingDesk).call i =
      some (.fresh s.serialNext .concierge (.handset h) none .waitingDesk) := vget_vset_self ..
  unfold State.queueConcierge
  simp only [State.modCall, htaken, Option.map_some]
  rw [State.postCall_eq (c := { Call.fresh s.serialNext .concierge (.handset h) none .waitingDesk with
    legs := [{ entry := none, handset := h, release := false, monitor := false, state := .answered }]
    answered := some 0, waitTimer := .start s.settings.console.queue }) (by exact vget_vset_self ..)]
  simp only [State.takeRecord, State.setCall, vset_vset]
  rfl

/-- Settles O25: each branch of the key, none of which raises a free count. -/
theorem aConciergeKeyJoinsTheConsoleQueue : Obligations.AConciergeKeyJoinsTheConsoleQueue := by
  have hplaces : Config.queuePlaces = 8 := rfl
  refine ⟨fun s h i hl hp hf hq => ?_, fun s h hl hrefused => ?_, fun s h i c hl hc => ?_⟩
  · have hkey : s.conciergeKey h = s.queueConcierge i h := by
      unfold State.conciergeKey
      simp only [hl, if_pos hp, hf]
      rw [if_pos (by omega)]
    exact State.event_risers (f := fun s => s.conciergeKey h) (hkey.trans (s.queueConcierge_eq i h)) rfl
  · refine State.event_reject (f := fun s => s.conciergeKey h) ?_
    unfold State.conciergeKey
    simp only [hl]
    rcases hrefused with hp | hf | hq
    · rw [if_neg (by simp [hp])]
    · simp only [hf, ite_self]
    · have hfull : ¬ s.consoleQueue.length < Config.queuePlaces := by omega
      cases s.freeRecord <;> simp [hfull]
  · have hkey : s.conciergeKey h = if c.state = .waitingDesk then s else s.reject h := by
      unfold State.conciergeKey
      simp only [hl, hc]
    split_ifs with hs
    · rw [if_pos hs] at hkey
      exact State.event_risers (f := fun s => s.conciergeKey h) hkey rfl
    · rw [if_neg hs] at hkey
      exact State.event_reject (f := fun s => s.conciergeKey h) hkey

/-! ## Misses (R83, R85) -/

/-- An answer that does not arrive, or does not match its order, is a miss. -/
theorem exec_answerArrival_miss {s : State} {r : Riser} {x : Sent} {w : Option (BitVec 12)} (hr : Running s)
    (hx : (s.riser r).sent = some x) (hw : w.bind (readAnswer x.addr) = none) :
    exec (.answerArrival r w) s = .next (s.miss r x) := by
  simp only [exec, execAnswerArrival, State.whenRunning_running hr, hx, hw]

/-- The riser after a miss that does not end its handset's presence. -/
def RiserUnit.missed (x : Sent) (u : RiserUnit) : RiserUnit :=
  { u with
    sent := none, queue := settledByMiss x.addr u.queue
    presence := if (vget u.presence x.addr).present then
        vset u.presence x.addr { vget u.presence x.addr with misses := (vget u.presence x.addr).misses + 1 }
      else u.presence }

/-- The riser after the miss that makes its handset ABSENT. -/
def RiserUnit.missedLast (x : Sent) (u : RiserUnit) : RiserUnit :=
  ({ u with sent := none, queue := u.queue.filter fun e => e.addr ≠ x.addr }).withPresence x.addr .absent

theorem State.miss_counted {s : State} {r : Riser} {x : Sent}
    (h : (vget (s.riser r).presence x.addr).present = true → (vget (s.riser r).presence x.addr).misses < 2) :
    s.miss r x = s.modRiser r (·.missed x) := by
  have hmisses : Config.missesToAbsent = 3 := rfl
  unfold State.miss State.modRiser RiserUnit.missed
  by_cases hp : (vget (s.riser r).presence x.addr).present = true
  · have := h hp
    simp only [if_pos hp]
    rw [if_pos (by omega)]
    rfl
  · simp only [if_neg hp]

theorem State.miss_last {s : State} {r : Riser} {x : Sent} (hp : (vget (s.riser r).presence x.addr).present = true)
    (hm : 2 ≤ (vget (s.riser r).presence x.addr).misses) :
    s.miss r x = ((s.modRiser r (·.missedLast x)).post (.handset false { riser := r, addr := x.addr })).event
      fun s => s.handsetLost { riser := r, addr := x.addr } := by
  have hmisses : Config.missesToAbsent = 3 := rfl
  unfold State.miss
  simp only [if_pos hp]
  rw [if_neg (by omega)]
  rfl

theorem State.leavePage_none {s : State} (h : s.page = none) (x : Handset) : s.leavePage x = s := by
  unfold State.leavePage; rw [h]

/-- Settles O7: a miss settles the order in flight, and the third hands the loss to the Call Controller. -/
theorem missesSendTheOrderRoundAndEndPresence : Obligations.MissesSendTheOrderRoundAndEndPresence := by
  refine ⟨fun s r x w hr hx hw hm => ⟨s.modRiser r (·.missed x), ?_, ?_, quietTimerFollows_modRiser s r rfl,
    ?_, fun a => ?_⟩, fun s r x w hr hx hw hp hm => ?_⟩
  · rw [exec_answerArrival_miss hr hx hw, State.miss_counted hm]
  · have hunit := State.modRiser_self s r (·.missed x)
    rw [hunit]
    exact State.modRiser_eq ..
  · rw [State.modRiser_self]
    rfl
  · rw [State.modRiser_self]
    simp only [RiserUnit.missed]
    by_cases ha : a = x.addr
    · subst ha
      split <;> simp_all
    · split <;> simp [ha, vget_vset_ne _ (Ne.symm ha)]
  · have hexec := (exec_answerArrival_miss hr hx hw).trans (congrArg _ (State.miss_last hp hm))
    refine ⟨_, ?_, ?_, hexec, fun hl hpage => ?_⟩
    · exact congrArg (fun v : State => { v with clu := s.clu.posted (.handset false ⟨r, x.addr⟩) })
        (State.modRiser_eq s r (·.missedLast x))
    · exact quietTimerFollows_congr (quietTimerFollows_modRiser s r rfl) rfl rfl
    · rw [hexec, State.event_risers (t := (s.modRiser r (·.missedLast x)).post (.handset false ⟨r, x.addr⟩)) ?_ rfl]
      unfold State.handsetLost
      rw [State.leavePage_none (by exact hpage)]
      simp only [show (((s.modRiser r (·.missedLast x)).post (.handset false ⟨r, x.addr⟩)).liveRecord ⟨r, x.addr⟩) = none
        from hl]

end Sys2Proof.Machine
end

