-- ==== Sys2Proof/Proofs/Losses.lean ====
section
/-! PROOFS. Off-hooks that answer no call, and the losses of handsets (R15, R17, R122, R137). -/

namespace Sys2Proof.Machine

open Sys2Proof Sys2Proof.Safety

/-! ## The page's members -/

theorem State.leavePage_eq (s : State) (h : Handset) : s.leavePage h =
    { s with page := s.page.map fun p => { p with members := p.members.filter (· ≠ h) } } := by
  unfold State.leavePage
  cases hp : s.page with
  | none => simp only [Option.map_none]; rw [← hp]
  | some p => rfl

/-- A handset that is no member does not leave the page. -/
theorem State.leavePage_notMember {s : State} {h : Handset} (hm : s.isMember h = false) : s.leavePage h = s := by
  unfold State.leavePage
  split
  · next p hp =>
    have hn : h ∉ p.members := by simpa [State.isMember, hp] using hm
    have hf : p.members.filter (fun x => decide (x ≠ h)) = p.members :=
      List.filter_eq_self.mpr fun x hx => by simpa using fun he : x = h => hn (he ▸ hx)
    rw [hf]
    show { s with page := some p } = s
    rw [← hp]
  · rfl

theorem State.droppedSomewhere_iff {s : State} {h : Handset} : s.droppedSomewhere h = true ↔
    ∃ i c l, s.call i = some c ∧ l ∈ c.legs ∧ l.handset = h ∧ l.state = .dropped := by
  simp only [State.droppedSomewhere, List.any_eq_true, allRecs, List.mem_finRange, true_and]
  refine exists_congr fun i => ?_
  cases hc : s.call i with
  | none => simp
  | some c => simp [Call.hasDropped, List.any_eq_true]

/-! ## A handset off-hook -/

/-- An off-hook stops the quiet timer, since it fails one of its conditions. -/
theorem State.hooked_off (s : State) (h : Handset) : s.hooked h true = s.setRiser h.riser { s.riser h.riser with
    presence := vset (s.riser h.riser).presence h.addr { s.presence h with offHook := true }, quietTimer := .stopped } := by
  unfold State.hooked State.modRiser
  rw [RiserUnit.retimed_stopped (RiserUnit.calm_offHook (a := h.addr) (by simp [RiserUnit.withPresence]))]
  rfl

theorem State.setRiser_self (s : State) (r : Riser) : s.setRiser r (s.riser r) = s := by
  rw [State.setRiser, State.riser, vset_vget]

/-- An order on a riser that is not calm changes the queue alone. -/
theorem State.order_uncalm {s : State} {h : Handset} {a : Addr} (ha : (vget (s.riser h.riser).presence a).offHook = true)
    (hq : (s.riser h.riser).quietTimer = .stopped) (o : Order) :
    ∃ q, s.order h o = s.setRiser h.riser { s.riser h.riser with queue := q } := by
  unfold State.order State.enqueue
  split
  · refine ⟨enqueued h.addr (some o) (s.riser h.riser).queue, ?_⟩
    rw [State.modRiser, RiserUnit.retimed_stopped (RiserUnit.calm_offHook (a := a) (by exact ha)), ← hq]
  · exact ⟨(s.riser h.riser).queue, (s.setRiser_self h.riser).symm⟩

/-- What an off-hook of a handset in no call has it sent (R15, R137). -/
def State.offHookOrder (s : State) (h : Handset) : State :=
  if s.isMember h then s.order h .pageOff else if s.droppedSomewhere h then s.order h .drop else s

theorem State.offHookOrder_orders (s : State) (h : Handset) : OrdersTo (· = h) s (s.offHookOrder h) := by
  unfold State.offHookOrder
  split_ifs
  · exact State.order_orders ..
  · exact State.order_orders ..
  · exact .refl _ s

/-- An off-hook of a handset in no call: an order to it, or none, and its leaving the page. -/
theorem State.offHook_free {s : State} {h : Handset} (hl : s.liveRecord h = none) : s.offHook h =
    (s.offHookOrder h).leavePage h := by
  unfold State.offHook State.offHookOrder
  rw [hl]
  dsimp only
  cases hm : s.isMember h with
  | true => rfl
  | false =>
    simp only [Bool.false_eq_true, if_false]
    split
    · have hm' : (s.order h .drop).isMember h = false := by rw [(s.order_orders h .drop).state]; exact hm
      rw [State.leavePage_notMember hm']
    · rw [State.leavePage_notMember hm]

/-- An off-hook and its order change the riser's presence and queue, and stop its quiet timer. -/
theorem State.offHookOrder_state (s : State) (h : Handset) : ∃ q, (s.hooked h true).offHookOrder h =
    s.setRiser h.riser { s.riser h.riser with
      presence := vset (s.riser h.riser).presence h.addr { s.presence h with offHook := true }
      queue := q, quietTimer := .stopped } := by
  have horder : ∀ o, ∃ q, (s.hooked h true).order h o = s.setRiser h.riser { s.riser h.riser with
      presence := vset (s.riser h.riser).presence h.addr { s.presence h with offHook := true }
      queue := q, quietTimer := .stopped } := fun o => by
    rw [State.hooked_off]
    obtain ⟨q, hq⟩ := State.order_uncalm (s := s.setRiser h.riser { s.riser h.riser with
      presence := vset (s.riser h.riser).presence h.addr { s.presence h with offHook := true }, quietTimer := .stopped })
      (h := h) (a := h.addr) (by simp) (by simp) o
    refine ⟨q, ?_⟩
    rw [hq, State.riser_setRiser, if_pos rfl, State.setRiser, State.setRiser_risers, vset_vset]
    rfl
  unfold State.offHookOrder
  split_ifs
  · exact horder _
  · exact horder _
  · exact ⟨_, s.hooked_off h⟩

/-! ## A leg that answers nothing, and a leg that is lost -/

/-- A live leg found in a call whose legs name distinct handsets is the one of that handset. -/
theorem Call.findLeg_live {c : Call} {h : Handset} {l : Leg} (hn : (c.legs.map (·.handset)).Nodup) (hl : l ∈ c.legs)
    (hh : l.handset = h) (hd : l.state ≠ .dropped) : ∃ n, c.findLeg h = some (l, n) := by
  have hsome : (c.findLeg h).isSome = true := by
    obtain ⟨n, hm⟩ := List.getElem?_of_mem hl
    rw [Call.findLeg, List.find?_isSome]
    exact ⟨(l, n), List.mem_zipIdx_iff_getElem?.mpr hm, by simp [hh, hd]⟩
  obtain ⟨⟨m, n⟩, hf⟩ := Option.isSome_iff_exists.mp hsome
  obtain ⟨hm, hmh, -⟩ := Call.findLeg_some hf
  obtain rfl : m = l := List.inj_on_of_nodup_map hn (List.mem_of_getElem? hm) hl (hmh.trans hh.symm)
  exact ⟨n, hf⟩

/-- An off-hook of a live leg that does not ring in a RINGING call changes nothing. -/
theorem State.offHook_unringing {s : State} {h : Handset} {i : Rec} {c : Call} (hl : s.liveRecord h = some i)
    (hc : s.call i = some c) (hr : c.state ≠ .ringing ∨ ∀ l ∈ c.legs, l.handset = h → l.state ≠ .ringing) :
    s.offHook h = s := by
  unfold State.offHook
  simp only [hl, hc]
  split
  · next l n hf =>
    obtain ⟨hm, hh, -⟩ := Call.findLeg_some hf
    refine if_neg fun ⟨h1, h2⟩ => ?_
    rcases hr with hr | hr
    · exact hr h1
    · exact hr l (List.mem_of_getElem? hm) hh h2
  · rfl

/-- The loss of a handset with a live leg, by the state of the leg. -/
theorem State.handsetLost_live {s : State} {h : Handset} {i : Rec} {c : Call} {l : Leg} (hr : s.liveRecord h = some i)
    (hc : s.call i = some c) (hn : (c.legs.map (·.handset)).Nodup) (hl : l ∈ c.legs) (hh : l.handset = h)
    (hd : l.state ≠ .dropped) : s.handsetLost h =
      if l.state = .ringing then (s.leavePage h).dropLeg i c h else (s.leavePage h).endCall i .handsetLost := by
  obtain ⟨n, hf⟩ := Call.findLeg_live hn hl hh hd
  have hr' : (s.leavePage h).liveRecord h = some i := by rw [State.leavePage_eq]; exact hr
  have hc' : (s.leavePage h).call i = some c := by rw [State.leavePage_eq]; exact hc
  unfold State.handsetLost
  simp only [hr', hc', hf]

theorem State.handsetLost_free {s : State} {h : Handset} (hr : s.liveRecord h = none) : s.handsetLost h = s.leavePage h := by
  have hr' : (s.leavePage h).liveRecord h = none := by rw [State.leavePage_eq]; exact hr
  unfold State.handsetLost
  simp only [hr']

/-- The lost leg is the only one of its handset, so all legs of the handset are DROPPED. -/
theorem Call.legLost_eq {c : Call} {h : Handset} {l : Leg} (hn : (c.legs.map (·.handset)).Nodup) (hl : l ∈ c.legs)
    (hh : l.handset = h) (hs : l.state = .ringing) : c.legLost h =
      { c with legs := c.legs.map fun m => if m.handset = h then { m with state := .dropped } else m } := by
  unfold Call.legLost
  congr 1
  refine List.map_congr_left fun m hm => ?_
  by_cases hmh : m.handset = h
  · obtain rfl : m = l := List.inj_on_of_nodup_map hn hm hl (hmh.trans hh.symm)
    rw [if_pos ⟨hmh, hs⟩, if_pos hmh]
  · rw [if_neg (fun h => hmh h.1), if_neg hmh]

/-- A call that goes on gives up the slot that no leg needs, if it is RINGING (R17). -/
theorem State.legDropped_slots (s : State) (i : Rec) (c : Call) (h : Handset) :
    s.legDropped i c h = { s with
      calls := vset s.calls i (some (c.legLost h)), risers := (s.legDropped i c h).risers } ∧
    ∀ r, (s.legDropped i c h).riser r = { s.riser r with
      staged := ((s.legDropped i c h).riser r).staged, quietTimer := ((s.legDropped i c h).riser r).quietTimer } := by
  unfold State.legDropped
  split
  · exact ⟨(State.releaseOn_slots ..).state, fun r => (State.releaseOn_riser ..)⟩
  · exact ⟨rfl, fun _ => rfl⟩

theorem State.legDropped_staged (s : State) (i : Rec) (c : Call) (h : Handset) (r : Riser) (k : Slot) :
    vget ((s.legDropped i c h).riser r).staged k =
      if c.state = .ringing ∧ r = h.riser ∧ (∀ m ∈ (c.legLost h).legs, m.handset.riser = r → m.state = .dropped) ∧
          (vget (s.riser r).staged k).names i then .idle
      else vget (s.riser r).staged k := by
  have hset : ∀ r', (∀ m ∈ (c.legLost h).legs, m.handset.riser = r' → m.state = .dropped) ↔ r' ∉ (c.legLost h).riserSet :=
    fun r' => by
      rw [Call.mem_riserSet]
      push Not
      exact ⟨fun h l hl hd hr => hd (h l hl hr), fun h m hm hr => by_contra fun hd => h m hm hd hr⟩
  simp only [hset]
  unfold State.legDropped
  split
  next hc =>
    rw [State.releaseOn_staged]
    by_cases hr : r = h.riser
    · subst hr; simp [hc]
    · simp [hr]
  next hc =>
    rw [if_neg]
    · rfl
    · rintro ⟨h1, rfl, h2, -⟩
      exact hc ⟨h1, h2⟩

theorem Call.liveLegs_isEmpty {c : Call} : c.liveLegs.isEmpty = true ↔ ∀ m ∈ c.legs, m.state = .dropped := by
  simp [Call.liveLegs, List.isEmpty_iff, List.filter_eq_nil_iff]

@[simp] theorem SlotEntry.names_idle (i : Rec) : SlotEntry.idle.names i = false := rfl

/-- A call that gives up a slot just before it ends is ended as if it had not. -/
theorem ended_of_released {s t : State} {i : Rec} {c : Call} {cause : EndCause} {r : Riser}
    (h : Ended (s.releaseOn i r) t i c cause) : Ended s t i c cause := by
  have hslots := s.releaseOn_slots i r
  have hlive : (s.releaseOn i r).liveNames i = s.liveNames i := State.liveNames_congr (fun r => hslots.live r) i
  refine
    { record := by rw [h.record, hlive], queues := ?_, staged := fun r' k => ?_, console := ?_, notice := ?_, panel := h.panel
      message := fun p hp hu => ?_, tone := fun p hp hu => ?_
      orders := fun l hm ht => h.orders l hm ((hslots.takesOrders _).mpr ht), others := fun r' e he => ?_, report := h.report
      calls := fun j hj => by rw [h.calls j hj, hslots.call], live := fun r' => by rw [h.live, hslots.live], frame := ?_ }
  · rw [h.queues.1, h.queues.2, hslots.state]; exact ⟨rfl, rfl⟩
  · rw [h.staged, State.releaseOn_staged]
    by_cases hn : (vget (s.riser r').staged k).names i = true
    · by_cases hr : r' = r
      · subst hr; simp [hn]
      · simp [hn, hr]
    · simp [hn]
  · rw [h.console, hslots.state]
  · rw [h.notice, hslots.state]
  · have := h.message p hp hu
    rw [hslots.state] at this
    exact this
  · have := h.tone p hp hu
    rw [hslots.state] at this
    exact this
  · rw [h.others r' e he, hslots.queue]
  · have := h.frame
    rw [hslots.state] at this
    exact this

/-- Settles O22: the branches of an off-hook and of a loss. -/
theorem offHooksAndLossesBesideTheAnswer : Obligations.OffHooksAndLossesBesideTheAnswer := by
  refine ⟨fun s h hp hl => ⟨_, rfl, ?_⟩, fun s h i c hp hl hc hr => ?_, fun s h => ⟨_, rfl, ?_, ?_⟩⟩
  · have hevent : s.hookEvent h true = ((s.hooked h true).offHookOrder h).leavePage h := by
      rw [State.hookEvent_changed (by rw [hp]; decide), if_pos rfl, State.offHook_free (s := s.hooked h true) hl]
      refine State.settled_unraised fun r => Nat.le_of_eq ?_
      rw [State.leavePage_eq]
      exact (((s.hooked h true).offHookOrder_orders h).freeCount r).trans (s.hooked_freeCount h true r)
    have hsent := (s.hooked h true).offHookOrder_orders h
    have htakes : TakesOrders s h → TakesOrders (s.hooked h true) h := (s.hooked_alike h true).takesOrders
    rw [hevent, State.leavePage_eq]
    refine ⟨?_, fun e he => ?_, fun late hlate => ⟨fun hm ht => ?_, fun hm hd ht => ?_, fun hm hd => ?_⟩⟩
    · obtain ⟨q, hq⟩ := State.offHookOrder_state s h
      obtain rfl : (((s.hooked h true).offHookOrder h).riser h.riser).queue = q := by simp [hq]
      have hpage : ((s.hooked h true).offHookOrder h).page = s.page := by rw [hsent.state]; rfl
      rw [hpage]
      exact congrArg (fun v : State => ({ v with
        page := s.page.map fun p => { p with members := p.members.filter (· ≠ h) } } : State)) hq
    · exact (hsent.others _ e fun hx => he (by rw [← hx])).trans (by rw [State.hooked_orders])
    · rw [State.offHookOrder, if_pos (show (s.hooked h true).isMember h = true from hm)]
      exact State.hasOrder_order (htakes ht) _
    · rw [State.offHookOrder, if_neg (by rw [show (s.hooked h true).isMember h = false from hm]; decide),
        if_pos (show (s.hooked h true).droppedSomewhere h = true from State.droppedSomewhere_iff.mpr (hlate.mp hd))]
      exact State.hasOrder_order (htakes ht) _
    · rw [State.offHookOrder, if_neg (by rw [show (s.hooked h true).isMember h = false from hm]; decide),
        if_neg (show ¬ (s.hooked h true).droppedSomewhere h = true from fun h' =>
          hd (hlate.mpr (State.droppedSomewhere_iff (s := s).mp h')))]
      exact State.hooked_orders ..
  · rw [State.hookEvent_changed (by rw [hp]; decide), if_pos rfl, State.offHook_unringing (s := s.hooked h true) hl hc hr,
      State.settled_unraised fun r => Nat.le_of_eq (s.hooked_freeCount h true r), State.hooked_off]
  · intro hl
    rw [State.handsetLost_free hl, State.leavePage_eq]
  · intro i c l hr hc hs hn hm hh
    rw [← State.leavePage_eq]
    have hc' : (s.leavePage h).call i = some c := by rw [State.leavePage_eq]; exact hc
    refine ⟨fun ha => ?_, fun ha => ⟨_, rfl, ?_⟩⟩
    · rw [State.handsetLost_live hr hc hn hm hh (by simp [ha]), if_neg (by simp [ha])]
      exact State.endCall_ended hc' hs _
    · rw [State.handsetLost_live hr hc hn hm hh (by simp [ha]), if_pos ha, State.dropLeg_eq, ← Call.legLost_eq hn hm hh ha]
      have hset : { s.leavePage h with calls := vset s.calls i (some (c.legLost h)) } =
          (s.leavePage h).setCall i (some (c.legLost h)) := by rw [State.leavePage_eq]; rfl
      rw [hset]
      have hcall : ((s.leavePage h).setCall i (some (c.legLost h))).call i = some (c.legLost h) := by simp
      have hlost : (c.legLost h).state ≠ .clearing := hs
      refine ⟨fun hall => ?_, fun hsome => ⟨_, if_neg ?_, ?_⟩⟩
      · rw [if_pos (Call.liveLegs_isEmpty.mpr hall), State.legDropped]
        split
        · refine ended_of_released (State.endCall_ended ?_ hlost _)
          rw [(State.releaseOn_slots ..).call, hcall]
        · exact State.endCall_ended hcall hlost _
      · rw [Call.liveLegs_isEmpty]
        exact fun hall => hsome.elim fun m ⟨hm, hd⟩ => hd (hall m hm)
      · have hslots := State.legDropped_slots (s.leavePage h) i c h
        have hreleased := fun r k => State.legDropped_staged (s.leavePage h) i c h r k
        rw [State.leavePage_eq] at hslots hreleased ⊢
        exact ⟨hslots.1, hslots.2, hreleased⟩

end Sys2Proof.Machine
end

