-- ==== Sys2Proof/Proofs/Slots.lean ====
section
/-! PROOFS. Reservation, ringing and the scan of the Wait Queue (R11, R37 to R46). -/

namespace Sys2Proof.Machine

open Sys2Proof Sys2Proof.Safety

/-! ## The Slot Allocator's test (R37) -/

theorem RiserUnit.freeCount_pos {u : RiserUnit} (h : u.inService = true) : 0 < u.freeCount ↔ ∃ k, u.slotFree k = true := by
  rw [Nat.pos_iff_ne_zero, Ne, RiserUnit.freeCount_eq_zero h]
  simp

section
variable {s : State} {rs : List Riser}

theorem State.testRisers_off (h : ∃ r ∈ rs, (s.riser r).inService = false) : s.testRisers rs = .off := by
  rw [State.testRisers, if_pos]
  simpa using h

theorem State.testRisers_refused (h : ¬ ∃ r ∈ rs, (s.riser r).inService = false)
    (hf : ∃ r ∈ rs, ∀ k, (s.riser r).slotFree k = false) : s.testRisers rs = .refused := by
  obtain ⟨r, hr, hk⟩ := hf
  have hin : (s.riser r).inService = true := by simpa using fun hn => h ⟨r, hr, hn⟩
  rw [State.testRisers, if_neg (by simpa using h), if_pos]
  simp only [List.any_eq_true, decide_eq_true_eq]
  exact ⟨r, hr, (RiserUnit.freeCount_eq_zero hin).mpr hk⟩

theorem State.testRisers_granted : s.testRisers rs = .granted ↔ AllFree s rs := by
  constructor
  · intro h r hr
    unfold State.testRisers at h
    split_ifs at h with h1 h2
    simp only [List.any_eq_true, not_exists, not_and, Bool.not_eq_true, Bool.not_eq_false', decide_eq_true_eq]
      at h1 h2
    have hin := h1 r hr
    exact ⟨hin, (RiserUnit.freeCount_pos hin).mp (Nat.pos_of_ne_zero (h2 r hr))⟩
  · intro h
    rw [State.testRisers, if_neg, if_neg]
    · simp only [List.any_eq_true, decide_eq_true_eq, not_exists, not_and]
      exact fun r hr => Nat.pos_iff_ne_zero.mp ((RiserUnit.freeCount_pos (h r hr).1).mpr (h r hr).2)
    · simp only [List.any_eq_true, not_exists, not_and, Bool.not_eq_true, Bool.not_eq_false']
      exact fun r hr => (h r hr).1

end

/-! ## Reservation (R38) -/

/-- A reservation on one riser looks at that riser alone. -/
theorem State.reserveOn_congr {s t : State} {r : Riser} (h : t.riser r = s.riser r) (hp : t.riserProfile r = s.riserProfile r)
    (i : Rec) : (State.reserveOn i t r).riser r = (State.reserveOn i s r).riser r := by
  unfold State.reserveOn
  rw [h]
  split
  · rw [State.edit, State.edit, State.riser_modRiser, State.riser_modRiser, if_pos rfl, if_pos rfl, h, hp]
  · exact h

theorem State.reserveOn_other (i : Rec) (s : State) {r r' : Riser} (h : r ≠ r') :
    (State.reserveOn i s r).riser r' = s.riser r' := by
  unfold State.reserveOn
  split
  · rw [State.edit, State.riser_modRiser, if_neg h]
  · rfl

/-- The reservation on a set of risers, riser by riser. -/
theorem State.reserve_riser {i : Rec} {rs : List Riser} (hn : rs.Nodup) (s : State) (r : Riser) :
    (s.reserve i rs).riser r = if r ∈ rs then (State.reserveOn i s r).riser r else s.riser r := by
  unfold State.reserve
  induction rs generalizing s with
  | nil => rfl
  | cons x rs ih =>
    obtain ⟨hx, hn⟩ := List.nodup_cons.mp hn
    have hprofile : (State.reserveOn i s x).riserProfile r = s.riserProfile r := by
      rw [(State.reserveOn_slots i s x).state]; rfl
    rw [List.foldl_cons, ih hn]
    by_cases hr : r = x
    · subst hr
      rw [if_neg hx, if_pos (List.mem_cons_self ..)]
    · have hother := State.reserveOn_other i s (Ne.symm hr)
      simp only [List.mem_cons, hr, false_or, State.reserveOn_congr hother hprofile, hother]

/-- Each riser of a set that is in service with a free slot has its lowest one RESERVED (R37, R38, R39). -/
theorem State.reserve_reserved {s : State} {rs : List Riser} (hn : rs.Nodup) (hf : AllFree s rs) (i : Rec) :
    Reserved s (s.reserve i rs) i rs := by
  have hlowest : ∀ r ∈ rs, ∃ k, (s.riser r).lowestFree = some k := fun r hr => by
    obtain ⟨hin, hk⟩ := hf r hr
    have : (s.riser r).lowestFree ≠ none := fun h =>
      Nat.pos_iff_ne_zero.mp ((RiserUnit.freeCount_pos hin).mpr hk) (RiserUnit.lowestFree_eq_none.mp h)
    exact Option.ne_none_iff_exists'.mp this
  have hriser : ∀ r ∈ rs, ∀ k, (s.riser r).lowestFree = some k →
      (s.reserve i rs).riser r = (s.edit r k (.reserved i)).riser r := fun r hr k hk => by
    rw [State.reserve_riser hn, if_pos hr, State.reserveOn, hk]
  refine ⟨fun r k => ?_, fun r hr hq => ?_⟩
  · by_cases hr : r ∈ rs
    · obtain ⟨k', hk'⟩ := hlowest r hr
      have hiff : r ∈ rs ∧ (s.riser r).slotFree k = true ∧ (∀ j, j.val < k.val → (s.riser r).slotFree j = false) ↔ k' = k := by
        have hlow := RiserUnit.lowestFree_eq_some (u := s.riser r) (k := k)
        rw [hk', Option.some_inj] at hlow
        rw [hlow]
        simp [hr, (hf r hr).1]
      rw [hriser r hr k' hk', State.edit_staged]
      simp only [hiff, true_and]
    · rw [State.reserve_riser hn, if_neg hr, if_neg (fun h => hr h.1)]
  · obtain ⟨k, hk⟩ := hlowest r hr
    rw [hriser r hr k hk]
    exact State.edit_wakes (by simp) hq

/-! ## Ringing (R11) -/

/-- One order sent to the handsets of a list waits for each of them that takes orders. -/
theorem State.hasOrder_foldl_same {α : Type} (g : α → Handset) (o : Order) {l : List α} {x : α} (hx : x ∈ l) {s : State}
    (ht : TakesOrders s (g x)) : HasOrder (l.foldl (fun s y => s.order (g y) o) s) (g x) o := by
  have hkeep : ∀ (l : List α) (s : State), HasOrder s (g x) o → TakesOrders s (g x) →
      HasOrder (l.foldl (fun s y => s.order (g y) o) s) (g x) o := fun l => by
    induction l with
    | nil => exact fun _ h _ => h
    | cons y l ih =>
      intro s ho ht
      refine ih _ ?_ (((s.order_orders (g y) o).takesOrders _).mpr ht)
      by_cases hy : g y = g x
      · simp only [hy]; exact State.hasOrder_order ht o
      · exact (s.order_orders (g y) o).hasOrder (Ne.symm hy) ho
  induction l generalizing s with
  | nil => cases hx
  | cons y l ih =>
    rw [List.foldl_cons]
    have ht' := ((s.order_orders (g y) o).takesOrders (g x)).mpr ht
    rcases List.mem_cons.mp hx with rfl | hx
    · exact hkeep l _ (State.hasOrder_order ht o) ht'
    · exact ih hx ht'

/-- A call as the entry to RINGING leaves it. -/
def Call.rung (c : Call) (seconds : Nat) : Call := { c with state := .ringing, waitTimer := .stopped, ringTimer := .start seconds }

/-- The state once RING-ON waits for the RINGING legs. -/
def State.rungLegs (s : State) (c : Call) : State :=
  (c.legs.filter fun l => l.state = .ringing).foldl (fun s l => s.order l.handset .ringOn) s

theorem State.rungLegs_orders (s : State) (c : Call) : OrdersTo (fun _ => True) s (s.rungLegs c) :=
  .foldl (fun _ _ s => (s.order_orders _ _).mono fun _ _ => trivial) s

/-- The panels once the caller of a call that rings has its RINGING and its RINGBACK (R164). -/
def State.ringbackPanels (s : State) (o : Origin) : Vector PanelUnit 6 :=
  match o with
  | .panel p => vset s.panels p ({ s.panel p with cursor := some { tone := .ringback, phase := 0 } }.handed .ringing)
  | _ => s.panels

/-- The console unit once the caller of a call that rings has its RINGBACK. -/
def State.ringbackClu (s : State) (i : Rec) (o : Origin) : ConsoleUnit :=
  match o with
  | .panel _ => s.clu
  | _ => if s.console = .talk i then { s.clu with cursor := some { tone := .ringback, phase := 0 } } else s.clu

theorem State.callerRinging_eq (s : State) (i : Rec) (o : Origin) :
    s.callerRinging i o = { s with panels := s.ringbackPanels o, clu := s.ringbackClu i o } := by
  unfold State.callerRinging State.ringbackPanels State.ringbackClu
  cases o with
  | panel p => rfl
  | console => dsimp only; split <;> rfl
  | handset h => dsimp only; split <;> rfl

/-- The entry to RINGING, block by block. -/
theorem State.enterRinging_eq {s : State} {i : Rec} {c : Call} (h : s.call i = some c) : s.enterRinging i = { s with
    calls := vset s.calls i (some (c.rung (s.ringSeconds c.origin)))
    risers := (s.rungLegs c).risers, panels := s.ringbackPanels c.origin
    clu := (s.ringbackClu i c.origin).posted (.call (.ringing (c.code.getD 0) c.legs.length) (some (i, c.serial)) c.kind c.origin
      (some .ringing)) } := by
  have hrest : ∀ rs : Vector RiserUnit 8, ((({ s with risers := rs } : State).setCall i
      (some (c.rung (s.ringSeconds c.origin)))).callerRinging i c.origin).postCall i
        (.ringing (c.code.getD 0) c.legs.length) = { s with
      calls := vset s.calls i (some (c.rung (s.ringSeconds c.origin)))
      risers := rs, panels := s.ringbackPanels c.origin
      clu := (s.ringbackClu i c.origin).posted (.call (.ringing (c.code.getD 0) c.legs.length) (some (i, c.serial)) c.kind
        c.origin (some .ringing)) } := fun rs => by
    rw [State.callerRinging_eq, State.postCall_eq (c := c.rung (s.ringSeconds c.origin)) (by exact vget_vset_self ..)]
    rfl
  rw [← hrest, ← (s.rungLegs_orders c).state]
  unfold State.enterRinging
  rw [h]
  rfl

/-! ## A grant (R11, R37, R38) -/

/-- Between `s` and `t` the slots of call i have been granted: reserved on each riser of its set, and it is RINGING. -/
structure Granted (s t : State) (i : Rec) (c : Call) : Prop where
  state  : t = { s with
    calls := vset s.calls i (some (c.rung (s.ringSeconds c.origin)))
    risers := t.risers, panels := s.ringbackPanels c.origin
    clu := (s.ringbackClu i c.origin).posted (.call (.ringing (c.code.getD 0) c.legs.length) (some (i, c.serial)) c.kind c.origin
      (some .ringing)) }
  slots  : Reserved s t i c.riserSet
  ringOn : ∀ l ∈ c.legs, l.state = .ringing → TakesOrders s l.handset → HasOrder t l.handset .ringOn
  free   : ∀ r k, (t.riser r).slotFree k = true → (s.riser r).slotFree k = true
  inService : ∀ r, (t.riser r).inService = (s.riser r).inService

theorem State.granted {s : State} {i : Rec} {c : Call} (h : s.call i = some c) (hf : AllFree s c.riserSet) :
    Granted s ((s.reserve i c.riserSet).enterRinging i) i c := by
  have hslots := s.reserve_slots i c.riserSet
  have hreserved := State.reserve_reserved c.riserSet_nodup hf i
  have horders := (s.reserve i c.riserSet).rungLegs_orders c
  have hcall : (s.reserve i c.riserSet).call i = some c := (hslots.call i).trans h
  have hriser : ∀ r, ((s.reserve i c.riserSet).enterRinging i).riser r = ((s.reserve i c.riserSet).rungLegs c).riser r :=
    fun r => by rw [State.enterRinging_eq hcall]; rfl
  refine ⟨?_, ⟨fun r k => ?_, fun r hr hq => ?_⟩, fun l hl hs ht => ?_, fun r k hk => ?_, fun r => ?_⟩
  · rw [State.enterRinging_eq hcall, hslots.state]
    rfl
  · rw [hriser, horders.staged]; exact hreserved.staged r k
  · rw [hriser, horders.riser r]; exact hreserved.wakes r hr hq
  · have hrung : HasOrder ((s.reserve i c.riserSet).rungLegs c) l.handset .ringOn :=
      State.hasOrder_foldl_same Leg.handset .ringOn (List.mem_filter.mpr ⟨hl, by simpa using hs⟩) ((hslots.takesOrders _).mpr ht)
    unfold HasOrder
    rw [hriser]
    exact hrung
  · rw [hriser, horders.slotFree] at hk
    refine hslots.slotFree_of (fun k' hk' => ?_) hk
    rw [hreserved.staged r k'] at hk'
    split at hk'
    · cases hk'
    · exact hk'
  · rw [hriser, horders.inService, hslots.inService]

theorem Granted.freeCount_le {s t : State} {i : Rec} {c : Call} (h : Granted s t i c) (r : Riser) :
    (t.riser r).freeCount ≤ (s.riser r).freeCount := RiserUnit.freeCount_le (h.inService r) (h.free r)

theorem Granted.call {s t : State} {i : Rec} {c : Call} (h : Granted s t i c) :
    t.call i = some (c.rung (s.ringSeconds c.origin)) := by rw [h.state]; exact vget_vset_self ..

theorem Granted.others {s t : State} {i : Rec} {c : Call} (h : Granted s t i c) {j : Rec} (hj : j ≠ i) :
    t.call j = s.call j := by rw [h.state]; exact vget_vset_ne _ (Ne.symm hj) _

/-! ## A call asks for its slots (R9, R37, R41) -/

/-- A record that joins the Wait Queue (R41, R46). -/
theorem State.joinWait_eq {s : State} {i : Rec} {c : Call} (h : s.call i = some c) : s.joinWait i = { s with
    calls := vset s.calls i (some { c with state := .queued, waitTimer := .start s.settings.wait })
    waitQueue := s.waitQueue ++ [i]
    clu := s.clu.posted (.call (.queued (c.code.getD 0)) (some (i, c.serial)) c.kind c.origin (some .queued)) } := by
  unfold State.joinWait
  simp only [State.modCall, h, Option.map_some, Option.bind_some]
  rw [State.postCall_eq (c := { c with state := .queued, waitTimer := .start s.settings.wait }) (by exact vget_vset_self ..)]
  rfl

theorem State.askSlots_off {s : State} {c : Call} (h : ∃ r ∈ c.riserSet, (s.riser r).inService = false) (i : Rec) :
    s.askSlots i c = s.endCall i .riserOff := by
  unfold State.askSlots; rw [State.testRisers_off h]

theorem State.askSlots_refused {s : State} {c : Call} (h : ¬ ∃ r ∈ c.riserSet, (s.riser r).inService = false)
    (hf : ∃ r ∈ c.riserSet, ∀ k, (s.riser r).slotFree k = false) (i : Rec) :
    s.askSlots i c = if s.waitQueue.length < Config.queuePlaces then s.joinWait i else s.endCall i .queueFull := by
  unfold State.askSlots; rw [State.testRisers_refused h hf]

theorem State.askSlots_granted {s : State} {i : Rec} {c : Call} (h : s.call i = some c) (hf : AllFree s c.riserSet) :
    Granted s (s.askSlots i c) i c := by
  unfold State.askSlots; rw [State.testRisers_granted.mpr hf]; exact State.granted h hf

/-- Settles O17: the three verdicts of the Slot Allocator. -/
theorem slotsAreGrantedAllOrNothing : Obligations.SlotsAreGrantedAllOrNothing := by
  intro s i c hc hs
  split_ifs with hoff hfull hroom
  · rw [State.askSlots_off hoff]; exact State.endCall_ended hc hs _
  · rw [State.askSlots_refused hoff hfull, if_pos (by exact hroom), State.joinWait_eq hc]
  · rw [State.askSlots_refused hoff hfull, if_neg (by exact hroom)]; exact State.endCall_ended hc hs _
  · have hfree : AllFree s c.riserSet := fun r hr =>
      ⟨by simpa using fun hn => hoff ⟨r, hr, hn⟩, by simpa using fun hn => hfull ⟨r, hr, hn⟩⟩
    have hgranted := State.askSlots_granted hc hfree
    exact ⟨hgranted.call, hgranted.slots⟩

/-! ## The scan of the Wait Queue (R42 to R44) -/

theorem State.scanOne_granted {s : State} {i : Rec} {c : Call} (h : s.call i = some c) (hq : c.state = .queued)
    (hf : AllFree s c.riserSet) :
    Granted { s with waitQueue := s.waitQueue.filter (· ≠ i) } (s.scanOne i) i c := by
  unfold State.scanOne
  simp only [h]
  rw [if_pos ⟨hq, State.testRisers_granted.mpr hf⟩]
  exact State.granted (s := { s with waitQueue := s.waitQueue.filter (· ≠ i) }) h hf

theorem State.scanOne_stays {s : State} {i : Rec} (h : ∀ c, s.call i = some c → ¬ (c.state = .queued ∧ AllFree s c.riserSet)) :
    s.scanOne i = s := by
  unfold State.scanOne
  split
  · rfl
  next c hc => exact if_neg fun ⟨hq, hf⟩ => h c hc ⟨hq, State.testRisers_granted.mp hf⟩

/-- One test of a scan either grants the record's slots or changes nothing. -/
theorem State.scanOne_cases (s : State) (i : Rec) : s.scanOne i = s ∨
    ∃ c, s.call i = some c ∧ c.state = .queued ∧ Granted { s with waitQueue := s.waitQueue.filter (· ≠ i) } (s.scanOne i) i c := by
  by_cases h : ∃ c, s.call i = some c ∧ c.state = .queued ∧ AllFree s c.riserSet
  · obtain ⟨c, hc, hq, hf⟩ := h
    exact .inr ⟨c, hc, hq, State.scanOne_granted hc hq hf⟩
  · exact .inl (State.scanOne_stays fun c hc hqf => h ⟨c, hc, hqf⟩)

/-- What a scan leaves: fewer records in the queue, no slot freed, QUEUED records that it passes over and calls that were not
QUEUED as they were, and a panel whose link is not UP without a message. -/
structure Scanned (s t : State) : Prop where
  state     : t = { s with
    calls := t.calls, waitQueue := t.waitQueue, risers := t.risers, panels := t.panels, clu := t.clu }
  queue     : ∀ i ∈ t.waitQueue, i ∈ s.waitQueue
  free      : ∀ r k, (t.riser r).slotFree k = true → (s.riser r).slotFree k = true
  inService : ∀ r, (t.riser r).inService = (s.riser r).inService
  queued    : ∀ i c, t.call i = some c → c.state = .queued → s.call i = some c
  kept      : ∀ i, (∀ c, s.call i = some c → c.state ≠ .queued) → t.call i = s.call i
  link      : ∀ p, (t.panel p).link = (s.panel p).link
  sendQueue : ∀ p, (s.panel p).link.state ≠ .up → (t.panel p).sendQueue = (s.panel p).sendQueue

namespace Scanned

variable {s t u : State}

theorem refl (s : State) : Scanned s s :=
  ⟨rfl, fun _ => id, fun _ _ => id, fun _ => rfl, fun _ _ h _ => h, fun _ _ => rfl, fun _ => rfl, fun _ _ => rfl⟩

theorem trans (h : Scanned s t) (g : Scanned t u) : Scanned s u where
  state := by rw [g.state, h.state]
  queue i hi := h.queue i (g.queue i hi)
  free r k hk := h.free r k (g.free r k hk)
  inService r := (g.inService r).trans (h.inService r)
  queued i c hc hq := h.queued i c (g.queued i c hc hq) hq
  kept i hi := by
    have hkept := h.kept i hi
    exact (g.kept i fun c hc => hi c (hkept ▸ hc)).trans hkept
  link p := (g.link p).trans (h.link p)
  sendQueue p hp := (g.sendQueue p (by rw [h.link]; exact hp)).trans (h.sendQueue p hp)

theorem scanOne (s : State) (i : Rec) : Scanned s (s.scanOne i) := by
  rcases s.scanOne_cases i with h | ⟨c, hc, hq, h⟩
  · rw [h]; exact refl s
  · have hpanel : ∀ p, (s.scanOne i).panel p = s.panel p ∨ (s.scanOne i).panel p =
        ({ s.panel p with cursor := some { tone := .ringback, phase := 0 } } : PanelUnit).handed .ringing := fun p => by
      rw [h.state]
      cases c.origin with
      | panel q =>
        by_cases hq : q = p
        · subst hq; exact .inr (vget_vset_self ..)
        · exact .inl (vget_vset_ne _ hq _)
      | console => exact .inl rfl
      | handset x => exact .inl rfl
    refine ⟨by rw [h.state], fun j hj => ?_, h.free, h.inService, fun j d hd hq => ?_, fun j hj => h.others ?_, fun p => ?_,
      fun p hp => ?_⟩
    · rw [h.state] at hj
      exact List.mem_of_mem_filter hj
    · by_cases hj : j = i
      · subst hj
        rw [h.call] at hd
        cases hd
        cases hq
      · rw [h.others hj] at hd
        exact hd
    · rintro rfl
      exact hj c hc hq
    · rcases hpanel p with hp | hp <;> simp [hp]
    · rcases hpanel p with hp' | hp'
      · rw [hp']
      · rw [hp', PanelUnit.handed_notUp (by exact hp)]

theorem foldl (l : List Rec) (s : State) : Scanned s (l.foldl State.scanOne s) := by
  induction l generalizing s with
  | nil => exact refl s
  | cons i l ih => exact (scanOne s i).trans (ih _)

theorem allFree (h : Scanned s t) {rs : List Riser} (hf : AllFree t rs) : AllFree s rs := fun r hr => by
  obtain ⟨hin, k, hk⟩ := hf r hr
  exact ⟨by rw [← h.inService, hin], k, h.free r k hk⟩

end Scanned

/-- A record that a scan has tested and that is still QUEUED cannot be granted: later grants free no slot. -/
theorem State.scan_notFree {l : List Rec} {s : State} {i : Rec} {c : Call} (hi : i ∈ l)
    (hc : (l.foldl State.scanOne s).call i = some c) (hq : c.state = .queued) :
    ¬ AllFree (l.foldl State.scanOne s) c.riserSet := by
  induction l generalizing s with
  | nil => cases hi
  | cons j l ih =>
    rcases List.mem_cons.mp hi with rfl | hi
    · intro hf
      have hlater := Scanned.foldl l (s.scanOne i)
      have htested := (Scanned.scanOne s i).queued i c (hlater.queued i c hc hq) hq
      have hgranted := State.scanOne_granted htested hq ((Scanned.scanOne s i).allFree (hlater.allFree hf))
      have hcall := hlater.queued i c hc hq
      rw [hgranted.call] at hcall
      have hringing : CallState.ringing = c.state := congrArg Call.state (Option.some.inj hcall)
      rw [hq] at hringing
      cases hringing
    · exact ih hi hc

/-- The scan that may follow an event. -/
theorem State.settled_scanned (s t : State) : Scanned t (State.settled s t) := by
  unfold State.settled
  split
  · exact Scanned.foldl ..
  · exact Scanned.refl t

theorem State.settled_touch (s t : State) : CallTouch t (State.settled s t) := by
  unfold State.settled
  split
  · exact State.scan_touch t
  · exact .refl t

/-- Settles O18: a scan's test grants or passes over, and what it passes over cannot be granted. -/
theorem theWaitQueueIsScannedWhenSlotsFree : Obligations.TheWaitQueueIsScannedWhenSlotsFree := by
  refine ⟨fun before after => ?_, fun s i c hc => ?_, fun s i c hi hc hq => ?_⟩
  · simp only [State.settled, List.any_eq_true, allRisers, List.mem_finRange, true_and, decide_eq_true_eq]
    rfl
  · split_ifs with h
    · have hg := State.scanOne_granted hc h.1 h.2
      refine ⟨by rw [hg.state], hg.call, fun j hj => hg.others hj, ⟨hg.slots.staged, hg.slots.wakes⟩, hg.ringOn⟩
    · exact State.scanOne_stays fun d hd hqf => h (by rw [hc] at hd; cases hd; exact hqf)
  · exact State.scan_notFree ((Scanned.foldl s.waitQueue s).queue i hi) hc hq

end Sys2Proof.Machine
end

