-- ==== Sys2Proof/Proofs/Setups.lean ====
section
/-! PROOFS. The setup of a panel's call and of a DESK call (R5 to R11). -/

namespace Sys2Proof.Machine

open Sys2Proof Sys2Proof.Safety

/-! ## The lookup (R57 to R60) -/

/-- A lookup looks at the Directory, the risers, the page, and at which handsets are in calls. -/
theorem State.lookup_congr {s t : State} (hd : t.directory = s.directory) (hr : t.risers = s.risers) (hp : t.page = s.page)
    (hl : ∀ h, t.liveRecord h = s.liveRecord h) (code : Nat) : t.lookup code = s.lookup code := by
  have hentry : ∀ e, t.entry e = s.entry e := fun e => by simp only [State.entry, State.dirPage, hd]
  have hexcluded : ∀ d, t.excluded d = s.excluded d := fun d => by
    simp only [State.excluded, State.presence, State.riser, State.isMember, hr, hp, hl]
  simp only [State.lookup, State.collected, State.validEntries, hentry, hexcluded]

/-- A record taken without legs puts no handset in a call. -/
theorem State.liveRecord_taken {s t : State} {i : Rec} {c : Call} (hi : s.call i = none) (hc : c.legs = [])
    (ht : t.calls = vset s.calls i (some c)) (h : Handset) : t.liveRecord h = s.liveRecord h := by
  unfold State.liveRecord
  congr 1
  funext j
  have hj : t.call j = if i = j then some c else s.call j := by simp only [State.call, ht, vget_vset]
  rw [hj]
  by_cases hij : i = j
  · subst hij; simp [hi, Call.hasLive, hc]
  · rw [if_neg hij]

/-- A code that no VALID entry holds is UNKNOWN. -/
theorem State.lookup_unknown {s : State} {code : Nat} (h : ∀ e d, s.entry e = some d → d.code ≠ code) :
    s.lookup code = .unknown := by
  have hnone : s.collected code = [] := by
    rw [State.collected, State.validEntries, List.take_eq_nil_iff]
    right
    rw [List.filterMap_eq_nil_iff]
    intro e _
    cases he : s.entry e with
    | none => rfl
    | some d => simp [h e d he]
  rw [State.lookup, hnone]

/-! ## The rest of a setup (R9) -/

theorem State.setup_unknown {s : State} {code : Nat} (h : s.lookup code = .unknown) (i : Rec) :
    s.setup i code = s.endCall i .unknown := by
  unfold State.setup; rw [h]

theorem State.setup_busy {s : State} {code : Nat} (h : s.lookup code = .busy) (i : Rec) :
    s.setup i code = s.endCall i .busy := by
  unfold State.setup; rw [h]

/-- A call with the legs that a lookup gives it (R5). -/
def Call.aimed (c : Call) (list : List (EntryIx × EntryData)) : Call := { c with legs := list.map legOf }

theorem State.setup_targets {s : State} {code : Nat} {list : List (EntryIx × EntryData)} {i : Rec} {c : Call}
    (h : s.lookup code = .targets list) (hc : s.call i = some c) :
    s.setup i code = (s.setCall i (some (c.aimed list))).askSlots i (c.aimed list) := by
  unfold State.setup; rw [h, hc]; rfl

theorem Call.mem_aimed_riserSet {c : Call} {list : List (EntryIx × EntryData)} {r : Riser} :
    r ∈ (c.aimed list).riserSet ↔ ∃ x ∈ list, x.2.handset.riser = r := by
  simp [Call.mem_riserSet, Call.aimed, legOf]

/-- Targets on risers in service with a free slot each are granted. -/
theorem State.setup_granted {s : State} {code : Nat} {list : List (EntryIx × EntryData)} {i : Rec} {c : Call}
    (h : s.lookup code = .targets list) (hc : s.call i = some c)
    (hf : ∀ x ∈ list, (s.riser x.2.handset.riser).inService = true ∧ 0 < (s.riser x.2.handset.riser).freeCount) :
    Granted (s.setCall i (some (c.aimed list))) (s.setup i code) i (c.aimed list) := by
  rw [State.setup_targets h hc]
  refine State.askSlots_granted (by rw [State.call_setCall, if_pos rfl]) fun r hr => ?_
  obtain ⟨x, hx, rfl⟩ := Call.mem_aimed_riserSet.mp hr
  obtain ⟨hin, hpos⟩ := hf x hx
  exact ⟨hin, (RiserUnit.freeCount_pos hin).mp hpos⟩

/-- A riser in service with a free slot has one reserved by a grant. -/
theorem Granted.exists_reserved {s t : State} {i : Rec} {c : Call} (h : Granted s t i c) {r : Riser} (hr : r ∈ c.riserSet)
    (hpos : 0 < (s.riser r).freeCount) : ∃ k, vget (t.riser r).staged k = .reserved i := by
  have hlow : (s.riser r).lowestFree ≠ none := fun hn => Nat.pos_iff_ne_zero.mp hpos (RiserUnit.lowestFree_eq_none.mp hn)
  obtain ⟨k, hk⟩ := Option.ne_none_iff_exists'.mp hlow
  obtain ⟨-, hfree, hfirst⟩ := RiserUnit.lowestFree_eq_some.mp hk
  exact ⟨k, by rw [h.slots.staged, if_pos ⟨hr, hfree, hfirst⟩]⟩

/-- What every outcome of a setup leaves alone, when no slot is held by its record. -/
structure SetUp (s t : State) (i : Rec) : Prop where
  others    : ∀ j, j ≠ i → t.call j = s.call j
  freeCount : ∀ r, (t.riser r).freeCount ≤ (s.riser r).freeCount
  serial    : t.serialNext = s.serialNext

theorem State.endCall_setUp {s : State} {i : Rec} {c : Call} (hc : s.call i = some c) (hs : c.state ≠ .clearing) (cause : EndCause)
    (hn : ∀ r k, (vget (s.riser r).staged k).names i = false) : SetUp s (s.endCall i cause) i := by
  have hended := State.endCall_ended hc hs cause
  have hlegs := State.endCall_legs hc hs cause
  refine ⟨hended.calls, fun r => Nat.le_of_eq (RiserUnit.freeCount_congr ?_ (hended.live r) (vget_ext fun k => ?_)),
    by rw [hended.frame]⟩
  · rw [hlegs.riser r]
  · rw [hended.staged r k, hn r k, if_neg (by decide)]

theorem State.askSlots_setUp {s : State} {i : Rec} {c : Call} (hc : s.call i = some c) (hs : c.state ≠ .clearing)
    (hn : ∀ r k, (vget (s.riser r).staged k).names i = false) : SetUp s (s.askSlots i c) i := by
  by_cases hoff : ∃ r ∈ c.riserSet, (s.riser r).inService = false
  · rw [State.askSlots_off hoff]; exact State.endCall_setUp hc hs _ hn
  by_cases hfull : ∃ r ∈ c.riserSet, ∀ k, (s.riser r).slotFree k = false
  · rw [State.askSlots_refused hoff hfull]
    split
    · rw [State.joinWait_eq hc]
      exact ⟨fun j hj => vget_vset_ne _ (Ne.symm hj) _, fun _ => Nat.le_refl _, rfl⟩
    · exact State.endCall_setUp hc hs _ hn
  · have hg := State.askSlots_granted hc fun r hr =>
      ⟨by simpa using fun hr' => hoff ⟨r, hr, hr'⟩, by simpa using fun hr' => hfull ⟨r, hr, hr'⟩⟩
    exact ⟨fun j hj => hg.others hj, hg.freeCount_le, by rw [hg.state]⟩

theorem State.setup_setUp {s : State} {i : Rec} {c : Call} (hc : s.call i = some c) (hs : c.state ≠ .clearing)
    (hn : ∀ r k, (vget (s.riser r).staged k).names i = false) (code : Nat) : SetUp s (s.setup i code) i := by
  cases hl : s.lookup code with
  | unknown => rw [State.setup_unknown hl]; exact State.endCall_setUp hc hs _ hn
  | busy => rw [State.setup_busy hl]; exact State.endCall_setUp hc hs _ hn
  | targets list =>
    rw [State.setup_targets hl hc]
    have hasked := State.askSlots_setUp (s := s.setCall i (some (c.aimed list))) (i := i) (c := c.aimed list)
      (by rw [State.call_setCall, if_pos rfl]) hs hn
    exact ⟨fun j hj => (hasked.others j hj).trans (by rw [State.call_setCall, if_neg (Ne.symm hj)]), hasked.freeCount,
      hasked.serial⟩

/-! ## A panel's CALL (R7, R8) -/

theorem State.modPanel_modPanel (s : State) (p : Panel) (f g : PanelUnit → PanelUnit) :
    (s.modPanel p f).modPanel p g = s.modPanel p fun u => g (f u) := by
  rw [State.modPanel, State.panel_modPanel, if_pos rfl, State.modPanel, State.setPanel, State.setPanel_panels, vset_vset]
  rfl

theorem PanelUnit.endToneStopped_eq (u : PanelUnit) : u.endToneStopped =
    { u with endTone := none, cursor := if u.endTone.isSome then none else u.cursor } := by
  unfold PanelUnit.endToneStopped
  cases h : u.endTone with
  | none => cases u; simp_all
  | some e => rfl

/-- The panel's frame and the stop of its end tone, before its CALL is looked at. -/
def PanelUnit.calling (f : PanelFrame) (u : PanelUnit) : PanelUnit := (u.framed f).endToneStopped

section
variable {s : State} {p : Panel} {f : PanelFrame} (hr : Running s) (hu : (s.panel p).link.state = .up)
  (hf : panelFrameGood f = true) (hcode : f.code = 0x01)
include hr hu hf hcode

/-- A CALL in a good frame is the event of the call. -/
theorem exec_panelCall : exec (.panelFrameArrival p f) s =
    .next (State.settled s ((s.modPanel p (·.framed f)).panelCall p f.param.toNat)) := by
  rw [exec_panelFrame_up hr hu hf, State.panelControl, if_pos hcode]
  exact congrArg Host.Outcome.next (State.settled_congr (s := s) (fun _ => rfl) _)

/-- A CALL that leaves every riser as it was is followed by no scan. -/
theorem exec_panelCall_risers {t : State} (ht : (s.modPanel p (·.framed f)).panelCall p f.param.toNat = t)
    (hrisers : t.risers = s.risers) : exec (.panelFrameArrival p f) s = .next t := by
  rw [exec_panelCall hr hu hf hcode, ht]
  exact congrArg Host.Outcome.next (State.settled_unraised fun r => by simp only [State.riser, hrisers, Nat.le_refl])

end

section
variable {s : State} {p : Panel} {f : PanelFrame} (hc : (s.panel p).current = none)
include hc

/-- A CALL with a code out of range, with no call on the panel: it stops the end tone and is answered REJECT. -/
theorem State.panelCall_invalid (hm : 9999 < f.param.toNat) :
    (s.modPanel p (·.framed f)).panelCall p f.param.toNat = (s.modPanel p (·.calling f)).hand p .reject := by
  have hnone : ((s.modPanel p (·.framed f)).panel p).current = none := by rw [State.panel_modPanel, if_pos rfl]; exact hc
  unfold State.panelCall
  simp only [hnone, State.modPanel_modPanel]
  exact if_pos hm

/-- A CALL with no FREE record: the panel's call ends BUSY before it begins (R8). -/
theorem State.panelCall_full (hm : f.param.toNat ≤ 9999) (hr : s.freeRecord = none) :
    (s.modPanel p (·.framed f)).panelCall p f.param.toNat =
      (s.modPanel p fun u => ((u.calling f).handed (.ended .busy)).endToned .busy).post
        (.call (.ended .busy false) none .entry (.panel p) none) := by
  have hnone : ((s.modPanel p (·.framed f)).panel p).current = none := by rw [State.panel_modPanel, if_pos rfl]; exact hc
  have hfree : (s.modPanel p fun u => (u.framed f).endToneStopped).freeRecord = none := hr
  unfold State.panelCall
  simp only [hnone, State.modPanel_modPanel, hfree]
  exact if_neg (Nat.not_lt.mpr hm)

/-- The state of a panel's CALL that has taken its record, before its lookup (R2, R8). -/
def State.panelTaken (s : State) (p : Panel) (f : PanelFrame) (i : Rec) : State :=
  ((s.modPanel p (·.calling f)).takeRecord i .entry (.panel p) (some f.param.toNat) .queued).modPanel p
    fun u => { u with current := some i }

theorem State.panelCall_taken {i : Rec} (hm : f.param.toNat ≤ 9999) (hr : s.freeRecord = some i) :
    (s.modPanel p (·.framed f)).panelCall p f.param.toNat = (s.panelTaken p f i).setup i f.param.toNat := by
  have hnone : ((s.modPanel p (·.framed f)).panel p).current = none := by rw [State.panel_modPanel, if_pos rfl]; exact hc
  have hfree : (s.modPanel p fun u => (u.framed f).endToneStopped).freeRecord = some i := hr
  unfold State.panelCall
  simp only [hnone, State.modPanel_modPanel, hfree]
  exact if_neg (Nat.not_lt.mpr hm)

end

theorem State.panelTaken_panel (s : State) (p : Panel) (f : PanelFrame) (i : Rec) :
    (s.panelTaken p f i).panel p = { (s.panel p).calling f with current := some i } := by
  have hpanel : ((s.modPanel p (·.calling f)).takeRecord i .entry (.panel p) (some f.param.toNat) .queued).panel p =
      (s.panel p).calling f := vget_vset_self ..
  rw [State.panelTaken, State.panel_modPanel, if_pos rfl, hpanel]

theorem State.hand_modPanel (s : State) (p : Panel) (g : PanelUnit → PanelUnit) (m : PanelMsg) :
    (s.modPanel p g).hand p m = s.setPanel p ((g (s.panel p)).handed m) := State.modPanel_modPanel ..

/-- A CALL while the panel has a call is answered REJECT (R7). -/
theorem State.panelCall_current {s : State} {p : Panel} {f : PanelFrame} {j : Rec} (hj : (s.panel p).current = some j) :
    (s.modPanel p (·.framed f)).panelCall p f.param.toNat = s.setPanel p (((s.panel p).framed f).handed .reject) := by
  have hcurrent : ((s.modPanel p (·.framed f)).panel p).current = some j := by
    rw [State.panel_modPanel, if_pos rfl]; exact hj
  unfold State.panelCall
  simp only [hcurrent]
  exact State.hand_modPanel ..

/-- The panel of a CALL that goes on: in UP, with no end tone. -/
theorem PanelUnit.calling_eq (f : PanelFrame) (u : PanelUnit) : u.calling f = { u with
    link := { u.link with bad := 0 }, fifo := u.fifo.arrived (sampleFrom f.sample)
    endTone := none, cursor := if u.endTone.isSome then none else u.cursor } := PanelUnit.endToneStopped_eq _

/-- The part after a panel's call has taken its record: the call table, the serial counter and the panel. -/
theorem State.panelTaken_eq (s : State) (p : Panel) (f : PanelFrame) (i : Rec) : s.panelTaken p f i = { s with
    calls := vset s.calls i (some (.fresh s.serialNext .entry (.panel p) (some f.param.toNat) .queued))
    serialNext := s.serialNext + 1
    panels := (s.panelTaken p f i).panels } := rfl

/-- A record is FREE before it is taken, so the lookup finds what it would have found before the CALL. -/
theorem State.panelTaken_lookup {s : State} {i : Rec} (hi : s.call i = none) (p : Panel) (f : PanelFrame) (code : Nat) :
    (s.panelTaken p f i).lookup code = s.lookup code := by
  rw [State.panelTaken_eq]
  refine State.lookup_congr ?_ ?_ ?_ (fun h => State.liveRecord_taken hi
    (c := .fresh s.serialNext .entry (.panel p) (some f.param.toNat) .queued) ?_ ?_ h) code <;> rfl

theorem State.panelTaken_riser (s : State) (p : Panel) (f : PanelFrame) (i : Rec) (r : Riser) :
    (s.panelTaken p f i).riser r = s.riser r := congrArg (vget · r) (rfl : (s.panelTaken p f i).risers = s.risers)

/-- The grant of a panel's call, from the part before its frame. -/
theorem State.panelTaken_granted {s : State} {p : Panel} {f : PanelFrame} {i : Rec} {list : List (EntryIx × EntryData)}
    (hi : s.call i = none) (hl : s.lookup f.param.toNat = .targets list)
    (hf : ∀ x ∈ list, (s.riser x.2.handset.riser).inService = true ∧ 0 < (s.riser x.2.handset.riser).freeCount) :
    Granted ((s.panelTaken p f i).setCall i (some ((Call.fresh s.serialNext .entry (.panel p) (some f.param.toNat)
        .queued).aimed list)))
      ((s.panelTaken p f i).setup i f.param.toNat) i
      ((Call.fresh s.serialNext .entry (.panel p) (some f.param.toNat) .queued).aimed list) := by
  refine State.setup_granted ((State.panelTaken_lookup hi p f _).trans hl) ?_ (fun x hx => ?_)
  · rw [State.panelTaken_eq]
    exact vget_vset_self ..
  · rw [State.panelTaken_riser]
    exact hf x hx

/-- Settles O19: the four outcomes of a CALL that the statement tells apart. -/
theorem aPanelCallRings : Obligations.APanelCallRings := by
  intro s p f hr hu hf hcode
  refine ⟨fun j hj => ⟨_, exec_panelCall_risers hr hu hf hcode (State.panelCall_current hj) rfl, ?_⟩, fun hc hm =>
    exec_panelCall_risers hr hu hf hcode ?_ rfl, fun hc hm hn => exec_panelCall_risers hr hu hf hcode ?_ rfl,
    fun i list hc hm hn hl hfree => ?_⟩
  · rw [PanelUnit.handed_up (by exact hu)]; rfl
  · rw [State.panelCall_invalid hc hm, State.hand_modPanel, PanelUnit.handed_up (by rw [PanelUnit.calling_eq]; exact hu),
      PanelUnit.calling_eq]
  · have htone : (((s.panel p).calling f).handed (.ended .busy)).endToned .busy = { s.panel p with
        link := { (s.panel p).link with bad := 0 }, fifo := (s.panel p).fifo.arrived (sampleFrom f.sample)
        endTone := some { wave := .busy, timer := .running 24000 }, cursor := some { tone := .busy, phase := 0 }
        sendQueue := sendQueued (.ended .busy) (s.panel p).sendQueue } := by
      rw [PanelUnit.handed_up (by rw [PanelUnit.calling_eq]; exact hu), PanelUnit.calling_eq, PanelUnit.endToned]
      simp only [EndCause.wave, hu, if_true]
      rfl
    rw [State.panelCall_full hc hm hn, State.modPanel, htone]
    rfl
  · have hg := State.panelTaken_granted (p := p) (f := f) (State.freeRecord_free hn) hl hfree
    have hle : ∀ r, (((s.panelTaken p f i).setup i f.param.toNat).riser r).freeCount ≤ (s.riser r).freeCount :=
      fun r => by simpa [State.panelTaken_riser] using hg.freeCount_le r
    have hexec : exec (.panelFrameArrival p f) s = .next (State.settled s ((s.panelTaken p f i).setup i f.param.toNat)) := by
      rw [exec_panelCall hr hu hf hcode, State.panelCall_taken hc hm hn]
    rw [State.settled_unraised hle] at hexec
    generalize (s.panelTaken p f i).setup i f.param.toNat = t at *
    have hpanel : t.panel p = ({ (s.panelTaken p f i).panel p with
        cursor := some { tone := .ringback, phase := 0 } } : PanelUnit).handed .ringing := by
      rw [hg.state]; exact vget_vset_self ..
    rw [State.panelTaken_panel, PanelUnit.handed_up (by rw [PanelUnit.calling_eq]; exact hu), PanelUnit.calling_eq] at hpanel
    have hring : ((s.panelTaken p f i).setCall i (some ((Call.fresh s.serialNext .entry (.panel p) (some f.param.toNat)
        .queued).aimed list))).ringSeconds (.panel p) = (s.panelProfile p).ring := by
      rw [State.panelTaken_eq]; rfl
    refine ⟨t, hexec, ?_, ?_, ?_, ?_, ?_, ?_, fun x hx => ?_, fun x hx ht => ?_, fun j hj => ?_⟩
    · rw [hg.call]
      refine congrArg some ?_
      rw [show ((Call.fresh s.serialNext .entry (.panel p) (some f.param.toNat) .queued).aimed list).origin = .panel p from rfl,
        hring]
      rfl
    · rw [hg.state, State.panelTaken_eq]; rfl
    · rw [hpanel]
    · rw [hpanel]
    · rw [hpanel]
    · rw [hpanel]
    · refine hg.exists_reserved (Call.mem_aimed_riserSet.mpr ⟨x, hx, rfl⟩) ?_
      rw [State.setCall_riser, State.panelTaken_riser]
      exact (hfree x hx).2
    · refine hg.ringOn (legOf x) (List.mem_map_of_mem hx) rfl ?_
      unfold TakesOrders State.presence
      rw [State.setCall_riser, State.panelTaken_riser]
      exact ht
    · rw [hg.others hj, State.call_setCall, if_neg (Ne.symm hj), State.panelTaken_eq]
      exact vget_vset_ne _ (Ne.symm hj) _

end Sys2Proof.Machine
end

