-- ==== Sys2Proof/Proofs/Desk.lean ====
section
/-! PROOFS. The operator's calls: CALL-FLAT (R10) and ANSWER-NEXT (R40, R124). -/

namespace Sys2Proof.Machine

open Sys2Proof Sys2Proof.Safety

/-! ## CALL-FLAT (R10) -/

/-- The state of a DESK call that has taken its record, before its lookup. -/
def State.deskTaken (s : State) (i : Rec) (code : Nat) : State :=
  (s.takeRecord i .desk .console (some code) .queued).setConsole (.talk i)

/-- The record of a DESK call just taken. -/
def State.deskRecord (s : State) (code : Nat) : Call := .fresh s.serialNext .desk .console (some code) .queued

section
variable (s : State) (i : Rec) (code : Nat)

theorem State.deskTaken_eq : s.deskTaken i code = { s with
    calls := vset s.calls i (some (s.deskRecord code)), serialNext := s.serialNext + 1, console := .talk i } := rfl

theorem State.deskTaken_riser (r : Riser) : (s.deskTaken i code).riser r = s.riser r :=
  congrArg (vget · r) (rfl : (s.deskTaken i code).risers = s.risers)

theorem State.deskTaken_call : (s.deskTaken i code).call i = some (s.deskRecord code) := by
  rw [State.deskTaken_eq]; exact vget_vset_self ..

theorem State.deskTaken_other {j : Rec} (hj : j ≠ i) : (s.deskTaken i code).call j = s.call j := by
  rw [State.deskTaken_eq]; exact vget_vset_ne _ (Ne.symm hj) _

end

theorem State.deskTaken_lookup {s : State} {i : Rec} (hi : s.call i = none) (code : Nat) :
    (s.deskTaken i code).lookup code = s.lookup code := by
  rw [State.deskTaken_eq]
  refine State.lookup_congr ?_ ?_ ?_ (fun h => State.liveRecord_taken hi (c := s.deskRecord code) ?_ ?_ h) code <;> rfl

/-- The message's arrival changes nothing that a lookup looks at. -/
theorem State.messageArrived_lookup (s : State) (code : Nat) : s.messageArrived.lookup code = s.lookup code := by
  refine State.lookup_congr ?_ ?_ ?_ (fun h => ?_) code <;> rfl

theorem doCallFlat_taken {s : State} {code : Word} {i : Rec} (hi : s.console = .idle) (hm : code.toNat ≤ 9999)
    (hf : s.freeRecord = some i) : doCallFlat code s =
      finished ((s.deskTaken i code.toNat).event fun s => s.setup i code.toNat) (namedBytes i s.serialNext) := by
  have hcode : ¬ Config.maxDialCode < code.toNat := Nat.not_lt.mpr hm
  unfold doCallFlat
  rw [if_neg (not_not.mpr hi), if_neg hcode, hf]
  rfl

/-- A CALL-FLAT that is taken: the setup's outcome, which raises no free count. -/
theorem exec_callFlat {s : State} {tag : Byte} {code : Word} {i : Rec} (h : Accepts s) (hi : s.console = .idle)
    (hm : code.toNat ≤ 9999) (hf : s.freeRecord = some i) (hn : ∀ r k, (vget (s.riser r).staged k).names i = false) :
    exec (.callFlat tag code) s = .next (((s.messageArrived.deskTaken i code.toNat).setup i code.toNat).reply {
        tag := tag, result := .done, reason := .none, data := byteOf i.val :: wordBytes s.serialNext }) ∧
      SetUp (s.messageArrived.deskTaken i code.toNat) ((s.messageArrived.deskTaken i code.toNat).setup i code.toNat) i := by
  have hset : SetUp (s.messageArrived.deskTaken i code.toNat) ((s.messageArrived.deskTaken i code.toNat).setup i code.toNat) i :=
    State.setup_setUp (s.messageArrived.deskTaken_call i _) (nofun : CallState.queued ≠ .clearing)
      (fun r k => by rw [State.deskTaken_riser]; exact hn r k) _
  refine ⟨congrArg Host.Outcome.next (State.request_finished h ?_), hset⟩
  have hevent : (s.messageArrived.deskTaken i code.toNat).event (fun s => s.setup i code.toNat) =
      (s.messageArrived.deskTaken i code.toNat).setup i code.toNat := State.settled_unraised hset.freeCount
  rw [← hevent]
  exact doCallFlat_taken (s := s.messageArrived) hi hm hf

/-- Settles O47: the tests in their order, then the setup of the DESK call. -/
theorem callFlatSetsUpADeskCall : Obligations.CallFlatSetsUpADeskCall := by
  intro s tag code ha
  refine ⟨fun hi => ?_, fun hi hm => ?_, fun hi hm hf => ?_, fun i hi hm hf hn => ?_⟩
  · refine congrArg Host.Outcome.next (State.request_refused ha (if_pos ?_))
    exact hi
  · refine congrArg Host.Outcome.next (State.request_refused ha ((if_neg ?_).trans (if_pos hm)))
    exact not_not.mpr hi
  · refine congrArg Host.Outcome.next (State.request_refused ha ((if_neg ?_).trans ((if_neg ?_).trans ?_)))
    · exact not_not.mpr hi
    · exact Nat.not_lt.mpr hm
    · simp only [show s.messageArrived.freeRecord = none from hf]
  · obtain ⟨hexec, hset⟩ := exec_callFlat (tag := tag) ha hi hm hf hn
    have hi' : s.call i = none := State.freeRecord_free hf
    refine ⟨_, hexec, hset.serial, ?_, fun j hj => ?_, fun hcode hlive => ?_, fun list hl hfree => ?_⟩
    · have hreplies := (State.setup_touch (s.messageArrived.deskTaken i code.toNat) i code.toNat).replies
      exact congrArg (· ++ _) hreplies
    · exact (hset.others j hj).trans (State.deskTaken_other _ i _ hj)
    · have hended := State.endCall_ended (s.messageArrived.deskTaken_call i code.toNat)
        (nofun : CallState.queued ≠ .clearing) .unknown
      have hlookup : (s.messageArrived.deskTaken i code.toNat).lookup code.toNat = .unknown := by
        rw [State.deskTaken_lookup (s := s.messageArrived) hi', State.messageArrived_lookup, State.lookup_unknown hcode]
      have hnames : (s.messageArrived.deskTaken i code.toNat).liveNames i = false :=
        State.liveNames_eq_false.mpr fun r k => by
          rw [State.deskTaken_riser]
          have hnone := (any_toList (s.riser r).live (·.names i)).not.mp (by rw [hlive r]; decide)
          exact Bool.eq_false_iff.mpr fun h => hnone ⟨k, h⟩
      rw [State.setup_unknown hlookup]
      refine ⟨hended.record.trans (by rw [hnames]; rfl), hended.console.trans (if_pos ?_)⟩
      simp [State.deskTaken, ConsoleState.names]
    · have hg := State.setup_granted (s := s.messageArrived.deskTaken i code.toNat) (i := i) (list := list)
        (by rw [State.deskTaken_lookup (s := s.messageArrived) hi', State.messageArrived_lookup, hl])
        (s.messageArrived.deskTaken_call i _) (fun x hx => by rw [State.deskTaken_riser]; exact hfree x hx)
      generalize (s.messageArrived.deskTaken i code.toNat).setup i code.toNat = t at *
      refine ⟨?_, ?_, ?_⟩
      · show t.console = _
        rw [hg.state]
        rfl
      · show t.clu.cursor = _
        rw [hg.state, ConsoleUnit.posted_cursor]
        exact congrArg ConsoleUnit.cursor (if_pos rfl)
      · show t.call i = _
        rw [hg.call]
        rfl

/-! ## ANSWER-NEXT (R40, R124) -/

/-- The reports of the console unit depend on the reports alone. -/
theorem ConsoleUnit.posted_reports {c d : ConsoleUnit} (h : d.reports = c.reports) (x : Report) :
    (d.posted x).reports = (c.posted x).reports := by
  unfold ConsoleUnit.posted
  rw [h]
  split <;> rfl

/-- The head record out of its queue, its slot carrying it and its handset sent ASSIGN. -/
def State.headPlaced (s : State) (i : Rec) (h : Handset) (k : Slot) : State :=
  ({ s.edit h.riser k (.carrying i) with consoleQueue := s.consoleQueue.filter (· ≠ i) } : State).order h (.assign k)

/-- The head record once it is CONNECTED. -/
def State.headAnswered (s : State) (c : Call) : Call :=
  { c with
    state := .connected, waitTimer := .stopped, sequence := some s.takeSequence.1, listenGain := some 64
    talkTimer := .start s.settings.console.talk }

section
variable (s : State) (i : Rec) (c : Call) (h : Handset) (k : Slot)

theorem State.headPlaced_state : s.headPlaced i h k =
    { s with consoleQueue := s.consoleQueue.filter (· ≠ i), risers := (s.headPlaced i h k).risers } := by
  have hsent := State.order_orders { s.edit h.riser k (.carrying i) with consoleQueue := s.consoleQueue.filter (· ≠ i) } h
    (.assign k)
  refine hsent.state.trans ?_
  rw [(s.edit_slots h.riser k (.carrying i)).state]
  rfl

theorem State.headPlaced_staged :
    ((s.headPlaced i h k).riser h.riser).staged = vset (s.riser h.riser).staged k (.carrying i) := by
  have hsent := State.order_orders { s.edit h.riser k (.carrying i) with consoleQueue := s.consoleQueue.filter (· ≠ i) } h
    (.assign k)
  refine (hsent.staged h.riser).trans (vget_ext fun k' => ?_)
  rw [vget_vset]
  exact (State.edit_staged s h.riser h.riser k k' _).trans (by simp)

theorem State.headPlaced_assign (ht : TakesOrders s h) : HasOrder (s.headPlaced i h k) h (.assign k) :=
  State.hasOrder_order (s := { s.edit h.riser k (.carrying i) with consoleQueue := s.consoleQueue.filter (· ≠ i) })
    (((s.edit_slots h.riser k (.carrying i)).takesOrders h).mpr ht) _

/-- The answer of the head record, block by block. -/
theorem State.answerHead_eq : s.answerHead i c h k = { s with
    calls := vset s.takeSequence.2.calls i (some (s.headAnswered c)), sequenceNext := s.takeSequence.2.sequenceNext
    consoleQueue := s.consoleQueue.filter (· ≠ i), console := .talk i, risers := (s.headPlaced i h k).risers
    clu := s.clu.posted (.call (.connected h s.takeSequence.1) (some (i, c.serial)) c.kind c.origin (some .connected)) } := by
  have hplaced : ∀ v : State, v = { s with consoleQueue := s.consoleQueue.filter (· ≠ i), risers := v.risers } →
      ((v.takeSequence.2.setCall i (some { c with
        state := .connected, waitTimer := .stopped, sequence := some v.takeSequence.1, listenGain := some 64
        talkTimer := .start s.settings.console.talk })).setConsole (.talk i)).postCall i (.connected h v.takeSequence.1) =
      { s with
        calls := vset s.takeSequence.2.calls i (some (s.headAnswered c)), sequenceNext := s.takeSequence.2.sequenceNext
        consoleQueue := s.consoleQueue.filter (· ≠ i), console := .talk i, risers := v.risers
        clu := s.clu.posted (.call (.connected h s.takeSequence.1) (some (i, c.serial)) c.kind c.origin
          (some .connected)) } := fun v hv => by
    obtain ⟨hfirst, hcalls, hnext⟩ := State.takeSequence_congr (s := s) (t := v) (by rw [hv]) (by rw [hv])
    rw [v.takeSequence_state, hfirst, hcalls, hnext,
      State.postCall_eq (c := s.headAnswered c) (by exact vget_vset_self ..), hv]
    rfl
  exact hplaced _ (s.headPlaced_state i h k)

end

section
variable {s : State} {i : Rec} {rest : List Rec} {c : Call} {h : Handset} (hi : s.console = .idle)
  (hq : s.consoleQueue = i :: rest) (hc : s.call i = some c) (ho : c.origin = .handset h)
include hi hq hc ho

theorem doAnswerNext_noSlot (hl : (s.riser h.riser).lowestFree = none) :
    doAnswerNext s = refuse s .noSlot [byteOf i.val, byteOf h.riser.val] := by
  have hcaller : c.caller = some h := by rw [Call.caller, ho]
  unfold doAnswerNext
  rw [if_neg (not_not.mpr hi), hq]
  simp only [hc, hcaller, hl]

theorem doAnswerNext_head {k : Slot} (hl : (s.riser h.riser).lowestFree = some k) :
    doAnswerNext s = finished (s.answerHead i c h k) (namedBytes i c.serial ++ [handsetByte h, byteOf k.val]) := by
  have hcaller : c.caller = some h := by rw [Call.caller, ho]
  unfold doAnswerNext
  rw [if_neg (not_not.mpr hi), hq]
  simp only [hc, hcaller, hl]

end

/-- Settles O48: the tests in their order, then the answer of the head record. -/
theorem answerNextConnectsTheHead : Obligations.AnswerNextConnectsTheHead := by
  refine fun s tag ha => ⟨fun hi => ?_, fun hi hq => ?_, fun i rest c h hi hq hc ho hn => ⟨fun hf => ?_,
    fun k hin hk hfirst => ?_⟩⟩
  · exact congrArg Host.Outcome.next (State.request_refused ha (if_pos hi))
  · refine congrArg Host.Outcome.next (State.request_refused ha ((if_neg (not_not.mpr hi)).trans ?_))
    simp only [show s.messageArrived.consoleQueue = [] from hq]
  · exact congrArg Host.Outcome.next (State.request_refused ha (doAnswerNext_noSlot (s := s.messageArrived) hi hq hc ho
      (RiserUnit.lowestFree_eq_none.mpr hf)))
  · have hrun := doAnswerNext_head (s := s.messageArrived) hi hq hc ho (RiserUnit.lowestFree_eq_some.mpr ⟨hin, hk, hfirst⟩)
    obtain ⟨hsequence, hcalls, hnext⟩ := State.takeSequence_congr (s := s) (t := s.messageArrived) rfl rfl
    have hanswer := State.answerHead_eq s.messageArrived i c h k
    refine ⟨_, congrArg Host.Outcome.next (State.request_finished ha hrun), ?_, ?_, ?_, ?_, ?_, fun ht => ?_,
      fun j hj => ?_, ?_⟩ <;> rw [hanswer]
    · show s.consoleQueue.filter (· ≠ i) = rest
      rw [hq] at hn ⊢
      rw [List.filter_cons_of_neg (by simp), List.filter_eq_self.mpr]
      intro x hx
      have := (List.nodup_cons.mp hn).1
      simpa using fun he : x = i => this (he ▸ hx)
    · rfl
    · refine (vget_vset_self ..).trans (congrArg some ?_)
      rw [State.headAnswered, hsequence]
      rfl
    · exact hnext
    · exact State.headPlaced_staged s.messageArrived i h k
    · exact State.headPlaced_assign s.messageArrived i h k ht
    · refine (vget_vset_ne _ (Ne.symm hj) _).trans ?_
      rw [hcalls]
      rfl
    · rw [hsequence]
      rw [← ConsoleUnit.posted_reports (c := s.clu) (d := s.messageArrived.clu) rfl, ConsoleUnit.posted_eq]
      rfl

end Sys2Proof.Machine
end

