-- ==== Sys2Proof/Proofs/Answer.lean ====
section
/-! PROOFS. The answer of a RINGING call (R13, R14, R63). -/

namespace Sys2Proof.Machine

open Sys2Proof Sys2Proof.Safety

/-! ## The answered leg's entry (R14, R63) -/

theorem State.entry_setEntry (s : State) (e : EntryIx) (x : Entry) : (s.setEntry e x).entry e = x := by
  rw [State.entry, State.setEntry, State.dirPage_setDirPage, if_pos rfl, vget_vset_self]

theorem State.answerRead_gain (s : State) (e : Option EntryIx) :
    (s.answerRead e).1 = ((e.bind s.entry).map (·.gain)).getD 64 := by
  unfold State.answerRead
  cases e with
  | none => rfl
  | some e => cases he : s.entry e <;> simp [he]

theorem State.answerRead_state (s : State) (e : Option EntryIx) :
    (s.answerRead e).2 = { s with directory := (s.answerRead e).2.directory } := by
  unfold State.answerRead
  cases e with
  | none => rfl
  | some e => dsimp only; split <;> rfl

theorem State.answerRead_entry {s : State} {e : EntryIx} {d : EntryData} (h : s.entry e = some d) :
    (s.answerRead (some e)).2.entry e = some { d with counter := d.counter + 1 } := by
  unfold State.answerRead
  simp only [h]
  exact s.entry_setEntry e _

/-! ## The stages of an answer -/

/-- The call as its answer leaves it. -/
def State.wonCall (s : State) (c : Call) (n : Nat) (l : Leg) : Call :=
  { c with
    state := .connected, legs := wonLegs n c.legs, answered := some n, sequence := some s.takeSequence.1
    listenGain := some (s.takeSequence.2.answerRead l.entry).1, ringTimer := .stopped
    talkTimer := .start (s.talkSeconds c.origin) }

/-- The sequence and the entry taken, the record written. -/
def State.answerWon (s : State) (i : Rec) (c : Call) (n : Nat) (l : Leg) : State :=
  (s.takeSequence.2.answerRead l.entry).2.setCall i (some (s.wonCall c n l))

/-- The answered riser's slot carries the call, ASSIGN and RING-OFF wait, and the other slots are released. -/
def State.answerPlaced (s : State) (i : Rec) (c : Call) (n : Nat) (l : Leg) : State :=
  (c.riserSet.filter (· ≠ l.handset.riser)).foldl (fun s r => s.releaseOn i r)
    ((losers n c.legs).foldl (fun s m => s.order m.handset .ringOff)
      ((s.carryAnswer i l.handset.riser).assignTo i l.handset))

theorem State.callerAnswered_state (s : State) (i : Rec) (o : Origin) : s.callerAnswered i o =
    { s with panels := (s.callerAnswered i o).panels, clu := (s.callerAnswered i o).clu } := by
  unfold State.callerAnswered
  split
  · rfl
  · split <;> rfl

theorem State.answer_steps (s : State) (i : Rec) (c : Call) (n : Nat) (l : Leg) : s.answer i c n l =
    (((s.answerWon i c n l).answerPlaced i c n l).callerAnswered i c.origin).postCall i
      (.connected l.handset s.takeSequence.1) := rfl

/-- An answer is its two stages, and what the caller and the operator learn of it. -/
theorem State.answer_eq (s : State) (i : Rec) (c : Call) (n : Nat) (l : Leg) : ∃ ps cl, s.answer i c n l =
    { (s.answerWon i c n l).answerPlaced i c n l with panels := ps, clu := cl } := by
  rw [State.answer_steps, State.postCall_state, State.callerAnswered_state]
  exact ⟨_, _, rfl⟩

theorem mem_losers {n : Nat} {legs : List Leg} {x : Leg} :
    x ∈ losers n legs ↔ ∃ m, legs[m]? = some x ∧ m ≠ n ∧ x.state = .ringing := by
  simp only [losers, List.mem_map, List.mem_filter, Prod.exists, List.mem_zipIdx_iff_getElem?, exists_and_right, exists_eq_right]
  simp

/-! ## The slots and orders of an answer -/

/-- Carrying instead of reserving keeps which entries name the record. -/
theorem State.carryAnswer_names (s : State) (i : Rec) (r : Riser) (k : Slot) :
    (vget ((s.carryAnswer i r).riser r).staged k).names i = (vget (s.riser r).staged k).names i := by
  rw [State.carryAnswer, State.modRiser_staged, if_pos rfl]
  simp only [vget_vmap]
  split
  next h => rw [h]; rfl
  · rfl

theorem State.assignTo_orders (s : State) (i : Rec) (h : Handset) : OrdersTo (· = h) s (s.assignTo i h) := by
  unfold State.assignTo
  split
  · exact State.order_orders ..
  · exact .refl _ s

section
variable {s : State} {i : Rec} {c : Call} {n : Nat} {l : Leg}

theorem State.answerPlaced_losers (s : State) : OrdersTo (fun x => ∃ m ∈ losers n c.legs, m.handset = x)
    ((s.carryAnswer i l.handset.riser).assignTo i l.handset)
    ((losers n c.legs).foldl (fun s m => s.order m.handset .ringOff)
      ((s.carryAnswer i l.handset.riser).assignTo i l.handset)) :=
  .foldl (fun m hm s => (s.order_orders _ _).mono fun _ hx => ⟨m, hm, hx.symm⟩) _

theorem State.answerPlaced_state (s : State) :
    s.answerPlaced i c n l = { s with risers := (s.answerPlaced i c n l).risers } := by
  unfold State.answerPlaced
  rw [(SlotsTo.foldl (fun s r => State.releaseOn_slots s i r) _ _).state, (State.answerPlaced_losers s).state,
    (State.assignTo_orders _ i l.handset).state, (s.carryAnswer_slots i l.handset.riser).state]

/-- The staged entries before the releases. -/
theorem State.answerPlaced_staged (s : State) (r : Riser) (k : Slot) :
    vget ((s.answerPlaced i c n l).riser r).staged k =
      if r ∈ c.riserSet.filter (· ≠ l.handset.riser) ∧
          (vget ((s.carryAnswer i l.handset.riser).riser r).staged k).names i = true then .idle
      else vget ((s.carryAnswer i l.handset.riser).riser r).staged k := by
  rw [State.answerPlaced, State.releaseList_staged, (State.answerPlaced_losers s).staged, (State.assignTo_orders ..).staged]

theorem State.answerPlaced_carries {k : Slot} (h : vget (s.riser l.handset.riser).staged k = .reserved i) :
    vget ((s.answerPlaced i c n l).riser l.handset.riser).staged k = .carrying i := by
  rw [State.answerPlaced_staged, if_neg (by simp), State.carryAnswer, State.modRiser_staged, if_pos rfl]
  simp [h]

theorem State.answerPlaced_released {r : Riser} (hr : r ∈ c.riserSet) (hne : r ≠ l.handset.riser) (k : Slot) :
    (vget ((s.answerPlaced i c n l).riser r).staged k).names i = false := by
  rw [State.answerPlaced_staged]
  split
  · rfl
  next h => exact Bool.eq_false_iff.mpr fun hk => h ⟨List.mem_filter.mpr ⟨hr, by simpa using hne⟩, hk⟩

/-- An order that waits once ASSIGN is sent and that no loser's RING-OFF replaces still waits. -/
theorem State.answerPlaced_queue (r : Riser) : ((s.answerPlaced i c n l).riser r).queue =
    (((losers n c.legs).foldl (fun s m => s.order m.handset .ringOff)
      ((s.carryAnswer i l.handset.riser).assignTo i l.handset)).riser r).queue :=
  (SlotsTo.foldl (fun s r => State.releaseOn_slots s i r) _ _).queue r

/-- ASSIGN waits for the winner, whose handset is no loser's. -/
theorem State.answerPlaced_assign (hn : (c.legs.map (·.handset)).Nodup) (hl : c.legs[n]? = some l) {k : Slot}
    (hk : (s.riser l.handset.riser).slotOf i = some k) (ht : TakesOrders s l.handset) :
    HasOrder (s.answerPlaced i c n l) l.handset (.assign k) := by
  have hslot : ((s.carryAnswer i l.handset.riser).riser l.handset.riser).slotOf i = some k := by
    rw [← hk, RiserUnit.slotOf, RiserUnit.slotOf]
    simp only [State.carryAnswer_names]
  have hassigned : HasOrder ((s.carryAnswer i l.handset.riser).assignTo i l.handset) l.handset (.assign k) := by
    unfold State.assignTo
    rw [hslot]
    exact State.hasOrder_order (((s.carryAnswer_slots i l.handset.riser).takesOrders _).mpr ht) _
  unfold HasOrder
  rw [State.answerPlaced_queue]
  refine (State.answerPlaced_losers s).hasOrder ?_ hassigned
  rintro ⟨x, hx, hh⟩
  obtain ⟨m, hm, hmn, -⟩ := mem_losers.mp hx
  refine hmn ((List.getElem?_inj (by simpa using (List.getElem?_eq_some_iff.mp hm).1) hn).mp ?_)
  rw [List.getElem?_map, List.getElem?_map, hm, hl, Option.map_some, Option.map_some, hh]

/-- RING-OFF waits for each loser. -/
theorem State.answerPlaced_ringOff {m : Nat} {x : Leg} (hm : c.legs[m]? = some x)
    (hmn : m ≠ n) (hx : x.state = .ringing) (ht : TakesOrders s x.handset) :
    HasOrder (s.answerPlaced i c n l) x.handset .ringOff := by
  unfold HasOrder
  rw [State.answerPlaced_queue]
  refine State.hasOrder_foldl_same Leg.handset .ringOff (mem_losers.mpr ⟨m, hm, hmn, hx⟩) ?_
  rw [(State.assignTo_orders ..).takesOrders, (s.carryAnswer_slots ..).takesOrders]
  exact ht

end

/-! ## The off-hook that answers (R13) -/

theorem State.offHook_answers {s : State} {h : Handset} {i : Rec} {c : Call} {n : Nat} {l : Leg} (hl : s.liveRecord h = some i)
    (hc : s.call i = some c) (hf : c.findLeg h = some (l, n)) (hr : c.state = .ringing ∧ l.state = .ringing) :
    s.offHook h = s.answer i c n l := by
  unfold State.offHook
  simp only [hl, hc, hf, if_pos hr]

/-- The record of an answer, from the part before the hook changed. -/
theorem State.hooked_wonCall (s : State) (h : Handset) (c : Call) (n : Nat) (l : Leg) :
    (s.hooked h true).wonCall c n l = { c with
      state := .connected, answered := some n, sequence := some s.takeSequence.1, ringTimer := .stopped
      legs := wonLegs n c.legs
      listenGain := some (((l.entry.bind s.entry).map (·.gain)).getD 64), talkTimer := .start (s.talkSeconds c.origin) } := by
  obtain ⟨hfirst, -, -⟩ := State.takeSequence_congr (s := s) (t := s.hooked h true) rfl rfl
  have hentry : (s.hooked h true).takeSequence.2.entry = s.entry := by rw [State.takeSequence_state]; rfl
  rw [State.wonCall, hfirst, State.answerRead_gain, hentry]
  rfl

/-- Settles O20: the stages of the answer, from the part before the hook changed. -/
theorem theFirstOffHookWinsTheCall : Obligations.TheFirstOffHookWinsTheCall := by
  intro s i c n l hc hs hl hf hr hp hn
  have hleg := (Call.findLeg_some hf).1
  have hevent : s.hookEvent l.handset true = State.settled s ((s.hooked l.handset true).answer i c n l) := by
    rw [State.hookEvent_changed (by rw [hp]; decide), if_pos rfl,
      State.offHook_answers (s := s.hooked l.handset true) hl hc hf ⟨hs, hr⟩]
  obtain ⟨ps, cl, hanswer⟩ := State.answer_eq (s.hooked l.handset true) i c n l
  have hpresence := (State.answer_touch (s.hooked l.handset true) i c n l).presence l.handset
  obtain ⟨-, hcalls, hnext⟩ := State.takeSequence_congr (s := s) (t := s.hooked l.handset true) rfl rfl
  have hwon : (s.hooked l.handset true).answerWon i c n l = { s.hooked l.handset true with
      directory := ((s.hooked l.handset true).takeSequence.2.answerRead l.entry).2.directory
      calls := vset s.takeSequence.2.calls i (some ((s.hooked l.handset true).wonCall c n l))
      sequenceNext := s.takeSequence.2.sequenceNext } := by
    rw [State.answerWon, State.answerRead_state, ← hcalls, ← hnext, State.takeSequence_state]
    rfl
  have hplaced := State.answerPlaced_state (i := i) (c := c) (n := n) (l := l) ((s.hooked l.handset true).answerWon i c n l)
  have halike := s.hooked_alike l.handset true
  have hriser : ∀ r, ((s.hooked l.handset true).answer i c n l).riser r =
      (((s.hooked l.handset true).answerWon i c n l).answerPlaced i c n l).riser r := fun r => by rw [hanswer]; rfl
  have hstaged : ∀ r, (((s.hooked l.handset true).answerWon i c n l).riser r).staged = (s.riser r).staged := fun r => by
    rw [hwon]; exact (halike.riser r).2.1
  have htakes : ∀ {x}, TakesOrders s x → TakesOrders ((s.hooked l.handset true).answerWon i c n l) x := fun ht => by
    rw [hwon]; exact halike.takesOrders ht
  refine ⟨(s.hooked l.handset true).answer i c n l, hevent, ?_, ?_, ?_, fun e d he hd => ?_, fun k hk => ?_,
    fun r hrc hne k => ?_, fun k hk ht => ?_, fun m x hm hmn hx ht => ?_, fun j hj => ?_⟩
  · rw [hanswer, hplaced, hwon]
    exact (vget_vset_self ..).trans (congrArg some (s.hooked_wonCall l.handset c n l))
  · rw [hanswer, hplaced, hwon]
  · rw [hpresence, State.hooked_presence, if_pos rfl]
  · have hentry : (s.hooked l.handset true).takeSequence.2.entry e = some d := by rw [State.takeSequence_state]; exact hd
    rw [hanswer, hplaced, hwon, he]
    exact State.answerRead_entry hentry
  · rw [hriser]
    exact State.answerPlaced_carries (by rw [hstaged]; exact hk)
  · rw [hriser]
    exact State.answerPlaced_released hrc hne k
  · have hassign : HasOrder (((s.hooked l.handset true).answerWon i c n l).answerPlaced i c n l) l.handset (.assign k) :=
      State.answerPlaced_assign hn hleg (by rw [← hk, RiserUnit.slotOf, RiserUnit.slotOf, hstaged]) (htakes ht)
    unfold HasOrder
    rw [hriser]
    exact hassign
  · have hring : HasOrder (((s.hooked l.handset true).answerWon i c n l).answerPlaced i c n l) x.handset .ringOff :=
      State.answerPlaced_ringOff hm hmn hx (htakes ht)
    unfold HasOrder
    rw [hriser]
    exact hring
  · rw [hanswer, hplaced, hwon]
    exact vget_vset_ne _ (Ne.symm hj) _

end Sys2Proof.Machine
end

