-- ==== Sys2Proof/Proofs/PanelLinks.lean ====
section
/-! PROOFS. The loss of a panel link, and of its call (R16, R102, R105). -/

namespace Sys2Proof.Machine

open Sys2Proof Sys2Proof.Safety

/-! ## The loss of a panel link (R105) -/

theorem PanelUnit.leaving_eq (target : LinkState) (u : PanelUnit) : u.leaving target = { u with
    link := { u.link with state := target }, output := none, endTone := none
    cursor := if u.endTone.isSome then none else u.cursor } := PanelUnit.endToneStopped_eq _

/-- The ending of a call starts no end tone at a panel that is not in UP. -/
theorem State.panelEnded_endTone {s : State} {p : Panel} (h : (s.panel p).link.state ≠ .up) (o : Origin) (cause : EndCause) :
    ((s.panelEnded o cause).panel p).endTone = (s.panel p).endTone := by
  unfold State.panelEnded
  split
  next q =>
    rw [State.panel_modPanel]
    split
    next hq =>
      subst hq
      unfold PanelUnit.endToned
      split
      · rw [if_neg (by simpa using h)]; simp
      · simp
    · rfl
  · rfl

theorem State.endCall_endTone {s : State} {p : Panel} (h : (s.panel p).link.state ≠ .up) (i : Rec) (cause : EndCause) :
    ((s.endCall i cause).panel p).endTone = (s.panel p).endTone := by
  cases hc : s.call i with
  | none => rw [State.endCall, hc]
  | some c =>
    by_cases hs : c.state = .clearing
    · rw [State.endCall, hc]
      exact congrArg (fun v : State => (v.panel p).endTone) (if_pos hs)
    · rw [State.panel, State.endCall_panels hc hs]
      exact State.panelEnded_endTone h c.origin cause

section
variable (s : State) (p : Panel) (target : LinkState) (event : LinkEvent)

/-- What the ending of its call leaves of the panel whose link is lost. -/
theorem State.panelLeft_panel (ht : target ≠ .up) :
    ((s.panelLeft p target).panel p).link = { (s.panel p).link with state := target } ∧
    ((s.panelLeft p target).panel p).output = none ∧ ((s.panelLeft p target).panel p).endTone = none := by
  have hleaving : (s.modPanel p (·.leaving target)).panel p = (s.panel p).leaving target := by
    rw [State.panel_modPanel, if_pos rfl]
  have hlink : ((s.modPanel p (·.leaving target)).panel p).link = { (s.panel p).link with state := target } := by
    rw [hleaving, PanelUnit.leaving_eq]
  unfold State.panelLeft
  split
  next i _ =>
    have htouch := (s.modPanel p (·.leaving target)).endCall_touch i .linkLost
    refine ⟨(htouch.link p).trans hlink, (htouch.output p).trans ?_, (State.endCall_endTone ?_ i _).trans ?_⟩
    · rw [hleaving, PanelUnit.leaving_eq]
    · rw [hlink]; exact ht
    · rw [hleaving, PanelUnit.leaving_eq]
  · rw [hleaving, PanelUnit.leaving_eq]
    exact ⟨rfl, rfl, rfl⟩

theorem State.panelLost_panel :
    (s.panelLost p target event).panel p = ((s.panelLeft p target).panel p).drained := by
  rw [State.panelLost_eq]
  exact vget_vset_self ..

/-- The panel of a lost link: no output, no end tone, no message and no sample. -/
theorem State.panelLost_drained (ht : target ≠ .up) :
    ((s.panelLost p target event).panel p).link = { state := target, good := 0, bad := 0 } ∧
    ((s.panelLost p target event).panel p).output = none ∧ ((s.panelLost p target event).panel p).endTone = none ∧
    ((s.panelLost p target event).panel p).sendQueue = [] ∧ ((s.panelLost p target event).panel p).fifo.samples = [] ∧
    ((s.panelLost p target event).panel p).fifo.uplink = 0 := by
  obtain ⟨hlink, houtput, htone⟩ := s.panelLeft_panel p target ht
  rw [State.panelLost_panel]
  exact ⟨by rw [PanelUnit.drained, hlink], houtput, htone, rfl, rfl, rfl⟩

/-- With no call on the panel its link alone is lost. -/
theorem State.panelLost_none (hc : (s.panel p).current = none) : s.panelLost p target event =
    { s.setPanel p ((s.panelLost p target event).panel p) with clu := s.clu.posted (.link event (some p) none) } := by
  have hleft : s.panelLeft p target = s.modPanel p (·.leaving target) := by unfold State.panelLeft; rw [hc]
  rw [State.panelLost_panel, State.panelLost_eq, hleft, State.modPanel_modPanel, State.panel_modPanel, if_pos rfl, hc]
  rfl

end

/-- The call on a panel whose link is lost ends LINK-LOST, and the LINK report names it. -/
theorem State.panelLost_ended {s : State} {p : Panel} {target : LinkState} {i : Rec} {c : Call} (ht : target ≠ .up)
    (hi : (s.panel p).current = some i) (hc : s.call i = some c) (hs : c.state ≠ .clearing) (event : LinkEvent) :
    Ended s (s.panelLost p target event) i c .linkLost ∧
      (s.panelLost p target event).clu.reports.getLast? = some (.link event (some p) (some (i, c.serial))) := by
  have hleft : s.panelLeft p target = (s.modPanel p (·.leaving target)).endCall i .linkLost := by
    unfold State.panelLeft; rw [hi]
  have hlost : s.panelLost p target event = ((s.panelLeft p target).modPanel p (·.drained)).post
      (.link event (some p) (some (i, c.serial))) := by
    rw [State.panelLost_eq, hi, Option.bind_some, hc]; rfl
  have hended := State.endCall_ended (s := s.modPanel p (·.leaving target)) hc hs .linkLost
  have hrecent : (s.panelLeft p target).clu.Recent 0 (.call (.ended .linkLost c.held) (some (i, c.serial)) c.kind c.origin
      (some .clearing)) := by
    rw [hleft, State.endCall_clu (s := s.modPanel p (·.leaving target)) hc hs]
    exact ConsoleUnit.recent_posted ..
  have hpanel : ∀ q, ((s.panelLost p target event).panel q).link.state = .up →
      (s.panelLost p target event).panel q = (s.panelLeft p target).panel q ∧
      (s.modPanel p (·.leaving target)).panel q = s.panel q := fun q hq => by
    have hne : p ≠ q := by
      rintro rfl
      rw [(s.panelLost_drained p target event ht).1] at hq
      exact ht hq
    refine ⟨?_, by rw [State.panel_modPanel, if_neg hne]⟩
    rw [hlost]
    exact vget_vset_ne _ hne _
  rw [hleft] at hrecent hlost hpanel
  refine ⟨{ record := ?_, queues := ?_, staged := ?_, console := ?_, notice := ?_, panel := fun q hq => ?_
            message := fun q hq hu => ?_, tone := fun q hq hu => ?_, orders := ?_, others := ?_
            report := ⟨some .clearing, ?_⟩, calls := ?_, live := ?_, frame := ?_ }, ?_⟩
  · rw [hlost]; exact hended.record
  · rw [hlost]; exact hended.queues
  · rw [hlost]; exact hended.staged
  · rw [hlost]; exact hended.console
  · rw [hlost]; exact hended.notice
  · have hcurrent := hended.panel q hq
    rw [hlost]
    show ((State.modPanel _ p (·.drained)).panel q).current = none
    rw [State.panel_modPanel]
    split
    next hpq => subst hpq; exact hcurrent
    · exact hcurrent
  · obtain ⟨h1, h2⟩ := hpanel q hu
    rw [h1] at hu ⊢
    rw [hended.message q hq hu, h2]
  · obtain ⟨h1, h2⟩ := hpanel q hu
    rw [h1] at hu ⊢
    rw [hended.tone q hq hu, h2]
  · rw [hlost]; exact hended.orders
  · rw [hlost]; exact hended.others
  · rw [hlost]
    exact (hrecent.posted (by decide) _).mem
  · rw [hlost]; exact hended.calls
  · rw [hlost]; exact hended.live
  · rw [hlost, hended.frame]; rfl
  · rw [hlost]; exact ConsoleUnit.posted_getLast ..

/-- What the loss of a panel link may change. -/
theorem State.panelLost_state (s : State) (p : Panel) (target : LinkState) (event : LinkEvent) :
    s.panelLost p target event = { s with
      calls := (s.panelLost p target event).calls, waitQueue := (s.panelLost p target event).waitQueue
      consoleQueue := (s.panelLost p target event).consoleQueue, console := (s.panelLost p target event).console
      risers := (s.panelLost p target event).risers, panels := (s.panelLost p target event).panels
      clu := (s.panelLost p target event).clu, notice := (s.panelLost p target event).notice } ∧
    (s.panelLost p target event).clu = { s.clu with
      reports := (s.panelLost p target event).clu.reports, gap := (s.panelLost p target event).clu.gap
      cursor := (s.panelLost p target event).clu.cursor } := by
  rw [State.panelLost_eq]
  unfold State.panelLeft
  split
  next i _ =>
    have hclu := ((s.modPanel p (·.leaving target)).endCall_touch i .linkLost).clu
    refine ⟨?_, ConsoleUnit.posted_of_eq hclu _⟩
    rw [State.endCall_state]
    rfl
  · exact ⟨rfl, ConsoleUnit.posted_of_eq (c := s.clu) (d := s.clu) rfl _⟩

/-- Settles O28: the fourth bad frame is the loss of the link, as an event. -/
theorem theFourthBadFrameLosesAPanelLink : Obligations.TheFourthBadFrameLosesAPanelLink := by
  intro s p hr hu hb
  have hlost := s.panelLost_drained p .hunt .lost (by decide)
  obtain ⟨hlink, houtput, htone, hqueue, hsamples, huplink⟩ := hlost
  have hbad : ¬ (s.panel p).link.bad + 1 < Config.badToHunt := Nat.not_lt.mpr (Nat.succ_le_succ hb)
  refine ⟨s.panelLost p .hunt .lost, ?_, by rw [hlink], by rw [hlink], by rw [hlink], houtput, htone, hqueue, hsamples, huplink,
    fun i c hi hc hs => State.panelLost_ended (by decide) hi hc hs _, State.panelLost_none s p .hunt .lost⟩
  simp only [exec, execPanelWindowClose, State.whenRunning_running hr, State.panelBad, hu]
  rw [if_neg hbad]
  rfl

end Sys2Proof.Machine
end

