-- ==== Sys2Proof/Proofs/PanelSet.lean ====
section
/-! PROOFS. PANEL-SET: its clamps, its reply, and what it does to the panel (R188, R189). -/

namespace Sys2Proof.Machine

open Sys2Proof Sys2Proof.Safety

/-! ## Bytes of replies (R208) -/

theorem byteOf_toNat (b : Byte) : byteOf b.toNat = b := by simp [byteOf]

/-- A number that fits a byte is the one the byte carries. -/
theorem byteOf_eq_iff {n : Nat} (h : n < 256) (b : Byte) : byteOf n = b ↔ n = b.toNat := by
  rw [← BitVec.toNat_inj, byteOf, BitVec.toNat_ofNat, Nat.mod_eq_of_lt h]

theorem wordBytes_inj {a b : Word} : wordBytes a = wordBytes b ↔ a = b := by
  refine ⟨fun h => ?_, fun h => by rw [h]⟩
  simp only [wordBytes, List.cons.injEq, and_true, ← BitVec.toNat_inj, BitVec.extractLsb'_toNat, Nat.shiftRight_eq_div_pow] at h
  rw [← BitVec.toNat_inj]
  have ha := a.isLt
  have hb := b.isLt
  omega

/-- A number that fits two bytes is the one they carry. -/
theorem wordOf_eq_iff {n : Nat} (h : n < 65536) (w : Word) : wordOf n = wordBytes w ↔ n = w.toNat := by
  rw [wordOf, wordBytes_inj, ← BitVec.toNat_inj, BitVec.toNat_ofNat, Nat.mod_eq_of_lt h]

/-- A flag byte is sent back as 0 or 1. -/
theorem byteOf_bit (b : Byte) : byteOf (bit (b != 0)) = if b = 0 then 0 else 1 := by
  by_cases h : b = 0
  · subst h; rfl
  · rw [if_neg h, bne_iff_ne.mpr h]; rfl

theorem flag_eq_iff (b : Byte) : (if b = 0 then 0 else 1) = b ↔ b.toNat ≤ 1 := by
  by_cases h : b = 0
  · simp [h]
  · have hb : b.toNat ≠ 0 := fun hn => h (BitVec.toNat_inj.mp (by simpa using hn))
    rw [if_neg h, ← BitVec.toNat_inj]
    simp
    omega

/-- A request that is carried out, DONE or ADJUSTED, leaves what it makes of the state, and its reply. -/
theorem State.request_settled {s t : State} (h : Accepts s) {tag : Byte} {q : Request} {asSent : Bool} {data : List Byte}
    (hq : q.run s.messageArrived = settledReply t asSent data) : s.request tag q = t.reply
      { tag := tag, result := if asSent then .done else .adjusted, reason := .none, data := data } := by
  rw [State.request_accepted h, State.execute_eq, hq]; rfl

/-- A report waits as it would have, had the message not been taken. -/
theorem ConsoleUnit.posted_received (c : ConsoleUnit) (x : Report) :
    ({ c with receiver := .waiting, buffer := [] } : ConsoleUnit).posted x =
      { c.posted x with receiver := .waiting, buffer := [] } := by
  unfold ConsoleUnit.posted
  dsimp only
  split <;> rfl

/-! ## The profile and the reply of PANEL-SET -/

/-- The profile that a PANEL-SET gives its panel. -/
theorem clampedPanel_eq (installed gain ring : Byte) (talk : Word) (strike : Byte) : clampedPanel installed gain ring talk strike =
    { installed := installed != 0, gain := gain.toNat, ring := max 5 (min 120 ring.toNat)
      talk := max 10 (min 600 talk.toNat), strike := max 1 (min 15 strike.toNat) } := by
  unfold clampedPanel clamped
  congr 1
  by_cases h : installed = 0
  · subst h; rfl
  · rw [bne_iff_ne.mpr h]; exact decide_eq_true h

section
variable (installed gain ring : Byte) (talk : Word) (strike : Byte) {new : PanelProfile}
  (hnew : new = { installed := installed != 0, gain := gain.toNat, ring := max 5 (min 120 ring.toNat)
                  talk := max 10 (min 600 talk.toNat), strike := max 1 (min 15 strike.toNat) })
include hnew

theorem panelFields_written : panelFields new =
    [if installed = 0 then 0 else 1, gain, byteOf new.ring] ++ wordOf new.talk ++ [byteOf new.strike] := by
  have h1 : byteOf (bit new.installed) = if installed = 0 then 0 else 1 := by rw [hnew]; exact byteOf_bit installed
  have h2 : byteOf new.gain = gain := by rw [hnew]; exact byteOf_toNat gain
  rw [panelFields, h1, h2]

/-- The reply carries what was sent when no value was replaced. -/
theorem panelFields_sent_iff : panelFields new = [installed, gain, ring] ++ wordBytes talk ++ [strike] ↔
    installed.toNat ≤ 1 ∧ new.ring = ring.toNat ∧ new.talk = talk.toNat ∧ new.strike = strike.toNat := by
  have hring : new.ring < 256 := by rw [hnew]; dsimp only; omega
  have htalk : new.talk < 65536 := by rw [hnew]; dsimp only; omega
  have hstrike : new.strike < 256 := by rw [hnew]; dsimp only; omega
  rw [panelFields_written installed gain ring talk strike hnew, ← flag_eq_iff, ← byteOf_eq_iff hring, ← wordOf_eq_iff htalk,
    ← byteOf_eq_iff hstrike]
  simp only [wordOf, wordBytes, List.cons_append, List.nil_append, List.cons.injEq, and_true, true_and]
  tauto

end

/-! ## The panel of a PANEL-SET (R115, R156, R189) -/

theorem State.setPanel_setPanel (s : State) (p : Panel) (u v : PanelUnit) : (s.setPanel p u).setPanel p v = s.setPanel p v :=
  congrArg (fun ps => ({ s with panels := ps } : State)) (vset_vset s.panels p u v)

theorem State.panelGained_eq (s : State) (p : Panel) (old new : PanelProfile) : s.panelGained p old new =
    s.setPanel p { s.panel p with
      output := if new.gain = old.gain then (s.panel p).output else (s.panel p).output.map fun _ => .fresh new.gain } := by
  unfold State.panelGained
  split
  · exact (s.setPanel_self p).symm
  · rfl

section
variable {s : State} {p : Panel} {old new : PanelProfile}

theorem State.panelGained_link : ((s.panelGained p old new).panel p).link = (s.panel p).link := by
  rw [State.panelGained_eq, State.panel_setPanel, if_pos rfl]

theorem State.panelChanged_same (h : new.installed = old.installed) : s.panelChanged p old new = s.panelGained p old new := by
  rw [State.panelChanged_eq s p old new rfl, if_pos h]

/-- A panel newly installed enters HUNT from DOWN (R103). -/
theorem State.panelChanged_installed (ho : old.installed = false) (hn : new.installed = true)
    (hl : (s.panel p).link.state = .down) :
    s.panelChanged p old new = (s.panelGained p old new).modPanel p (·.hunting) := by
  rw [State.panelChanged_eq s p old new rfl, if_neg (by simp [ho, hn]), if_pos hn, if_pos (by rw [State.panelGained_link, hl])]

/-- A panel removed leaves HUNT or UP for DOWN (R103, R105). -/
theorem State.panelChanged_removed (ho : old.installed = true) (hn : new.installed = false) : s.panelChanged p old new =
    if (s.panel p).link.state = .down then s.panelGained p old new
    else (s.panelGained p old new).panelLost p .down .removed := by
  rw [State.panelChanged_eq s p old new rfl, if_neg (by simp [ho, hn]), if_neg (by simp [hn]), State.panelGained_link]

end

/-- The loss of a panel link, and the change of a panel, as far as PANEL-SET's statement goes. -/
theorem State.panelChanged_state (s : State) (p : Panel) (old new : PanelProfile) :
    s.panelChanged p old new = { s with
      calls := (s.panelChanged p old new).calls, waitQueue := (s.panelChanged p old new).waitQueue
      consoleQueue := (s.panelChanged p old new).consoleQueue, console := (s.panelChanged p old new).console
      risers := (s.panelChanged p old new).risers, panels := (s.panelChanged p old new).panels
      clu := (s.panelChanged p old new).clu, notice := (s.panelChanged p old new).notice } ∧
    (s.panelChanged p old new).clu = { s.clu with
      reports := (s.panelChanged p old new).clu.reports, gap := (s.panelChanged p old new).clu.gap
      cursor := (s.panelChanged p old new).clu.cursor } := by
  have hgain : s.panelGained p old new = { s with panels := (s.panelGained p old new).panels } := by
    rw [State.panelGained_eq]; rfl
  rw [State.panelChanged_eq s p old new rfl]
  generalize s.panelGained p old new = g at hgain
  split_ifs
  · rw [hgain]; exact ⟨rfl, rfl⟩
  · rw [hgain]; exact ⟨rfl, rfl⟩
  · rw [hgain]; exact ⟨rfl, rfl⟩
  · rw [hgain]; exact ⟨rfl, rfl⟩
  · have hlost := State.panelLost_state g p .down .removed
    rw [hgain] at hlost ⊢
    exact hlost

/-- A scan leaves a panel whose link is lost as it is, and the record of its call. -/
theorem State.panelLost_settled (s w : State) (p : Panel) (event : LinkEvent) :
    ((State.settled s (w.panelLost p .down event)).panel p).link.state = .down ∧
    ((State.settled s (w.panelLost p .down event)).panel p).output = none ∧
    ((State.settled s (w.panelLost p .down event)).panel p).sendQueue = [] ∧
    ∀ i c, (w.panel p).current = some i → w.call i = some c → c.state ≠ .clearing →
      (State.settled s (w.panelLost p .down event)).call i =
        if w.liveNames i then some (clearedRecord c .linkLost) else none := by
  obtain ⟨hlink, houtput, -, hqueue, -⟩ := w.panelLost_drained p .down event (by decide)
  have hscan := State.settled_scanned s (w.panelLost p .down event)
  refine ⟨by rw [hscan.link, hlink], ?_, ?_, fun i c hi hc hs => ?_⟩
  · rw [(State.settled_touch s (w.panelLost p .down event)).output, houtput]
  · rw [hscan.sendQueue p (by rw [hlink]; decide), hqueue]
  · have hrecord := (State.panelLost_ended (target := .down) (by decide) hi hc hs event).1.record
    rw [hscan.kept i ?_, hrecord]
    intro d hd
    rw [hrecord] at hd
    split at hd
    · cases hd; exact nofun
    · cases hd

/-! ## PANEL-SET (R189) -/

/-- What the removal of a panel in HUNT or UP makes of it, of its call and of the reports. -/
def PanelRemoved (s u : State) (p : Panel) : Prop :=
  (u.panel p).link.state = .down ∧ (u.panel p).link.good = 0 ∧ (u.panel p).output = none ∧
  (u.panel p).endTone = none ∧ (u.panel p).sendQueue = [] ∧ (u.panel p).fifo.samples = [] ∧
  (u.panel p).fifo.uplink = 0 ∧ u.clu.receiver = .waiting ∧ u.clu.buffer = [] ∧
  ∀ i c, (s.panel p).current = some i → s.call i = some c → c.state ≠ .clearing →
    u.call i = (if s.liveNames i then some (clearedRecord c .linkLost) else none) ∧
    u.clu.reports.getLast? = some (.link .removed (some p) (some (i, c.serial)))

/-- The part with the message taken and the panel's profile written. -/
def State.panelWritten (s : State) (p : Panel) (new : PanelProfile) : State :=
  s.messageArrived.setSettings { s.settings with panels := vset s.settings.panels p new }

/-- A PANEL-SET of a panel that exists: the change as an event, and the reply. -/
theorem exec_panelSet {s : State} {tag panel installed gain ring : Byte} {talk : Word} {strike : Byte} {p : Panel}
    (ha : Accepts s) (hp : panel.toNat = p.val) {new : PanelProfile} (hnew : new =
      { installed := installed != 0, gain := gain.toNat, ring := max 5 (min 120 ring.toNat)
        talk := max 10 (min 600 talk.toNat), strike := max 1 (min 15 strike.toNat) }) :
    exec (.panelSet tag panel installed gain ring talk strike) s = .next ((State.settled s
      ((s.panelWritten p new).panelChanged p (s.panelProfile p) new)).reply {
        tag := tag, reason := .none
        result := if installed.toNat ≤ 1 ∧ new.ring = ring.toNat ∧ new.talk = talk.toNat ∧ new.strike = strike.toNat
          then .done else .adjusted
        data := [panel, if installed = 0 then 0 else 1, gain, byteOf new.ring] ++ wordOf new.talk
          ++ [byteOf new.strike] }) := by
  have hindex : Fin.ofNat 6 panel.toNat = p := Fin.ext (by simp [hp])
  have hrange : ¬ 5 < panel.toNat := by rw [hp]; have := p.isLt; omega
  have hrun : doPanelSet panel installed gain ring talk strike s.messageArrived = settledReply
      (State.settled s ((s.panelWritten p new).panelChanged p (s.panelProfile p) new))
      (panelFields new = [installed, gain, ring] ++ wordBytes talk ++ [strike]) (panel :: panelFields new) := by
    unfold doPanelSet
    simp only [if_neg hrange, hindex, clampedPanel_eq, ← hnew]
    rw [State.event]
    exact congrArg (settledReply · _ _) (State.settled_congr (s := s) (fun _ => rfl) _)
  refine congrArg Host.Outcome.next ((State.request_settled ha (q := .panelSet panel installed gain ring talk strike)
    hrun).trans ?_)
  rw [panelFields_written installed gain ring talk strike hnew]
  simp only [decide_eq_true_eq, panelFields_written installed gain ring talk strike hnew,
    ← panelFields_sent_iff installed gain ring talk strike hnew]
  rfl

section
variable (s : State) (p : Panel) (old new : PanelProfile)

@[simp] theorem State.panelWritten_panel (q : Panel) : (s.panelWritten p new).panel q = s.panel q := rfl

/-- Settings, directory, tones, store and replies after PANEL-SET's change and the scan. -/
theorem State.panelWritten_settled (t : State) (ht : t = State.settled s ((s.panelWritten p new).panelChanged p old new)) :
    t.settings = { s.settings with panels := vset s.settings.panels p new } ∧ t.clu.replies = s.clu.replies ∧
      t.directory = s.directory ∧ t.tones = s.tones ∧ t.store = s.store := by
  obtain ⟨hstate, hclu⟩ := (s.panelWritten p new).panelChanged_state p old new
  have hscan := State.settled_scanned s ((s.panelWritten p new).panelChanged p old new)
  have htouch := State.settled_touch s ((s.panelWritten p new).panelChanged p old new)
  rw [← ht] at hscan htouch
  generalize (s.panelWritten p new).panelChanged p old new = u at hstate hclu hscan htouch
  refine ⟨?_, ?_, ?_, ?_, ?_⟩
  · rw [hscan.state, hstate]; rfl
  · rw [htouch.clu, hclu]; rfl
  · rw [hscan.state, hstate]; rfl
  · rw [hscan.state, hstate]; rfl
  · rw [hscan.state, hstate]; rfl

/-- A panel that stays installed or not: at most its output is reset (R156). -/
theorem State.panelWritten_same (h : old.installed = new.installed) :
    State.settled s ((s.panelWritten p new).panelChanged p old new) =
      ((s.panelWritten p new).setPanel p { s.panel p with
        output := if new.gain = old.gain then (s.panel p).output else (s.panel p).output.map fun _ => .fresh new.gain }) := by
  rw [State.panelChanged_same h.symm, State.panelGained_eq]
  exact State.settled_unraised fun _ => Nat.le_refl _

/-- A panel newly installed: it enters HUNT and sends silence (R101, R103). -/
theorem State.panelWritten_installed (ho : old.installed = false) (hn : new.installed = true)
    (hl : (s.panel p).link.state = .down) :
    ((State.settled s ((s.panelWritten p new).panelChanged p old new)).panel p).link.state = .hunt ∧
    ((State.settled s ((s.panelWritten p new).panelChanged p old new)).panel p).link.good = 0 ∧
    ∃ f, ((State.settled s ((s.panelWritten p new).panelChanged p old new)).panel p).frame = some f ∧
      panelFrameGood f = true ∧ f.sample = 0 ∧ f.code = 0x00 := by
  have hsettled : State.settled s ((s.panelWritten p new).panelChanged p old new) =
      ((s.panelWritten p new).panelGained p old new).modPanel p (·.hunting) := by
    rw [State.panelChanged_installed (s := s.panelWritten p new) ho hn hl, State.panelGained_eq]
    exact State.settled_unraised fun _ => Nat.le_refl _
  rw [hsettled, State.panel_modPanel, if_pos rfl]
  refine ⟨rfl, rfl, _, rfl, ?_, rfl, rfl⟩
  rw [panelFrameGood, makePanelFrame, beq_self_eq_true, Bool.true_and]
  exact checkPasses_checkOf _

/-- The removal of a panel in HUNT or UP is the loss of its link. -/
theorem State.panelWritten_removed (ho : old.installed = true) (hn : new.installed = false)
    (hl : (s.panel p).link.state ≠ .down) : (s.panelWritten p new).panelChanged p old new =
      ((s.panelWritten p new).panelGained p old new).panelLost p .down .removed := by
  rw [State.panelChanged_removed ho hn]
  exact if_neg hl

/-- A changed gain leaves the calls, and the panel's call, as they are. -/
theorem State.panelGained_facts (i : Rec) : ((s.panelWritten p new).panelGained p old new).call i = s.call i ∧
    ((s.panelWritten p new).panelGained p old new).liveNames i = s.liveNames i ∧
    (((s.panelWritten p new).panelGained p old new).panel p).current = (s.panel p).current ∧
    ((s.panelWritten p new).panelGained p old new).clu = { s.clu with receiver := .waiting, buffer := [] } := by
  rw [State.panelGained_eq]
  exact ⟨rfl, rfl, by rw [State.panel_setPanel, if_pos rfl]; rfl, rfl⟩

/-- With no call on the panel, its removal ends the link alone. -/
theorem State.panelWritten_removed_none (ho : old.installed = true) (hn : new.installed = false)
    (hl : (s.panel p).link.state ≠ .down) (hc : (s.panel p).current = none) :
    (s.panelWritten p new).panelChanged p old new =
      { s.setPanel p (((s.panelWritten p new).panelChanged p old new).panel p) with
        settings := { s.settings with panels := vset s.settings.panels p new }
        clu := { s.clu.posted (.link .removed (some p) none) with receiver := .waiting, buffer := [] } } := by
  obtain ⟨-, -, hcurrent, hgclu⟩ := s.panelGained_facts p old new 0
  have hnone := State.panelLost_none ((s.panelWritten p new).panelGained p old new) p .down .removed (hcurrent.trans hc)
  rw [← s.panelWritten_removed p old new ho hn hl, hgclu] at hnone
  generalize (s.panelWritten p new).panelChanged p old new = u at hnone ⊢
  generalize u.panel p = x at hnone ⊢
  rw [hnone, State.panelGained_eq, State.setPanel_setPanel, ConsoleUnit.posted_received]
  rfl

/-- The removal of a panel in HUNT or UP: its link, its call and its report (R103, R105). -/
theorem State.panelWritten_lost (ho : old.installed = true) (hn : new.installed = false)
    (hl : (s.panel p).link.state ≠ .down) : PanelRemoved s ((s.panelWritten p new).panelChanged p old new) p := by
  have hclu := ((s.panelWritten p new).panelChanged_state p old new).2
  have hu := s.panelWritten_removed p old new ho hn hl
  obtain ⟨hlink, houtput, htone, hqueue, hsamples, huplink⟩ :=
    ((s.panelWritten p new).panelGained p old new).panelLost_drained p .down .removed (by decide)
  refine ⟨by rw [hu, hlink], by rw [hu, hlink], by rw [hu, houtput], by rw [hu, htone], by rw [hu, hqueue],
    by rw [hu, hsamples], by rw [hu, huplink], by rw [hclu]; rfl, by rw [hclu]; rfl, fun i c hi hc hs => ?_⟩
  obtain ⟨hcalls, hlive, hcurrent, -⟩ := s.panelGained_facts p old new i
  obtain ⟨hended, hlast⟩ := State.panelLost_ended (target := .down) (by decide) (hcurrent.trans hi) (hcalls.trans hc) hs
    .removed
  rw [hu, hended.record, hlive]
  exact ⟨rfl, hlast⟩

/-- What the removal of a panel leaves of it after the scan. -/
theorem State.panelWritten_removed_settled (ho : old.installed = true) (hn : new.installed = false) :
    ((State.settled s ((s.panelWritten p new).panelChanged p old new)).panel p).link.state = .down ∧
    ((s.panel p).link.state = .up →
      ((State.settled s ((s.panelWritten p new).panelChanged p old new)).panel p).output = none ∧
      ((State.settled s ((s.panelWritten p new).panelChanged p old new)).panel p).sendQueue = [] ∧
      ∀ i c, (s.panel p).current = some i → s.call i = some c → c.state ≠ .clearing →
        (State.settled s ((s.panelWritten p new).panelChanged p old new)).call i =
          if s.liveNames i then some (clearedRecord c .linkLost) else none) := by
  by_cases hl : (s.panel p).link.state = .down
  · have hscan := State.settled_scanned s ((s.panelWritten p new).panelChanged p old new)
    refine ⟨?_, fun h => absurd (hl.symm.trans h) (by decide)⟩
    rw [hscan.link, State.panelChanged_removed ho hn, State.panelWritten_panel, if_pos hl, State.panelGained_link]
    exact hl
  · rw [s.panelWritten_removed p old new ho hn hl]
    obtain ⟨hlink, houtput, hqueue, hcall⟩ :=
      s.panelLost_settled ((s.panelWritten p new).panelGained p old new) p .removed
    refine ⟨hlink, fun _ => ⟨houtput, hqueue, fun i c hi hc hs => ?_⟩⟩
    obtain ⟨hcalls, hlive, hcurrent, -⟩ := s.panelGained_facts p old new i
    rw [← hlive]
    exact hcall i c (hcurrent.trans hi) (hcalls.trans hc) hs

end

/-- Settles O42: the profile and the reply, then the panel by what became of its installation. -/
theorem panelSetTakesEffect : Obligations.PanelSetTakesEffect := by
  intro s tag panel installed gain ring talk strike p ha
  refine ⟨fun hr => congrArg Host.Outcome.next (State.request_refused ha (if_pos hr)), fun hp new hnew => ?_⟩
  refine ⟨_, exec_panelSet ha hp hnew, ?_⟩
  generalize ({
    tag := tag, reason := .none
    result := if installed.toNat ≤ 1 ∧ new.ring = ring.toNat ∧ new.talk = talk.toNat ∧ new.strike = strike.toNat
      then .done else .adjusted
    data := [panel, if installed = 0 then 0 else 1, gain, byteOf new.ring] ++ wordOf new.talk
      ++ [byteOf new.strike] } : Reply) = x
  obtain ⟨hsettings, hreplies, hdirectory, htones, hstore⟩ :=
    s.panelWritten_settled p (s.panelProfile p) new _ rfl
  have hsame := s.panelWritten_same p (s.panelProfile p) new
  have hinstalled := s.panelWritten_installed p (s.panelProfile p) new
  have hremoved := s.panelWritten_removed_settled p (s.panelProfile p) new
  have hlost := s.panelWritten_lost p (s.panelProfile p) new
  have hnone := s.panelWritten_removed_none p (s.panelProfile p) new
  generalize (s.panelWritten p new).panelChanged p (s.panelProfile p) new = u at *
  generalize hv : State.settled s u = v at *
  refine ⟨hsettings, congrArg (· ++ [x]) hreplies, hdirectory, htones, hstore, fun h => ?_, fun ho hn hl => hinstalled ho hn hl,
    fun ho hn => hremoved ho hn, fun ho hn hl => ?_⟩
  · rw [hsame h]
    refine ⟨rfl, fun q hq => ?_, ?_⟩
    · exact vget_vset_ne _ (Ne.symm hq) _
    · exact vget_vset_self ..
  · obtain ⟨hlink, hgood, houtput, htone, hqueue, hsamples, huplink, hreceiver, hbuffer, hended⟩ := hlost ho hn hl
    refine ⟨u, by rw [hv]; rfl, hlink, hgood, houtput, htone, hqueue, hsamples, huplink, hreceiver, hbuffer, hended, ?_⟩
    rw [State.reply_settings, hsettings]
    exact hnone ho hn hl

end Sys2Proof.Machine
end

