-- ==== Sys2Proof/Proofs/Boundary.lean ====
section
/-! PROOFS. The frame boundary: the copy, the records tested for FREE, the end of a wake and of a draining (R31, R35, R49, R90,
R95), and the scan and the computation that follow. -/

namespace Sys2Proof.Machine

open Sys2Proof Sys2Proof.Safety

/-! ## Records tested for FREE (R31) -/

theorem State.freeIfUnnamed_state (s : State) (i : Rec) : s.freeIfUnnamed i =
    { s with calls := (s.freeIfUnnamed i).calls, notice := (s.freeIfUnnamed i).notice } := by
  unfold State.freeIfUnnamed
  split
  · split
    · rw [State.noticeForget_eq]; rfl
    · rfl
  · rfl

/-- One record's test frees it when it is in CLEARING and no live entry names it. -/
theorem State.freeIfUnnamed_call (s : State) (i j : Rec) : (s.freeIfUnnamed i).call j =
    (s.call j).filter fun c => !(decide (j = i) && decide (c.state = .clearing) && !s.liveNames j) := by
  by_cases hj : j = i
  · subst hj
    unfold State.freeIfUnnamed
    cases hc : s.call j with
    | none => exact hc
    | some c =>
      simp only [Option.filter_some, decide_true, Bool.true_and]
      by_cases h : c.state = .clearing ∧ s.liveNames j = false
      · rw [if_pos h, if_neg (by simp [h])]
        exact vget_vset_self ..
      · rw [if_neg h, if_pos (by simpa [Decidable.imp_iff_not_or] using h), hc]
  · have hsame : (s.freeIfUnnamed i).call j = s.call j := by
      unfold State.freeIfUnnamed
      split
      · split
        · rw [State.noticeForget_eq]; exact vget_vset_ne _ (Ne.symm hj) _
        · rfl
      · rfl
    rw [hsame]
    cases s.call j <;> simp [hj, Option.filter_some]

theorem State.foldl_freeIfUnnamed (l : List Rec) (s : State) :
    (l.foldl State.freeIfUnnamed s = { s with
      calls := (l.foldl State.freeIfUnnamed s).calls, notice := (l.foldl State.freeIfUnnamed s).notice }) ∧
    ∀ j, (l.foldl State.freeIfUnnamed s).call j =
      (s.call j).filter fun c => !(decide (j ∈ l) && decide (c.state = .clearing) && !s.liveNames j) := by
  induction l generalizing s with
  | nil => exact ⟨rfl, fun j => by cases h : s.call j <;> simp [h, Option.filter_some]⟩
  | cons i l ih =>
    obtain ⟨hstate, hcall⟩ := ih (s.freeIfUnnamed i)
    have hlive : ∀ j, (s.freeIfUnnamed i).liveNames j = s.liveNames j :=
      State.liveNames_congr fun r => by rw [s.freeIfUnnamed_state i]; rfl
    refine ⟨?_, fun j => ?_⟩
    · rw [List.foldl_cons, hstate, s.freeIfUnnamed_state i]
    · rw [List.foldl_cons, hcall, s.freeIfUnnamed_call, hlive, Option.filter_filter]
      congr 1
      funext c
      rw [← Bool.not_or]
      congr 1
      simp only [List.mem_cons, Bool.decide_or, Bool.and_or_distrib_right]

/-- The test of the records changes the call table and the NOTICE alone. -/
theorem State.testClearing_state (s : State) : s.testClearing =
    { s with calls := s.testClearing.calls, notice := s.testClearing.notice } := (State.foldl_freeIfUnnamed _ s).1

theorem State.testClearing_risers (s : State) : s.testClearing.risers = s.risers := by
  have h := s.testClearing_state
  generalize s.testClearing = t at h ⊢
  rw [h]

theorem State.testClearing_riser (s : State) (r : Riser) : s.testClearing.riser r = s.riser r := by
  rw [State.riser, State.testClearing_risers]; rfl

/-- Every record in CLEARING that no live entry names becomes FREE. -/
theorem State.testClearing_call (s : State) (i : Rec) : s.testClearing.call i =
    (s.call i).filter fun c => !(decide (c.state = .clearing) && !s.liveNames i) := by
  have h := (State.foldl_freeIfUnnamed allRecs s).2 i
  simp only [allRecs, List.mem_finRange, decide_true, Bool.true_and] at h
  exact h

/-! ## A scan brings back no condition of the quiet timer (R92) -/

/-- A riser left as it is, or one that fails the conditions of its stopped quiet timer. -/
def SameOrStopped (u v : RiserUnit) : Prop := v = u ∨ ¬ Calm v ∧ v.quietTimer = .stopped

theorem SameOrStopped.trans {u v w : RiserUnit} (h : SameOrStopped u v) (g : SameOrStopped v w) : SameOrStopped u w := by
  rcases g with rfl | g
  · exact h
  · exact .inr g

theorem quietTimerFollows_sameOrStopped {s t v : State} {r : Riser} (h : QuietTimerFollows s t r)
    (g : SameOrStopped (t.riser r) (v.riser r)) (hp : v.riserProfile r = t.riserProfile r) : QuietTimerFollows s v r := by
  rcases g with g | ⟨hcalm, hstopped⟩
  · exact quietTimerFollows_congr h g hp
  · exact ⟨fun _ hv => absurd hv hcalm, fun _ hv => absurd hv hcalm, fun _ => hstopped⟩

/-- The timer follows when the riser then meets the conditions as before, and its timer is the same. -/
theorem quietTimerFollows_alike {s t t' : State} {r : Riser} (h : QuietTimerFollows s t r)
    (hc : Calm (t'.riser r) ↔ Calm (t.riser r)) (hq : (t'.riser r).quietTimer = (t.riser r).quietTimer)
    (hp : t'.riserProfile r = t.riserProfile r) : QuietTimerFollows s t' r :=
  ⟨fun hs ht => by rw [hq, h.kept hs (hc.mp ht)], fun hs ht => by rw [hq, hp, h.started hs (hc.mp ht)],
    fun ht => by rw [hq, h.stopped (mt hc.mpr ht)]⟩

/-- A change of a riser that fails the conditions stops the timer there. -/
theorem sameOrStopped_modRiser {s : State} {r : Riser} {f : RiserUnit → RiserUnit} (h : (f (s.riser r)).calm = false)
    (r' : Riser) : SameOrStopped (s.riser r') ((s.modRiser r f).riser r') := by
  rw [State.riser_modRiser]
  split
  · rw [RiserUnit.retimed_stopped h]
    refine .inr ⟨fun hc => ?_, rfl⟩
    rw [← RiserUnit.calm_iff] at hc
    exact absurd (h.symm.trans hc) (by decide)
  · exact .inl rfl

theorem sameOrStopped_foldl {α : Type} {f : State → α → State} (h : ∀ s x r, SameOrStopped (s.riser r) ((f s x).riser r))
    (l : List α) (s : State) (r : Riser) : SameOrStopped (s.riser r) ((l.foldl f s).riser r) := by
  induction l generalizing s with
  | nil => exact .inl rfl
  | cons x l ih => exact (h s x r).trans (ih _)

theorem RiserUnit.calm_queue {u : RiserUnit} (h : u.queue ≠ []) : u.calm = false := by
  rw [← Bool.not_eq_true, RiserUnit.calm_iff]
  exact fun hc => h hc.2.1

theorem RiserUnit.calm_staged {u : RiserUnit} {k : Slot} (h : vget u.staged k ≠ .idle) : u.calm = false := by
  rw [← Bool.not_eq_true, RiserUnit.calm_iff]
  exact fun hc => h (hc.2.2.1 k).2

theorem State.order_sameOrStopped (s : State) (h : Handset) (o : Order) (r : Riser) :
    SameOrStopped (s.riser r) ((s.order h o).riser r) := by
  unfold State.order State.enqueue
  split
  · refine sameOrStopped_modRiser (RiserUnit.calm_queue fun hq => ?_) r
    obtain ⟨e, he, -⟩ := exists_mem_enqueued h.addr o (s.riser h.riser).queue
    rw [show enqueued h.addr (some o) (s.riser h.riser).queue = [] from hq] at he
    exact absurd he List.not_mem_nil
  · exact .inl rfl

theorem State.reserveOn_sameOrStopped (i : Rec) (s : State) (r r' : Riser) :
    SameOrStopped (s.riser r') ((State.reserveOn i s r).riser r') := by
  unfold State.reserveOn
  split
  next k _ =>
    rw [s.edit_busy r k (e := .reserved i) (by simp)]
    refine sameOrStopped_modRiser (RiserUnit.calm_staged (k := k) ?_) r'
    rw [RiserUnit.woken_staged, vget_vset_self]
    simp
  · exact .inl rfl

theorem State.rungLegs_sameOrStopped (s : State) (c : Call) (r : Riser) :
    SameOrStopped (s.riser r) ((s.rungLegs c).riser r) := by
  unfold State.rungLegs
  exact sameOrStopped_foldl (f := fun (s : State) (l : Leg) => s.order l.handset .ringOn)
    (fun s l r => s.order_sameOrStopped l.handset .ringOn r) _ s r

theorem State.enterRinging_sameOrStopped {s : State} {i : Rec} {c : Call} (h : s.call i = some c) (r : Riser) :
    SameOrStopped (s.riser r) ((s.enterRinging i).riser r) := by
  have hriser : (s.enterRinging i).riser r = (s.rungLegs c).riser r := by rw [State.enterRinging_eq h]; rfl
  rw [hriser]
  exact s.rungLegs_sameOrStopped c r

theorem State.scanOne_sameOrStopped (s : State) (i : Rec) (r : Riser) : SameOrStopped (s.riser r) ((s.scanOne i).riser r) := by
  unfold State.scanOne
  split
  · exact .inl rfl
  next c hc =>
    split
    · have hreserve : SameOrStopped (s.riser r)
          ((({ s with waitQueue := s.waitQueue.filter (· ≠ i) } : State).reserve i c.riserSet).riser r) :=
        sameOrStopped_foldl (State.reserveOn_sameOrStopped i) c.riserSet _ r
      have hcall : (({ s with waitQueue := s.waitQueue.filter (· ≠ i) } : State).reserve i c.riserSet).call i = some c :=
        ((State.reserve_slots _ i c.riserSet).call i).trans hc
      exact hreserve.trans (State.enterRinging_sameOrStopped hcall r)
    · exact .inl rfl

/-- The scan that follows an event leaves each riser as it is, or with its quiet timer stopped. -/
theorem State.settled_sameOrStopped (s t : State) (r : Riser) : SameOrStopped (t.riser r) ((State.settled s t).riser r) := by
  unfold State.settled
  split
  · exact sameOrStopped_foldl State.scanOne_sameOrStopped _ t r
  · exact .inl rfl

/-! ## A riser enters OFF (R52, R91) -/

/-- The entry to OFF: the riser at rest, the records it named tested, a RISER report. -/
theorem State.riserOff_state (s : State) (r : Riser) (event : RiserEvent) : s.riserOff r event = { s with
    calls := (s.riserOff r event).calls, notice := (s.riserOff r event).notice
    risers := vset s.risers r (s.riser r).switchedOff, clu := s.clu.posted (.riser event r) } := by
  have h := (s.setRiser r (s.riser r).switchedOff).testClearing_state
  unfold State.riserOff
  generalize (s.setRiser r (s.riser r).switchedOff).testClearing = t at h ⊢
  rw [h]
  rfl

theorem State.riserOff_riser (s : State) (r : Riser) (event : RiserEvent) (r' : Riser) :
    (s.riserOff r event).riser r' = if r = r' then (s.riser r).switchedOff else s.riser r' := by
  have h := (s.setRiser r (s.riser r).switchedOff).testClearing_riser r'
  unfold State.riserOff
  rw [State.post_riser, h]
  exact vget_vset ..

theorem State.riserOff_call (s : State) (r : Riser) (event : RiserEvent) (i : Rec) : (s.riserOff r event).call i =
    (s.call i).filter fun c => !(decide (c.state = .clearing) && !(s.riserOff r event).liveNames i) := by
  have hlive : (s.riserOff r event).liveNames i = (s.setRiser r (s.riser r).switchedOff).liveNames i :=
    State.liveNames_congr (fun r' => by rw [State.riserOff_riser, State.riser_setRiser]) i
  have h := (s.setRiser r (s.riser r).switchedOff).testClearing_call i
  rw [hlive]
  unfold State.riserOff
  rw [State.post_call, h]
  rfl

/-- A riser just enabled meets the conditions of its quiet timer. -/
theorem RiserUnit.enabled_calm (m : RiserProfile) : Calm (RiserUnit.enabled m) := by
  refine ⟨rfl, rfl, fun k => ⟨?_, ?_⟩, fun a => ?_⟩ <;> simp [RiserUnit.enabled, RiserUnit.atRest, Presence.absent]

/-! ## The boundary up to the scan (R31, R35, R49, R90, R95) -/

/-- The state once the copy is made, the records are tested and the riser has changed its state. -/
def State.boundaryCopied (s : State) (r : Riser) (voice : List (Addr × Sample)) : State :=
  ((s.copied r voice).testClearing).boundaryState r

/-- The copy of staged into live on one riser. -/
def State.copiedUnit (s : State) (voice : List (Addr × Sample)) (u : RiserUnit) : RiserUnit :=
  { u with
    live := u.staged
    outputs := vtab fun k => s.assigned (vget u.staged k) (vget u.outputs k)
    uplink := vtab fun k => if (vget u.staged k).carries ∧ u.reversal.sub = .normal then u.received voice k else 0
    heard := u.hearing
    sent := none }

/-- What a boundary of riser r makes of the rest of the part. -/
structure Boundary (s u : State) (r : Riser) : Prop where
  state   : u = { s with calls := u.calls, risers := u.risers, clu := u.clu, notice := u.notice }
  others  : ∀ r', r' ≠ r → u.riser r' = s.riser r'
  sent    : (u.riser r).sent = none
  call    : ∀ i, u.call i = (s.call i).filter fun c => !(decide (c.state = .clearing) && !u.liveNames i)
  follows : QuietTimerFollows s u r

section
variable (s : State) (r : Riser) (voice : List (Addr × Sample))

theorem State.copied_eq : s.copied r voice = s.modRiser r (s.copiedUnit voice) := rfl

theorem State.copied_self : (s.copied r voice).riser r = { s.copiedUnit voice (s.riser r) with
    quietTimer := ((s.copied r voice).riser r).quietTimer } := by
  rw [State.copied_eq]
  exact State.modRiser_self ..

/-- The copy and the test of the records. -/
theorem State.copied_boundary : Boundary s (s.copied r voice).testClearing r := by
  have hstate := (s.copied r voice).testClearing_state
  have hcall := (s.copied r voice).testClearing_call
  have hriser := (s.copied r voice).testClearing_riser
  generalize (s.copied r voice).testClearing = u at hstate hcall hriser ⊢
  refine ⟨?_, fun r' hr => ?_, ?_, fun i => ?_, ?_⟩
  · rw [hstate]; rfl
  · rw [hriser]; exact vget_vset_ne _ (Ne.symm hr) _
  · rw [hriser, State.copied_self]; rfl
  · rw [hcall, State.liveNames_congr fun r' => congrArg RiserUnit.live (hriser r')]
    rfl
  · refine quietTimerFollows_congr (quietTimerFollows_modRiser s r rfl) (hriser r) ?_
    rw [hstate]
    rfl

end

theorem boundary_state {s b : State} (h : b = { s with calls := b.calls, risers := b.risers, clu := b.clu, notice := b.notice })
    (c : Vector (Option Call) 16) (rs : Vector RiserUnit 8) (u : ConsoleUnit) (n : Option Notice) :
    { b with calls := c, risers := rs, clu := u, notice := n } = { s with calls := c, risers := rs, clu := u, notice := n } := by
  rw [h]

/-- A record that a live entry names is named after the boundary only if it was before. -/
theorem liveNames_mono {s t : State} {i : Rec}
    (h : ∀ r k, (vget (s.riser r).live k).names i = false → (vget (t.riser r).live k).names i = false)
    (ht : s.liveNames i = false) : t.liveNames i = false :=
  State.liveNames_eq_false.mpr fun r k => h r k (State.liveNames_eq_false.mp ht r k)

section
variable {s b : State} {r : Riser} (h : Boundary s b r)
include h

theorem Boundary.settings : b.settings = s.settings := by rw [h.state]

theorem Boundary.wakeEnded (hs : (s.riser r).state ≠ .active) (m : RiserProfile) :
    Boundary s (b.modRiser r (·.wakeEnded m)) r where
  state := boundary_state h.state b.calls _ b.clu b.notice
  others r' hr := (vget_vset_ne _ (Ne.symm hr) _).trans (h.others r' hr)
  sent := by rw [State.modRiser_self]; exact h.sent
  call i := by
    rw [State.liveNames_congr (s := b) fun r' => ?_]
    · exact h.call i
    · rw [State.riser_modRiser]
      split
      next hr => subst hr; rw [RiserUnit.retimed_eq]; rfl
      · rfl
  follows := quietTimerFollows_trans h.follows (quietTimerFollows_modRiser b r rfl) rfl fun hc => absurd hc.1 hs

/-- A draining riser that enters OFF (R90). -/
theorem Boundary.drained (hs : (s.riser r).state ≠ .active) : Boundary s (b.riserOff r .drained) r := by
  have hstate := b.riserOff_state r .drained
  have hcall := b.riserOff_call r .drained
  have hriser := b.riserOff_riser r .drained
  have hself := hriser r
  rw [if_pos rfl] at hself
  generalize b.riserOff r .drained = u at hstate hcall hriser hself ⊢
  refine ⟨?_, fun r' hr => ?_, by rw [hself]; rfl, fun i => ?_, ⟨fun hc => absurd hc.1 hs, fun _ hc => ?_, fun _ => ?_⟩⟩
  · rw [hstate]
    exact boundary_state h.state ..
  · rw [hriser, if_neg (Ne.symm hr), h.others r' hr]
  · have hlive : b.liveNames i = false → u.liveNames i = false := liveNames_mono fun r' k hk => by
      rw [hriser]
      split
      · simp [RiserUnit.switchedOff, RiserUnit.atRest, SlotEntry.names_idle]
      · exact hk
    rw [hcall, h.call, Option.filter_filter]
    congr 1
    funext c
    cases hb : b.liveNames i
    · simp [hlive hb]
    · simp
  · rw [hself] at hc; exact absurd hc.1 (by simp [RiserUnit.switchedOff, RiserUnit.atRest])
  · rw [hself]; rfl

/-- A riser in OFF that is enabled again (R89). -/
theorem Boundary.enabled (hs : (s.riser r).state ≠ .active) (hl : ∀ k, vget (b.riser r).live k = .idle) :
    Boundary s (b.enableRiser r) r := by
  unfold State.enableRiser
  split
  · have hriser : ∀ r', ((b.setRiser r (.enabled (b.riserProfile r))).post (.riser .enabled r)).riser r' =
        if r = r' then .enabled (b.riserProfile r) else b.riser r' := fun r' => vget_vset ..
    have hself := hriser r
    rw [if_pos rfl] at hself
    refine ⟨?_, fun r' hr => ?_, by rw [hself]; rfl, fun i => ?_, ⟨fun hc => absurd hc.1 hs, fun _ _ => ?_, fun hc => ?_⟩⟩
    · exact boundary_state h.state b.calls _ _ b.notice
    · rw [hriser, if_neg (Ne.symm hr), h.others r' hr]
    · rw [State.liveNames_congr (s := b) fun r' => ?_]
      · exact h.call i
      · rw [hriser]
        split
        next hr =>
          subst hr
          apply vget_ext
          intro k
          rw [hl]
          simp [RiserUnit.enabled, RiserUnit.atRest]
        · rfl
    · rw [hself]
      simp [RiserUnit.enabled, RiserUnit.atRest, Timer.period, Timer.start, Config.framesPerSecond]
      rfl
    · rw [hself] at hc; exact absurd (RiserUnit.enabled_calm _) hc
  · exact h

end

/-! ## The state of the riser at a boundary (R90, R95) -/

section
variable {s : State} {r : Riser}

theorem State.boundaryState_active (h : (s.riser r).state = .active) : s.boundaryState r = s := by
  unfold State.boundaryState; rw [h]

theorem State.boundaryState_waking (h : (s.riser r).state = .waking) : s.boundaryState r =
    if (s.riser r).wakeTimer = .stopped then s.modRiser r (·.wakeEnded (s.riserProfile r)) else s := by
  unfold State.boundaryState; rw [h]

theorem State.boundaryState_draining (h : (s.riser r).state = .draining) : s.boundaryState r =
    if (s.riserProfile r).enable then (s.riserOff r .drained).enableRiser r else s.riserOff r .drained := by
  have hprofile : (s.riserOff r .drained).riserProfile r = s.riserProfile r := by
    have hstate := s.riserOff_state r .drained
    generalize s.riserOff r .drained = u at hstate ⊢
    rw [hstate]
    rfl
  unfold State.boundaryState
  rw [h]
  dsimp only
  rw [hprofile]

end

theorem RiserUnit.frames_cases (u : RiserUnit) (h : u.frames = true) :
    u.state = .active ∨ u.state = .waking ∨ u.state = .draining := by
  unfold RiserUnit.frames at h
  split at h <;> simp_all

/-- The riser after the copy and the change of its state: an ACTIVE or WAKING one. -/
structure BoundaryKept (s u : State) (r : Riser) : Prop where
  live       : (u.riser r).live = (s.riser r).staged
  staged     : (u.riser r).staged = (s.riser r).staged
  presence   : (u.riser r).presence = (s.riser r).presence
  queue      : (u.riser r).queue = (s.riser r).queue
  conditions : (u.riser r).conditions = (s.riser r).conditions
  state      : (u.riser r).state = if (s.riser r).wakeTimer = .stopped then .active else (s.riser r).state
  woken      : (s.riser r).state = .waking → (s.riser r).wakeTimer = .stopped →
    (u.riser r).reversal = .none ∧ (u.riser r).reversalTimer = .period (s.riserProfile r).reversal

/-- The riser after the closing boundary of its draining. -/
structure BoundaryDrained (s u : State) (r : Riser) : Prop where
  live     : ∀ k, vget (u.riser r).live k = .idle
  queue    : (u.riser r).queue = []
  presence : ∀ a, (vget (u.riser r).presence a).present = false
  state    : (u.riser r).state = if (s.riserProfile r).enable then .active else .off

section
variable (s : State) (r : Riser) (voice : List (Addr × Sample))

theorem State.tested_self : (s.copied r voice).testClearing.riser r = { s.copiedUnit voice (s.riser r) with
    quietTimer := ((s.copied r voice).riser r).quietTimer } := by
  rw [State.testClearing_riser]
  exact s.copied_self r voice

theorem State.tested_profile : (s.copied r voice).testClearing.riserProfile r = s.riserProfile r := by
  have h := (s.copied_boundary r voice).settings
  unfold State.riserProfile
  rw [h]

theorem State.boundaryCopied_ongoing (hf : (s.riser r).frames = true) (hs : (s.riser r).state ≠ .draining) :
    Boundary s (s.boundaryCopied r voice) r ∧ BoundaryKept s (s.boundaryCopied r voice) r := by
  have hself := s.tested_self r voice
  have hprofile := s.tested_profile r voice
  have hboundary := s.copied_boundary r voice
  unfold State.boundaryCopied
  generalize (s.copied r voice).testClearing = b at hself hprofile hboundary ⊢
  have hstate : (b.riser r).state = (s.riser r).state := by rw [hself]; rfl
  rcases (s.riser r).frames_cases hf with hactive | hwaking | hdraining
  · rw [State.boundaryState_active (hstate.trans hactive)]
    refine ⟨hboundary, ?_, ?_, ?_, ?_, ?_, ?_, fun hw => absurd (hactive.symm.trans hw) (by decide)⟩ <;> rw [hself]
    case refine_6 => simp [State.copiedUnit, hactive]
    all_goals rfl
  · have htimer : (b.riser r).wakeTimer = (s.riser r).wakeTimer := by rw [hself]; rfl
    rw [State.boundaryState_waking (hstate.trans hwaking), htimer, hprofile]
    split
    next hstopped =>
      refine ⟨hboundary.wakeEnded (by rw [hwaking]; decide) _, ?_, ?_, ?_, ?_, ?_, ?_, fun _ _ => ?_⟩ <;>
        rw [State.modRiser_self, hself]
      case refine_6 => rw [if_pos hstopped]; rfl
      case refine_7 => exact ⟨rfl, rfl⟩
      all_goals rfl
    next hrunning =>
      refine ⟨hboundary, ?_, ?_, ?_, ?_, ?_, ?_, fun _ ht => absurd ht hrunning⟩ <;> rw [hself]
      case refine_6 => rw [if_neg hrunning]; rfl
      all_goals rfl
  · exact absurd hdraining hs

theorem State.boundaryCopied_draining (hs : (s.riser r).state = .draining) :
    Boundary s (s.boundaryCopied r voice) r ∧ BoundaryDrained s (s.boundaryCopied r voice) r := by
  have hself := s.tested_self r voice
  have hprofile := s.tested_profile r voice
  have hboundary := s.copied_boundary r voice
  unfold State.boundaryCopied
  generalize (s.copied r voice).testClearing = b at hself hprofile hboundary ⊢
  have hstate : (b.riser r).state = .draining := by rw [hself]; exact hs
  have hnot : (s.riser r).state ≠ .active := by rw [hs]; decide
  have hoff : (b.riserOff r .drained).riser r = (b.riser r).switchedOff := by rw [State.riserOff_riser, if_pos rfl]
  have hdrained := hboundary.drained hnot
  rw [State.boundaryState_draining hstate, hprofile]
  generalize b.riserOff r .drained = u at hoff hdrained ⊢
  have hidle : ∀ k, vget (u.riser r).live k = .idle := fun k => by
    rw [hoff]; simp [RiserUnit.switchedOff, RiserUnit.atRest]
  split
  next henable =>
    have hself' : (u.enableRiser r).riser r = .enabled (u.riserProfile r) := by
      unfold State.enableRiser
      rw [if_pos (by rw [hoff]; rfl)]
      exact vget_vset_self ..
    refine ⟨hdrained.enabled hnot hidle, fun k => ?_, ?_, fun a => ?_, ?_⟩ <;> rw [hself']
    · simp [RiserUnit.enabled, RiserUnit.atRest]
    · rfl
    · simp [RiserUnit.enabled, RiserUnit.atRest, Presence.absent]
    · rw [if_pos henable]; rfl
  next hdisabled =>
    refine ⟨hdrained, hidle, ?_, fun a => ?_, ?_⟩ <;> rw [hoff]
    · rfl
    · simp [RiserUnit.switchedOff, RiserUnit.atRest, Presence.absent]
    · rw [if_neg hdisabled]; rfl

end

/-! ## The computation after the scan (R97, R145) -/

/-- The computation of a riser's slot outputs changes them, what they carry, and the NOTICE. -/
structure Mixed (s t : State) (r : Riser) : Prop where
  state  : t = { s with risers := t.risers, notice := t.notice }
  others : ∀ r', r' ≠ r → t.riser r' = s.riser r'
  riser  : t.riser r = { s.riser r with mixed := (t.riser r).mixed, outputs := (t.riser r).outputs }

theorem Mixed.refl (s : State) (r : Riser) : Mixed s s r := ⟨rfl, fun _ _ => rfl, rfl⟩

theorem Mixed.trans {s t u : State} {r : Riser} (h : Mixed s t r) (g : Mixed t u r) : Mixed s u r where
  state := by rw [g.state, h.state]
  others r' hr := (g.others r' hr).trans (h.others r' hr)
  riser := by rw [g.riser, h.riser]

theorem State.mixSlot_mixed (r : Riser) (s : State) (k : Slot) : Mixed s (State.mixSlot r s k) r := by
  have hset : ∀ (m : Vector Sample 4) (o : Vector (Option SlotOutput) 4) (n : Option Notice),
      Mixed s ((s.setRiser r { s.riser r with mixed := m, outputs := o }).setNotice n) r := fun m o n =>
    ⟨rfl, fun r' hr => vget_vset_ne _ (Ne.symm hr) _, by
      rw [show ((s.setRiser r { s.riser r with mixed := m, outputs := o }).setNotice n).riser r =
        { s.riser r with mixed := m, outputs := o } from vget_vset_self ..]⟩
  unfold State.mixSlot
  dsimp only
  split
  · exact hset _ _ s.notice
  · split
    · exact hset ..
    · exact hset _ _ s.notice

theorem State.mixSlots_mixed (r : Riser) (l : List Slot) (s : State) : Mixed s (l.foldl (State.mixSlot r) s) r := by
  induction l generalizing s with
  | nil => exact .refl s r
  | cons k l ih => exact (State.mixSlot_mixed r s k).trans (ih _)

/-- The boundary's part in the reversal sequence, and the muting that goes with it. -/
def RiserUnit.swapped (m : RiserProfile) (u : RiserUnit) : RiserUnit := (u.reversalCounted m).muted

theorem RiserUnit.swapped_fields (m : RiserProfile) (u : RiserUnit) : u.swapped m = { u with
    polarity := (u.swapped m).polarity, reversal := (u.swapped m).reversal, reversalTimer := (u.swapped m).reversalTimer
    uplink := (u.swapped m).uplink } := by
  unfold RiserUnit.swapped
  rw [RiserUnit.muted_fields, RiserUnit.reversalCounted_fields]

/-- A riser in NORMAL with no sequence due stays so. -/
theorem RiserUnit.swapped_normal (m : RiserProfile) {u : RiserUnit} (hr : u.reversal = .none) :
    (u.swapped m).reversal.sub = .normal ∧ (u.swapped m).reversalTimer = u.reversalTimer := by
  unfold RiserUnit.swapped
  rw [RiserUnit.muted_fields]
  unfold RiserUnit.reversalCounted
  split <;> simp [hr, Reversal.none]

theorem exec_riserFrameBoundary {s : State} {r : Riser} {voice : List (Addr × Sample)} (hr : Running s)
    (hf : (s.riser r).frames = true) {v : State} (hv : v = State.settled s (s.boundaryCopied r voice)) :
    exec (.riserFrameBoundary r voice) s =
      .next (allSlots.foldl (State.mixSlot r) (v.modRiser r (·.swapped (v.riserProfile r)))) := by
  simp only [exec, execRiserFrameBoundary, State.whenRunning_running hr, hf, if_true, hv]
  rfl

/-- From the state after the scan to the end of the boundary. -/
structure Computed (v t : State) (r : Riser) : Prop where
  state  : t = { v with risers := t.risers, notice := t.notice }
  others : ∀ r', r' ≠ r → t.riser r' = v.riser r'
  riser  : t.riser r = { v.riser r with
    polarity := (t.riser r).polarity, reversal := (t.riser r).reversal, reversalTimer := (t.riser r).reversalTimer
    uplink := (t.riser r).uplink, mixed := (t.riser r).mixed, outputs := (t.riser r).outputs
    quietTimer := (t.riser r).quietTimer }
  swapped : (t.riser r).reversal = ((v.riser r).swapped (v.riserProfile r)).reversal ∧
    (t.riser r).reversalTimer = ((v.riser r).swapped (v.riserProfile r)).reversalTimer
  follows : ∀ s, QuietTimerFollows s v r → QuietTimerFollows s t r

theorem State.computed (v : State) (r : Riser) :
    Computed v (allSlots.foldl (State.mixSlot r) (v.modRiser r (·.swapped (v.riserProfile r)))) r := by
  have hmixed := State.mixSlots_mixed r allSlots (v.modRiser r (·.swapped (v.riserProfile r)))
  have hself := v.modRiser_self r (·.swapped (v.riserProfile r))
  have hfollows := quietTimerFollows_modRiser v r (f := (·.swapped (v.riserProfile r)))
    (by rw [RiserUnit.swapped_fields])
  have hstate := v.modRiser_eq r (·.swapped (v.riserProfile r))
  generalize allSlots.foldl (State.mixSlot r) (v.modRiser r (·.swapped (v.riserProfile r))) = t at hmixed ⊢
  generalize v.modRiser r (·.swapped (v.riserProfile r)) = w at hmixed hself hfollows hstate
  obtain ⟨htstate, hothers, hriser⟩ := hmixed
  have hfields := (v.riser r).swapped_fields (v.riserProfile r)
  have hw : w.riser r = { v.riser r with
      polarity := (w.riser r).polarity, reversal := (w.riser r).reversal, reversalTimer := (w.riser r).reversalTimer
      uplink := (w.riser r).uplink, quietTimer := (w.riser r).quietTimer } := by
    generalize (v.riser r).swapped (v.riserProfile r) = u at hself hfields
    rw [hself, hfields]
  have hcalmw : Calm (w.riser r) ↔ Calm (v.riser r) := by rw [hw]; rfl
  have hcalmt : Calm (t.riser r) ↔ Calm (w.riser r) := by rw [hriser]; rfl
  refine ⟨?_, fun r' hr => ?_, ?_, ?_, fun s hs => ?_⟩
  · rw [htstate, hstate]; rfl
  · rw [hothers r' hr, hstate]; exact vget_vset_ne _ (Ne.symm hr) _
  · rw [hriser, hw]
  · rw [hriser, hself]; exact ⟨rfl, rfl⟩
  · have hprofile : w.riserProfile r = v.riserProfile r := by rw [hstate]; rfl
    refine quietTimerFollows_alike (quietTimerFollows_trans hs hfollows hprofile fun _ hv => mt hcalmw.mp hv) hcalmt ?_ ?_
    · rw [hriser]
    · rw [htstate]; rfl

/-- Settles O10: the boundary up to the scan, the scan, the computation. -/
theorem aBoundaryCopiesStagedIntoLive : Obligations.ABoundaryCopiesStagedIntoLive := by
  intro s r voice hr hf
  have hboundary : Boundary s (s.boundaryCopied r voice) r := by
    by_cases hs : (s.riser r).state = .draining
    · exact (s.boundaryCopied_draining r voice hs).1
    · exact (s.boundaryCopied_ongoing r voice hf hs).1
  have hkept := fun hs => (s.boundaryCopied_ongoing r voice hf hs).2
  have hdrained := fun hs => (s.boundaryCopied_draining r voice hs).2
  have hexec := exec_riserFrameBoundary (s := s) (voice := voice) hr hf rfl
  refine ⟨s.boundaryCopied r voice, _, hexec, ?_⟩
  generalize s.boundaryCopied r voice = u at hboundary hkept hdrained ⊢
  have htouch := State.settled_touch s u
  have hscan := State.settled_sameOrStopped s u r
  have hcomputed := State.computed (State.settled s u) r
  generalize State.settled s u = v at htouch hscan hcomputed ⊢
  generalize allSlots.foldl (State.mixSlot r) (v.modRiser r (·.swapped (v.riserProfile r))) = t at hcomputed ⊢
  refine ⟨fun hs => ?_, fun hw ht => ?_, fun hs => ?_, hboundary.sent, hboundary.others, hboundary.state, fun i => ?_,
    hcomputed.state, hcomputed.others, hcomputed.riser, ?_⟩
  · obtain ⟨hlive, hstaged, hpresence, hqueue, hconditions, hstate, -⟩ := hkept hs
    exact ⟨hlive, hstaged, hpresence, hqueue, hconditions, hstate⟩
  · obtain ⟨hreversal, htimer⟩ := (hkept (by rw [hw]; decide)).woken hw ht
    have hnone : (v.riser r).reversal = .none := by rw [htouch.riser r]; exact hreversal
    obtain ⟨hsub, hsame⟩ := RiserUnit.swapped_normal (v.riserProfile r) hnone
    refine ⟨by rw [hcomputed.swapped.1, hsub], ?_⟩
    rw [hcomputed.swapped.2, hsame, htouch.riser r]
    exact htimer
  · obtain ⟨hlive, hqueue, hpresence, hstate⟩ := hdrained hs
    exact ⟨hlive, hqueue, hpresence, hstate⟩
  · rw [hboundary.call]
    cases s.call i with
    | none => rfl
    | some c =>
      simp only [Option.filter_some, ← State.liveNames_eq_false]
      by_cases hfree : c.state = .clearing ∧ u.liveNames i = false
      · rw [if_pos hfree, if_neg (by simp [hfree])]
      · rw [if_neg hfree, if_pos (by simpa [Decidable.imp_iff_not_or] using hfree)]
  · exact hcomputed.follows s (quietTimerFollows_sameOrStopped hboundary.follows hscan (htouch.riserProfile r))

end Sys2Proof.Machine
end

