-- ==== Sys2Proof/Proofs/EndingAll.lean ====
section
/-! PROOFS. The endings of several calls one after the other (R18, R143), and what the Call Controller's steps leave of a riser
that is out of service. -/

namespace Sys2Proof.Machine

open Sys2Proof Sys2Proof.Safety

/-! ## A riser out of service (R90, R91) -/

/-- A riser in OFF or DRAINING takes no orders: its staged schedule alone changes, and a stopped quiet timer stays stopped. -/
def Dormant (u v : RiserUnit) : Prop := u.inService = false →
  v = { u with staged := v.staged, quietTimer := v.quietTimer } ∧ (u.quietTimer = .stopped → v.quietTimer = .stopped)

theorem Dormant.refl (u : RiserUnit) : Dormant u u := fun _ => ⟨rfl, id⟩

theorem Dormant.trans {u v w : RiserUnit} (h : Dormant u v) (g : Dormant v w) : Dormant u w := fun hu => by
  obtain ⟨hv, htimer⟩ := h hu
  have hservice : v.inService = false := by rw [hv]; exact hu
  obtain ⟨hw, htimer'⟩ := g hservice
  exact ⟨by rw [hw, hv], fun ht => htimer' (htimer ht)⟩

theorem RiserUnit.inService_active {u : RiserUnit} (h : u.inService = false) : u.state ≠ .active ∧ u.state ≠ .quiet := by
  unfold RiserUnit.inService at h
  constructor <;> intro hs <;> rw [hs] at h <;> cases h

theorem dormant_modRiser {s : State} {r : Riser} {f : RiserUnit → RiserUnit}
    (hf : (s.riser r).inService = false → ∃ e, f (s.riser r) = { s.riser r with staged := e }) (r' : Riser) :
    Dormant (s.riser r') ((s.modRiser r f).riser r') := by
  by_cases hr : r = r'
  · subst hr
    intro hs
    obtain ⟨e, he⟩ := hf hs
    have hcalm : (f (s.riser r)).calm = false := RiserUnit.calm_state (by rw [he]; exact (RiserUnit.inService_active hs).1)
    rw [State.riser_modRiser, if_pos rfl, RiserUnit.retimed_stopped hcalm, he]
    exact ⟨rfl, fun _ => rfl⟩
  · rw [State.riser_modRiser, if_neg hr]
    exact .refl _

theorem dormant_foldl {α : Type} {f : State → α → State} (h : ∀ s x r, Dormant (s.riser r) ((f s x).riser r)) (l : List α)
    (s : State) (r : Riser) : Dormant (s.riser r) ((l.foldl f s).riser r) := by
  induction l generalizing s with
  | nil => exact .refl _
  | cons x l ih => exact (h s x r).trans (ih _)

theorem State.order_dormant (s : State) (h : Handset) (o : Order) (r : Riser) :
    Dormant (s.riser r) ((s.order h o).riser r) := by
  unfold State.order State.enqueue
  split
  next hin =>
    refine dormant_modRiser (fun hs => ?_) r
    rw [hs] at hin
    cases hin
  · exact .refl _

theorem State.edit_dormant (s : State) (r : Riser) (k : Slot) (e : SlotEntry) (r' : Riser) :
    Dormant (s.riser r') ((s.edit r k e).riser r') := by
  refine dormant_modRiser (fun hs => ⟨vset (s.riser r).staged k e, ?_⟩) r'
  dsimp only
  split
  · rfl
  · exact if_neg (RiserUnit.inService_active hs).2

theorem State.releaseOn_dormant (s : State) (i : Rec) (r r' : Riser) :
    Dormant (s.riser r') ((s.releaseOn i r).riser r') := by
  unfold State.releaseOn
  split
  · exact dormant_modRiser (fun _ => ⟨_, rfl⟩) r'
  · exact .refl _

theorem State.endLeg_dormant (s : State) (l : Leg) (r : Riser) : Dormant (s.riser r) ((s.endLeg l).riser r) := by
  unfold State.endLeg
  split
  · split
    · exact s.order_dormant _ _ r
    · split <;> exact s.order_dormant _ _ r
    · exact .refl _
  · exact .refl _

theorem State.legsReleased_dormant (s : State) (i : Rec) (c : Call) (cause : EndCause) (r : Riser) :
    Dormant (s.riser r) ((s.legsReleased i c cause).riser r) := by
  unfold State.legsReleased
  exact (dormant_foldl State.endLeg_dormant c.legs (s.recordCleared i c cause) r).trans
    (dormant_foldl (fun s r r' => s.releaseOn_dormant i r r') allRisers _ r)

/-! ## One ending -/

/-- A record that is FREE or in CLEARING takes no ending (R28). -/
theorem State.endCall_none {s : State} {i : Rec} (h : ∀ c, s.call i = some c → c.state = .clearing) (cause : EndCause) :
    s.endCall i cause = s := by
  unfold State.endCall
  split
  · rfl
  next c hc => exact if_pos (h c hc)

theorem ConsoleUnit.posted_gap {c : ConsoleUnit} (x : Report) (h : c.gap = true) : (c.posted x).gap = true := by
  unfold ConsoleUnit.posted
  split
  · exact h
  · rfl

/-- The calls of a list have been ended, from `s` to `t`. -/
structure EndedAll (s t : State) (l : List Rec) (cause : EndCause) : Prop where
  state    : t = { s with
    calls := t.calls, waitQueue := t.waitQueue, consoleQueue := t.consoleQueue, console := t.console, risers := t.risers
    panels := t.panels, clu := t.clu, notice := t.notice }
  ended    : ∀ i ∈ l, ∀ c, s.call i = some c → c.state ≠ .clearing →
    t.call i = (if s.liveNames i then some (clearedRecord c cause) else none) ∧ t.console.names i = false ∧
    ∀ r k, (vget (s.riser r).staged k).names i = true → vget (t.riser r).staged k = .idle
  others   : ∀ i, i ∉ l → t.call i = s.call i
  live     : ∀ r, (t.riser r).live = (s.riser r).live
  staged   : ∀ r k, vget (t.riser r).staged k = vget (s.riser r).staged k ∨ vget (t.riser r).staged k = .idle
  dormant  : ∀ r, Dormant (s.riser r) (t.riser r)
  console  : t.console = s.console ∨ t.console = .idle ∧ ∃ i ∈ l, s.console.names i = true
  clu      : t.clu = { s.clu with reports := t.clu.reports, gap := t.clu.gap, cursor := t.clu.cursor }
  gap      : s.clu.gap = true → t.clu.gap = true

theorem EndedAll.nil (s : State) (cause : EndCause) : EndedAll s s [] cause :=
  ⟨rfl, fun _ h => absurd h List.not_mem_nil, fun _ _ => rfl, fun _ => rfl, fun _ _ => .inl rfl, fun _ => .refl _, .inl rfl, rfl,
    id⟩

theorem State.endCall_all (s : State) (i : Rec) (cause : EndCause) : EndedAll s (s.endCall i cause) [i] cause := by
  by_cases h : ∃ c, s.call i = some c ∧ c.state ≠ .clearing
  · obtain ⟨c, hc, hs⟩ := h
    have hended := State.endCall_ended hc hs cause
    have hclu := State.endCall_clu hc hs cause
    have hdormant : ∀ r, Dormant (s.riser r) ((s.endCall i cause).riser r) := fun r => by
      have hriser : (s.endCall i cause).riser r = (s.legsReleased i c cause).riser r := by
        unfold State.riser
        rw [State.endCall_eq hc hs]
      rw [hriser]
      exact s.legsReleased_dormant i c cause r
    refine ⟨hended.frame, fun j hj d hd hd' => ?_, fun j hj => hended.calls j (by simpa using hj), hended.live, fun r k => ?_,
      hdormant, ?_, (s.endCall_touch i cause).clu, fun hg => ?_⟩
    · obtain rfl : j = i := by simpa using hj
      obtain rfl : c = d := Option.some_inj.mp (hc.symm.trans hd)
      refine ⟨hended.record, ?_, fun r k hk => by rw [hended.staged, if_pos hk]⟩
      rw [hended.console]
      split
      · rfl
      next hn => simpa using hn
    · rw [hended.staged]
      split
      · exact .inr rfl
      · exact .inl rfl
    · rw [hended.console]
      split
      next hn => exact .inr ⟨rfl, i, List.mem_singleton_self i, hn⟩
      · exact .inl rfl
    · rw [hclu]
      refine ConsoleUnit.posted_gap _ ?_
      split <;> exact hg
  · have hnone : ∀ c, s.call i = some c → c.state = .clearing := fun c hc => by_contra fun hs => h ⟨c, hc, hs⟩
    rw [State.endCall_none hnone]
    refine ⟨rfl, fun j hj d hd hd' => ?_, fun _ _ => rfl, fun _ => rfl, fun _ _ => .inl rfl, fun _ => .refl _, .inl rfl, rfl, id⟩
    obtain rfl : j = i := by simpa using hj
    exact absurd (hnone d hd) hd'

theorem EndedAll.cons {s t u : State} {i : Rec} {l : List Rec} {cause : EndCause} (hi : i ∉ l) (h : EndedAll s t [i] cause)
    (g : EndedAll t u l cause) : EndedAll s u (i :: l) cause := by
  have hkept : ∀ j, j ≠ i → t.call j = s.call j := fun j hj => h.others j (by simpa using hj)
  have hlive : ∀ j, t.liveNames j = s.liveNames j := State.liveNames_congr h.live
  refine ⟨by rw [g.state, h.state], fun j hj c hc hs => ?_, fun j hj => ?_, fun r => (g.live r).trans (h.live r), fun r k => ?_,
    fun r => (h.dormant r).trans (g.dormant r), ?_, by rw [g.clu, h.clu], fun hg => g.gap (h.gap hg)⟩
  · rcases List.mem_cons.mp hj with rfl | hj
    · obtain ⟨hcall, hnames, hstaged⟩ := h.ended j (List.mem_singleton_self j) c hc hs
      refine ⟨(g.others j hi).trans hcall, ?_, fun r k hk => ?_⟩
      · rcases g.console with hc | ⟨hc, -⟩ <;> rw [hc]
        · exact hnames
        · rfl
      · rcases g.staged r k with hk' | hk'
        · exact hk'.trans (hstaged r k hk)
        · exact hk'
    · have hne : j ≠ i := fun hji => hi (hji ▸ hj)
      obtain ⟨hcall, hnames, hstaged⟩ := g.ended j hj c ((hkept j hne).trans hc) hs
      refine ⟨by rw [hcall, hlive], hnames, fun r k hk => ?_⟩
      rcases h.staged r k with hk' | hk'
      · exact hstaged r k (by rw [hk']; exact hk)
      · rcases g.staged r k with hk'' | hk''
        · exact hk''.trans hk'
        · exact hk''
  · rw [List.mem_cons, not_or] at hj
    exact (g.others j hj.2).trans (hkept j hj.1)
  · rcases g.staged r k with hk | hk
    · rw [hk]; exact h.staged r k
    · exact .inr hk
  · rcases g.console with hc | ⟨hc, j, hj, hn⟩
    · rcases h.console with hc' | ⟨hc', j, hj, hn⟩
      · exact .inl (hc.trans hc')
      · exact .inr ⟨hc.trans hc', j, by rw [List.mem_singleton.mp hj]; exact List.mem_cons_self .., hn⟩
    · refine .inr ⟨hc, j, List.mem_cons_of_mem _ hj, ?_⟩
      rcases h.console with hc' | ⟨hc', -⟩ <;> rw [hc'] at hn
      · exact hn
      · cases hn

/-- The calls of a list without repetitions are ended one after the other. -/
theorem endedAll_foldl {l : List Rec} (hn : l.Nodup) (s : State) (cause : EndCause) :
    EndedAll s (l.foldl (fun s i => s.endCall i cause) s) l cause := by
  induction l generalizing s with
  | nil => exact .nil s cause
  | cons i l ih =>
    obtain ⟨hi, hn⟩ := List.nodup_cons.mp hn
    exact .cons hi (s.endCall_all i cause) (ih hn _)

end Sys2Proof.Machine
end

