-- ==== Sys2Proof/Proofs/PageEnd.lean ====
section
/-! PROOFS. The end of the page and the slots it returns, and the dropping of a riser from it (R140, R141). -/

namespace Sys2Proof.Machine

open Sys2Proof Sys2Proof.Safety

/-! ## The slot of one served riser (R141) -/

/-- The lender of a slot as it has it back. -/
def Call.resumed (c : Call) : Call := { c with state := .connected, held := false, talkTimer := c.talkTimer.resume }

/-- The state once call i is CONNECTED again in the slot it lent. -/
def State.lentBack (s : State) (r : Riser) (k : Slot) (i : Rec) (c : Call) : State :=
  ((s.edit r k (.carrying i)).setCall i (some c.resumed)).postCall i (.resumed r k)

theorem State.returnSlot_cases (p : PageRecord) (s : State) (r : Riser) :
    vget p.served r = none ∧ State.returnSlot p s r = s ∨
    (∃ v, vget p.served r = some v ∧ (∀ i c, ¬ MayReturn s v i c) ∧ State.returnSlot p s r = s.edit r v.slot .idle) ∨
    ∃ v i c, vget p.served r = some v ∧ MayReturn s v i c ∧ State.returnSlot p s r = s.lentBack r v.slot i c := by
  unfold State.returnSlot
  cases hv : vget p.served r with
  | none => exact .inl ⟨rfl, rfl⟩
  | some v =>
    refine .inr ?_
    cases hl : v.lender with
    | none =>
      refine .inl ⟨v, rfl, fun i c h => ?_, by simp only [hl]⟩
      obtain ⟨hlender, -⟩ := h
      cases hl.symm.trans hlender
    | some x =>
      obtain ⟨i, serial⟩ := x
      by_cases hreturn : ∃ c, s.call i = some c ∧ c.state = .held ∧ c.serial = serial
      · obtain ⟨c, hc, hheld, rfl⟩ := hreturn
        refine .inr ⟨v, i, c, rfl, ⟨hl, hc, hheld⟩, ?_⟩
        simp only [hl, hc, hheld, and_self, if_true]
        rfl
      · refine .inl ⟨v, rfl, fun j c h => ?_, ?_⟩
        · obtain ⟨hlender, hcall, hheld⟩ := h
          obtain ⟨rfl, rfl⟩ : i = j ∧ serial = c.serial := by simpa using hl.symm.trans hlender
          exact hreturn ⟨c, hcall, hheld, rfl⟩
        · simp only [hl]
          split
          · rfl
          next c hc => exact if_neg fun h => hreturn ⟨c, hc, h⟩

/-! ## The slots of the page's risers -/

/-- What the page's end changes of the rest of the part: calls that are HELD, staged schedules, orders and reports. -/
structure Returned (p : PageRecord) (s t : State) : Prop where
  state   : t = { s with calls := t.calls, risers := t.risers, clu := t.clu }
  call    : ∀ j, (∀ c, s.call j = some c → c.state ≠ .held) → t.call j = s.call j
  staged  : ∀ r, vget p.served r = none → (t.riser r).staged = (s.riser r).staged
  dormant : ∀ r, Dormant (s.riser r) (t.riser r)
  gap     : s.clu.gap = true → t.clu.gap = true

theorem Returned.refl (p : PageRecord) (s : State) : Returned p s s :=
  ⟨rfl, fun _ _ => rfl, fun _ _ => rfl, fun _ => .refl _, id⟩

theorem Returned.trans {p : PageRecord} {s t u : State} (h : Returned p s t) (g : Returned p t u) : Returned p s u where
  state := by rw [g.state, h.state]
  call j hj := by
    have hkept := h.call j hj
    exact (g.call j fun c hc => hj c (hkept ▸ hc)).trans hkept
  staged r hr := (g.staged r hr).trans (h.staged r hr)
  dormant r := (h.dormant r).trans (g.dormant r)
  gap hs := g.gap (h.gap hs)

theorem Returned.foldl {α : Type} {p : PageRecord} {f : State → α → State} (h : ∀ s x, Returned p s (f s x)) (l : List α)
    (s : State) : Returned p s (l.foldl f s) := by
  induction l generalizing s with
  | nil => exact .refl p s
  | cons x l ih => exact (h s x).trans (ih _)

theorem State.edit_returned {p : PageRecord} {r : Riser} (hr : vget p.served r ≠ none) (s : State) (k : Slot) (e : SlotEntry) :
    Returned p s (s.edit r k e) := by
  have hslots := s.edit_slots r k e
  refine ⟨by rw [hslots.state], fun j _ => hslots.call j, fun r' hr' => ?_, s.edit_dormant r k e, fun hg => ?_⟩
  · have hne : r ≠ r' := fun h => hr (h ▸ hr')
    apply vget_ext
    intro k'
    rw [State.edit_staged, if_neg fun h => hne h.1]
  · rw [hslots.state]; exact hg

/-- A lender restored: its call, its slot and a report. -/
theorem State.lentBack_state {s : State} {r : Riser} {k : Slot} {i : Rec} {c : Call} : s.lentBack r k i c = { s with
    calls := vset s.calls i (some c.resumed), risers := (s.edit r k (.carrying i)).risers
    clu := s.clu.posted (.call (.resumed r k) (some (i, c.serial)) c.kind c.origin (some .connected)) } := by
  have hslots := (s.edit_slots r k (.carrying i)).state
  unfold State.lentBack
  rw [State.postCall_eq (c := c.resumed) (by exact vget_vset_self ..)]
  generalize s.edit r k (.carrying i) = t at hslots ⊢
  rw [hslots]
  rfl

theorem State.lentBack_returned {p : PageRecord} {r : Riser} (hr : vget p.served r ≠ none) {s : State} {i : Rec} {c : Call}
    (hc : s.call i = some c) (hs : c.state = .held) (k : Slot) : Returned p s (s.lentBack r k i c) := by
  have hedit := State.edit_returned hr s k (.carrying i)
  rw [State.lentBack_state]
  refine ⟨rfl, fun j hj => vget_vset_ne _ ?_ _, hedit.staged, hedit.dormant, ConsoleUnit.posted_gap _⟩
  rintro rfl
  exact hj c hc hs

theorem State.returnSlot_returned (p : PageRecord) (s : State) (r : Riser) : Returned p s (State.returnSlot p s r) := by
  rcases s.returnSlot_cases p r with ⟨-, h⟩ | ⟨v, hv, -, h⟩ | ⟨v, i, c, hv, hreturn, h⟩ <;> rw [h]
  · exact .refl p s
  · exact State.edit_returned (by rw [hv]; simp) ..
  · exact State.lentBack_returned (by rw [hv]; simp) hreturn.2.1 hreturn.2.2 _

/-- The slot of one riser is no matter of another. -/
theorem State.returnSlot_other (p : PageRecord) (s : State) {r r' : Riser} (h : r ≠ r') :
    (State.returnSlot p s r).riser r' = s.riser r' := by
  have hedit : ∀ k e, (s.edit r k e).riser r' = s.riser r' := fun k e => by rw [State.edit, State.riser_modRiser, if_neg h]
  rcases s.returnSlot_cases p r with ⟨-, hr⟩ | ⟨v, -, -, hr⟩ | ⟨v, i, c, -, -, hr⟩ <;> rw [hr]
  · exact hedit ..
  · rw [State.lentBack_state]; exact hedit ..

/-- Only the lender of the slot is CONNECTED again. -/
theorem State.returnSlot_lender (p : PageRecord) (s : State) (r : Riser) {i : Rec}
    (h : ∀ v, vget p.served r = some v → v.lender.map Prod.fst ≠ some i) : (State.returnSlot p s r).call i = s.call i := by
  rcases s.returnSlot_cases p r with ⟨-, hr⟩ | ⟨v, -, -, hr⟩ | ⟨v, j, c, hv, hreturn, hr⟩ <;> rw [hr]
  · exact (s.edit_slots r v.slot .idle).call i
  · rw [State.lentBack_state]
    refine vget_vset_ne _ ?_ _
    rintro rfl
    exact h v hv (by rw [hreturn.1]; rfl)

theorem State.returnSlot_lends {p : PageRecord} {s : State} {r : Riser} {v : Served} {i : Rec} {c : Call}
    (hv : vget p.served r = some v) (h : MayReturn s v i c) : State.returnSlot p s r = s.lentBack r v.slot i c := by
  rcases s.returnSlot_cases p r with ⟨hv', -⟩ | ⟨v', hv', hno, -⟩ | ⟨v', j, d, hv', h', hr⟩
  · rw [hv] at hv'; cases hv'
  · rw [hv] at hv'; cases hv'; exact absurd h (hno i c)
  · rw [hv] at hv'
    cases hv'
    obtain ⟨hlender, hc, -⟩ := h
    obtain ⟨hlender', hd, -⟩ := h'
    obtain ⟨rfl, -⟩ : i = j ∧ c.serial = d.serial := by simpa using hlender.symm.trans hlender'
    obtain rfl : c = d := Option.some_inj.mp (hc.symm.trans hd)
    exact hr

/-- The slots of other risers that i did not lend are no matter of it. -/
theorem State.returnSlots_others {p : PageRecord} {r : Riser} {i : Rec} {l : List Riser} (hr : r ∉ l)
    (h : ∀ r', r' ≠ r → ∀ v, vget p.served r' = some v → v.lender.map Prod.fst ≠ some i) (s : State) :
    (l.foldl (State.returnSlot p) s).riser r = s.riser r ∧ (l.foldl (State.returnSlot p) s).call i = s.call i := by
  induction l generalizing s with
  | nil => exact ⟨rfl, rfl⟩
  | cons x l ih =>
    obtain ⟨hx, hl⟩ := not_or.mp (mt List.mem_cons.mpr hr)
    obtain ⟨hriser, hcall⟩ := ih hl (State.returnSlot p s x)
    exact ⟨hriser.trans (State.returnSlot_other p s (Ne.symm hx)),
      hcall.trans (State.returnSlot_lender p s x (h x (Ne.symm hx)))⟩

theorem State.lentBack_slot {s : State} {r : Riser} {k : Slot} {i : Rec} {c : Call} :
    vget ((s.lentBack r k i c).riser r).staged k = .carrying i ∧ (s.lentBack r k i c).call i = some c.resumed := by
  rw [State.lentBack_state]
  have hstaged := s.edit_staged r r k k (.carrying i)
  rw [if_pos ⟨rfl, rfl⟩] at hstaged
  exact ⟨hstaged, vget_vset_self ..⟩

/-- A call that lent one riser's slot, and no other, has it back at the page's end. -/
theorem State.returnSlots_lender {p : PageRecord} {r : Riser} {v : Served} {i : Rec} {c : Call} (hv : vget p.served r = some v)
    (hone : ∀ r' v', vget p.served r' = some v' → v'.lender.map Prod.fst = some i → r' = r) {l : List Riser} (hl : l.Nodup)
    (hr : r ∈ l) {s : State} (hreturn : MayReturn s v i c) :
    vget ((l.foldl (State.returnSlot p) s).riser r).staged v.slot = .carrying i ∧
      (l.foldl (State.returnSlot p) s).call i = some c.resumed := by
  induction l generalizing s with
  | nil => exact absurd hr List.not_mem_nil
  | cons x l ih =>
    obtain ⟨hx, hl⟩ := List.nodup_cons.mp hl
    have hother : ∀ r', r' ≠ r → ∀ v', vget p.served r' = some v' → v'.lender.map Prod.fst ≠ some i :=
      fun r' hr' v' hv' hi => hr' (hone r' v' hv' hi)
    rw [List.foldl_cons]
    by_cases hxr : x = r
    · subst hxr
      obtain ⟨hriser, hcall⟩ := State.returnSlots_others hx hother (State.returnSlot p s x)
      rw [hriser, hcall, State.returnSlot_lends hv hreturn]
      exact State.lentBack_slot
    · refine ih hl ((List.mem_cons.mp hr).resolve_left (Ne.symm hxr)) ?_
      obtain ⟨hlender, hc, hs⟩ := hreturn
      exact ⟨hlender, (State.returnSlot_lender p s x (hother x hxr)).trans hc, hs⟩

/-! ## The end of the page (R141) -/

/-- The state once PAGE-OFF waits for the members and the slots are returned. -/
def State.pageReturned (s : State) (p : PageRecord) : State :=
  allRisers.foldl (State.returnSlot p) (p.members.foldl (fun s h => s.order h .pageOff) s)

theorem State.endPage_none {s : State} (h : s.page = none) (cause : PageCause) : s.endPage cause = s := by
  unfold State.endPage; rw [h]

theorem State.endPage_some {s : State} {p : PageRecord} (h : s.page = some p) (cause : PageCause) : s.endPage cause =
    (((s.pageReturned p).setPage none).setConsole .idle).post (.pageEnded p.group cause) := by
  unfold State.endPage; rw [h]; rfl

theorem State.pagedOff_orders (s : State) (p : PageRecord) :
    OrdersTo (fun _ => True) s (p.members.foldl (fun s h => s.order h .pageOff) s) :=
  .foldl (fun h _ s => (s.order_orders h .pageOff).mono fun _ _ => trivial) s

theorem State.pageReturned_returned (s : State) (p : PageRecord) : Returned p s (s.pageReturned p) := by
  have horders := s.pagedOff_orders p
  have hdormant : ∀ r, Dormant (s.riser r) ((p.members.foldl (fun s h => s.order h .pageOff) s).riser r) :=
    dormant_foldl (f := fun (s : State) h => s.order h .pageOff) (fun s h r => s.order_dormant h .pageOff r) _ s
  have hslots := Returned.foldl (State.returnSlot_returned p) allRisers (p.members.foldl (fun s h => s.order h .pageOff) s)
  unfold State.pageReturned
  generalize p.members.foldl (fun s h => s.order h .pageOff) s = t at horders hdormant hslots ⊢
  refine .trans ⟨?_, fun j _ => horders.call j, fun r _ => horders.staged r, hdormant, ?_⟩ hslots
  · rw [horders.state]
  · rw [horders.state]; exact id

/-- A lender of one slot has it back. -/
theorem State.pageReturned_lender {s : State} {p : PageRecord} {r : Riser} {v : Served} {i : Rec} {c : Call}
    (hv : vget p.served r = some v) (hreturn : MayReturn s v i c)
    (hone : ∀ r' v', vget p.served r' = some v' → v'.lender.map Prod.fst = some i → r' = r) :
    vget ((s.pageReturned p).riser r).staged v.slot = .carrying i ∧ (s.pageReturned p).call i = some c.resumed := by
  obtain ⟨hlender, hc, hs⟩ := hreturn
  exact State.returnSlots_lender hv hone (List.nodup_finRange 8) (List.mem_finRange r)
    ⟨hlender, ((s.pagedOff_orders p).call i).trans hc, hs⟩

end Sys2Proof.Machine
end

