-- ==== Sys2Proof/Proofs/ConsoleLink.lean ====
section
/-! PROOFS. Bad frames on the console link, and its loss by the fourth in a row (R102, R143, R171, R172). -/

namespace Sys2Proof.Machine

open Sys2Proof Sys2Proof.Safety

/-! ## The steps of the loss (R143) -/

/-- The calls that end with the console link. -/
def State.consoleCalls (s : State) : List Rec := allRecs.filter s.endsWithConsole

/-- The state once they have ended. -/
def State.consoleCallsEnded (s : State) : State := s.consoleCalls.foldl (fun s i => s.endCall i .linkLost) s

/-- The monitoring of a call ends with the console link. -/
def State.monitorLeft (s : State) : State :=
  match s.console with
  | .listen i => s.unmonitor i
  | .barge i => s.unmonitor i
  | _ => s

theorem State.mem_consoleCalls {s : State} {i : Rec} : i ∈ s.consoleCalls ↔
    ∃ c, s.call i = some c ∧ (c.kind = .desk ∨ c.kind = .concierge ∧ s.console = .talk i) := by
  unfold State.consoleCalls State.endsWithConsole
  rw [List.mem_filter]
  cases s.call i <;> simp [allRecs]

theorem State.consoleCallsEnded_all (s : State) : EndedAll s s.consoleCallsEnded s.consoleCalls .linkLost :=
  endedAll_foldl ((List.nodup_finRange 16).filter _) s .linkLost

theorem State.unmonitor_call (s : State) (i j : Rec) : (s.unmonitor i).call j =
    if i = j then (s.call j).map fun c => { c with monitor := .none } else s.call j := by
  unfold State.unmonitor
  rw [State.call_modCall]
  split
  next h => rw [h]
  · rfl

theorem State.monitorLeft_state (s : State) : s.monitorLeft = { s with calls := s.monitorLeft.calls } := by
  unfold State.monitorLeft State.unmonitor State.modCall
  split <;> rfl

theorem State.monitorLeft_other {s : State} {i : Rec} (h : s.console ≠ .listen i ∧ s.console ≠ .barge i) :
    s.monitorLeft.call i = s.call i := by
  unfold State.monitorLeft
  split
  next j hj => rw [State.unmonitor_call, if_neg fun (hji : j = i) => h.1 (hji ▸ hj)]
  next j hj => rw [State.unmonitor_call, if_neg fun (hji : j = i) => h.2 (hji ▸ hj)]
  · rfl

theorem State.monitorLeft_monitored {s : State} {i : Rec} (h : s.console = .listen i ∨ s.console = .barge i) :
    s.monitorLeft.call i = (s.call i).map fun c => { c with monitor := .none } := by
  unfold State.monitorLeft
  rcases h with h | h <;> rw [h] <;> dsimp only <;> rw [State.unmonitor_call, if_pos rfl]

theorem State.monitorLeft_page (s : State) : s.monitorLeft.page = s.page := by
  unfold State.monitorLeft
  split <;> rfl

/-! ## What the loss leaves of the calls and the page (R143) -/

/-- The state before the page ends. -/
def State.consoleLeft (s : State) : State := s.consoleCallsEnded.monitorLeft

theorem State.consoleGone_eq (s : State) :
    s.consoleGone = (s.consoleLeft.endPage .linkLost).setConsole .idle := rfl

theorem State.consoleLeft_page (s : State) : s.consoleLeft.page = s.page := by
  rw [State.consoleLeft, State.monitorLeft_page, s.consoleCallsEnded_all.state]

/-- The end of the page leaves every call that is not HELD. -/
theorem State.endPage_call {s : State} {j : Rec} (h : ∀ c, s.call j = some c → c.state ≠ .held) (cause : PageCause) :
    (s.endPage cause).call j = s.call j := by
  cases hp : s.page with
  | none => rw [State.endPage_none hp]
  | some p =>
    have hreturned := s.pageReturned_returned p
    rw [State.endPage_some hp]
    generalize s.pageReturned p = t at hreturned ⊢
    exact hreturned.call j h

theorem State.endPage_page (s : State) (cause : PageCause) : (s.endPage cause).page = none := by
  cases hp : s.page with
  | none => rw [State.endPage_none hp]; exact hp
  | some p => rw [State.endPage_some hp]; rfl

theorem State.endPage_gap {s : State} (h : s.clu.gap = true) (cause : PageCause) : (s.endPage cause).clu.gap = true := by
  cases hp : s.page with
  | none => rw [State.endPage_none hp]; exact h
  | some p =>
    have hreturned := s.pageReturned_returned p
    rw [State.endPage_some hp]
    generalize s.pageReturned p = t at hreturned ⊢
    exact ConsoleUnit.posted_gap _ (hreturned.gap h)

theorem State.consoleGone_gap {s : State} (h : s.clu.gap = true) : s.consoleGone.clu.gap = true := by
  have hended := s.consoleCallsEnded_all.gap h
  have hleft : s.consoleLeft.clu.gap = true := by
    rw [State.consoleLeft, State.monitorLeft_state]
    exact hended
  rw [State.consoleGone_eq]
  exact State.endPage_gap hleft .linkLost

/-- A DESK call, and the CONCIERGE call in TALK, ends LINK-LOST. -/
theorem State.consoleGone_ended {s : State} {i : Rec} {c : Call} (hc : s.call i = some c) (hs : c.state ≠ .clearing)
    (hk : c.kind = .desk ∨ c.kind = .concierge ∧ s.console = .talk i) :
    s.consoleGone.call i = if s.liveNames i then some (clearedRecord c .linkLost) else none := by
  obtain ⟨hended, hnames, -⟩ := s.consoleCallsEnded_all.ended i (State.mem_consoleCalls.mpr ⟨c, hc, hk⟩) c hc hs
  have hleft : s.consoleLeft.call i = s.consoleCallsEnded.call i := by
    refine State.monitorLeft_other ⟨fun h => ?_, fun h => ?_⟩ <;> rw [h] at hnames <;> simp [ConsoleState.names] at hnames
  have hheld : ∀ d, s.consoleLeft.call i = some d → d.state ≠ .held := fun d hd => by
    rw [hleft, hended] at hd
    split at hd
    · cases hd; exact nofun
    · cases hd
  rw [State.consoleGone_eq]
  exact (State.endPage_call hheld .linkLost).trans (hleft.trans hended)

/-- An ENTRY call without a page goes on, no longer monitored. -/
theorem State.consoleGone_entry {s : State} {i : Rec} {c : Call} (hc : s.call i = some c) (hk : c.kind = .entry)
    (hp : s.page = none) : s.consoleGone.call i =
      some (if s.console = .listen i ∨ s.console = .barge i then { c with monitor := .none } else c) := by
  have hnot : i ∉ s.consoleCalls := fun hi => by
    obtain ⟨d, hd, hkind⟩ := State.mem_consoleCalls.mp hi
    obtain rfl : c = d := Option.some_inj.mp (hc.symm.trans hd)
    rw [hk] at hkind
    simp at hkind
  have hcall : s.consoleCallsEnded.call i = some c := (s.consoleCallsEnded_all.others i hnot).trans hc
  have hgone : s.consoleGone.call i = s.consoleLeft.call i := by
    rw [State.consoleGone_eq, State.endPage_none (s.consoleLeft_page.trans hp)]
    rfl
  rw [hgone, State.consoleLeft]
  by_cases hm : s.console = .listen i ∨ s.console = .barge i
  · have hconsole : s.consoleCallsEnded.console = s.console := by
      rcases s.consoleCallsEnded_all.console with h | ⟨-, j, hj, hn⟩
      · exact h
      · have hji : j = i := by rcases hm with h | h <;> rw [h] at hn <;> simpa [ConsoleState.names] using hn
        exact absurd (hji ▸ hj) hnot
    rw [if_pos hm, State.monitorLeft_monitored (by rw [hconsole]; exact hm), hcall]
    rfl
  · rw [if_neg hm, State.monitorLeft_other, hcall]
    obtain ⟨h1, h2⟩ := not_or.mp hm
    rcases s.consoleCallsEnded_all.console with h | ⟨h, -⟩ <;> rw [h]
    · exact ⟨h1, h2⟩
    · exact ⟨nofun, nofun⟩

/-- An ENTRY call that lent the page one slot is CONNECTED in it again. -/
theorem State.consoleGone_lender {s : State} {p : PageRecord} {r : Riser} {v : Served} {i : Rec} {c : Call}
    (hp : s.page = some p) (hv : vget p.served r = some v) (hreturn : MayReturn s v i c) (hk : c.kind = .entry)
    (hconsole : s.console = .paging)
    (hone : ∀ r' v', vget p.served r' = some v' → v'.lender.map Prod.fst = some i → r' = r) :
    vget (s.consoleGone.riser r).staged v.slot = .carrying i ∧ s.consoleGone.call i = some c.resumed := by
  obtain ⟨hlender, hc, hs⟩ := hreturn
  have hnot : i ∉ s.consoleCalls := fun hi => by
    obtain ⟨d, hd, hkind⟩ := State.mem_consoleCalls.mp hi
    obtain rfl : c = d := Option.some_inj.mp (hc.symm.trans hd)
    rw [hk] at hkind
    simp at hkind
  have hpaging : s.consoleCallsEnded.console ≠ .listen i ∧ s.consoleCallsEnded.console ≠ .barge i := by
    rcases s.consoleCallsEnded_all.console with h | ⟨h, -⟩ <;> rw [h]
    · rw [hconsole]; exact ⟨nofun, nofun⟩
    · exact ⟨nofun, nofun⟩
  have hcall : s.consoleLeft.call i = some c :=
    (State.monitorLeft_other hpaging).trans ((s.consoleCallsEnded_all.others i hnot).trans hc)
  have hlent := State.pageReturned_lender (s := s.consoleLeft) hv ⟨hlender, hcall, hs⟩ hone
  rw [State.consoleGone_eq, State.endPage_some (s.consoleLeft_page.trans hp)]
  generalize s.consoleLeft.pageReturned p = t at hlent ⊢
  exact hlent

/-- With no activity of the console the loss ends nothing. -/
theorem State.consoleGone_idle {s : State} (hconsole : s.console = .idle) (hp : s.page = none)
    (hk : ∀ i c, s.call i = some c → c.kind ≠ .desk) : s.consoleGone = s := by
  have hnone : s.consoleCalls = [] := by
    refine List.eq_nil_iff_forall_not_mem.mpr fun i hi => ?_
    obtain ⟨c, hc, hdesk | ⟨-, htalk⟩⟩ := State.mem_consoleCalls.mp hi
    · exact hk i c hc hdesk
    · rw [hconsole] at htalk; cases htalk
  have hended : s.consoleCallsEnded = s := by unfold State.consoleCallsEnded; rw [hnone]; rfl
  have hleft : s.monitorLeft = s := by unfold State.monitorLeft; rw [hconsole]
  rw [State.consoleGone_eq, State.consoleLeft, hended, hleft, State.endPage_none hp]
  unfold State.setConsole
  rw [← hconsole]

/-! ## The loss of the console link (R172) -/

/-- The part with the console unit's own share of the loss taken. -/
def State.cluLost (s : State) : State := s.modClu (·.lost)

theorem State.consoleLost_eq (s : State) : s.consoleLost = (s.cluLost.consoleGone).post (.link .lost none none) := rfl

/-- The console unit after the loss: its own share, and what the endings add to the reports. -/
theorem State.consoleLost_clu (s : State) : s.consoleLost.clu = { s.clu.lost with
    reports := s.consoleLost.clu.reports, gap := s.consoleLost.clu.gap, cursor := s.consoleLost.clu.cursor } := by
  have htouch := s.cluLost.consoleGone_touch.clu
  rw [State.consoleLost_eq]
  exact ConsoleUnit.posted_of_eq htouch _

/-- Reports that were never sent in full leave the gap marked. -/
theorem ConsoleUnit.lost_gap {c : ConsoleUnit}
    (h : c.gap = true ∨ c.reports ≠ [] ∨ ∃ m, c.outgoing = some m ∧ m.isReport = true) : c.lost.gap = true := by
  unfold ConsoleUnit.lost
  rcases h with h | h | ⟨m, hm, h⟩
  · simp [h]
  · simp [h]
  · simp [hm, h]

theorem State.consoleLost_page (s : State) : s.consoleLost.page = none := by
  have h := s.cluLost.consoleLeft.endPage_page .linkLost
  rw [State.consoleLost_eq, State.consoleGone_eq]
  generalize s.cluLost.consoleLeft.endPage .linkLost = t at h ⊢
  exact h

theorem exec_consoleWindowClose {s : State} (hr : Running s) (hu : s.clu.link.state = .up) (hb : 3 ≤ s.clu.link.bad) :
    exec .consoleWindowClose s = .next (State.settled s s.consoleLost) := by
  simp only [exec, execConsoleWindowClose, State.whenRunning_running hr, hu, if_true, State.consoleBad]
  rw [if_neg (show ¬ s.clu.link.bad + 1 < Config.badToHunt from Nat.not_lt.mpr (Nat.succ_le_succ hb))]
  rfl

theorem State.consoleBad_hunt {s : State} (h : s.clu.link.state = .hunt) : s.consoleBad =
    { s with clu := { s.clu with link := { s.clu.link with good := 0 } } } := by
  unfold State.consoleBad
  split
  next hs => rw [h] at hs; cases hs
  · rfl
  next hs => rw [h] at hs; cases hs

theorem State.consoleBad_counted {s : State} (h : s.clu.link.state = .up) (hb : s.clu.link.bad + 1 < Config.badToHunt) :
    s.consoleBad = { s with clu := { s.clu with link := { s.clu.link with bad := s.clu.link.bad + 1 } } } := by
  unfold State.consoleBad
  split
  next hs => rw [h] at hs; cases hs
  next hs => rw [h] at hs; cases hs
  · exact if_pos hb

theorem exec_consoleFrame_bad {s : State} {f : ConsoleFrame} (hr : Running s) (hf : consoleFrameGood f = false) :
    exec (.consoleFrameArrival f) s =
      .next (if s.clu.link.state = .hunt ∧ f.sync = 0x5C then s.consoleBad else s) := by
  simp only [exec, execConsoleFrameArrival, State.whenRunning_running hr, hf]
  rfl

/-- Settles O32: the bad frames that count, then the loss by its steps. -/
theorem theFourthBadFrameLosesTheConsoleLink : Obligations.TheFourthBadFrameLosesTheConsoleLink := by
  refine ⟨fun s f hr hf => ?_, fun s hr hu => ?_, fun s hr hu => ⟨fun hb => ?_, fun hb => ?_⟩⟩
  · rw [exec_consoleFrame_bad hr hf]
    refine congrArg Host.Outcome.next ?_
    by_cases h : s.clu.link.state = .hunt ∧ f.sync = 0x5C
    · rw [if_pos h, if_pos h, State.consoleBad_hunt h.1]
    · rw [if_neg h, if_neg h]
  · simp only [exec, execConsoleWindowClose, State.whenRunning_running hr, if_neg hu]
  · simp only [exec, execConsoleWindowClose, State.whenRunning_running hr, if_pos hu]
    rw [State.consoleBad_counted hu hb]
  have hclu := s.consoleLost_clu
  have hgap := fun h => State.consoleGone_gap (s := s.cluLost) (ConsoleUnit.lost_gap (c := s.clu) h)
  have hended := fun i c => State.consoleGone_ended (s := s.cluLost) (i := i) (c := c)
  have hentry := fun i c => State.consoleGone_entry (s := s.cluLost) (i := i) (c := c)
  have hlender := fun p r v i c => State.consoleGone_lender (s := s.cluLost) (p := p) (r := r) (v := v) (i := i) (c := c)
  have hidle := State.consoleGone_idle (s := s.cluLost)
  have hpage := s.consoleLost_page
  refine ⟨s.consoleLost, exec_consoleWindowClose hr hu hb, rfl, hpage, ?_, ?_, ?_, ?_, ?_, ?_, ?_, ?_, ?_,
    fun h => ConsoleUnit.posted_gap _ (hgap h), ?_, ?_, ?_, ?_⟩
  · rw [hclu]; rfl
  · rw [hclu]; rfl
  · rw [hclu]; rfl
  · rw [hclu]; rfl
  · rw [hclu]; rfl
  · rw [hclu]; rfl
  · rw [hclu]; rfl
  · rw [hclu]; rfl
  · exact ConsoleUnit.posted_getLast ..
  · exact hended
  · exact fun i c hc hk hp => hentry i c hc hk hp
  · exact fun p r v i c hp hv hreturn hk hconsole hone => hlender p r v i c hp hv hreturn hk hconsole hone
  · intro hconsole hp hk
    rw [State.consoleLost_eq, hidle hconsole hp hk]
    rfl

end Sys2Proof.Machine
end

