-- ==== Sys2Proof/Proofs/RiserSet.lean ====
section
/-! PROOFS. RISER-SET: its reply, its timers, and what an enable and a disable make of the riser, of the calls there and of the
page (R18, R88 to R92, R140, R191). -/

namespace Sys2Proof.Machine

open Sys2Proof Sys2Proof.Safety

/-! ## What a disable may change -/

/-- The fields that the endings of a disable may change, and those of the console unit. -/
structure GoneFrame (s t : State) : Prop where
  state : t = { s with
    calls := t.calls, waitQueue := t.waitQueue, consoleQueue := t.consoleQueue, console := t.console, page := t.page
    risers := t.risers, panels := t.panels, clu := t.clu, notice := t.notice }
  clu   : t.clu = { s.clu with reports := t.clu.reports, gap := t.clu.gap, cursor := t.clu.cursor }

theorem GoneFrame.refl (s : State) : GoneFrame s s := ⟨rfl, rfl⟩

theorem GoneFrame.trans {s t u : State} (h : GoneFrame s t) (g : GoneFrame t u) : GoneFrame s u :=
  ⟨by rw [g.state, h.state], by rw [g.clu, h.clu]⟩

theorem GoneFrame.setRiser (s : State) (r : Riser) (u : RiserUnit) : GoneFrame s (s.setRiser r u) := ⟨rfl, rfl⟩

theorem GoneFrame.post (s : State) (x : Report) : GoneFrame s (s.post x) :=
  ⟨rfl, ConsoleUnit.posted_of_eq (c := s.clu) (d := s.clu) rfl x⟩

theorem GoneFrame.riserOff (s : State) (r : Riser) (event : RiserEvent) : GoneFrame s (s.riserOff r event) := by
  have h := s.riserOff_state r event
  generalize s.riserOff r event = t at h ⊢
  refine ⟨by rw [h], ?_⟩
  rw [h]
  exact ConsoleUnit.posted_of_eq (c := s.clu) (d := s.clu) rfl _

theorem EndedAll.goneFrame {s t : State} {l : List Rec} {cause : EndCause} (h : EndedAll s t l cause) : GoneFrame s t :=
  ⟨by rw [h.state], h.clu⟩

/-- The end of the page, as far as a disable goes. -/
theorem State.endPage_goneFrame (s : State) (cause : PageCause) : GoneFrame s (s.endPage cause) := by
  cases hp : s.page with
  | none => rw [State.endPage_none hp]; exact .refl s
  | some p =>
    have hreturned := (s.pageReturned_returned p).state
    have hclu := (s.endPage_touch cause).clu
    refine ⟨?_, hclu⟩
    rw [State.endPage_some hp]
    generalize s.pageReturned p = t at hreturned ⊢
    rw [hreturned]
    rfl

/-! ## The page drops a riser (R140) -/

/-- The page record without a riser and its members there. -/
def PageRecord.without (p : PageRecord) (r : Riser) : PageRecord :=
  { p with served := vset p.served r none, members := p.members.filter fun h => h.riser ≠ r }

/-- The state once the page has dropped a riser that it serves with the slot v. -/
def State.pageDropped (s : State) (p : PageRecord) (r : Riser) (v : Served) : State :=
  ((s.edit r v.slot .idle).setPage (some (p.without r))).post (.pageDropped r)

theorem State.dropRiser_none {s : State} {r : Riser} (h : ∀ p, s.page = some p → vget p.served r = none) :
    s.dropRiser r = s := by
  unfold State.dropRiser
  split
  · rfl
  next p hp => rw [h p hp]

theorem State.dropRiser_some {s : State} {p : PageRecord} {r : Riser} {v : Served} (hp : s.page = some p)
    (hv : vget p.served r = some v) : s.dropRiser r =
      if ∃ r', (vget (p.without r).served r').isSome = true then s.pageDropped p r v
      else (s.pageDropped p r v).endPage .risersGone := by
  have hiff : allRisers.any (p.without r).serves = true ↔ ∃ r', (vget (p.without r).served r').isSome = true := by
    simp [allRisers, PageRecord.serves]
  unfold State.dropRiser
  rw [hp]
  dsimp only
  rw [hv]
  exact if_congr hiff rfl rfl

theorem State.pageDropped_state (s : State) (p : PageRecord) (r : Riser) (v : Served) : s.pageDropped p r v = { s with
    risers := (s.edit r v.slot .idle).risers, page := some (p.without r), clu := s.clu.posted (.pageDropped r) } := by
  have h := (s.edit_slots r v.slot .idle).state
  unfold State.pageDropped
  generalize s.edit r v.slot .idle = t at h ⊢
  rw [h]
  rfl

/-- What the dropping of a riser leaves: the calls that are not HELD, and the slots of the riser that are IDLE. -/
structure Dropped (s t : State) (r : Riser) : Prop where
  frame   : GoneFrame s t
  call    : ∀ j, (∀ c, s.call j = some c → c.state ≠ .held) → t.call j = s.call j
  staged  : ∀ k, vget (s.riser r).staged k = .idle → vget (t.riser r).staged k = .idle
  dormant : ∀ r', Dormant (s.riser r') (t.riser r')

theorem State.pageDropped_dropped (s : State) (p : PageRecord) (r : Riser) (v : Served) :
    Dropped s (s.pageDropped p r v) r ∧ vget ((s.pageDropped p r v).riser r).staged v.slot = .idle := by
  have hstaged := fun k => s.edit_staged r r v.slot k .idle
  have hdormant := s.edit_dormant r v.slot .idle
  rw [State.pageDropped_state]
  refine ⟨⟨⟨rfl, ConsoleUnit.posted_of_eq (c := s.clu) (d := s.clu) rfl _⟩, fun _ _ => rfl, fun k hk => ?_, hdormant⟩, ?_⟩
  · exact (hstaged k).trans (by split; rfl; exact hk)
  · exact (hstaged v.slot).trans (if_pos ⟨rfl, rfl⟩)

/-- The end of a page that does not serve a riser. -/
theorem State.endPage_dropped {s : State} {p : PageRecord} {r : Riser} (hp : s.page = some p) (hv : vget p.served r = none)
    (cause : PageCause) : Dropped s (s.endPage cause) r := by
  have hframe := s.endPage_goneFrame cause
  have hcall : ∀ j, (∀ c, s.call j = some c → c.state ≠ .held) → (s.endPage cause).call j = s.call j :=
    fun j hj => State.endPage_call hj cause
  have hreturned := s.pageReturned_returned p
  have hriser : ∀ r', (s.endPage cause).riser r' = (s.pageReturned p).riser r' := fun r' => by
    rw [State.endPage_some hp]
    generalize s.pageReturned p = t
    rfl
  refine ⟨hframe, hcall, fun k hk => ?_, fun r' => ?_⟩
  · rw [hriser, hreturned.staged r hv]; exact hk
  · rw [hriser]; exact hreturned.dormant r'

theorem Dropped.trans {s t u : State} {r : Riser} (h : Dropped s t r) (g : Dropped t u r) : Dropped s u r where
  frame := h.frame.trans g.frame
  call j hj := by
    have hkept := h.call j hj
    exact (g.call j fun c hc => hj c (hkept ▸ hc)).trans hkept
  staged k hk := g.staged k (h.staged k hk)
  dormant r' := (h.dormant r').trans (g.dormant r')

/-- What the dropping of riser r makes of the page, from `s` to `t`, with at most n reports posted after it. -/
structure PageWithout (n : Nat) (s t : State) (r : Riser) : Prop where
  served : ∀ p v, s.page = some p → vget p.served r = some v →
    vget (t.riser r).staged v.slot = .idle ∧ t.clu.Recent (n + 1) (.pageDropped r) ∧
    if ∃ r', (vget (p.without r).served r').isSome = true then
      t.page = some (p.without r) ∧ (s.console = .paging → t.console = .paging)
    else t.page = none ∧ t.console = .idle ∧ t.clu.Recent n (.pageEnded p.group .risersGone)
  other  : ∀ p, s.page = some p → vget p.served r = none → t.page = s.page

theorem ConsoleUnit.Recent.mono {n m : Nat} {x : Report} {c : ConsoleUnit} (h : c.Recent n x) (hn : n ≤ m) : c.Recent m x := by
  obtain ⟨older, newer, hr, hl⟩ := h
  exact ⟨older, newer, hr, hl.trans hn⟩

/-- A page that has lent no slot ends with one report. -/
theorem State.endPage_recent {s : State} {p : PageRecord} (h : s.page = some p) (cause : PageCause) :
    (s.endPage cause).console = .idle ∧ (s.endPage cause).clu.Recent 0 (.pageEnded p.group cause) := by
  rw [State.endPage_some h]
  generalize s.pageReturned p = t
  exact ⟨rfl, ConsoleUnit.recent_posted ..⟩

/-- With no riser left there is no slot to return, and the end posts one report. -/
theorem State.endPage_reports {s : State} {p : PageRecord} (h : s.page = some p) (hnone : ∀ r, vget p.served r = none)
    (cause : PageCause) : (s.endPage cause).clu = s.clu.posted (.pageEnded p.group cause) := by
  have hslot : State.returnSlot p = fun s _ => s := by
    funext s r
    unfold State.returnSlot
    rw [hnone r]
  have hsame : ∀ (l : List Riser) (t : State), l.foldl (State.returnSlot p) t = t := fun l t => by
    rw [hslot]
    induction l with
    | nil => rfl
    | cons x l ih => exact ih
  have hclu : (s.pageReturned p).clu = s.clu := by
    have horders := (s.pagedOff_orders p).state
    unfold State.pageReturned
    rw [hsame]
    generalize p.members.foldl (fun s h => s.order h .pageOff) s = t at horders ⊢
    rw [horders]
  rw [State.endPage_some h]
  generalize s.pageReturned p = t at hclu ⊢
  exact congrArg (ConsoleUnit.posted · _) hclu

theorem State.dropRiser_dropped (s : State) (r : Riser) : Dropped s (s.dropRiser r) r ∧ PageWithout 0 s (s.dropRiser r) r := by
  by_cases h : ∃ p v, s.page = some p ∧ vget p.served r = some v
  · obtain ⟨p, v, hp, hv⟩ := h
    obtain ⟨hdropped, hslot⟩ := s.pageDropped_dropped p r v
    have hstate := s.pageDropped_state p r v
    have hpage : (s.pageDropped p r v).page = some (p.without r) := by rw [hstate]
    have hrecent : (s.pageDropped p r v).clu.Recent 0 (.pageDropped r) := by rw [hstate]; exact ConsoleUnit.recent_posted ..
    have hconsole : (s.pageDropped p r v).console = s.console := by rw [hstate]
    rw [State.dropRiser_some hp hv]
    generalize s.pageDropped p r v = t at hdropped hslot hpage hrecent hconsole ⊢
    have hserved : ∀ q w, s.page = some q → vget q.served r = some w → q = p ∧ w = v := fun q w hq hw => by
      obtain rfl : p = q := Option.some_inj.mp (hp.symm.trans hq)
      exact ⟨rfl, Option.some_inj.mp (hw.symm.trans hv)⟩
    have hother : ∀ q, s.page = some q → vget q.served r = none → False := fun q hq hw => by
      obtain rfl : p = q := Option.some_inj.mp (hp.symm.trans hq)
      rw [hv] at hw
      cases hw
    by_cases hleft : ∃ r', (vget (p.without r).served r').isSome = true
    · rw [if_pos hleft]
      refine ⟨hdropped, ⟨fun q w hq hw => ?_, fun q hq hw => (hother q hq hw).elim⟩⟩
      obtain ⟨rfl, rfl⟩ := hserved q w hq hw
      rw [if_pos hleft]
      exact ⟨hslot, hrecent.mono (Nat.zero_le 1), hpage, fun hc => hconsole.trans hc⟩
    · rw [if_neg hleft]
      have hnone : vget (p.without r).served r = none := vget_vset_self ..
      have hend := State.endPage_dropped hpage hnone .risersGone
      refine ⟨hdropped.trans hend, ⟨fun q w hq hw => ?_, fun q hq hw => (hother q hq hw).elim⟩⟩
      obtain ⟨rfl, rfl⟩ := hserved q w hq hw
      rw [if_neg hleft]
      have hempty : ∀ r', vget (q.without r).served r' = none := fun r' => by
        simpa using fun h => hleft ⟨r', h⟩
      obtain ⟨hidle, hended⟩ := State.endPage_recent hpage .risersGone
      refine ⟨hend.staged _ hslot, ?_, t.endPage_page .risersGone, hidle, hended⟩
      rw [State.endPage_reports hpage hempty]
      exact hrecent.posted (by decide) _
  · have hnone : ∀ p, s.page = some p → vget p.served r = none := fun p hp =>
      Option.eq_none_iff_forall_ne_some.mpr fun v hv => h ⟨p, v, hp, hv⟩
    rw [State.dropRiser_none hnone]
    exact ⟨⟨.refl s, fun _ _ => rfl, fun _ h => h, fun _ => .refl _⟩,
      ⟨fun p v hp hv => absurd ⟨p, v, hp, hv⟩ h, fun _ _ _ => rfl⟩⟩

/-! ## The Call Controller learns of a disable (R18, R140) -/

/-- The calls that a disable of riser r ends. -/
def State.riserCalls (s : State) (r : Riser) : List Rec := allRecs.filter (s.callOnRiser r)

theorem State.riserGone_eq (s : State) (r : Riser) :
    s.riserGone r = ((s.riserCalls r).foldl (fun s i => s.endCall i .riserOff) s).dropRiser r := rfl

/-- A call has a leg or a slot on riser r. -/
def OnRiser (s : State) (r : Riser) (i : Rec) (c : Call) : Prop :=
  r ∈ c.riserSet ∨ ∃ k, (vget (s.riser r).staged k).names i = true

theorem State.mem_riserCalls {s : State} {r : Riser} {i : Rec} {c : Call} (hc : s.call i = some c) (hs : c.state ≠ .clearing) :
    i ∈ s.riserCalls r ↔ OnRiser s r i c := by
  have hlegs : c.legs.any (fun l => l.handset.riser = r && l.state ≠ .dropped) = true ↔ r ∈ c.riserSet := by
    simp [Call.mem_riserSet, and_comm]
  unfold State.riserCalls State.callOnRiser OnRiser
  rw [List.mem_filter, hc, ← hlegs, ← any_toList]
  simp only [allRecs, List.mem_finRange, true_and, bne_iff_ne, ne_eq, Bool.and_eq_true, Bool.or_eq_true, hs, not_false_eq_true]

/-- What the disable of riser r makes of the calls and of the page. -/
structure Gone (s t : State) (r : Riser) : Prop where
  frame   : GoneFrame s t
  dormant : ∀ r', Dormant (s.riser r') (t.riser r')
  ended   : ∀ i c, s.call i = some c → c.state ≠ .clearing → OnRiser s r i c →
    t.call i = (if s.liveNames i then some (clearedRecord c .riserOff) else none) ∧
    ∀ k, (vget (s.riser r).staged k).names i = true → vget (t.riser r).staged k = .idle
  others  : ∀ i c, s.call i = some c → c.state ≠ .clearing → ¬ OnRiser s r i c → s.page = none → t.call i = some c
  page    : PageWithout 0 s t r

theorem State.riserGone_gone (s : State) (r : Riser) : Gone s (s.riserGone r) r := by
  have hended := endedAll_foldl (l := s.riserCalls r) ((List.nodup_finRange 16).filter _) s .riserOff
  rw [State.riserGone_eq]
  generalize (s.riserCalls r).foldl (fun s i => s.endCall i .riserOff) s = e at hended ⊢
  obtain ⟨hdropped, hpage⟩ := e.dropRiser_dropped r
  have hdrop : ∀ hp : e.page = none, e.dropRiser r = e := fun hp => State.dropRiser_none fun p h => by rw [hp] at h; cases h
  generalize e.dropRiser r = t at hdropped hpage hdrop ⊢
  have hsame : e.page = s.page := by rw [hended.state]
  refine ⟨hended.goneFrame.trans hdropped.frame, fun r' => (hended.dormant r').trans (hdropped.dormant r'),
    fun i c hc hs hon => ?_, fun i c hc hs hoff hp => ?_, ⟨fun p v hp hv => ?_, fun p hp hv => ?_⟩⟩
  · obtain ⟨hcall, -, hidle⟩ := hended.ended i ((State.mem_riserCalls hc hs).mpr hon) c hc hs
    have hheld : ∀ d, e.call i = some d → d.state ≠ .held := fun d hd => by
      rw [hcall] at hd
      split at hd
      · cases hd; exact nofun
      · cases hd
    exact ⟨(hdropped.call i hheld).trans hcall, fun k hk => hdropped.staged k (hidle r k hk)⟩
  · rw [hdrop (hsame.trans hp)]
    exact (hended.others i (mt (State.mem_riserCalls hc hs).mp hoff)).trans hc
  · obtain ⟨hslot, hrecent, hrest⟩ := hpage.served p v (hsame.trans hp) hv
    refine ⟨hslot, hrecent, ?_⟩
    split
    next hleft =>
      rw [if_pos hleft] at hrest
      refine ⟨hrest.1, fun hc => hrest.2 ?_⟩
      rcases hended.console with h | ⟨-, j, -, hn⟩
      · exact h.trans hc
      · rw [hc] at hn; cases hn
    next hleft =>
      rw [if_neg hleft] at hrest
      exact hrest
  · exact (hpage.other p (hsame.trans hp) hv).trans hsame

/-! ## The riser's own part (R88 to R92) -/

section
variable {s : State} {r : Riser}

theorem State.enableRiser_off (h : (s.riser r).state = .off) :
    s.enableRiser r = (s.setRiser r (.enabled (s.riserProfile r))).post (.riser .enabled r) := if_pos h

theorem State.enableRiser_on (h : (s.riser r).state ≠ .off) : s.enableRiser r = s := if_neg h

theorem State.disableRiser_rest (h : (s.riser r).state = .off ∨ (s.riser r).state = .draining) : s.disableRiser r = s := by
  unfold State.disableRiser
  rcases h with h | h <;> rw [h]

/-- An ACTIVE riser that is disabled begins to drain. -/
def RiserUnit.drains (u : RiserUnit) : RiserUnit :=
  { u with state := .draining, queue := [], sent := none, quietTimer := .stopped, reversalTimer := .stopped, reversal := .none }

theorem State.disableRiser_active (h : (s.riser r).state = .active) :
    s.disableRiser r = (s.setRiser r (s.riser r).drains).riserGone r := by
  unfold State.disableRiser
  rw [h]
  rfl

theorem State.disableRiser_quiet (h : (s.riser r).state = .quiet ∨ (s.riser r).state = .waking) : s.disableRiser r =
    ((s.setRiser r { s.riser r with state := .off, queue := [] }).riserGone r).riserOff r .off := by
  unfold State.disableRiser
  rcases h with h | h <;> rw [h]

end

/-! ## The request (R191) -/

/-- The profile that a RISER-SET gives its riser. -/
theorem clampedRiser_eq (enable quiet reversal mute : Byte) : clampedRiser enable quiet reversal mute =
    { enable := enable != 0, quiet := quiet.toNat, reversal := reversal.toNat, mute := mute.toNat } := by
  unfold clampedRiser
  congr 1
  by_cases h : enable = 0
  · subst h; rfl
  · rw [bne_iff_ne.mpr h]; exact decide_eq_true h

theorem riserFields_written (enable quiet reversal mute : Byte) :
    riserFields { enable := enable != 0, quiet := quiet.toNat, reversal := reversal.toNat, mute := mute.toNat } =
      [if enable = 0 then 0 else 1, quiet, reversal, mute] := by
  rw [riserFields, byteOf_bit, byteOf_toNat, byteOf_toNat, byteOf_toNat]

/-- The part with the message taken, the profile written and the periods acting on the riser's timers. -/
def State.riserWritten (s : State) (r : Riser) (m : RiserProfile) : State :=
  (s.messageArrived.setSettings { s.settings with risers := vset s.settings.risers r m }).modRiser r (·.periodsWritten m)

/-- The enable or the disable that a written profile is. -/
def State.riserSwitched (s : State) (r : Riser) (m : RiserProfile) : State :=
  if m.enable then s.enableRiser r else s.disableRiser r

theorem exec_riserSet {s : State} {tag riser enable quiet reversal mute : Byte} {r : Riser} (ha : Accepts s)
    (hr : riser.toNat = r.val) {m : RiserProfile}
    (hm : m = { enable := enable != 0, quiet := quiet.toNat, reversal := reversal.toNat, mute := mute.toNat }) :
    exec (.riserSet tag riser enable quiet reversal mute) s =
      .next ((State.settled s ((s.riserWritten r m).riserSwitched r m)).reply {
        tag := tag, result := if enable.toNat ≤ 1 then .done else .adjusted, reason := .none
        data := [riser, if enable = 0 then 0 else 1, quiet, reversal, mute] }) := by
  have hindex : Fin.ofNat 8 riser.toNat = r := Fin.ext (by simp [hr])
  have hrange : ¬ 7 < riser.toNat := by rw [hr]; have := r.isLt; omega
  have hfields : riserFields m = [if enable = 0 then 0 else 1, quiet, reversal, mute] := by
    rw [hm]; exact riserFields_written enable quiet reversal mute
  have hsent : riserFields m = [enable, quiet, reversal, mute] ↔ enable.toNat ≤ 1 := by
    rw [hfields, ← flag_eq_iff]
    simp
  have hrun : doRiserSet riser enable quiet reversal mute s.messageArrived = settledReply
      (State.settled s ((s.riserWritten r m).riserSwitched r m)) (riserFields m = [enable, quiet, reversal, mute])
      (riser :: riserFields m) := by
    unfold doRiserSet
    simp only [if_neg hrange, hindex, clampedRiser_eq, ← hm]
    rw [State.event]
    exact congrArg (settledReply · _ _) (State.settled_congr (s := s) (fun _ => rfl) _)
  refine congrArg Host.Outcome.next ((State.request_settled ha (q := .riserSet riser enable quiet reversal mute) hrun).trans ?_)
  simp only [decide_eq_true_eq, hsent]
  rw [hfields]

theorem byte_eq_zero_iff (b : Byte) : b = 0 ↔ b.toNat = 0 := by rw [← BitVec.toNat_inj]; rfl

/-- The riser with the written periods, its quiet timer stopped outside its conditions. -/
def RiserUnit.timed (m : RiserProfile) (u : RiserUnit) : RiserUnit :=
  { u with
    quietTimer := if m.quiet = 0 ∨ ¬ u.calm = true then .stopped else u.quietTimer
    reversalTimer :=
      if m.reversal = 0 then .stopped
      else if u.reversalTimer = .stopped ∧ u.state = .active ∧ u.reversal.sub = .normal ∧ u.reversal.due = false then
        .period m.reversal
      else u.reversalTimer }

theorem RiserUnit.retimed_periods (m : RiserProfile) (period : Nat) (u : RiserUnit) :
    RiserUnit.retimed period u (u.periodsWritten m) = u.timed m := by
  have hcalm : (u.periodsWritten m).calm = u.calm := by rw [RiserUnit.periodsWritten_fields]; rfl
  unfold RiserUnit.retimed
  rw [hcalm]
  unfold RiserUnit.periodsWritten RiserUnit.timed
  dsimp only
  cases u.calm <;> split_ifs <;> simp_all

theorem State.riserWritten_eq (s : State) (r : Riser) (m : RiserProfile) : s.riserWritten r m = { s with
    settings := { s.settings with risers := vset s.settings.risers r m }
    risers := vset s.risers r ((s.riser r).timed m), clu := { s.clu with receiver := .waiting, buffer := [] } } := by
  rw [State.riserWritten, State.modRiser, RiserUnit.retimed_periods]
  rfl

theorem State.riserWritten_riser (s : State) (r : Riser) (m : RiserProfile) (r' : Riser) :
    (s.riserWritten r m).riser r' = if r = r' then (s.riser r).timed m else s.riser r' := by
  rw [State.riserWritten_eq]
  exact vget_vset ..

theorem State.riserWritten_profile (s : State) (r : Riser) (m : RiserProfile) : (s.riserWritten r m).riserProfile r = m := by
  rw [State.riserWritten_eq]
  exact vget_vset_self ..

/-- Enable and disable keep to the fields that a disable may change. -/
theorem State.riserSwitched_frame (s : State) (r : Riser) (m : RiserProfile) : GoneFrame s (s.riserSwitched r m) := by
  unfold State.riserSwitched
  split
  · unfold State.enableRiser
    split
    · exact (GoneFrame.setRiser s r _).trans (.post _ _)
    · exact .refl s
  · cases h : (s.riser r).state with
    | off => rw [State.disableRiser_rest (.inl h)]; exact .refl s
    | draining => rw [State.disableRiser_rest (.inr h)]; exact .refl s
    | active =>
      rw [State.disableRiser_active h]
      exact (GoneFrame.setRiser s r _).trans (State.riserGone_gone _ r).frame
    | quiet =>
      rw [State.disableRiser_quiet (.inl h)]
      exact ((GoneFrame.setRiser s r _).trans (State.riserGone_gone _ r).frame).trans (.riserOff _ r .off)
    | waking =>
      rw [State.disableRiser_quiet (.inr h)]
      exact ((GoneFrame.setRiser s r _).trans (State.riserGone_gone _ r).frame).trans (.riserOff _ r .off)

/-! ## The effects of a disable on the calls and the page (R18, R140) -/

/-- What a disable of riser r leaves of the calls and of the page. -/
structure Disabled (s u : State) (r : Riser) : Prop where
  ended  : ∀ i c, s.call i = some c → c.state ≠ .clearing → OnRiser s r i c →
    (u.call i = none ∨ u.call i = some (clearedRecord c .riserOff)) ∧
    ∀ k, (vget (s.riser r).staged k).names i = true → vget (u.riser r).staged k = .idle
  others : ∀ i c, s.call i = some c → c.state ≠ .clearing → ¬ OnRiser s r i c → s.page = none → u.call i = some c
  page   : PageWithout 1 s u r

theorem Gone.disabled {s t : State} {r : Riser} (h : Gone s t r) : Disabled s t r := by
  refine ⟨fun i c hc hs hon => ?_, h.others, ⟨fun p v hp hv => ?_, h.page.other⟩⟩
  · obtain ⟨hcall, hidle⟩ := h.ended i c hc hs hon
    refine ⟨?_, hidle⟩
    rw [hcall]
    split
    · exact .inr rfl
    · exact .inl rfl
  · obtain ⟨hslot, hrecent, hrest⟩ := h.page.served p v hp hv
    refine ⟨hslot, hrecent.mono (Nat.le_succ _), ?_⟩
    split
    next hleft => rw [if_pos hleft] at hrest; exact hrest
    next hleft =>
      rw [if_neg hleft] at hrest
      obtain ⟨hpage, hconsole, hended⟩ := hrest
      exact ⟨hpage, hconsole, hended.mono (Nat.zero_le 1)⟩

/-- The same with the riser's entry to OFF after it (R91). -/
theorem Gone.disabled_off {s t : State} {r : Riser} (h : Gone s t r) : Disabled s (t.riserOff r .off) r := by
  have hstate := t.riserOff_state r .off
  have hcall := t.riserOff_call r .off
  have hriser := t.riserOff_riser r .off r
  rw [if_pos rfl] at hriser
  generalize t.riserOff r .off = u at hstate hcall hriser ⊢
  have hstaged : (u.riser r).staged = (t.riser r).staged := by rw [hriser]; rfl
  have hpage : u.page = t.page := by rw [hstate]
  have hconsole : u.console = t.console := by rw [hstate]
  have hclu : u.clu = t.clu.posted (.riser .off r) := by rw [hstate]
  refine ⟨fun i c hc hs hon => ?_, fun i c hc hs hoff hp => ?_, ⟨fun p v hp hv => ?_, fun p hp hv => ?_⟩⟩
  · obtain ⟨hended, hidle⟩ := h.disabled.ended i c hc hs hon
    refine ⟨?_, fun k hk => by rw [hstaged]; exact hidle k hk⟩
    rw [hcall]
    rcases hended with hended | hended <;> rw [hended]
    · exact .inl rfl
    · rw [Option.filter_some]
      split
      · exact .inr rfl
      · exact .inl rfl
  · rw [hcall, h.others i c hc hs hoff hp, Option.filter_some]
    simp [hs]
  · obtain ⟨hslot, hrecent, hrest⟩ := h.page.served p v hp hv
    rw [hstaged, hpage, hconsole, hclu]
    refine ⟨hslot, hrecent.posted (by decide) _, ?_⟩
    split
    next hleft => rw [if_pos hleft] at hrest; exact hrest
    next hleft =>
      rw [if_neg hleft] at hrest
      obtain ⟨hnone, hidle, hended⟩ := hrest
      exact ⟨hnone, hidle, hended.posted (by decide) _⟩
  · exact hpage.trans (h.page.other p hp hv)

/-- The state before the disable is looked at in its calls, in the riser's staged schedule, in the page and the console. -/
theorem Disabled.congr {s s' u : State} {r : Riser} (h : Disabled s' u r) (hcalls : s'.calls = s.calls)
    (hstaged : (s'.riser r).staged = (s.riser r).staged) (hpage : s'.page = s.page) (hconsole : s'.console = s.console) :
    Disabled s u r := by
  have hcall : ∀ i, s'.call i = s.call i := fun i => by unfold State.call; rw [hcalls]
  have hon : ∀ i c, OnRiser s' r i c ↔ OnRiser s r i c := fun i c => by unfold OnRiser; rw [hstaged]
  refine ⟨fun i c hc hs ho => ?_, fun i c hc hs ho hp => ?_, ⟨fun p v hp hv => ?_, fun p hp hv => ?_⟩⟩
  · have hended := h.ended i c ((hcall i).trans hc) hs ((hon i c).mpr ho)
    rw [hstaged] at hended
    exact hended
  · exact h.others i c ((hcall i).trans hc) hs (mt (hon i c).mp ho) (hpage.trans hp)
  · rw [← hconsole]
    exact h.page.served p v (hpage.trans hp) hv
  · exact (h.page.other p (hpage.trans hp) hv).trans hpage

/-! ## RISER-SET case by case (R89 to R91) -/

section
variable {s : State} {r : Riser} {m : RiserProfile}

theorem State.riserWritten_self : (s.riserWritten r m).riser r = (s.riser r).timed m := by
  rw [State.riserWritten_riser, if_pos rfl]

/-- An enable of a riser in OFF. -/
theorem State.riserSet_enabled (hm : m.enable = true) (h : (s.riser r).state = .off) :
    (s.riserWritten r m).riserSwitched r m =
      ((s.riserWritten r m).setRiser r (.enabled m)).post (.riser .enabled r) := by
  have hoff : ((s.riserWritten r m).riser r).state = .off := by rw [State.riserWritten_self]; exact h
  rw [State.riserSwitched, if_pos hm, State.enableRiser_off hoff, State.riserWritten_profile]

/-- A RISER-SET that writes the profile and the periods alone. -/
theorem State.riserSet_same
    (h : m.enable = true ∧ (s.riser r).state ≠ .off ∨
      m.enable = false ∧ ((s.riser r).state = .off ∨ (s.riser r).state = .draining)) :
    (s.riserWritten r m).riserSwitched r m = s.riserWritten r m := by
  have hstate : ((s.riserWritten r m).riser r).state = (s.riser r).state := by rw [State.riserWritten_self]; rfl
  unfold State.riserSwitched
  rcases h with ⟨hm, h⟩ | ⟨hm, h⟩
  · rw [if_pos hm]; exact State.enableRiser_on (by rw [hstate]; exact h)
  · rw [if_neg (by simp [hm])]; exact State.disableRiser_rest (by rw [hstate]; exact h)

/-- Such a part before the endings of a disable: riser r has begun to drain, or is in OFF. -/
def State.disabling (s : State) (r : Riser) (m : RiserProfile) (u : RiserUnit) : State := (s.riserWritten r m).setRiser r u

theorem State.disabling_self (u : RiserUnit) : (s.disabling r m u).riser r = u := vget_vset_self ..

/-- The endings start from the calls, the schedule, the page and the console that the RISER-SET found. -/
theorem State.disabling_congr {u : RiserUnit} (hu : u.staged = (s.riser r).staged) {t : State}
    (h : Disabled (s.disabling r m u) t r) : Disabled s t r := by
  refine h.congr ?_ ?_ ?_ ?_
  · unfold State.disabling; rw [State.riserWritten_eq]; rfl
  · rw [State.disabling_self]; exact hu
  · unfold State.disabling; rw [State.riserWritten_eq]; rfl
  · unfold State.disabling; rw [State.riserWritten_eq]; rfl

/-- A disable of an ACTIVE riser. -/
theorem State.riserSet_draining (hm : m.enable = false) (h : (s.riser r).state = .active) {t : State}
    (ht : t = (s.riserWritten r m).riserSwitched r m) :
    t.riser r = { (s.riser r).drains with staged := (t.riser r).staged } ∧ Disabled s t r := by
  have hactive : ((s.riserWritten r m).riser r).state = .active := by rw [State.riserWritten_self]; exact h
  have hdrains : ((s.riserWritten r m).riser r).drains = (s.riser r).drains := by rw [State.riserWritten_self]; rfl
  rw [State.riserSwitched, if_neg (by simp [hm]), State.disableRiser_active hactive, hdrains] at ht
  have hgone := (s.disabling r m (s.riser r).drains).riserGone_gone r
  rw [← show t = (s.disabling r m (s.riser r).drains).riserGone r from ht] at hgone
  have hdormant := hgone.dormant r
  rw [State.disabling_self] at hdormant
  obtain ⟨hriser, htimer⟩ := hdormant rfl
  refine ⟨?_, State.disabling_congr (u := (s.riser r).drains) rfl hgone.disabled⟩
  rw [htimer rfl] at hriser
  exact hriser

/-- A disable of a QUIET or WAKING riser. -/
theorem State.riserSet_off (hm : m.enable = false) (h : (s.riser r).state = .quiet ∨ (s.riser r).state = .waking) {t : State}
    (ht : t = (s.riserWritten r m).riserSwitched r m) :
    t.riser r = { RiserUnit.atRest with
      staged := (t.riser r).staged, pollPointer := (s.riser r).pollPointer, polarity := (s.riser r).polarity } ∧
    .riser .off r ∈ t.clu.reports ∧ Disabled s t r := by
  have hquiet : ((s.riserWritten r m).riser r).state = .quiet ∨ ((s.riserWritten r m).riser r).state = .waking := by
    rw [State.riserWritten_self]; exact h
  have hself : (s.riserWritten r m).riser r = (s.riser r).timed m := State.riserWritten_self
  rw [State.riserSwitched, if_neg (by simp [hm]), State.disableRiser_quiet hquiet, hself] at ht
  have hgone := (s.disabling r m { (s.riser r).timed m with state := .off, queue := [] }).riserGone_gone r
  rw [State.disabling] at hgone
  generalize ((s.riserWritten r m).setRiser r { (s.riser r).timed m with state := .off, queue := [] }).riserGone r = g
    at ht hgone
  have hdormant := hgone.dormant r
  rw [show ((s.riserWritten r m).setRiser r { (s.riser r).timed m with state := .off, queue := [] }).riser r =
    { (s.riser r).timed m with state := .off, queue := [] } from vget_vset_self ..] at hdormant
  obtain ⟨hriser, -⟩ := hdormant rfl
  have hoff := g.riserOff_riser r .off r
  rw [if_pos rfl, ← ht] at hoff
  have hreport : t.clu = g.clu.posted (.riser .off r) := by
    have hstate := g.riserOff_state r .off
    rw [← ht] at hstate
    rw [hstate]
  refine ⟨?_, by rw [hreport]; exact (ConsoleUnit.recent_posted _ _).mem, ?_⟩
  · rw [hoff]
    unfold RiserUnit.switchedOff
    rw [hriser]
    rfl
  · refine State.disabling_congr (m := m) (u := { (s.riser r).timed m with state := .off, queue := [] }) rfl ?_
    rw [ht]
    exact hgone.disabled_off

end

/-- Settles O44: the reply and the frame, then the enable, the periods, the two disables, and the endings of a disable. -/
theorem riserSetEnablesAndDisables : Obligations.RiserSetEnablesAndDisables := by
  intro s tag riser enable quiet reversal mute r ha
  refine ⟨fun hr => congrArg Host.Outcome.next (State.request_refused ha (if_pos hr)), fun hr => ?_⟩
  have hexec := exec_riserSet (tag := tag) (enable := enable) (quiet := quiet) (reversal := reversal) (mute := mute) ha hr rfl
  generalize hm : ({ enable := enable != 0, quiet := quiet.toNat, reversal := reversal.toNat, mute := mute.toNat } :
    RiserProfile) = m at hexec
  have hon : enable ≠ 0 → m.enable = true := fun h => by rw [← hm]; exact bne_iff_ne.mpr h
  have hoff : enable = 0 → m.enable = false := fun h => by rw [← hm, h]; rfl
  have hframe := (s.riserWritten r m).riserSwitched_frame r m
  have hwritten := s.riserWritten_eq r m
  have hself : (s.riserWritten r m).riser r = (s.riser r).timed m := State.riserWritten_self
  have hother : ∀ r', r' ≠ r → (s.riserWritten r m).riser r' = s.riser r' := fun r' h => by
    rw [State.riserWritten_riser, if_neg (Ne.symm h)]
  have henabled := State.riserSet_enabled (s := s) (r := r) (m := m)
  have hsame := State.riserSet_same (s := s) (r := r) (m := m)
  have hdraining := State.riserSet_draining (s := s) (r := r) (m := m) (t := (s.riserWritten r m).riserSwitched r m)
  have hquiet := State.riserSet_off (s := s) (r := r) (m := m) (t := (s.riserWritten r m).riserSwitched r m)
  generalize s.riserWritten r m = w at hframe hwritten hself hother henabled hsame hdraining hquiet hexec
  generalize w.riserSwitched r m = u at hframe henabled hsame hdraining hquiet hexec
  refine ⟨u, hexec, ?_, fun h => ?_, fun he hs => ?_, fun h => ?_, fun he hs => ?_, fun he hs => ?_, fun he hs => ?_⟩
  · obtain ⟨hstate, hclu⟩ := hframe
    rw [hwritten] at hstate hclu
    conv_lhs => rw [hstate]
    conv_lhs => rw [hclu]
  · by_cases hs : enable ≠ 0 ∧ (s.riser r).state = .off
    · have hu := henabled (hon hs.1) hs.2
      have hrisers : ∀ r', r' ≠ r → u.riser r' = s.riser r' := fun r' hr' => by
        rw [hu]
        exact (vget_vset_ne _ (Ne.symm hr') _).trans (hother r' hr')
      refine ⟨?_, ?_, ?_, ?_, ?_, ?_, ?_, hrisers⟩ <;> rw [hu, hwritten] <;> rfl
    · have hu : u = w := hsame (by
        by_cases he : enable = 0
        · exact .inr ⟨hoff he, h.resolve_left (not_not.mpr he)⟩
        · exact .inl ⟨hon he, fun ho => hs ⟨he, ho⟩⟩)
      rw [hu]
      refine ⟨?_, ?_, ?_, ?_, ?_, ?_, ?_, hother⟩ <;> rw [hwritten]
  · rw [henabled (hon he) hs, ← hm]
    refine ⟨vget_vset_self .., ?_⟩
    rw [hwritten]
    exact ConsoleUnit.posted_received ..
  · have hu : u = w := hsame (h.imp (fun ⟨he, hs⟩ => ⟨hon he, hs⟩) fun ⟨he, hs⟩ => ⟨hoff he, hs⟩)
    rw [hu, hself, hwritten, ← hm]
    refine ⟨rfl, ?_⟩
    simp only [RiserUnit.timed, ← byte_eq_zero_iff]
  · exact (hdraining (hoff he) hs rfl).1
  · obtain ⟨hriser, hreport, -⟩ := hquiet (hoff he) hs rfl
    exact ⟨hriser, hreport⟩
  · have hdisabled : Disabled s u r := by
      rcases hs with hs | hs
      · exact (hdraining (hoff he) hs rfl).2
      · exact (hquiet (hoff he) hs rfl).2.2
    refine ⟨fun i c hc hcs => ?_, fun p v p' hp hv hp' => ?_, fun p hp hv => hdisabled.page.other p hp hv⟩
    · split
      next honr => exact hdisabled.ended i c hc hcs honr
      next hoffr => exact fun hp => hdisabled.others i c hc hcs hoffr hp
    · subst hp'
      obtain ⟨hslot, hrecent, hrest⟩ := hdisabled.page.served p v hp hv
      refine ⟨hslot, hrecent.mem, ?_⟩
      split
      next hleft =>
        rw [if_pos (show ∃ r', (vget (p.without r).served r').isSome = true from hleft)] at hrest
        exact hrest
      next hleft =>
        rw [if_neg (show ¬ ∃ r', (vget (p.without r).served r').isSome = true from hleft)] at hrest
        obtain ⟨hpage, hconsole, hended⟩ := hrest
        exact ⟨hpage, hconsole, hended.mem⟩

end Sys2Proof.Machine
end

