-- ==== Sys2Proof/Proofs/RecordLaws.lean ====
section
/-! PROOFS. The law of the queues and the slots for one record (R33, R34, R41, R119): the laws of the calls are the laws of their
records, and a record's law depends on its own places alone. -/

namespace Sys2Proof.Machine

open Sys2Proof Sys2Proof.Safety

/-! ## The standing of a record -/

/-- What the laws of the queues and the slots ask of a call: its state and its risers. A call in CLEARING has no place in them,
as a FREE record has none. -/
def Call.standing (c : Call) : Option (CallState × List Riser) :=
  if c.state = .clearing then none else some (c.state, c.riserSet)

def State.standing (s : State) (i : Rec) : Option (CallState × List Riser) := (s.call i).bind Call.standing

theorem State.standing_eq_some {s : State} {i : Rec} {st : CallState} {rs : List Riser} :
    s.standing i = some (st, rs) ↔ ∃ c, s.call i = some c ∧ c.state = st ∧ st ≠ .clearing ∧ c.riserSet = rs := by
  simp only [State.standing, Option.bind_eq_some_iff, Call.standing]
  refine exists_congr fun c => and_congr_right fun _ => ?_
  split
  next h =>
    refine ⟨nofun, fun ⟨hs, hne, _⟩ => absurd (hs ▸ h) hne⟩
  next h =>
    rw [Option.some.injEq, Prod.mk.injEq]
    exact ⟨fun ⟨hs, hr⟩ => ⟨hs, hs ▸ h, hr⟩, fun ⟨hs, _, hr⟩ => ⟨hs, hr⟩⟩

theorem State.standing_of_call {s : State} {i : Rec} {c : Call} (h : s.call i = some c) : s.standing i = c.standing := by
  rw [State.standing, h, Option.bind_some]

theorem State.standing_free {s : State} {i : Rec} (h : s.call i = none) : s.standing i = none := by
  rw [State.standing, h, Option.bind_none]

/-- The state a record stands in, none for one that is FREE or in CLEARING. -/
def State.stateOf (s : State) (i : Rec) : Option CallState := (s.standing i).map Prod.fst

theorem State.stateOf_eq_some {s : State} {i : Rec} {st : CallState} (hst : st ≠ .clearing) :
    s.stateOf i = some st ↔ ∃ c, s.call i = some c ∧ c.state = st := by
  simp only [State.stateOf, Option.map_eq_some_iff, Prod.exists, State.standing_eq_some]
  constructor
  · rintro ⟨_, _, ⟨c, hc, hs, _, _⟩, rfl⟩
    exact ⟨c, hc, hs⟩
  · rintro ⟨c, hc, hs⟩
    exact ⟨st, _, ⟨c, hc, hs, hst, rfl⟩, rfl⟩

theorem SlotEntry.names_iff {e : SlotEntry} {i : Rec} : e.names i = true ↔ e = .reserved i ∨ e = .carrying i := by
  cases e <;> simp [SlotEntry.names, eq_comm (a := i)]

/-! ## The law of one record -/

/-- Record i stands in each queue once or not at all, as its state says; what names it in the staged schedules reserves for a
RINGING call a slot on a riser of its set, or carries a CONNECTED one; and it holds one slot a riser and carries one. -/
structure RecordLaw (s : State) (i : Rec) : Prop where
  waiting    : s.waitQueue.count i = if s.stateOf i = some .queued then 1 else 0
  desk       : s.consoleQueue.count i = if s.stateOf i = some .waitingDesk then 1 else 0
  reserved   : ∀ r k, vget (s.riser r).staged k = .reserved i → ∃ rs, s.standing i = some (.ringing, rs) ∧ r ∈ rs
  carrying   : ∀ r k, vget (s.riser r).staged k = .carrying i → s.stateOf i = some .connected
  oneARiser  : ∀ r k k', (vget (s.riser r).staged k).names i = true → (vget (s.riser r).staged k').names i = true → k = k'
  oneCarries : ∀ r k r' k', vget (s.riser r).staged k = .carrying i → vget (s.riser r').staged k' = .carrying i → r = r'

/-- A record that stands in a queue exactly when a condition holds, and never twice. -/
theorem count_eq_ite_iff {l : List Rec} {i : Rec} {p : Prop} [Decidable p] :
    l.count i = (if p then 1 else 0) ↔ l.count i ≤ 1 ∧ (i ∈ l ↔ p) := by
  rw [← List.count_pos_iff]
  split
  next hp => simp only [hp, iff_true]; omega
  next hp => simp only [hp, iff_false]; omega

/-- The laws of the calls are the laws of their records. -/
theorem callsConsistent_iff {s : State} : CallsConsistent s ↔ ∀ i, RecordLaw s i := by
  have hqueued : ∀ i, s.stateOf i = some .queued ↔ _ := fun i => State.stateOf_eq_some (by decide)
  have hdesk : ∀ i, s.stateOf i = some .waitingDesk ↔ _ := fun i => State.stateOf_eq_some (by decide)
  have hconnected : ∀ i, s.stateOf i = some .connected ↔ _ := fun i => State.stateOf_eq_some (by decide)
  constructor
  · intro ⟨hq, hs⟩ i
    refine ⟨count_eq_ite_iff.mpr ⟨List.nodup_iff_count_le_one.mp hq.waitingOnce i, (hq.waiting i).trans (hqueued i).symm⟩,
      count_eq_ite_iff.mpr ⟨List.nodup_iff_count_le_one.mp hq.deskOnce i, (hq.desk i).trans (hdesk i).symm⟩,
      fun r k h => ?_, fun r k h => (hconnected i).mpr (hs.carrying r k i h), fun r k k' => hs.oneARiser r k k' i,
      fun r k r' k' => hs.oneCarries r k r' k' i⟩
    obtain ⟨c, hc, hst, hr⟩ := hs.reserved r k i h
    exact ⟨c.riserSet, State.standing_eq_some.mpr ⟨c, hc, hst, by decide, rfl⟩, hr⟩
  · intro h
    refine ⟨⟨fun i => (count_eq_ite_iff.mp (h i).waiting).2.trans (hqueued i),
        fun i => (count_eq_ite_iff.mp (h i).desk).2.trans (hdesk i),
        List.nodup_iff_count_le_one.mpr fun i => (count_eq_ite_iff.mp (h i).waiting).1,
        List.nodup_iff_count_le_one.mpr fun i => (count_eq_ite_iff.mp (h i).desk).1⟩,
      ⟨fun r k i hk => ?_, fun r k i hk => (hconnected i).mp ((h i).carrying r k hk), fun r k k' i => (h i).oneARiser r k k',
        fun r k r' k' i => (h i).oneCarries r k r' k'⟩⟩
    obtain ⟨rs, hst, hr⟩ := (h i).reserved r k hk
    obtain ⟨c, hc, hstate, -, rfl⟩ := State.standing_eq_some.mp hst
    exact ⟨c, hc, hstate, hr⟩

/-- Record i has no place: it stands in no queue, and no staged entry names it. -/
structure Unplaced (s : State) (i : Rec) : Prop where
  waiting : s.waitQueue.count i = 0
  desk    : s.consoleQueue.count i = 0
  staged  : ∀ r k, (vget (s.riser r).staged k).names i = false

/-- A record whose state gives it no place has none. -/
theorem RecordLaw.unplaced {s : State} {i : Rec} (h : RecordLaw s i)
    (hs : ∀ st, s.stateOf i = some st → st = .held) : Unplaced s i where
  waiting := h.waiting.trans (if_neg fun hq => nomatch hs .queued hq)
  desk := h.desk.trans (if_neg fun hq => nomatch hs .waitingDesk hq)
  staged r k := by
    rw [Bool.eq_false_iff, ne_eq, SlotEntry.names_iff]
    rintro (hk | hk)
    · obtain ⟨rs, hst, -⟩ := h.reserved r k hk
      exact nomatch hs .ringing (by rw [State.stateOf, hst]; rfl)
    · exact nomatch hs _ (h.carrying r k hk)

/-- A record that no staged entry names is lawful when the queues hold it as its state says. -/
theorem RecordLaw.of_unnamed {s : State} {i : Rec} (hn : ∀ r k, (vget (s.riser r).staged k).names i = false)
    (hw : s.waitQueue.count i = if s.stateOf i = some .queued then 1 else 0)
    (hd : s.consoleQueue.count i = if s.stateOf i = some .waitingDesk then 1 else 0) : RecordLaw s i := by
  have hno : ∀ r k, ¬ (vget (s.riser r).staged k).names i = true := fun r k => by rw [hn r k]; nofun
  exact ⟨hw, hd, fun r k hk => absurd (SlotEntry.names_iff.mpr (.inl hk)) (hno r k),
    fun r k hk => absurd (SlotEntry.names_iff.mpr (.inr hk)) (hno r k), fun r k _ hk => absurd hk (hno r k),
    fun r k _ _ hk => absurd (SlotEntry.names_iff.mpr (.inr hk)) (hno r k)⟩

/-- A record without a place is lawful in a state that asks for none. -/
theorem Unplaced.law {s : State} {i : Rec} (h : Unplaced s i) (hq : s.stateOf i ≠ some .queued)
    (hd : s.stateOf i ≠ some .waitingDesk) : RecordLaw s i :=
  .of_unnamed h.staged (by rw [h.waiting, if_neg hq]) (by rw [h.desk, if_neg hd])

/-! ## A record that keeps its places -/

/-- From `s` to `t` record i keeps its state and its place in the queues, and no slot comes to name it. -/
structure Stands (s t : State) (i : Rec) : Prop where
  waiting  : t.waitQueue.count i = s.waitQueue.count i
  desk     : t.consoleQueue.count i = s.consoleQueue.count i
  standing : t.standing i = s.standing i
  staged   : ∀ r k, (vget (t.riser r).staged k).names i = true → vget (t.riser r).staged k = vget (s.riser r).staged k

theorem Stands.refl (s : State) (i : Rec) : Stands s s i := ⟨rfl, rfl, rfl, fun _ _ _ => rfl⟩

theorem Stands.trans {s t u : State} {i : Rec} (h : Stands s t i) (g : Stands t u i) : Stands s u i where
  waiting := g.waiting.trans h.waiting
  desk := g.desk.trans h.desk
  standing := g.standing.trans h.standing
  staged r k hk := by
    have hkept := g.staged r k hk
    exact hkept.trans (h.staged r k (hkept ▸ hk))

theorem Stands.law {s t : State} {i : Rec} (h : Stands s t i) (hs : RecordLaw s i) : RecordLaw t i := by
  have hstate : t.stateOf i = s.stateOf i := congrArg (Option.map Prod.fst) h.standing
  have hentry : ∀ r k e, e.names i = true → vget (t.riser r).staged k = e → vget (s.riser r).staged k = e :=
    fun r k e he hk => (h.staged r k (hk ▸ he)).symm.trans hk
  have hnames : ∀ r k, (vget (t.riser r).staged k).names i = true → (vget (s.riser r).staged k).names i = true :=
    fun r k hk => h.staged r k hk ▸ hk
  have hcarrying : (SlotEntry.carrying i).names i = true := SlotEntry.names_iff.mpr (.inr rfl)
  refine ⟨by rw [h.waiting, hstate]; exact hs.waiting, by rw [h.desk, hstate]; exact hs.desk, fun r k hk => ?_,
    fun r k hk => ?_, fun r k k' hk hk' => hs.oneARiser r k k' (hnames r k hk) (hnames r k' hk'),
    fun r k r' k' hk hk' => hs.oneCarries r k r' k' (hentry r k _ hcarrying hk) (hentry r' k' _ hcarrying hk')⟩
  · rw [h.standing]
    exact hs.reserved r k (hentry r k _ (SlotEntry.names_iff.mpr (.inl rfl)) hk)
  · rw [hstate]
    exact hs.carrying r k (hentry r k _ hcarrying hk)

end Sys2Proof.Machine
end

