-- ==== Sys2Proof/Proofs/Confined.lean ====
section
/-! PROOFS. What the shared operations leave alone of quiet timers, live schedules and the places of records: one relation,
`Confined`, and one lemma an operation. -/

namespace Sys2Proof.Machine

open Sys2Proof Sys2Proof.Safety

/-! ## Confined -/

/-- The quiet timer of a riser is stopped, or runs under its conditions (R92). -/
def RiserUnit.TimerRight (u : RiserUnit) : Prop := u.quietTimer ≠ .stopped → Calm u

/-- From `s` to `t` quiet timers stay right; outside `X` a riser's live schedule changes only with its entry to OFF, and no
riser leaves OFF; outside `I` a record keeps its places. -/
structure Confined (X : Riser → Prop) (I : Rec → Prop) (s t : State) : Prop where
  calm   : ∀ r, (s.riser r).TimerRight → (t.riser r).TimerRight
  live   : ∀ r, ¬ X r → (t.riser r).state ≠ .off → (s.riser r).state ≠ .off ∧ (t.riser r).live = (s.riser r).live
  stands : ∀ i, ¬ I i → Stands s t i

namespace Confined

variable {X : Riser → Prop} {I : Rec → Prop} {s t u : State}

theorem refl (s : State) : Confined X I s s := ⟨fun _ => id, fun _ _ h => ⟨h, rfl⟩, fun i _ => .refl s i⟩

theorem trans (h : Confined X I s t) (g : Confined X I t u) : Confined X I s u where
  calm r := g.calm r ∘ h.calm r
  live r hx hu := by
    obtain ⟨ht, hlive⟩ := g.live r hx hu
    obtain ⟨hs, hlive'⟩ := h.live r hx ht
    exact ⟨hs, hlive.trans hlive'⟩
  stands i hi := (h.stands i hi).trans (g.stands i hi)

/-- Steps taken one after another over a list. -/
theorem foldl {α : Type} {f : State → α → State} {l : List α} (h : ∀ x ∈ l, ∀ s, Confined X I s (f s x)) (s : State) :
    Confined X I s (l.foldl f s) := by
  induction l generalizing s with
  | nil => exact refl s
  | cons x l ih => exact (h x (List.mem_cons_self ..) s).trans (ih (fun y hy => h y (List.mem_cons_of_mem _ hy)) _)

/-! ### One block changed -/

/-- Nothing changed but blocks that no law here speaks of. -/
theorem of_rest (hc : t.calls = s.calls) (hw : t.waitQueue = s.waitQueue) (hd : t.consoleQueue = s.consoleQueue)
    (hr : t.risers = s.risers) : Confined X I s t := by
  cases s; cases t
  cases hc; cases hw; cases hd; cases hr
  exact ⟨fun _ => id, fun _ _ h => ⟨h, rfl⟩, fun i _ => ⟨rfl, rfl, rfl, fun _ _ _ => rfl⟩⟩

theorem setConsole (s : State) (c : ConsoleState) : Confined X I s (s.setConsole c) := of_rest rfl rfl rfl rfl

theorem modClu (s : State) (f : ConsoleUnit → ConsoleUnit) : Confined X I s (s.modClu f) := of_rest rfl rfl rfl rfl

theorem modPanel (s : State) (p : Panel) (f : PanelUnit → PanelUnit) : Confined X I s (s.modPanel p f) :=
  of_rest rfl rfl rfl rfl

theorem setPage (s : State) (p : Option PageRecord) : Confined X I s (s.setPage p) := of_rest rfl rfl rfl rfl

theorem setSettings (s : State) (c : Settings) : Confined X I s (s.setSettings c) := of_rest rfl rfl rfl rfl

/-- The risers changed, each with its timer right, its live schedule kept, and no entry that comes to name a record outside
`I`. -/
theorem risers {rs : Vector RiserUnit 8} (hq : ∀ r, (s.riser r).TimerRight → (vget rs r).TimerRight)
    (hl : ∀ r, ¬ X r → (vget rs r).state ≠ .off → (s.riser r).state ≠ .off ∧ (vget rs r).live = (s.riser r).live)
    (hs : ∀ r k, vget (vget rs r).staged k = vget (s.riser r).staged k ∨
      ∀ i, (vget (vget rs r).staged k).names i = true → I i) : Confined X I s { s with risers := rs } where
  calm := hq
  live := hl
  stands i hi := ⟨rfl, rfl, rfl, fun r k hk => (hs r k).resolve_right fun h => hi (h i hk)⟩

theorem setRiser {r : Riser} {v : RiserUnit} (hq : (s.riser r).TimerRight → v.TimerRight)
    (hl : ¬ X r → v.state ≠ .off → (s.riser r).state ≠ .off ∧ v.live = (s.riser r).live)
    (hs : ∀ k, vget v.staged k = vget (s.riser r).staged k ∨ ∀ i, (vget v.staged k).names i = true → I i) :
    Confined X I s (s.setRiser r v) := by
  refine risers (fun r' => ?_) (fun r' => ?_) fun r' => ?_ <;> rw [vget_vset] <;> split
  · next h => subst h; exact hq
  · exact id
  · next h => subst h; exact hl
  · exact fun _ h => ⟨h, rfl⟩
  · next h => subst h; exact hs
  · exact fun _ => .inl rfl

/-- A change of a riser that its quiet timer follows. -/
theorem modRiser {r : Riser} {f : RiserUnit → RiserUnit}
    (hl : ¬ X r → (f (s.riser r)).state ≠ .off → (s.riser r).state ≠ .off ∧ (f (s.riser r)).live = (s.riser r).live)
    (hs : ∀ k, vget (f (s.riser r)).staged k = vget (s.riser r).staged k ∨
      ∀ i, (vget (f (s.riser r)).staged k).names i = true → I i) : Confined X I s (s.modRiser r f) := by
  refine setRiser (fun _ => RiserUnit.retimed_calm) ?_ ?_ <;> rw [RiserUnit.retimed_eq]
  · exact hl
  · exact hs

/-- A change of a riser that leaves both schedules. -/
theorem modRiser_rest {r : Riser} {f : RiserUnit → RiserUnit}
    (ho : (f (s.riser r)).state ≠ .off → (s.riser r).state ≠ .off) (hl : (f (s.riser r)).live = (s.riser r).live)
    (hs : (f (s.riser r)).staged = (s.riser r).staged) : Confined X I s (s.modRiser r f) :=
  modRiser (fun _ h => ⟨ho h, hl⟩) fun k => .inl (by rw [hs])

/-- A change of one riser's staged entries. -/
theorem staged {r : Riser} {v : Vector SlotEntry 4}
    (hs : ∀ k, vget v k = vget (s.riser r).staged k ∨ ∀ i, (vget v k).names i = true → I i) :
    Confined X I s (s.modRiser r fun u => { u with staged := v }) :=
  modRiser (fun _ h => ⟨h, rfl⟩) hs

/-- The two queues changed for records in `I` alone. -/
theorem queues {w d : List Rec} (hw : ∀ i, ¬ I i → w.count i = s.waitQueue.count i)
    (hd : ∀ i, ¬ I i → d.count i = s.consoleQueue.count i) :
    Confined X I s { s with waitQueue := w, consoleQueue := d } :=
  ⟨fun _ => id, fun _ _ h => ⟨h, rfl⟩, fun i hi => ⟨hw i hi, hd i hi, rfl, fun _ _ _ => rfl⟩⟩

/-- The call table changed, a record outside `I` keeping its standing. -/
theorem callTable {cs : Vector (Option Call) 16} (h : ∀ i, ¬ I i → (vget cs i).bind Call.standing = s.standing i) :
    Confined X I s { s with calls := cs } :=
  ⟨fun _ => id, fun _ _ h => ⟨h, rfl⟩, fun i hi => ⟨rfl, rfl, h i hi, fun _ _ _ => rfl⟩⟩

theorem setCall {i : Rec} {c : Option Call} (h : ¬ I i → c.bind Call.standing = s.standing i) :
    Confined X I s (s.setCall i c) := by
  refine callTable fun j hj => ?_
  rw [vget_vset]
  split
  next hij => subst hij; exact h hj
  · rfl

/-- A record in `I` written. -/
theorem setCall_mem {i : Rec} (hi : I i) (c : Option Call) : Confined X I s (s.setCall i c) := setCall fun h => absurd hi h

/-- A call changed in what gives it no other place. -/
theorem setCall_same {i : Rec} {c d : Call} (hc : s.call i = some c) (h : d.standing = c.standing) :
    Confined X I s (s.setCall i (some d)) :=
  setCall fun _ => h.trans (State.standing_of_call hc).symm

theorem modCall_mem {i : Rec} (hi : I i) (f : Call → Call) : Confined X I s (s.modCall i f) := setCall_mem hi _

/-- Every call changed in what gives it no other place. -/
theorem mapCalls {f : Call → Call} (h : ∀ c : Call, (f c).standing = c.standing) :
    Confined X I s { s with calls := vmap (Option.map f) s.calls } := by
  refine callTable fun i _ => ?_
  rw [vget_vmap, State.standing, State.call]
  cases vget s.calls i with
  | none => rfl
  | some c => exact h c

end Confined

section
variable {X : Riser → Prop} {I : Rec → Prop}

/-! ## Reports, orders, panel messages -/

theorem State.post_confined (s : State) (x : Report) : Confined X I s (s.post x) := .modClu s _

theorem State.postCall_confined (s : State) (i : Rec) (e : CallEvent) : Confined X I s (s.postCall i e) := by
  unfold State.postCall; split
  · exact State.post_confined ..
  · exact .refl s

theorem State.enqueue_confined (s : State) (h : Handset) (o : Option Order) : Confined X I s (s.enqueue h o) := by
  unfold State.enqueue; split
  · exact .modRiser_rest id rfl rfl
  · exact .refl s

theorem State.order_confined (s : State) (h : Handset) (o : Order) : Confined X I s (s.order h o) :=
  State.enqueue_confined ..
theorem State.reject_confined (s : State) (h : Handset) : Confined X I s (s.reject h) := State.enqueue_confined ..

theorem State.orders_confined {α : Type} (g : α → Handset) (o : Order) (l : List α) (s : State) :
    Confined X I s (l.foldl (fun s x => s.order (g x) o) s) := .foldl (fun x _ s => s.order_confined (g x) o) s

theorem State.hand_confined (s : State) (p : Panel) (m : PanelMsg) : Confined X I s (s.hand p m) := .modPanel s p _

/-! ## Slots (R33 to R39) -/

/-- An edit that names no record outside `I`. -/
theorem State.edit_confined (s : State) (r : Riser) (k : Slot) {e : SlotEntry} (he : ∀ i, e.names i = true → I i) :
    Confined X I s (s.edit r k e) := by
  have hstaged : ∀ k', vget (vset (s.riser r).staged k e) k' = vget (s.riser r).staged k' ∨
      ∀ i, (vget (vset (s.riser r).staged k e) k').names i = true → I i := fun k' => by
    rw [vget_vset]
    split
    · exact .inr he
    · exact .inl rfl
  by_cases hi : e = .idle
  · subst hi; exact .staged hstaged
  · rw [State.edit_busy s r k hi]
    refine .modRiser (fun _ h => ⟨?_, by rw [woken_fields]⟩) (by rw [woken_fields]; exact hstaged)
    rcases RiserUnit.woken_state { s.riser r with staged := vset (s.riser r).staged k e } with hw | ⟨hq, -⟩
    · rw [hw] at h; exact h
    · exact fun ho => nomatch hq.symm.trans ho

theorem State.editIdle_confined (s : State) (r : Riser) (k : Slot) : Confined X I s (s.edit r k .idle) :=
  s.edit_confined r k (by simp [SlotEntry.names])

theorem State.editPage_confined (s : State) (r : Riser) (k : Slot) : Confined X I s (s.edit r k .page) :=
  s.edit_confined r k (by simp [SlotEntry.names])

/-- An edit for a record in `I`. -/
theorem State.editFor_confined (s : State) (r : Riser) (k : Slot) {e : SlotEntry} {i : Rec} (hi : I i)
    (he : e = .reserved i ∨ e = .carrying i) : Confined X I s (s.edit r k e) := by
  refine s.edit_confined r k fun j hj => ?_
  rcases he with rfl | rfl <;> simp [SlotEntry.names] at hj <;> exact hj ▸ hi

theorem State.releaseOn_confined (s : State) (i : Rec) (r : Riser) : Confined X I s (s.releaseOn i r) := by
  unfold State.releaseOn; split
  · refine .staged fun k => ?_
    rw [vget_vmap]
    split
    · exact .inr (by simp [SlotEntry.names])
    · exact .inl rfl
  · exact .refl s

theorem State.releaseList_confined (s : State) (i : Rec) (l : List Riser) :
    Confined X I s (l.foldl (fun s r => s.releaseOn i r) s) := .foldl (fun r _ s => s.releaseOn_confined i r) s

theorem State.carryAnswer_confined (s : State) {i : Rec} (hi : I i) (r : Riser) : Confined X I s (s.carryAnswer i r) := by
  refine .staged fun k => ?_
  rw [vget_vmap]
  split
  · exact .inr fun j hj => by simp [SlotEntry.names] at hj; exact hj ▸ hi
  · exact .inl rfl

theorem State.reserve_confined (s : State) {i : Rec} (hi : I i) (rs : List Riser) : Confined X I s (s.reserve i rs) :=
  .foldl (fun r _ s => by
    unfold State.reserveOn; split
    · exact s.editFor_confined r _ hi (.inl rfl)
    · exact .refl s) s

/-! ## The ending of a call -/

theorem State.endLeg_confined (s : State) (l : Leg) : Confined X I s (s.endLeg l) := by
  unfold State.endLeg; split
  · split
    · exact State.order_confined ..
    · split <;> exact State.order_confined ..
    · exact .refl s
  · exact .refl s

/-- A record that leaves a queue leaves the places of the others. -/
theorem count_filter_outside {i j : Rec} (hi : I i) (hj : ¬ I j) (l : List Rec) : (l.filter (· ≠ i)).count j = l.count j :=
  List.count_filter (by simpa using fun hij : j = i => hj (hij ▸ hi))

/-- A record that joins a queue leaves the places of the others. -/
theorem count_append_outside {i j : Rec} (hi : I i) (hj : ¬ I j) (l : List Rec) : (l ++ [i]).count j = l.count j := by
  rw [List.count_append, List.count_singleton, if_neg, Nat.add_zero]
  simpa using fun hij : i = j => hj (hij ▸ hi)

theorem State.leaveQueues_confined (s : State) {i : Rec} (hi : I i) : Confined X I s (s.leaveQueues i) :=
  .queues (fun _ hj => count_filter_outside hi hj _) fun _ hj => count_filter_outside hi hj _

theorem State.consoleForget_confined (s : State) (i : Rec) : Confined X I s (s.consoleForget i) := by
  rw [State.consoleForget_eq]; exact .of_rest rfl rfl rfl rfl

theorem State.noticeForget_confined (s : State) (i : Rec) : Confined X I s (s.noticeForget i) := by
  rw [State.noticeForget_eq]; exact .of_rest rfl rfl rfl rfl

theorem State.panelEnded_confined (s : State) (o : Origin) (c : EndCause) : Confined X I s (s.panelEnded o c) := by
  rw [State.panelEnded_state]; exact .of_rest rfl rfl rfl rfl

/-- A record in CLEARING has no place to lose when it becomes FREE. -/
theorem State.freeIfUnnamed_confined (s : State) (i : Rec) : Confined X I s (s.freeIfUnnamed i) := by
  unfold State.freeIfUnnamed; split
  next c hc =>
    split
    next h =>
      refine (s.noticeForget_confined i).trans (.setCall fun _ => ?_)
      rw [State.noticeForget_eq, State.standing_of_call (c := c) (by exact hc), Call.standing, if_pos h.1, Option.bind_none]
    · exact .refl s
  · exact .refl s

theorem State.testClearing_confined (s : State) : Confined X I s s.testClearing :=
  .foldl (fun i _ s => s.freeIfUnnamed_confined i) s

theorem State.endCall_confined (s : State) {i : Rec} (hi : I i) (cause : EndCause) : Confined X I s (s.endCall i cause) := by
  unfold State.endCall; split
  · exact .refl s
  · split
    · exact .refl s
    · refine .trans ?_ (State.freeIfUnnamed_confined _ i)
      refine .trans ?_ (State.postCall_confined _ i _)
      refine .trans ?_ (State.panelEnded_confined _ _ _)
      refine .trans ?_ (State.noticeForget_confined _ i)
      refine .trans ?_ (State.consoleForget_confined _ i)
      refine .trans ?_ (State.releaseList_confined _ i _)
      refine .trans ?_ (.foldl (fun l _ s => s.endLeg_confined l) _)
      exact .trans (.setCall_mem hi _) (State.leaveQueues_confined _ hi)

/-! ## Ringing and the Wait Queue -/

theorem State.callerRinging_confined (s : State) (i : Rec) (o : Origin) : Confined X I s (s.callerRinging i o) := by
  rw [State.callerRinging_eq]; exact .of_rest rfl rfl rfl rfl

theorem State.enterRinging_confined (s : State) {i : Rec} (hi : I i) : Confined X I s (s.enterRinging i) := by
  unfold State.enterRinging; split
  · exact .refl s
  · refine .trans ?_ (State.postCall_confined _ i _)
    refine .trans ?_ (State.callerRinging_confined _ i _)
    exact .trans (State.orders_confined _ _ _ s) (.setCall_mem hi _)

theorem State.joinWait_confined (s : State) {i : Rec} (hi : I i) : Confined X I s (s.joinWait i) := by
  unfold State.joinWait
  refine .trans ?_ (State.postCall_confined _ i _)
  refine .trans (.modCall_mem hi fun c => { c with state := .queued, waitTimer := .start s.settings.wait }) ?_
  exact .queues (fun _ hj => count_append_outside hi hj _) fun _ _ => rfl

theorem State.scanOne_confined (s : State) {i : Rec} (hi : I i) : Confined X I s (s.scanOne i) := by
  unfold State.scanOne; split
  · exact .refl s
  · split
    · refine .trans ?_ (State.enterRinging_confined _ hi)
      refine .trans ?_ (State.reserve_confined _ hi _)
      exact .queues (fun _ hj => count_filter_outside hi hj _) fun _ _ => rfl
    · exact .refl s

/-! ## Setup -/

theorem State.takeRecord_confined (s : State) {i : Rec} (hi : I i) (k : CallKind) (o : Origin) (c : Option Nat)
    (st : CallState) : Confined X I s (s.takeRecord i k o c st) :=
  .trans (t := s.setCall i (some (.fresh s.serialNext k o c st))) (.setCall_mem hi _) (.of_rest rfl rfl rfl rfl)

theorem State.askSlots_confined (s : State) {i : Rec} (hi : I i) (c : Call) : Confined X I s (s.askSlots i c) := by
  unfold State.askSlots; split
  · exact s.endCall_confined hi _
  · exact (s.reserve_confined hi _).trans (State.enterRinging_confined _ hi)
  · split
    · exact s.joinWait_confined hi
    · exact s.endCall_confined hi _

theorem State.setup_confined (s : State) {i : Rec} (hi : I i) (code : Nat) : Confined X I s (s.setup i code) := by
  unfold State.setup; split
  · exact s.endCall_confined hi _
  · exact s.endCall_confined hi _
  · split
    · exact .refl s
    · exact .trans (.setCall_mem hi _) (State.askSlots_confined _ hi _)

/-! ## The answer -/

theorem Call.standing_sequence (c : Call) (q : Option Nat) : ({ c with sequence := q } : Call).standing = c.standing := rfl

theorem State.takeSequence_confined (s : State) : Confined X I s s.takeSequence.2 := by
  have hrenumbered : Confined X I s { s with calls := s.renumbered.calls } := by
    refine .mapCalls fun c => ?_
    split
    · exact c.standing_sequence _
    · rfl
  unfold State.takeSequence; dsimp only; split
  · exact hrenumbered.trans (.of_rest rfl rfl rfl rfl)
  · exact .of_rest rfl rfl rfl rfl

theorem State.answerRead_confined (s : State) (e : Option EntryIx) : Confined X I s (s.answerRead e).2 := by
  rw [State.answerRead_state]; exact .of_rest rfl rfl rfl rfl

theorem State.callerAnswered_confined (s : State) (i : Rec) (o : Origin) : Confined X I s (s.callerAnswered i o) := by
  rw [State.callerAnswered_state]; exact .of_rest rfl rfl rfl rfl

theorem State.assignTo_confined (s : State) (i : Rec) (h : Handset) : Confined X I s (s.assignTo i h) := by
  unfold State.assignTo; split
  · exact State.order_confined ..
  · exact .refl s

theorem State.answer_confined (s : State) {i : Rec} (hi : I i) (c : Call) (n : Nat) (l : Leg) :
    Confined X I s (s.answer i c n l) := by
  rw [State.answer_steps]
  refine .trans ?_ (State.postCall_confined _ i _)
  refine .trans ?_ (State.callerAnswered_confined _ i _)
  refine .trans (t := s.answerWon i c n l) ?_ ?_
  · exact .trans (s.takeSequence_confined.trans (State.answerRead_confined _ l.entry)) (.setCall_mem hi _)
  · refine .trans ?_ (State.releaseList_confined _ i _)
    refine .trans ?_ (State.orders_confined _ _ _ _)
    exact .trans (State.carryAnswer_confined _ hi _) (State.assignTo_confined _ i _)

theorem State.leavePage_confined (s : State) (h : Handset) : Confined X I s (s.leavePage h) := by
  unfold State.leavePage; split
  · exact .setPage ..
  · exact .refl s

/-! ## Keys and losses -/

theorem State.strike_confined {s : State} {i : Rec} {c : Call} (hc : s.call i = some c) (p : Panel) :
    Confined X I s (s.strike i c p) := by
  unfold State.strike
  refine .trans ?_ (State.postCall_confined _ i _)
  exact .trans (s.hand_confined p (.strike (s.panelProfile p).strike)) (.setCall_same (c := c) hc rfl)

theorem State.queueConcierge_confined (s : State) {i : Rec} (hi : I i) (h : Handset) :
    Confined X I s (s.queueConcierge i h) := by
  rw [State.queueConcierge_eq]
  exact ⟨fun _ => id, fun _ _ h => ⟨h, rfl⟩, fun j hj => ⟨rfl, count_append_outside hi hj _,
    congrArg (Option.bind · Call.standing) (vget_vset_ne _ (fun hij : i = j => hj (hij ▸ hi)) _), fun _ _ _ => rfl⟩⟩

theorem State.dropLeg_confined (s : State) {i : Rec} (hi : I i) (c : Call) (h : Handset) :
    Confined X I s (s.dropLeg i c h) := by
  have hdropped : Confined X I s (s.legDropped i c h) := by
    unfold State.legDropped; split
    · exact .trans (.setCall_mem hi _) (State.releaseOn_confined ..)
    · exact .setCall_mem hi _
  rw [State.dropLeg_eq]; split
  · exact hdropped.trans (State.endCall_confined _ hi _)
  · exact hdropped

/-! ## The operator and the page -/

theorem State.answerHead_confined (s : State) {i : Rec} (hi : I i) (c : Call) (h : Handset) (k : Slot) :
    Confined X I s (s.answerHead i c h k) := by
  unfold State.answerHead
  refine .trans ?_ (State.postCall_confined _ i _)
  refine .trans ?_ (.setConsole ..)
  refine .trans ?_ (.setCall_mem hi _)
  refine .trans (.trans (.trans (s.editFor_confined h.riser k hi (.inr rfl)) ?_) (State.order_confined _ h (.assign k)))
    (State.takeSequence_confined _)
  refine .queues (fun _ _ => rfl) fun j hj => ?_
  rw [show (s.edit h.riser k (.carrying i)).consoleQueue = s.consoleQueue by rw [(s.edit_slots _ _ _).state]]
  exact count_filter_outside hi hj _

theorem State.lend_confined (s : State) (r : Riser) {i : Rec} (hi : I i) (k : Slot) : Confined X I s (s.lend r i k) := by
  unfold State.lend
  refine .trans ?_ (State.postCall_confined _ i _)
  refine .trans ?_ (State.noticeForget_confined _ i)
  exact .trans (s.editPage_confined r k) (.modCall_mem hi _)

theorem State.lentBack_confined (s : State) (r : Riser) (k : Slot) {i : Rec} (hi : I i) (c : Call) :
    Confined X I s (s.lentBack r k i c) := by
  unfold State.lentBack
  refine .trans ?_ (State.postCall_confined _ i _)
  exact .trans (s.editFor_confined r k hi (.inr rfl)) (.setCall_mem hi _)

theorem State.pageOn_confined (p : PageRecord) (s : State) (h : Handset) : Confined X I s (State.pageOn p s h) := by
  unfold State.pageOn; split
  · exact State.order_confined ..
  · exact .refl s

theorem State.unmonitor_confined (s : State) (i : Rec) : Confined X I s (s.unmonitor i) := by
  refine .setCall fun _ => ?_
  rw [State.standing]
  cases s.call i <;> rfl

theorem State.monitored_confined {s : State} {i : Rec} {c : Call} (hc : s.call i = some c) (k : ConsoleState) (m : Monitor) :
    Confined X I s (s.monitored i c k m) := by
  refine .trans (t := (s.setConsole k).setCall i (some { c with monitor := m })) ?_ (.of_rest rfl rfl rfl rfl)
  exact (Confined.setConsole s k).trans (.setCall_same (c := c) hc rfl)

/-! ## Risers -/

theorem RiserUnit.timerRight_stopped {u : RiserUnit} (h : u.quietTimer = .stopped) : u.TimerRight := fun hn => absurd h hn

/-- An enable takes a riser of `X` out of OFF. -/
theorem State.enableRiser_confined (s : State) {r : Riser} (hx : (s.riser r).state = .off → X r) :
    Confined X I s (s.enableRiser r) := by
  unfold State.enableRiser; split
  next h =>
    refine .trans (.setRiser (fun _ _ => RiserUnit.enabled_calm _) (fun hn => absurd (hx h) hn) fun k => .inr ?_)
      (State.post_confined ..)
    rw [show (RiserUnit.enabled (s.riserProfile r)).staged = Vector.replicate 4 .idle from rfl, vget_replicate]
    simp [SlotEntry.names]
  · exact .refl s

theorem State.riserOff_confined (s : State) (r : Riser) (e : RiserEvent) : Confined X I s (s.riserOff r e) := by
  unfold State.riserOff
  refine .trans (.trans ?_ (State.testClearing_confined _)) (State.post_confined ..)
  exact .setRiser (fun _ => RiserUnit.timerRight_stopped rfl) (fun _ h => absurd rfl h) fun _ => .inl rfl

end

end Sys2Proof.Machine
end

