-- ==== Sys2Proof/Proofs/RecordSteps.lean ====
section
/-! PROOFS. The law of the one record that an operation of the Call Controller works for: its endings, its slots, its answer, the
page's loan and what comes back of it. -/

namespace Sys2Proof.Machine

open Sys2Proof Sys2Proof.Safety

/-! ## Records without a place -/

theorem Unplaced.of_eq {s t : State} {i : Rec} (h : Unplaced s i) (hw : t.waitQueue = s.waitQueue)
    (hd : t.consoleQueue = s.consoleQueue) (hr : ∀ r, (t.riser r).staged = (s.riser r).staged) : Unplaced t i :=
  ⟨by rw [hw]; exact h.waiting, by rw [hd]; exact h.desk, fun r k => by rw [hr]; exact h.staged r k⟩

theorem State.stateOf_of_call {s : State} {i : Rec} {c : Call} (h : s.call i = some c) (hs : c.state ≠ .clearing) :
    s.stateOf i = some c.state := (State.stateOf_eq_some hs).mpr ⟨c, h, rfl⟩

theorem State.stateOf_free {s : State} {i : Rec} (h : s.call i = none) : s.stateOf i = none := by
  rw [State.stateOf, State.standing_free h]; rfl

theorem RecordLaw.unplaced_free {s : State} {i : Rec} (h : RecordLaw s i) (hc : s.call i = none) : Unplaced s i :=
  h.unplaced fun st hst => by rw [State.stateOf_free hc] at hst; cases hst

/-- Only a RINGING or a CONNECTED call is named by a staged entry: reserved for the one, carried for the other. -/
theorem RecordLaw.names {s : State} {i : Rec} (h : RecordLaw s i) {r : Riser} {k : Slot}
    (hk : (vget (s.riser r).staged k).names i = true) :
    s.stateOf i = some .ringing ∧ vget (s.riser r).staged k = .reserved i ∨
      s.stateOf i = some .connected ∧ vget (s.riser r).staged k = .carrying i := by
  rcases SlotEntry.names_iff.mp hk with hk | hk
  · obtain ⟨rs, hst, -⟩ := h.reserved r k hk
    exact .inl ⟨by rw [State.stateOf, hst]; rfl, hk⟩
  · exact .inr ⟨h.carrying r k hk, hk⟩

/-- A CONNECTED record in no queue that is named by one entry at most, which carries it. -/
theorem RecordLaw.of_carried {t : State} {i : Rec} {r : Riser} (hw : t.waitQueue.count i = 0)
    (hd : t.consoleQueue.count i = 0) (hst : t.stateOf i = some .connected)
    (hs : ∀ r' k, (vget (t.riser r').staged k).names i = true → r' = r ∧ vget (t.riser r').staged k = .carrying i)
    (hone : ∀ k k', (vget (t.riser r).staged k).names i = true → (vget (t.riser r).staged k').names i = true → k = k') :
    RecordLaw t i := by
  have hcarried : (SlotEntry.carrying i).names i = true := SlotEntry.names_iff.mpr (.inr rfl)
  refine ⟨by rw [hw, if_neg (by rw [hst]; nofun)], by rw [hd, if_neg (by rw [hst]; nofun)], fun r' k hk => ?_,
    fun _ _ _ => hst, fun r' k k' hk hk' => ?_, fun r' k r'' k' hk hk' => ?_⟩
  · obtain ⟨-, hc⟩ := hs r' k (by rw [hk]; exact SlotEntry.names_iff.mpr (.inl rfl))
    exact nomatch hk.symm.trans hc
  · obtain ⟨rfl, -⟩ := hs r' k hk
    exact hone k k' hk hk'
  · obtain ⟨rfl, -⟩ := hs r' k (by rw [hk]; exact hcarried)
    obtain ⟨rfl, -⟩ := hs r'' k' (by rw [hk']; exact hcarried)
    rfl

/-! ## The ending of a call (R28, R31) -/

/-- An ended call has no place left. -/
theorem State.endCall_law {s : State} {i : Rec} {c : Call} (hc : s.call i = some c) (hs : c.state ≠ .clearing)
    (cause : EndCause) : RecordLaw (s.endCall i cause) i := by
  have hended := State.endCall_ended hc hs cause
  have hstate : (s.endCall i cause).stateOf i = none := by
    rw [State.stateOf, State.standing, hended.record]
    split
    · rfl
    · rfl
  have hcount : ∀ l : List Rec, (l.filter (· ≠ i)).count i = 0 := fun l => List.count_eq_zero.mpr (by simp)
  refine Unplaced.law ⟨by rw [hended.queues.1]; exact hcount _, by rw [hended.queues.2]; exact hcount _, fun r k => ?_⟩
    (by rw [hstate]; nofun) (by rw [hstate]; nofun)
  rw [hended.staged]
  split
  · rfl
  next h => simpa using h

/-- A record stays lawful through an ending, also one that it does not take. -/
theorem State.endCall_lawful {s : State} {i : Rec} (h : RecordLaw s i) (cause : EndCause) : RecordLaw (s.endCall i cause) i := by
  by_cases hlive : ∃ c, s.call i = some c ∧ c.state ≠ .clearing
  · obtain ⟨c, hc, hs⟩ := hlive
    exact State.endCall_law hc hs cause
  · rw [State.endCall_none fun c hc => by_contra fun hs => hlive ⟨c, hc, hs⟩]
    exact h

/-! ## A call asks for its slots (R9, R37, R38, R41) -/

/-- A grant reserves one slot a riser for a record that had none. -/
theorem Granted.law {s t : State} {i : Rec} {c : Call} (h : Granted s t i c) (hu : Unplaced s i) : RecordLaw t i := by
  have hstanding : t.standing i = some (.ringing, c.riserSet) := State.standing_eq_some.mpr ⟨_, h.call, rfl, by decide, rfl⟩
  have hstate : t.stateOf i = some .ringing := by rw [State.stateOf, hstanding]; rfl
  have hnamed : ∀ r k, (vget (t.riser r).staged k).names i = true → vget (t.riser r).staged k = .reserved i ∧ r ∈ c.riserSet ∧
      (s.riser r).slotFree k = true ∧ ∀ j, j.val < k.val → (s.riser r).slotFree j = false := fun r k hk => by
    have hstaged := h.slots.staged r k
    split at hstaged
    next hlow => exact ⟨hstaged, hlow⟩
    next => rw [hstaged, hu.staged] at hk; cases hk
  have hcarried : ∀ r k, vget (t.riser r).staged k ≠ .carrying i := fun r k hk => by
    have hreserved := (hnamed r k (by rw [hk]; exact SlotEntry.names_iff.mpr (.inr rfl))).1
    exact nomatch hk.symm.trans hreserved
  refine ⟨?_, ?_, fun r k hk => ⟨_, hstanding, ?_⟩, fun r k hk => absurd hk (hcarried r k), fun r k k' hk hk' => ?_,
    fun r k _ _ hk => absurd hk (hcarried r k)⟩
  · rw [h.state, if_neg (by rw [← h.state, hstate]; nofun)]; exact hu.waiting
  · rw [h.state, if_neg (by rw [← h.state, hstate]; nofun)]; exact hu.desk
  · exact (hnamed r k (by rw [hk]; exact SlotEntry.names_iff.mpr (.inl rfl))).2.1
  · obtain ⟨-, -, hfree, hfirst⟩ := hnamed r k hk
    obtain ⟨-, -, hfree', hfirst'⟩ := hnamed r k' hk'
    rcases Nat.lt_trichotomy k.val k'.val with hlt | heq | hlt
    · rw [hfirst' k hlt] at hfree; cases hfree
    · exact Fin.ext heq
    · rw [hfirst k' hlt] at hfree'; cases hfree'

theorem State.joinWait_law {s : State} {i : Rec} {c : Call} (hu : Unplaced s i) (hc : s.call i = some c) :
    RecordLaw (s.joinWait i) i := by
  have hstate : (s.joinWait i).stateOf i = some .queued :=
    (State.stateOf_eq_some (by decide)).mpr ⟨_, by rw [State.joinWait_eq hc]; exact vget_vset_self .., rfl⟩
  have heq := State.joinWait_eq hc
  generalize s.joinWait i = t at hstate heq ⊢
  refine .of_unnamed (fun r k => by rw [heq]; exact hu.staged r k) ?_ ?_
  · rw [if_pos hstate, heq]
    simp [hu.waiting]
  · rw [if_neg (by rw [hstate]; nofun), heq]
    exact hu.desk

theorem State.askSlots_law {s : State} {i : Rec} {c : Call} (hu : Unplaced s i) (hc : s.call i = some c)
    (hs : c.state ≠ .clearing) : RecordLaw (s.askSlots i c) i := by
  unfold State.askSlots
  split
  · exact State.endCall_law hc hs _
  next hg => exact (State.granted hc (State.testRisers_granted.mp hg)).law hu
  · split
    · exact State.joinWait_law hu hc
    · exact State.endCall_law hc hs _

/-- A call that has just taken its record is set up. -/
theorem State.setup_law {s : State} {i : Rec} {c : Call} (hu : Unplaced s i) (hc : s.call i = some c) (hs : c.state ≠ .clearing)
    (code : Nat) : RecordLaw (s.setup i code) i := by
  cases hl : s.lookup code with
  | unknown => rw [State.setup_unknown hl]; exact State.endCall_law hc hs _
  | busy => rw [State.setup_busy hl]; exact State.endCall_law hc hs _
  | targets list =>
    rw [State.setup_targets hl hc]
    exact State.askSlots_law (c := c.aimed list) (hu.of_eq rfl rfl fun _ => rfl) (vget_vset_self ..) hs

theorem State.scanOne_law {s : State} {i : Rec} (h : RecordLaw s i) : RecordLaw (s.scanOne i) i := by
  rcases s.scanOne_cases i with hsame | ⟨c, hc, hq, hg⟩
  · rw [hsame]; exact h
  · have hstate : s.stateOf i = some .queued := hq ▸ State.stateOf_of_call hc (by rw [hq]; nofun)
    refine hg.law ⟨List.count_eq_zero.mpr (by simp), h.desk.trans (if_neg (by rw [hstate]; nofun)), fun r k => ?_⟩
    rw [Bool.eq_false_iff]
    intro hk
    rcases h.names hk with ⟨hn, -⟩ | ⟨hn, -⟩ <;> rw [hstate] at hn <;> cases hn

/-! ## The answer (R13) -/

/-- Of the slots reserved for an answered call one is left, which carries it. -/
theorem State.answer_law {s : State} {i : Rec} {c : Call} (h : RecordLaw s i) (hc : s.call i = some c) (hs : c.state = .ringing)
    (n : Nat) (l : Leg) : RecordLaw (s.answer i c n l) i := by
  have hringing : s.standing i = some (.ringing, c.riserSet) := State.standing_eq_some.mpr ⟨c, hc, hs, by decide, rfl⟩
  have hstate : s.stateOf i = some .ringing := by rw [State.stateOf, hringing]; rfl
  obtain ⟨ps, cl, heq⟩ := State.answer_eq s i c n l
  have hplaced := State.answerPlaced_state (i := i) (c := c) (n := n) (l := l) (s.answerWon i c n l)
  have hwon : s.answerWon i c n l = { s with
      directory := (s.answerWon i c n l).directory, calls := (s.answerWon i c n l).calls
      sequenceNext := (s.answerWon i c n l).sequenceNext } := by
    rw [State.answerWon, State.answerRead_state, State.takeSequence_state]; rfl
  have hcall : (s.answerWon i c n l).call i = some (s.wonCall c n l) := by rw [State.answerWon]; exact vget_vset_self ..
  have hstaged : ∀ r, ((s.answerWon i c n l).riser r).staged = (s.riser r).staged := fun r => by rw [hwon]; rfl
  have hriser : ∀ r k, vget ((s.answer i c n l).riser r).staged k =
      vget (((s.answerWon i c n l).answerPlaced i c n l).riser r).staged k := fun r k => by rw [heq]; rfl
  -- what an entry that still names the record was before
  have hnamed : ∀ r k, (vget ((s.answer i c n l).riser r).staged k).names i = true →
      r = l.handset.riser ∧ vget (s.riser r).staged k = .reserved i := fun r k hk => by
    rw [hriser] at hk
    have hbefore : (vget (s.riser r).staged k).names i = true := by
      rw [State.answerPlaced_staged] at hk
      split at hk
      · cases hk
      · by_cases hr : r = l.handset.riser
        · rw [hr, State.carryAnswer_names, hstaged] at hk
          rw [hr]; exact hk
        · rw [State.carryAnswer, State.modRiser_staged, if_neg (Ne.symm hr), hstaged] at hk
          exact hk
    rcases h.names hbefore with ⟨-, hreserved⟩ | ⟨hn, -⟩
    · refine ⟨by_contra fun hr => ?_, hreserved⟩
      obtain ⟨rs, hst, hmem⟩ := h.reserved r k hreserved
      obtain rfl : c.riserSet = rs := congrArg Prod.snd (Option.some_inj.mp (hringing.symm.trans hst))
      rw [State.answerPlaced_released hmem hr] at hk
      cases hk
    · rw [hstate] at hn; cases hn
  refine .of_carried (r := l.handset.riser) ?_ ?_ ?_ (fun r k hk => ?_) fun k k' hk hk' => ?_
  · rw [heq, hplaced, hwon]
    exact h.waiting.trans (if_neg (by rw [hstate]; nofun))
  · rw [heq, hplaced, hwon]
    exact h.desk.trans (if_neg (by rw [hstate]; nofun))
  · refine (State.stateOf_eq_some (by decide)).mpr ⟨s.wonCall c n l, ?_, rfl⟩
    rw [heq, hplaced]
    exact hcall
  · obtain ⟨rfl, hreserved⟩ := hnamed r k hk
    exact ⟨rfl, (hriser _ k).trans (State.answerPlaced_carries (by rw [hstaged]; exact hreserved))⟩
  · obtain ⟨-, hreserved⟩ := hnamed _ k hk
    obtain ⟨-, hreserved'⟩ := hnamed _ k' hk'
    exact h.oneARiser l.handset.riser k k' (SlotEntry.names_iff.mpr (.inl hreserved))
      (SlotEntry.names_iff.mpr (.inl hreserved'))

/-! ## A leg is lost (R17) -/

/-- A riser of the set is lost with its last leg alone. -/
theorem Call.mem_legLost_riserSet {c : Call} {h : Handset} {r : Riser} (hr : r ∈ c.riserSet) (hne : r ≠ h.riser) :
    r ∈ (c.legLost h).riserSet := by
  obtain ⟨l, hl, hd, hlr⟩ := Call.mem_riserSet.mp hr
  refine Call.mem_riserSet.mpr ⟨l, List.mem_map.mpr ⟨l, hl, if_neg fun hh => ?_⟩, hd, hlr⟩
  exact hne (hlr.symm.trans (congrArg Handset.riser hh.1))

theorem State.legDropped_law {s : State} {i : Rec} {c : Call} (hl : RecordLaw s i) (hc : s.call i = some c) (h : Handset) :
    RecordLaw (s.legDropped i c h) i := by
  obtain ⟨heq, -⟩ := s.legDropped_slots i c h
  have hstaged := s.legDropped_staged i c h
  generalize s.legDropped i c h = t at heq hstaged ⊢
  have hcall : t.call i = some (c.legLost h) := by rw [heq]; exact vget_vset_self ..
  have hstate : t.stateOf i = s.stateOf i := by
    rw [State.stateOf, State.stateOf, State.standing_of_call hcall, State.standing_of_call hc, Call.standing, Call.standing]
    split
    next hs => rw [if_pos (by exact hs)]
    next hs => rw [if_neg (by exact hs)]; rfl
  have hkept : ∀ r k, (vget (t.riser r).staged k).names i = true →
      vget (t.riser r).staged k = vget (s.riser r).staged k ∧
        ¬ (c.state = .ringing ∧ r = h.riser ∧ r ∉ (c.legLost h).riserSet) := fun r k hk => by
    have hthis := hstaged r k
    split at hthis
    next => rw [hthis] at hk; cases hk
    next hn =>
      refine ⟨hthis, fun ⟨hs, hr, hset⟩ => hn ⟨hs, hr, fun m hm hmr => ?_, hthis ▸ hk⟩⟩
      exact by_contra fun hd => hset (Call.mem_riserSet.mpr ⟨m, hm, hd, hmr⟩)
  have hnames : ∀ r k, (vget (t.riser r).staged k).names i = true → (vget (s.riser r).staged k).names i = true :=
    fun r k hk => (hkept r k hk).1 ▸ hk
  have hcarried : ∀ r k, vget (t.riser r).staged k = .carrying i → vget (s.riser r).staged k = .carrying i :=
    fun r k hk => (hkept r k (by rw [hk]; exact SlotEntry.names_iff.mpr (.inr rfl))).1.symm.trans hk
  refine ⟨by rw [hstate, heq]; exact hl.waiting, by rw [hstate, heq]; exact hl.desk, fun r k hk => ?_,
    fun r k hk => hstate.trans (hl.carrying r k (hcarried r k hk)),
    fun r k k' hk hk' => hl.oneARiser r k k' (hnames r k hk) (hnames r k' hk'),
    fun r k r' k' hk hk' => hl.oneCarries r k r' k' (hcarried r k hk) (hcarried r' k' hk')⟩
  obtain ⟨hsame, hneeded⟩ := hkept r k (by rw [hk]; exact SlotEntry.names_iff.mpr (.inl rfl))
  obtain ⟨rs, hst, hr⟩ := hl.reserved r k (hsame.symm.trans hk)
  obtain ⟨d, hd, hringing, -, rfl⟩ := State.standing_eq_some.mp hst
  obtain rfl : c = d := Option.some_inj.mp (hc.symm.trans hd)
  refine ⟨_, State.standing_eq_some.mpr ⟨c.legLost h, hcall, hringing, by decide, rfl⟩, ?_⟩
  by_cases hne : r = h.riser
  · exact by_contra fun hset => hneeded ⟨hringing, hne, hset⟩
  · exact Call.mem_legLost_riserSet hr hne

theorem State.dropLeg_law {s : State} {i : Rec} {c : Call} (hl : RecordLaw s i) (hc : s.call i = some c) (h : Handset) :
    RecordLaw (s.dropLeg i c h) i := by
  rw [State.dropLeg_eq]
  split
  · exact State.endCall_lawful (State.legDropped_law hl hc h) _
  · exact State.legDropped_law hl hc h

/-! ## The Console Queue (R121, R124) -/

theorem State.queueConcierge_law {s : State} {i : Rec} (h : RecordLaw s i) (hc : s.call i = none) (x : Handset) :
    RecordLaw (s.queueConcierge i x) i := by
  have hu := h.unplaced_free hc
  have hstate : (s.queueConcierge i x).stateOf i = some .waitingDesk :=
    (State.stateOf_eq_some (by decide)).mpr ⟨_, by rw [State.queueConcierge_eq]; exact vget_vset_self .., rfl⟩
  have heq := s.queueConcierge_eq i x
  generalize s.queueConcierge i x = t at hstate heq ⊢
  refine .of_unnamed (fun r k => by rw [heq]; exact hu.staged r k) ?_ ?_
  · rw [if_neg (by rw [hstate]; nofun), heq]
    exact hu.waiting
  · rw [if_pos hstate, heq]
    simp [hu.desk]

/-- An entry that carries a record which no other names, on any riser. -/
theorem RecordLaw.of_edit {s t : State} {i : Rec} {r : Riser} {k : Slot} (hn : ∀ r' k', (vget (s.riser r').staged k').names i = false)
    (ht : ∀ r' k', vget (t.riser r').staged k' = if r = r' ∧ k = k' then .carrying i else vget (s.riser r').staged k')
    (hw : t.waitQueue.count i = 0) (hd : t.consoleQueue.count i = 0) (hst : t.stateOf i = some .connected) : RecordLaw t i := by
  have hplace : ∀ r' k', (vget (t.riser r').staged k').names i = true → r = r' ∧ k = k' := fun r' k' hk => by
    by_contra hne
    rw [ht, if_neg hne, hn] at hk
    cases hk
  refine .of_carried (r := r) hw hd hst (fun r' k' hk => ?_) fun k' k'' hk hk' => ?_
  · have hat := hplace r' k' hk
    exact ⟨hat.1.symm, (ht r' k').trans (if_pos hat)⟩
  · exact (hplace r k' hk).2.symm.trans (hplace r k'' hk').2

/-- The head of the Console Queue, WAITING-DESK and so without a slot, is carried in one. -/
theorem State.answerHead_law {s : State} {i : Rec} {c : Call} (h : RecordLaw s i) (hc : s.call i = some c)
    (hs : c.state = .waitingDesk) (x : Handset) (k : Slot) : RecordLaw (s.answerHead i c x k) i := by
  have hstate : s.stateOf i = some .waitingDesk := hs ▸ State.stateOf_of_call hc (by rw [hs]; nofun)
  have hsent := State.order_orders { s.edit x.riser k (.carrying i) with consoleQueue := s.consoleQueue.filter (· ≠ i) } x
    (.assign k)
  have hriser : ∀ r, (s.answerHead i c x k).riser r = (s.headPlaced i x k).riser r := fun r => by
    rw [State.answerHead_eq]; rfl
  refine .of_edit (s := s) (r := x.riser) (k := k) (fun r k' => ?_) (fun r k' => ?_) ?_ ?_
    ((State.stateOf_eq_some (by decide)).mpr ⟨s.headAnswered c, by rw [State.answerHead_eq]; exact vget_vset_self .., rfl⟩)
  · rw [Bool.eq_false_iff]
    intro hk
    rcases h.names hk with ⟨hn, -⟩ | ⟨hn, -⟩ <;> rw [hstate] at hn <;> cases hn
  · rw [hriser, State.headPlaced, hsent.staged]
    exact s.edit_staged x.riser r k k' (.carrying i)
  · rw [State.answerHead_eq]
    exact h.waiting.trans (if_neg (by rw [hstate]; nofun))
  · rw [State.answerHead_eq]
    exact List.count_eq_zero.mpr (by simp)

/-! ## The page's loan (R135, R138, R141) -/

/-- A call that lends its slot to the page. -/
def Call.lent (c : Call) : Call := { c with state := .held, held := true, talkTimer := c.talkTimer.freeze }

/-- A loan is an edit and a change of the lender, and what the NOTICE and the operator learn of it. -/
theorem State.lend_eq (s : State) (r : Riser) (i : Rec) (k : Slot) : ∃ nt cl, s.lend r i k =
    { (s.edit r k .page).modCall i Call.lent with notice := nt, clu := cl } := by
  have hsteps : s.lend r i k = (((s.edit r k .page).modCall i Call.lent).noticeForget i).postCall i (.held r k) := rfl
  rw [hsteps, State.postCall_state, State.noticeForget_eq]
  exact ⟨_, _, rfl⟩

/-- A HELD call has no slot: the one that carried it is the page's. -/
theorem State.lend_law {s : State} {i : Rec} {r : Riser} {k : Slot} (h : RecordLaw s i)
    (hk : vget (s.riser r).staged k = .carrying i) : RecordLaw (s.lend r i k) i := by
  have hconnected := h.carrying r k hk
  obtain ⟨c, hc, -⟩ := (State.stateOf_eq_some (by decide)).mp hconnected
  have hslots := s.edit_slots r k .page
  obtain ⟨nt, cl, heq⟩ := s.lend_eq r i k
  have hheld : (s.lend r i k).stateOf i = some .held := by
    refine (State.stateOf_eq_some (by decide)).mpr ⟨c.lent, ?_, rfl⟩
    rw [heq]
    refine (State.call_modCall _ i i Call.lent).trans ?_
    rw [if_pos rfl, hslots.call, hc]
    rfl
  refine Unplaced.law ⟨?_, ?_, fun r' k' => ?_⟩ (by rw [hheld]; nofun) (by rw [hheld]; nofun)
  · rw [heq, hslots.state]
    exact h.waiting.trans (if_neg (by rw [hconnected]; nofun))
  · rw [heq, hslots.state]
    exact h.desk.trans (if_neg (by rw [hconnected]; nofun))
  · rw [heq]
    refine (congrArg (SlotEntry.names i) (s.edit_staged r r' k k' .page)).trans ?_
    split
    · rfl
    next hne =>
      rw [Bool.eq_false_iff]
      intro hk'
      have hkn : (vget (s.riser r).staged k).names i = true := SlotEntry.names_iff.mpr (.inr hk)
      rcases h.names hk' with ⟨hn, -⟩ | ⟨-, hcarrying⟩
      · rw [hconnected] at hn; cases hn
      · obtain rfl := h.oneCarries r k r' k' hk hcarrying
        exact hne ⟨rfl, h.oneARiser r k k' hkn hk'⟩

/-- A HELD call, which has no slot, has the lent one back. -/
theorem State.lentBack_law {s : State} {i : Rec} {c : Call} (h : RecordLaw s i) (hc : s.call i = some c) (hs : c.state = .held)
    (r : Riser) (k : Slot) : RecordLaw (s.lentBack r k i c) i := by
  have hstate : s.stateOf i = some .held := hs ▸ State.stateOf_of_call hc (by rw [hs]; nofun)
  obtain ⟨hw, hd, hn⟩ := h.unplaced fun st hst => Option.some_inj.mp (hst.symm.trans hstate)
  have hconnected : (s.lentBack r k i c).stateOf i = some .connected :=
    (State.stateOf_eq_some (by decide)).mpr ⟨c.resumed, State.lentBack_slot.2, rfl⟩
  refine .of_edit (s := s) (r := r) (k := k) hn (fun r' k' => ?_) ?_ ?_ hconnected
  · rw [State.lentBack_state]
    exact s.edit_staged r r' k k' (.carrying i)
  · rw [State.lentBack_state]; exact hw
  · rw [State.lentBack_state]; exact hd

end Sys2Proof.Machine
end

