-- ==== Sys2Proof/Proofs/Keeps.lean ====
section
/-! PROOFS. What the events keep of the laws of calls, of quiet timers and of live schedules: one relation, `Keeps`, which a
confined operation gives with the law of the record it works for. -/

namespace Sys2Proof.Machine

open Sys2Proof Sys2Proof.Safety

/-! ## Keeps -/

/-- From `s` to `t` the laws of the calls and of the quiet timers are kept; outside `X` a riser's live schedule changes only with
its entry to OFF, and no riser leaves OFF. -/
structure Keeps (X : Riser → Prop) (s t : State) : Prop where
  calls : CallsConsistent s → CallsConsistent t
  calm  : QuietTimersCalm s → QuietTimersCalm t
  live  : ∀ r, ¬ X r → (t.riser r).state ≠ .off → (s.riser r).state ≠ .off ∧ (t.riser r).live = (s.riser r).live

namespace Keeps

variable {X : Riser → Prop} {s t u : State}

theorem refl (s : State) : Keeps X s s := ⟨id, id, fun _ _ h => ⟨h, rfl⟩⟩

theorem trans (h : Keeps X s t) (g : Keeps X t u) : Keeps X s u where
  calls := g.calls ∘ h.calls
  calm := g.calm ∘ h.calm
  live r hx hu := by
    obtain ⟨ht, hlive⟩ := g.live r hx hu
    obtain ⟨hs, hlive'⟩ := h.live r hx ht
    exact ⟨hs, hlive.trans hlive'⟩

/-- Steps taken one after another over a list. -/
theorem foldl {α : Type} {f : State → α → State} (h : ∀ s x, Keeps X s (f s x)) (l : List α) (s : State) :
    Keeps X s (l.foldl f s) := by
  induction l generalizing s with
  | nil => exact refl s
  | cons x l ih => exact (h s x).trans (ih _)

/-- An operation for one record keeps the laws when it leaves that record lawful. -/
theorem of_record {i : Rec} (h : Confined X (i = ·) s t) (hi : (∀ j, RecordLaw s j) → RecordLaw t i) : Keeps X s t where
  calls hs := by
    rw [callsConsistent_iff] at hs ⊢
    intro j
    by_cases hj : i = j
    · exact hj ▸ hi hs
    · exact (h.stands j hj).law (hs j)
  calm hs r := h.calm r (hs r)
  live := h.live

/-- An operation for no record keeps the laws. -/
theorem of_confined (h : Confined X (fun _ => False) s t) : Keeps X s t where
  calls hs := callsConsistent_iff.mpr fun i => (h.stands i id).law (callsConsistent_iff.mp hs i)
  calm hs r := h.calm r (hs r)
  live := h.live

end Keeps

section
variable {X : Riser → Prop}

/-! ## Endings, the scan, and events -/

theorem State.endCall_keeps (s : State) (i : Rec) (cause : EndCause) : Keeps X s (s.endCall i cause) :=
  .of_record (s.endCall_confined rfl cause) fun hs => State.endCall_lawful (hs i) cause

theorem State.endCalls_keeps (s : State) (l : List Rec) (cause : EndCause) :
    Keeps X s (l.foldl (fun s i => s.endCall i cause) s) := .foldl (fun s i => s.endCall_keeps i cause) l s

theorem State.scan_keeps (s : State) : Keeps X s s.scan :=
  .foldl (fun s i => .of_record (s.scanOne_confined rfl) fun hs => State.scanOne_law (hs i)) _ s

theorem Keeps.settled {s t u : State} (h : Keeps X s u) : Keeps X s (State.settled t u) := by
  unfold State.settled; split
  · exact h.trans u.scan_keeps
  · exact h

theorem Keeps.event {f : State → State} {s : State} (h : Keeps X s (f s)) : Keeps X s (s.event f) := h.settled

theorem Keeps.whenRunning {f : State → State} {s : State} (h : Keeps X s (f s)) : Keeps X s (s.whenRunning f) := by
  unfold State.whenRunning; split
  · exact h
  · exact .refl s

/-! ## Setup (R5 to R11) -/

/-- A call takes a FREE record and is set up, after steps that concern no record. -/
theorem State.takeAndSetup_keeps {s v : State} {i : Rec} {k : CallKind} {o : Origin} {c : Option Nat} (hf : s.call i = none)
    (hv : Confined X (i = ·) (s.takeRecord i k o c .queued) v)
    (hrest : v.calls = (s.takeRecord i k o c .queued).calls ∧ v.waitQueue = s.waitQueue ∧ v.consoleQueue = s.consoleQueue ∧
      v.risers = s.risers) (code : Nat) : Keeps X s (v.setup i code) := by
  obtain ⟨hcalls, hwait, hdesk, hrisers⟩ := hrest
  refine .of_record (.trans (.trans (s.takeRecord_confined rfl k o c .queued) hv) (v.setup_confined rfl code)) fun hs => ?_
  have hcall : v.call i = some (.fresh s.serialNext k o c .queued) := by
    rw [State.call, hcalls]; exact vget_vset_self ..
  exact State.setup_law (((hs i).unplaced_free hf).of_eq hwait hdesk fun r => by rw [State.riser, hrisers]; rfl) hcall
    nofun code

theorem State.panelCall_keeps (s : State) (p : Panel) (code : Nat) : Keeps X s (s.panelCall p code) := by
  unfold State.panelCall; split
  · exact .of_confined (s.hand_confined ..)
  · have hstop : Confined X (fun _ => False) s (s.modPanel p (·.endToneStopped)) := .modPanel s p _
    dsimp only; split
    · exact .of_confined (hstop.trans (State.hand_confined ..))
    · split
      · exact .of_confined (hstop.trans (.trans (.modPanel ..) (State.post_confined ..)))
      next i hf =>
        exact (Keeps.of_confined hstop).trans
          (State.takeAndSetup_keeps (State.freeRecord_free hf) (.modPanel _ p _) ⟨rfl, rfl, rfl, rfl⟩ code)

theorem State.panelCancel_keeps (s : State) (p : Panel) : Keeps X s (s.panelCancel p) := by
  unfold State.panelCancel; split
  · exact State.endCall_keeps ..
  · exact .refl s

/-! ## Hooks and keys -/

theorem State.offHook_keeps (s : State) (h : Handset) : Keeps X s (s.offHook h) := by
  unfold State.offHook; split
  next i _ =>
    split
    · exact .refl s
    next c hc =>
      split
      · split
        next hr => exact .of_record (s.answer_confined rfl c _ _) fun hs => State.answer_law (hs i) hc hr.1 _ _
        · exact .refl s
      · exact .refl s
  · split
    · exact .of_confined ((s.order_confined ..).trans (State.leavePage_confined ..))
    · split
      · exact .of_confined (s.order_confined ..)
      · exact .refl s

theorem State.onHook_keeps (s : State) (h : Handset) : Keeps X s (s.onHook h) := by
  unfold State.onHook; split
  · exact .refl s
  · split
    · exact .refl s
    · split
      · exact State.endCall_keeps ..
      · exact State.endCall_keeps ..
      · exact State.endCall_keeps ..
      · exact .refl s

theorem State.releaseKey_keeps (s : State) (h : Handset) : Keeps X s (s.releaseKey h) := by
  unfold State.releaseKey; split
  · exact .refl s
  · split
    · exact .refl s
    next c hc =>
      split
      · split
        · split
          · exact .refl s
          · exact .of_confined (State.strike_confined hc _)
        · exact .of_confined (s.reject_confined h)
      · exact .of_confined (s.reject_confined h)

theorem State.conciergeKey_keeps (s : State) (h : Handset) : Keeps X s (s.conciergeKey h) := by
  have hreject : Keeps X s (s.reject h) := .of_confined (s.reject_confined h)
  unfold State.conciergeKey; split
  · split
    · split
      · exact .refl s
      · exact hreject
    · exact .refl s
  · split
    · split
      next i hf =>
        split
        · exact .of_record (s.queueConcierge_confined rfl h) fun hs =>
            State.queueConcierge_law (hs i) (State.freeRecord_free hf) h
        · exact hreject
      · exact hreject
    · exact hreject

theorem State.keyEvent_keeps (s : State) (h : Handset) (k : Key) : Keeps X s (s.keyEvent h k) := by
  unfold State.keyEvent; split
  · exact .refl s
  · exact .event (f := fun s => s.releaseKey h) (s.releaseKey_keeps h)
  · exact .event (f := fun s => s.conciergeKey h) (s.conciergeKey_keeps h)

theorem State.hookEvent_keeps (s : State) (h : Handset) (off : Bool) : Keeps X s (s.hookEvent h off) := by
  rw [State.hookEvent_eq]; split
  · exact .refl s
  · refine .trans (t := s.hooked h off) (.of_confined (.modRiser_rest id rfl rfl))
      (.event (f := fun s => if off then s.offHook h else s.onHook h) ?_)
    split
    · exact State.offHook_keeps ..
    · exact State.onHook_keeps ..

/-! ## A handset is lost -/

theorem State.handsetLost_keeps (s : State) (h : Handset) : Keeps X s (s.handsetLost h) := by
  unfold State.handsetLost; dsimp only
  refine .trans (.of_confined (s.leavePage_confined h)) ?_
  split
  · exact .refl _
  next i _ =>
    split
    · exact .refl _
    next c hc =>
      split
      · split
        · exact .of_record (State.dropLeg_confined _ rfl c h) fun hs => State.dropLeg_law (hs i) hc h
        · exact State.endCall_keeps ..
      · exact .refl _

/-! ## Answers on a riser -/

theorem State.miss_keeps (s : State) (r : Riser) (x : Sent) : Keeps X s (s.miss r x) := by
  unfold State.miss; dsimp only; split
  · split
    · exact .of_confined (.modRiser_rest id rfl rfl)
    · exact .trans (.of_confined (.trans (.modRiser_rest id rfl rfl) (State.post_confined ..)))
        (.event (f := fun s => s.handsetLost { riser := r, addr := x.addr }) (State.handsetLost_keeps ..))
  · exact .of_confined (.modRiser_rest id rfl rfl)

theorem RiserUnit.delivered_fields (u : RiserUnit) (x : Sent) :
    u.delivered x = { u with conditions := (u.delivered x).conditions } := by
  unfold RiserUnit.delivered; split <;> rfl

theorem State.hit_keeps (s : State) (r : Riser) (x : Sent) (w : Answer) : Keeps X s (s.hit r x w) := by
  have hsettled : Confined X (fun _ => False) s (s.modRiser r fun u => (({ u with
      sent := none, queue := settledByHit x.addr u.queue }).delivered x).withPresence x.addr
        { s.presence { riser := r, addr := x.addr } with present := true, misses := 0 }) := by
    refine .modRiser_rest ?_ ?_ ?_ <;> rw [RiserUnit.delivered_fields]
    · exact id
    · rfl
    · rfl
  unfold State.hit; dsimp only
  refine .trans ?_ (State.keyEvent_keeps ..)
  refine .trans ?_ (State.hookEvent_keeps ..)
  split
  · exact .of_confined hsettled
  · exact .of_confined (hsettled.trans (State.post_confined ..))

/-! ## The page -/

theorem State.returnSlot_keeps (p : PageRecord) (s : State) (r : Riser) : Keeps X s (State.returnSlot p s r) := by
  rcases s.returnSlot_cases p r with ⟨-, h⟩ | ⟨v, -, -, h⟩ | ⟨v, i, c, -, ⟨-, hc, hs⟩, h⟩ <;> rw [h]
  · exact .refl s
  · exact .of_confined (s.editIdle_confined ..)
  · exact .of_record (s.lentBack_confined r v.slot rfl c) fun hl => State.lentBack_law (hl i) hc hs r v.slot

theorem State.endPage_keeps (s : State) (cause : PageCause) : Keeps X s (s.endPage cause) := by
  unfold State.endPage; split
  · exact .refl s
  next p _ =>
    refine .trans (.of_confined (State.orders_confined id .pageOff p.members s)) ?_
    refine .trans (.foldl (State.returnSlot_keeps p) allRisers _) (.of_confined ?_)
    exact .trans (.trans (.setPage ..) (.setConsole ..)) (State.post_confined ..)

theorem State.dropRiser_keeps (s : State) (r : Riser) : Keeps X s (s.dropRiser r) := by
  unfold State.dropRiser; split
  · exact .refl s
  next p _ =>
    split
    · exact .refl s
    next v _ =>
      have hdrop : Confined X (fun _ => False) s (s.pageDropped p r v) :=
        .trans (.trans (s.editIdle_confined r v.slot) (.setPage ..)) (State.post_confined ..)
      dsimp only; split
      · exact .of_confined hdrop
      · exact (Keeps.of_confined hdrop).trans (State.endPage_keeps ..)

/-- One slot met in the search for the youngest call that a riser carries: the best so far, or the call of this slot. -/
def State.younger (s : State) (r : Riser) (best : Option (Rec × Call × Slot)) (k : Slot) : Option (Rec × Call × Slot) :=
  match vget (s.riser r).staged k with
  | .carrying i =>
    match s.call i with
    | some c =>
      if c.state = .connected then
        match best with
        | some (_, b, _) => if b.sequence.getD 0 < c.sequence.getD 0 then some (i, c, k) else best
        | none => some (i, c, k)
      else best
    | none => best
  | _ => best

theorem State.youngest_eq (s : State) (r : Riser) : s.youngest r = allSlots.foldl (s.younger r) none := rfl

theorem State.younger_cases (s : State) (r : Riser) (best : Option (Rec × Call × Slot)) (k : Slot) :
    s.younger r best k = best ∨
      ∃ i c, vget (s.riser r).staged k = .carrying i ∧ s.younger r best k = some (i, c, k) := by
  unfold State.younger
  split
  next i hi =>
    split
    next c _ =>
      split
      · split
        · split
          · exact .inr ⟨i, c, hi, rfl⟩
          · exact .inl rfl
        · exact .inr ⟨i, c, hi, rfl⟩
      · exact .inl rfl
    · exact .inl rfl
  · exact .inl rfl

/-- The slot that lends to a page carries the call it lends for. -/
theorem State.youngest_carrying {s : State} {r : Riser} {i : Rec} {c : Call} {k : Slot} (h : s.youngest r = some (i, c, k)) :
    vget (s.riser r).staged k = .carrying i := by
  have hfold : ∀ (l : List Slot) (best : Option (Rec × Call × Slot)),
      (∀ x, best = some x → vget (s.riser r).staged x.2.2 = .carrying x.1) →
      ∀ x, l.foldl (s.younger r) best = some x → vget (s.riser r).staged x.2.2 = .carrying x.1 := fun l => by
    induction l with
    | nil => exact fun _ hbest => hbest
    | cons k l ih =>
      refine fun best hbest => ih _ fun x hx => ?_
      rcases s.younger_cases r best k with hsame | ⟨i, c, hk, hnew⟩
      · exact hbest x (hsame ▸ hx)
      · obtain rfl := Option.some_inj.mp (hnew.symm.trans hx)
        exact hk
  rw [State.youngest_eq] at h
  exact hfold allSlots none (fun x hx => by cases hx) _ h

theorem State.planOne_keeps (x : State × PageRecord) (r : Riser) : Keeps X x.1 (State.planOne x r).1 := by
  unfold State.planOne State.pagePlan
  cases hl : (x.1.riser r).lowestFree with
  | some k => exact .of_confined (State.editPage_confined ..)
  | none =>
    cases hy : x.1.youngest r with
    | none => exact .refl _
    | some y =>
      obtain ⟨i, c, k⟩ := y
      exact .of_record (State.lend_confined _ r rfl k) fun hs => State.lend_law (hs i) (State.youngest_carrying hy)

theorem State.pagePlanned_keeps (s : State) (g : Nat) (cs : List Handset) : Keeps X s (s.pagePlanned g cs).1 := by
  have hplan : ∀ (l : List Riser) (x : State × PageRecord), Keeps X x.1 (l.foldl State.planOne x).1 := fun l => by
    induction l with
    | nil => exact fun x => .refl _
    | cons r l ih => exact fun x => (State.planOne_keeps x r).trans (ih _)
  exact hplan (allRisers.filter fun r => cs.any fun h => h.riser = r) (s, .blank g (.start s.settings.console.page))

/-! ## Risers -/

theorem State.riserGone_keeps (s : State) (r : Riser) : Keeps X s (s.riserGone r) :=
  (s.endCalls_keeps _ .riserOff).trans (State.dropRiser_keeps _ r)

/-- A riser that a disable takes out of service, its quiet timer stopped or, out of ACTIVE, stopped already. -/
theorem State.disableRiser_keeps (s : State) (r : Riser) : Keeps X s (s.disableRiser r) := by
  have hoff : (s.riser r).state ≠ .active →
      Keeps X s (s.setRiser r { (s.riser r) with state := .off, queue := [] }) := fun hs =>
    .of_confined (.setRiser (fun hu ht => absurd (hu ht).1 hs) (fun _ h => absurd rfl h) fun _ => .inl rfl)
  unfold State.disableRiser; split
  next hs =>
    have hdraining : Keeps X s (s.setRiser r { (s.riser r).reversalAbandoned with
        state := .draining, quietTimer := .stopped, queue := [], sent := none }) :=
      .of_confined (.setRiser (fun _ => RiserUnit.timerRight_stopped rfl) (fun _ _ => ⟨by rw [hs]; nofun, rfl⟩)
        fun _ => .inl rfl)
    exact hdraining.trans (State.riserGone_keeps ..)
  next hs => exact ((hoff (by rw [hs]; nofun)).trans (State.riserGone_keeps ..)).trans (.of_confined (State.riserOff_confined ..))
  next hs => exact ((hoff (by rw [hs]; nofun)).trans (State.riserGone_keeps ..)).trans (.of_confined (State.riserOff_confined ..))
  · exact .refl s

/-! ## The links -/

theorem State.panelLost_keeps (s : State) (p : Panel) (l : LinkState) (e : LinkEvent) : Keeps X s (s.panelLost p l e) := by
  have hleft : Keeps X s (s.panelLeft p l) := by
    have hleaving : Keeps X s (s.modPanel p (·.leaving l)) := .of_confined (.modPanel s p _)
    unfold State.panelLeft; split
    · exact hleaving.trans (State.endCall_keeps ..)
    · exact hleaving
  rw [State.panelLost_eq]
  exact hleft.trans (.of_confined (.trans (.modPanel ..) (State.post_confined ..)))

theorem State.panelBad_keeps (s : State) (p : Panel) : Keeps X s (s.panelBad p) := by
  unfold State.panelBad; split
  · exact .refl s
  · exact .of_confined (.modPanel ..)
  · split
    · exact .of_confined (.modPanel ..)
    · exact .event (f := fun s => s.panelLost p .hunt .lost) (State.panelLost_keeps ..)

theorem State.panelChanged_keeps (s : State) (p : Panel) (old new : PanelProfile) : Keeps X s (s.panelChanged p old new) := by
  have hgain : Keeps X s (s.panelGained p old new) := by
    unfold State.panelGained; split
    · exact .refl s
    · exact .of_confined (.modPanel ..)
  rw [State.panelChanged_eq s p old new rfl]
  split
  · exact hgain
  · split
    · split
      · exact hgain.trans (.of_confined (.modPanel ..))
      · exact hgain
    · split
      · exact hgain
      · exact hgain.trans (State.panelLost_keeps ..)

theorem State.consoleLost_keeps (s : State) : Keeps X s s.consoleLost := by
  have hmonitor : ∀ v : State, Keeps X v v.monitorLeft := fun v => by
    unfold State.monitorLeft; split
    · exact .of_confined (v.unmonitor_confined _)
    · exact .of_confined (v.unmonitor_confined _)
    · exact .refl v
  have hgone : ∀ v : State, Keeps X v v.consoleGone := fun v => by
    rw [State.consoleGone_eq]
    refine .trans ?_ (.of_confined (.setConsole ..))
    exact ((State.endCalls_keeps _ _ .linkLost).trans (hmonitor _)).trans (State.endPage_keeps ..)
  have hlost : Keeps X s (s.modClu (·.lost)) := .of_confined (.modClu s _)
  exact (hlost.trans (hgone _)).trans (.of_confined (State.post_confined ..))

theorem State.consoleBad_keeps (s : State) : Keeps X s s.consoleBad := by
  unfold State.consoleBad; split
  · exact .refl s
  · exact .of_confined (.modClu ..)
  · split
    · exact .of_confined (.modClu ..)
    · exact .event (State.consoleLost_keeps s)

end

end Sys2Proof.Machine
end

