-- ==== Sys2Proof/Proofs/RequestKeeps.lean ====
section
/-! PROOFS. What the requests, the messages that carry them and the frames of the links keep of the laws of calls, of quiet
timers and of live schedules. -/

namespace Sys2Proof.Machine

open Sys2Proof Sys2Proof.Safety

/-! ## Every riser changed at once -/

/-- Every riser changed in what no law here speaks of, its quiet timer kept right. -/
theorem Confined.mapRisers {X : Riser → Prop} {I : Rec → Prop} {s : State} {f : RiserUnit → RiserUnit}
    (hq : ∀ u : RiserUnit, u.TimerRight → (f u).TimerRight)
    (hs : ∀ u, (f u).state = u.state ∧ (f u).live = u.live ∧ (f u).staged = u.staged) :
    Confined X I s { s with risers := vmap f s.risers } := by
  refine .risers (fun r => ?_) (fun r _ => ?_) fun r k => ?_ <;> rw [vget_vmap]
  · exact hq _
  · obtain ⟨hstate, hlive, -⟩ := hs (s.riser r)
    exact fun h => ⟨hstate ▸ h, hlive⟩
  · obtain ⟨-, -, hstaged⟩ := hs (s.riser r)
    exact .inl (congrArg (vget · k) hstaged)

section
variable {X : Riser → Prop}

/-! ## The settings requests (R188 to R192) -/

theorem doPanelSet_keeps (panel installed gain ring : Byte) (talk : Word) (strike : Byte) (s : State) :
    Keeps X s (doPanelSet panel installed gain ring talk strike s).state := by
  unfold doPanelSet; split
  · exact .refl s
  · dsimp only [settledReply]
    refine .trans (.of_confined (.setSettings s _)) (.event ?_)
    exact State.panelChanged_keeps ..

theorem State.consoleGained_confined {I : Rec → Prop} (s : State) (old new : ConsoleProfile) :
    Confined X I s (s.consoleGained old new) := by
  have hgain : Confined X I s (if new.gain = old.gain then s
      else s.modClu fun c => { c with output := c.output.map fun _ => .fresh new.gain }) := by
    split
    · exact .refl s
    · exact .modClu ..
  unfold State.consoleGained
  dsimp only
  split
  · exact hgain
  · exact hgain.trans (.mapRisers (fun _ => id) fun _ => ⟨rfl, rfl, rfl⟩)

theorem State.raisedAll_confined {I : Rec → Prop} (s : State) (floor : Nat) : Confined X I s (s.raisedAll floor) := by
  have hrisers : Confined X I s { s with risers := (s.raisedAll floor).risers } :=
    .mapRisers (fun _ => id) fun _ => ⟨rfl, rfl, rfl⟩
  exact hrisers.trans (.of_rest rfl rfl rfl rfl)

/-- Written periods stop a quiet timer or leave it. -/
theorem State.periodsWritten_confined {I : Rec → Prop} (s : State) (r : Riser) (m : RiserProfile) :
    Confined X I s (s.modRiser r (·.periodsWritten m)) := by
  refine .modRiser_rest ?_ ?_ ?_ <;> rw [RiserUnit.periodsWritten_fields]
  exact id

/-- A RISER-SET may take its riser out of OFF. -/
theorem doRiserSet_keeps {s : State} (hx : ∀ r, (s.riser r).state = .off → X r) (riser enable quiet reversal mute : Byte) :
    Keeps X s (doRiserSet riser enable quiet reversal mute s).state := by
  unfold doRiserSet; split
  · exact .refl s
  · dsimp only [settledReply]
    refine .trans (.of_confined (.setSettings s _)) (.event ?_)
    split
    · refine .of_confined (.trans (State.periodsWritten_confined ..) (State.enableRiser_confined _ fun ho => hx _ ?_))
      rw [State.riser_modRiser, if_pos rfl, RiserUnit.retimed_eq, RiserUnit.periodsWritten_fields] at ho
      exact ho
    · exact .trans (.of_confined (State.periodsWritten_confined ..)) (State.disableRiser_keeps ..)

/-! ## The operator requests (chapter 6) -/

/-- A record of the Console Queue is WAITING-DESK. -/
theorem RecordLaw.desk_state {s : State} {i : Rec} {c : Call} (h : RecordLaw s i) (hi : i ∈ s.consoleQueue)
    (hc : s.call i = some c) : c.state = .waitingDesk := by
  obtain ⟨d, hd, hs⟩ := (State.stateOf_eq_some (by decide)).mp ((count_eq_ite_iff.mp h.desk).2.mp hi)
  obtain rfl : c = d := Option.some_inj.mp (hc.symm.trans hd)
  exact hs

theorem doAnswerNext_keeps (s : State) : Keeps X s (doAnswerNext s).state := by
  unfold doAnswerNext; split
  · exact .refl s
  · split
    · exact .refl s
    next i _ hq =>
      split
      · exact .refl s
      next c hc =>
        split
        · exact .refl s
        next h _ =>
          split
          · exact .refl s
          next k _ =>
            refine .of_record (s.answerHead_confined rfl c h k) fun hs => State.answerHead_law (hs i) hc ?_ h k
            exact (hs i).desk_state (by rw [hq]; exact List.mem_cons_self ..) hc

theorem doCallFlat_keeps (code : Word) (s : State) : Keeps X s (doCallFlat code s).state := by
  unfold doCallFlat; split
  · exact .refl s
  · split
    · exact .refl s
    · split
      · exact .refl s
      next i hf =>
        exact .settled (State.takeAndSetup_keeps (State.freeRecord_free hf) (.setConsole _ (.talk i)) ⟨rfl, rfl, rfl, rfl⟩ _)

theorem doHangUp_keeps (s : State) : Keeps X s (doHangUp s).state := by
  unfold doHangUp; split
  next i _ =>
    split
    · exact .refl s
    next c _ => exact .event (f := fun s => s.endCall i (hangUpCause c)) (State.endCall_keeps ..)
  · exact .refl s

theorem doClearCall_keeps (record : Byte) (serial : Word) (s : State) : Keeps X s (doClearCall record serial s).state := by
  unfold doClearCall; split
  · exact .refl s
  next i _ _ =>
    split
    · exact .refl s
    · exact .event (f := fun s => s.endCall i .cleared) (State.endCall_keeps ..)

theorem leaveRecord_keeps (i : Rec) (s : State) : Keeps X s (leaveRecord i s).state := by
  unfold leaveRecord; split
  · exact .of_confined ((s.unmonitor_confined i).trans (.setConsole ..))
  · exact .refl s

theorem doPageStart_keeps (g : Byte) (s : State) : Keeps X s (doPageStart g s).state := by
  unfold doPageStart; split
  · exact .refl s
  · split
    · exact .refl s
    · split
      · exact .refl s
      · dsimp only; split
        · refine .trans (s.pagePlanned_keeps g.toNat (s.candidates g.toNat)) (.of_confined ?_)
          refine .trans (.trans (.trans ?_ (.setPage ..)) (.setConsole ..)) (State.post_confined ..)
          exact .foldl (fun h _ s => State.pageOn_confined _ s h) _
        · exact .refl s

theorem doPageEnd_keeps (s : State) : Keeps X s (doPageEnd s).state := by
  unfold doPageEnd; split
  · split
    · exact .event (f := fun s => s.endPage .pageEnd) (State.endPage_keeps ..)
    · exact .refl s
  · exact .refl s

/-! ## Every request -/

/-- A request that works for no record, no riser and no queue. -/
theorem Keeps.of_rest {s t : State} (hc : t.calls = s.calls) (hw : t.waitQueue = s.waitQueue)
    (hd : t.consoleQueue = s.consoleQueue) (hr : t.risers = s.risers) : Keeps X s t := .of_confined (.of_rest hc hw hd hr)

/-- Every request keeps the laws; a RISER-SET alone takes a riser out of OFF. -/
theorem Request.run_keeps {s : State} (hx : ∀ r, (s.riser r).state = .off → X r) (q : Request) : Keeps X s (q.run s).state := by
  cases q with
  | read table riser start count =>
    simp only [Request.run, doRead]
    split
    · exact .refl s
    · exact iteInduction (motive := fun t => Keeps X s t) (fun _ => .of_rest rfl rfl rfl rfl) fun _ => .refl s
  | status part =>
    simp only [Request.run, doStatus]
    split
    · exact .refl s
    · exact iteInduction (motive := fun t => Keeps X s t) (fun _ => .of_rest rfl rfl rfl rfl) fun _ => .refl s
  | writeEntries head items =>
    simp only [Request.run, doWriteEntries]
    split
    · exact .refl s
    · split
      · exact .refl s
      · split
        · exact .refl s
        · exact .of_rest rfl rfl rfl rfl
  | clearCounters page =>
    simp only [Request.run, doClearCounters]
    split
    · exact .refl s
    · split
      · exact .refl s
      · exact .of_rest rfl rfl rfl rfl
  | protect mask =>
    simp only [Request.run, doProtect]
    split
    · exact .refl s
    · split
      · exact .refl s
      · exact .of_rest rfl rfl rfl rfl
  | panelSet panel installed gain ring talk strike => exact doPanelSet_keeps ..
  | consoleSet gain pageGain ring talk queue page wait =>
    exact .of_confined (.trans (.setSettings s _) (State.consoleGained_confined ..))
  | riserSet riser enable quiet reversal mute => exact doRiserSet_keeps hx ..
  | mixSet clip floor => exact .of_confined (.trans (.setSettings s _) (State.raisedAll_confined ..))
  | serviceEnter => exact .of_rest rfl rfl rfl rfl
  | serviceLeave => exact .of_rest rfl rfl rfl rfl
  | toneWrite wave start level samples =>
    simp only [Request.run, doToneWrite]
    split
    · exact .refl s
    · split
      · exact .refl s
      · split
        · exact .refl s
        · exact .of_rest rfl rfl rfl rfl
  | store unit =>
    simp only [Request.run, doStore]
    split
    · exact .refl s
    · split
      · exact .refl s
      · exact .of_rest rfl rfl rfl rfl
  | answerNext => exact doAnswerNext_keeps s
  | callFlat code => exact doCallFlat_keeps code s
  | hangUp => exact doHangUp_keeps s
  | listen record serial =>
    simp only [Request.run, doListen]
    split
    · exact .refl s
    next h => exact .of_confined (State.monitored_confined (State.mayMonitor_call h) ..)
  | barge record serial =>
    simp only [Request.run, doBarge]
    split
    · exact .refl s
    next h => exact .of_confined (State.monitored_confined (State.mayMonitor_call h) ..)
  | leave =>
    simp only [Request.run, doLeave]
    split
    · exact leaveRecord_keeps ..
    · exact leaveRecord_keeps ..
    · exact .refl s
  | clearCall record serial => exact doClearCall_keeps ..
  | pageStart group => exact doPageStart_keeps group s
  | pageEnd => exact doPageEnd_keeps s

/-! ## Messages (R174 to R179) -/

theorem State.reply_keeps (s : State) (x : Reply) : Keeps X s (s.reply x) := .of_confined (.modClu s _)

theorem State.execute_keeps {s : State} (hx : ∀ r, (s.riser r).state = .off → X r) (tag : Byte) (q : Request) :
    Keeps X s (s.execute tag q) := (q.run_keeps hx).trans (State.reply_keeps ..)

theorem State.refuseMessage_keeps (s : State) (tag : Byte) (reason : Reason) : Keeps X s (s.refuseMessage tag reason) :=
  s.reply_keeps _

theorem State.examine_keeps {s : State} (hx : ∀ r, (s.riser r).state = .off → X r) (m : MessageParts) :
    Keeps X s (s.examine m) := by
  unfold State.examine; split
  · split
    · split
      · exact State.refuseMessage_keeps ..
      · exact State.refuseMessage_keeps ..
      · exact State.execute_keeps hx ..
    · exact State.refuseMessage_keeps ..
  · exact .refl s

theorem State.atReceiver_keeps {s : State} {f : State → State} (h : Keeps X s.messageArrived (f s.messageArrived)) :
    Keeps X s (s.atReceiver f) := by
  unfold State.atReceiver
  refine .whenRunning (f := fun s => if s.clu.link.state = .up then f s.messageArrived else s) ?_
  split
  · exact .trans (.of_confined (.modClu s _)) h
  · exact .refl s

theorem State.request_keeps {s : State} (hx : ∀ r, (s.riser r).state = .off → X r) (tag : Byte) (q : Request) :
    Keeps X s (s.request tag q) := by
  refine State.atReceiver_keeps ?_
  split
  · exact State.execute_keeps (s := s.messageArrived) hx tag q
  · exact .refl _

theorem State.appended_keeps {s : State} (hx : ∀ r, (s.riser r).state = .off → X r) (b : Byte) : Keeps X s (s.appended b) := by
  unfold State.appended; dsimp only
  split
  · split
    · have hskip : Keeps X s (s.modClu fun c => { c with receiver := .skipping, buffer := [] }) := .of_confined (.modClu s _)
      split
      · exact hskip.trans (State.refuseMessage_keeps ..)
      · exact hskip
    · exact .of_confined (.modClu ..)
  · split
    · have harrived : Keeps X s s.messageArrived := .of_confined (.modClu s _)
      exact harrived.trans (State.examine_keeps (s := s.messageArrived) hx _)
    · exact .of_confined (.modClu ..)

theorem State.controlField_keeps {s : State} (hx : ∀ r, (s.riser r).state = .off → X r) (flags b : Byte) :
    Keeps X s (s.controlField flags b) := by
  unfold State.controlField State.controlByte
  split
  · split
    · exact .of_confined (.modClu ..)
    · split
      · exact State.appended_keeps hx b
      · exact .refl s
  · exact .refl s

/-! ## Frames of the links -/

theorem State.consoleUp_confined {I : Rec → Prop} (s : State) : Confined X I s s.consoleUp := by
  have hstartup : ∀ v : State, Confined X I v v.postStartup := fun v => by
    unfold State.postStartup; split
    · exact .of_rest rfl rfl rfl rfl
    · exact .refl v
  exact .trans (.trans (.modClu ..) (State.post_confined ..)) (hstartup _)

theorem State.consoleGood_keeps {s : State} (hx : ∀ r, (s.riser r).state = .off → X r) (f : ConsoleFrame) :
    Keeps X s (s.consoleGood f) := by
  unfold State.consoleGood; split
  · exact .refl s
  · split
    · exact .of_confined (.modClu ..)
    · exact .of_confined s.consoleUp_confined
  · have hframe : Keeps X s (s.modClu fun c => { c with
        link := { c.link with bad := 0 }, fifo := c.fifo.arrived (sampleFrom f.sample) }) := .of_confined (.modClu s _)
    exact hframe.trans (State.controlField_keeps (s := s.modClu _) hx ..)

theorem State.panelControl_keeps (s : State) (p : Panel) (code : Byte) (param : Word) :
    Keeps X s (s.panelControl p code param) := by
  unfold State.panelControl; split
  · exact .event (f := fun s => s.panelCall p param.toNat) (State.panelCall_keeps ..)
  · split
    · exact .event (f := fun s => s.panelCancel p) (State.panelCancel_keeps ..)
    · exact .refl s

theorem State.panelGood_keeps (s : State) (p : Panel) (f : PanelFrame) : Keeps X s (s.panelGood p f) := by
  unfold State.panelGood; split
  · exact .refl s
  · split
    · exact .of_confined (.modPanel ..)
    · exact .of_confined (.trans (.modPanel ..) (State.post_confined ..))
  · exact .trans (.of_confined (.modPanel s p _)) (State.panelControl_keeps ..)

end

end Sys2Proof.Machine
end

