-- ==== Sys2Proof/Proofs/StepKeeps.lean ====
section
/-! PROOFS. What every command and every step keep: the laws of the calls (R33, R34, R41, R119), of the quiet timers (R53, R92)
and of the live schedules (R35, R49, R52). -/

namespace Sys2Proof.Machine

open Sys2Proof Sys2Proof.Safety

section
variable {X : Riser → Prop}

/-! ## Power, reset and start-up -/

/-- A quiescent part is lawful, and its risers are OFF. -/
theorem QuietBlocks.keeps {s t : State} (h : QuietBlocks s t) : Keeps X s t where
  calls _ := (quietBlocks_laws h).1
  calm _ := (quietBlocks_laws h).2.1
  live r _ hr := absurd (by rw [h.risers]; rfl) hr

theorem State.quiesced_keeps (s : State) : Keeps X s s.quiesced :=
  (quietBlocks_quiesced s s.power s.resetLine s.stage s.lockHeld s.powerLost []).keeps

theorem State.loaded_confined {I : Rec → Prop} (s : State) (u : UnitIx) : Confined X I s (s.loaded u) := by
  unfold State.loaded; dsimp only
  split_ifs <;> exact .of_rest rfl rfl rfl rfl

/-- The end of start-up enables risers. -/
theorem State.started_confined {I : Rec → Prop} (hx : ∀ r, X r) (s : State) : Confined X I s s.started := by
  have hriser : ∀ (v : State) (r : Riser), Confined X I v (v.startRiser r) := fun v r => by
    unfold State.startRiser; split
    · exact v.enableRiser_confined fun _ => hx r
    · exact .refl v
  have hpanel : ∀ (v : State) (p : Panel), Confined X I v (v.startPanel p) := fun v p => by
    unfold State.startPanel; split
    · exact .modPanel ..
    · exact .refl v
  unfold State.started
  refine .trans (.trans ?_ (.foldl (fun p _ v => hpanel v p) _)) (.modClu ..)
  refine .trans ?_ (.foldl (fun r _ v => hriser v r) _)
  exact .of_rest rfl rfl rfl rfl

/-! ## The passing of time -/

theorem Call.standing_ticked (c : Call) : c.ticked.standing = c.standing := rfl

theorem RiserUnit.timerRight_ticked {u : RiserUnit} (h : u.TimerRight) : u.ticked.TimerRight := fun hn =>
  h fun hs => hn (by rw [RiserUnit.ticked, hs]; rfl)

theorem State.tick_keeps (s : State) : Keeps X s s.tick := by
  have hcalls : Confined X (fun _ => False) s { s with calls := vmap (Option.map Call.ticked) s.calls } :=
    .mapCalls Call.standing_ticked
  have hrisers : Confined X (fun _ => False) s { s with
      calls := vmap (Option.map Call.ticked) s.calls, risers := vmap RiserUnit.ticked s.risers } :=
    hcalls.trans (.mapRisers (fun _ => RiserUnit.timerRight_ticked) fun _ => ⟨rfl, rfl, rfl⟩)
  exact .whenRunning (f := fun s => { s with
    calls := vmap (Option.map Call.ticked) s.calls
    page := s.page.map fun p => { p with timer := p.timer.tick }
    risers := vmap RiserUnit.ticked s.risers
    panels := vmap PanelUnit.ticked s.panels }) (.of_confined (hrisers.trans (.of_rest rfl rfl rfl rfl)))

/-! ## The frame boundary (R35, R90, R95) -/

theorem State.copied_confined {I : Rec → Prop} {r : Riser} (hr : X r) (s : State) (voice : List (Addr × Sample)) :
    Confined X I s (s.copied r voice) := .modRiser (fun hn => absurd hr hn) fun _ => .inl rfl

theorem State.boundaryState_confined {I : Rec → Prop} {r : Riser} (hr : X r) (s : State) :
    Confined X I s (s.boundaryState r) := by
  unfold State.boundaryState; split
  · split
    · exact .modRiser (fun hn => absurd hr hn) fun _ => .inl rfl
    · exact .refl s
  · dsimp only; split
    · exact (s.riserOff_confined r _).trans (State.enableRiser_confined _ fun _ => hr)
    · exact s.riserOff_confined r _
  · exact .refl s

/-- A riser changed in what its schedules, its state and its quiet timer do not depend on. -/
theorem Confined.setRiser_rest {I : Rec → Prop} {s : State} {r : Riser} {v : RiserUnit} (hq : (s.riser r).TimerRight → v.TimerRight)
    (ho : v.state = (s.riser r).state) (hl : v.live = (s.riser r).live) (hs : v.staged = (s.riser r).staged) :
    Confined X I s (s.setRiser r v) :=
  .setRiser hq (fun _ h => ⟨ho ▸ h, hl⟩) fun k => .inl (congrArg (vget · k) hs)

theorem State.mixSlot_confined {I : Rec → Prop} (r : Riser) (s : State) (k : Slot) : Confined X I s (State.mixSlot r s k) := by
  have hnotice : ∀ (v : State) (n : Option Notice), Confined X I v (v.setNotice n) := fun _ _ => .of_rest rfl rfl rfl rfl
  unfold State.mixSlot; dsimp only
  split
  · exact .setRiser_rest id rfl rfl rfl
  · split
    · refine .trans ?_ (hnotice _ _)
      exact .setRiser_rest id rfl rfl rfl
    · exact .setRiser_rest id rfl rfl rfl

theorem execRiserFrameBoundary_keeps {r : Riser} (hr : X r) (voice : List (Addr × Sample)) {s t : State}
    (h : execRiserFrameBoundary r voice s = .next t) : Keeps X s t := by
  have hcounted : ∀ (v : State) (m : RiserProfile), Keeps X v (v.modRiser r fun u => (u.reversalCounted m).muted) :=
    fun v m => by
      refine .of_confined (.modRiser_rest ?_ ?_ ?_) <;> rw [RiserUnit.muted_fields, RiserUnit.reversalCounted_fields]
      exact id
  have hmixed : ∀ (l : List Slot) (v : State), Keeps X v (l.foldl (State.mixSlot r) v) := fun l v =>
    .foldl (fun v k => .of_confined (State.mixSlot_confined r v k)) l v
  have hevent : Keeps X s (s.event fun s => ((s.copied r voice).testClearing).boundaryState r) :=
    .event (f := fun s => ((s.copied r voice).testClearing).boundaryState r)
      (.of_confined (.trans ((s.copied_confined hr voice).trans (State.testClearing_confined _))
        (State.boundaryState_confined hr _)))
  cases h
  refine .whenRunning ?_
  dsimp only; split
  · exact (hevent.trans (hcounted _ _)).trans (hmixed allSlots _)
  · exact .refl s

/-! ## The other riser events -/

theorem RiserUnit.selected_fields (u : RiserUnit) : u.selected = { u with
    queue := u.selected.queue, sent := u.selected.sent, orderWord := u.selected.orderWord
    pollPointer := u.selected.pollPointer } := by
  unfold RiserUnit.selected
  split
  · rfl
  · split <;> rfl

/-- An event of a riser that leaves its schedules, taken or not. -/
theorem execRiser_keeps {s : State} {r : Riser} {f : RiserUnit → RiserUnit} {p : Prop} [Decidable p]
    (h : Confined X (fun _ => False) s (s.modRiser r f)) : Keeps X s (if p then s.modRiser r f else s) := by
  split
  · exact .of_confined h
  · exact .refl s

/-- The expiry of a timer of a call, taken or not. -/
theorem expiry_keeps {s : State} {i : Rec} {p : Call → Prop} [∀ c, Decidable (p c)] {cause : EndCause} :
    Keeps X s (match s.call i with
      | some c => if p c then s.event fun s => s.endCall i cause else s
      | none => s) := by
  split
  · split
    · exact .event (f := fun s => s.endCall i cause) (State.endCall_keeps ..)
    · exact .refl s
  · exact .refl s

end

/-! ## Every command -/

/-- The risers whose live schedules a command may change: every one while the part does not run, one that is OFF, and the one of
whose lines it is a frame boundary. -/
def Disturbed (c : Instr) (s : State) (r : Riser) : Prop :=
  s.stage ≠ .running ∨ (s.riser r).state = .off ∨ ∃ voice, c = .riserFrameBoundary r voice

/-- Every command keeps the laws. -/
theorem exec_keeps (c : Instr) (s t : State) (h : exec c s = .next t) : Keeps (Disturbed c s) s t := by
  have hoff : ∀ r, (s.riser r).state = .off → Disturbed c s r := fun r ho => .inr (.inl ho)
  cases c with
  | powerOn =>
    cases h
    refine .trans s.quiesced_keeps ?_
    exact iteInduction (motive := fun t => Keeps _ _ t) (fun _ => .of_rest rfl rfl rfl rfl) fun _ => .of_rest rfl rfl rfl rfl
  | powerLoss =>
    cases h
    exact s.quiesced_keeps.trans (.of_rest rfl rfl rfl rfl)
  | resetAssert =>
    cases h
    refine iteInduction (motive := fun t => Keeps _ s t) (fun _ => ?_) fun _ => .of_rest rfl rfl rfl rfl
    exact s.quiesced_keeps.trans (.of_rest rfl rfl rfl rfl)
  | resetRelease =>
    cases h
    exact iteInduction (motive := fun t => Keeps _ s t) (fun _ => .of_rest rfl rfl rfl rfl) fun _ => .of_rest rfl rfl rfl rfl
  | unitLoaded =>
    cases h
    split
    next u hs =>
      have hall : ∀ r, Disturbed .unitLoaded s r := fun r => .inl (by rw [hs]; nofun)
      have hloaded : Keeps (Disturbed .unitLoaded s) s (s.loaded u) := .of_confined (s.loaded_confined u)
      split
      · exact hloaded.trans (.of_rest rfl rfl rfl rfl)
      · exact hloaded.trans (.event (.of_confined (State.started_confined hall _)))
    · exact .refl s
  | lockChange asserted =>
    cases h
    split
    · exact .of_rest rfl rfl rfl rfl
    · exact .of_rest rfl rfl rfl rfl
  | wakePulse r =>
    cases h
    refine .whenRunning (f := fun s => if (s.riser r).state = .quiet then s.modRiser r (·.woken) else s) ?_
    split
    next hs =>
      refine .of_confined (.modRiser_rest (fun _ ho => nomatch hs.symm.trans ho) ?_ ?_) <;> rw [woken_fields]
    · exact .refl s
  | orderSelection r =>
    cases h
    refine .whenRunning (execRiser_keeps (.modRiser_rest ?_ ?_ ?_)) <;> rw [RiserUnit.selected_fields]
    exact id
  | answerArrival r word =>
    cases h
    refine .whenRunning ?_
    split
    · exact .refl s
    · split
      · exact State.hit_keeps ..
      · exact State.miss_keeps ..
  | riserFrameBoundary r voice => exact execRiserFrameBoundary_keeps (.inr (.inr ⟨voice, rfl⟩)) voice h
  | reversalPhaseEnd r =>
    cases h
    refine .whenRunning (execRiser_keeps (.modRiser_rest ?_ ?_ ?_)) <;> split_ifs
    · exact id
    · rw [RiserUnit.muted_fields, RiserUnit.phaseEnded_fields]; exact id
    · exact id
    · rfl
    · rw [RiserUnit.muted_fields, RiserUnit.phaseEnded_fields]
    · rfl
    · rfl
    · rw [RiserUnit.muted_fields, RiserUnit.phaseEnded_fields]
    · rfl
  | reversalTimerExpiry r => cases h; exact .whenRunning (execRiser_keeps (.modRiser_rest id rfl rfl))
  | quietTimerExpiry r =>
    cases h
    exact .whenRunning (execRiser_keeps (.modRiser (fun hn _ => ⟨fun ho => hn (hoff r ho), rfl⟩) fun _ => .inl rfl))
  | wakeTimerExpiry r => cases h; exact .whenRunning (execRiser_keeps (.modRiser_rest id rfl rfl))
  | ringTimerExpiry i => cases h; exact .whenRunning expiry_keeps
  | talkTimerExpiry i => cases h; exact .whenRunning expiry_keeps
  | waitTimerExpiry i => cases h; exact .whenRunning expiry_keeps
  | queueTimeoutExpiry i => cases h; exact .whenRunning expiry_keeps
  | strikeTimerExpiry i =>
    cases h
    refine .whenRunning ?_
    split
    next c hc =>
      split
      · exact .of_confined (.setCall_same (c := c) hc rfl)
      · exact .refl s
    · exact .refl s
  | pageTimerExpiry =>
    cases h
    refine .whenRunning ?_
    split
    · split
      · exact .event (f := fun s => s.endPage .timeout) (State.endPage_keeps ..)
      · exact .refl s
    · exact .refl s
  | endToneExpiry p => cases h; exact .whenRunning (.of_confined (.modPanel ..))
  | storeCompletion =>
    cases h
    refine .whenRunning ?_
    split
    · exact .of_rest rfl rfl rfl rfl
    · exact .refl s
  | windowEnd o =>
    cases h
    refine .whenRunning ?_
    split
    · exact .of_confined (.setRiser_rest id rfl rfl rfl)
    · exact .of_confined (.modPanel ..)
    · exact .of_confined (.modClu ..)
  | noticeEnd =>
    cases h
    refine .whenRunning ?_
    split
    · split
      · exact .of_rest rfl rfl rfl rfl
      · exact .refl s
    · exact .refl s
  | panelFrameArrival p frame =>
    cases h
    refine .whenRunning ?_
    split
    · exact State.panelGood_keeps ..
    · split
      · exact State.panelBad_keeps ..
      · exact .refl s
  | panelWindowClose p =>
    cases h
    refine .whenRunning ?_
    split
    · exact State.panelBad_keeps ..
    · exact .refl s
  | panelTransmitBoundary p =>
    cases h
    refine .whenRunning ?_
    dsimp only; split
    · exact .refl s
    · exact .of_confined (.modPanel ..)
    · exact .of_rest rfl rfl rfl rfl
  | consoleFrameArrival frame =>
    cases h
    refine .whenRunning ?_
    split
    · exact State.consoleGood_keeps hoff _
    · split
      · exact State.consoleBad_keeps ..
      · exact .refl s
  | consoleWindowClose =>
    cases h
    refine .whenRunning ?_
    split
    · exact State.consoleBad_keeps ..
    · exact .refl s
  | consoleTransmitBoundary =>
    cases h
    refine .whenRunning ?_
    dsimp only; split
    · exact .refl s
    · exact .of_confined (.modClu ..)
    · exact .of_rest rfl rfl rfl rfl
  | invalidMessage message =>
    cases h
    split
    · exact State.atReceiver_keeps (f := fun s => s.examine _) (State.examine_keeps (s := s.messageArrived) hoff _)
    · exact .refl s
  | read | status | writeEntries | clearCounters | protect | panelSet | consoleSet | riserSet | mixSet | serviceEnter
  | serviceLeave | toneWrite | store | answerNext | callFlat | hangUp | listen | barge | leave | clearCall | pageStart
  | pageEnd => cases h; exact State.request_keeps hoff ..

/-! ## Every step -/

theorem Keeps.mono {X Y : Riser → Prop} {s t : State} (h : Keeps X s t) (hxy : ∀ r, X r → Y r) : Keeps Y s t :=
  ⟨h.calls, h.calm, fun r hn => h.live r (hn ∘ hxy r)⟩

/-- A frame period that passes disturbs no live schedule, and a command those of its risers. -/
theorem step_keeps {s t : State} (h : step s = .next t) :
    Keeps (fun r => ∃ c, s.pending.head? = some c ∧ Disturbed c s r) s t := by
  unfold step at h
  split at h
  next c rest hp =>
    refine .trans (.of_rest (t := { s with pending := rest }) rfl rfl rfl rfl) ?_
    exact (exec_keeps c _ t h).mono fun r hd => ⟨c, by rw [hp]; rfl, hd⟩
  · cases h; exact s.tick_keeps

/-- Settles O55, through what each operation keeps of the records it does not work for, and the law of the one it does. -/
theorem stepsKeepCallsConsistent : Obligations.StepsKeepCallsConsistent := fun _ _ hs h => (step_keeps h).calls hs

/-- Settles O57, through what each command keeps. -/
theorem stepsKeepQuietTimersCalm : Obligations.StepsKeepQuietTimersCalm := fun _ _ hs h => (step_keeps h).calm hs

/-- Settles O60, through what each command keeps: of a running part it disturbs the risers that are OFF and its own. -/
theorem liveSchedulesChangeAtTheirBoundaries : Obligations.LiveSchedulesChangeAtTheirBoundaries := by
  intro s t r h hrun _ hown hs ht
  refine ((step_keeps h).live r ?_ ht).2
  rintro ⟨c, hc, hstage | hoff | ⟨voice, rfl⟩⟩
  · exact hstage hrun
  · exact hs hoff
  · exact hown voice hc

end Sys2Proof.Machine
end

