-- ==== Sys2Proof/Proofs/PageOver.lean ====
section
/-! PROOFS. The end of the page as the page timer and PAGE-END give it, and the slots it returns (R133, R138, R141, R142). -/

namespace Sys2Proof.Machine

open Sys2Proof Sys2Proof.Safety

/-! ## The slots of the page's risers, one by one -/

/-- What no step over a list changes is as it was. -/
theorem State.foldl_unchanged {α β : Type} {f : State → α → State} {g : State → β} {l : List α}
    (h : ∀ x ∈ l, ∀ s, g (f s x) = g s) (s : State) : g (l.foldl f s) = g s := by
  induction l generalizing s with
  | nil => rfl
  | cons x l ih =>
    exact (ih (fun y hy => h y (List.mem_cons_of_mem _ hy)) _).trans (h x (List.mem_cons_self ..) s)

theorem State.returnSlot_queue (p : PageRecord) (s : State) (r r' : Riser) :
    ((State.returnSlot p s r).riser r').queue = (s.riser r').queue := by
  rcases s.returnSlot_cases p r with ⟨-, hr⟩ | ⟨v, -, -, hr⟩ | ⟨v, i, c, -, -, hr⟩ <;> rw [hr]
  · exact (s.edit_slots r v.slot .idle).queue r'
  · rw [State.lentBack_state]; exact (s.edit_slots r v.slot (.carrying i)).queue r'

/-- Only the slot of a served riser is edited. -/
theorem State.returnSlot_staged {p : PageRecord} {r : Riser} {k : Slot} (h : ∀ v, vget p.served r = some v → v.slot ≠ k)
    (s : State) (r' : Riser) : vget ((State.returnSlot p s r').riser r).staged k = vget (s.riser r).staged k := by
  have hedit : ∀ v, vget p.served r' = some v → ∀ e, vget ((s.edit r' v.slot e).riser r).staged k = vget (s.riser r).staged k :=
    fun v hv e => by
      rw [State.edit_staged, if_neg]
      rintro ⟨rfl, hk⟩
      exact h v hv hk
  rcases s.returnSlot_cases p r' with ⟨-, hr⟩ | ⟨v, hv, -, hr⟩ | ⟨v, i, c, hv, -, hr⟩ <;> rw [hr]
  · exact hedit v hv _
  · rw [State.lentBack_state]; exact hedit v hv _

/-- A call that may have a slot back once another is returned could have it before: the return makes no call HELD. -/
theorem mayReturn_of_returnSlot {p : PageRecord} {s : State} {r : Riser} {v : Served} {i : Rec} {c : Call}
    (h : MayReturn (State.returnSlot p s r) v i c) : MayReturn s v i c := by
  obtain ⟨hlender, hc, hs⟩ := h
  refine ⟨hlender, ?_, hs⟩
  rcases s.returnSlot_cases p r with ⟨-, hr⟩ | ⟨w, -, -, hr⟩ | ⟨w, j, d, -, -, hr⟩ <;> rw [hr] at hc
  · exact hc
  · exact ((s.edit_slots r w.slot .idle).call i).symm.trans hc
  · by_cases hij : j = i
    · subst hij
      obtain rfl := Option.some_inj.mp (State.lentBack_slot.2.symm.trans hc)
      cases hs
    · rw [State.lentBack_state] at hc
      exact (vget_vset_ne _ hij _).symm.trans hc

/-- A slot with no lender that may have it back is released at the page's end. -/
theorem State.returnSlots_released {p : PageRecord} {r : Riser} {v : Served} (hv : vget p.served r = some v) {l : List Riser}
    (hl : l.Nodup) (hr : r ∈ l) {s : State} (hno : ∀ i c, ¬ MayReturn s v i c) :
    vget ((l.foldl (State.returnSlot p) s).riser r).staged v.slot = .idle := by
  induction l generalizing s with
  | nil => exact absurd hr List.not_mem_nil
  | cons x l ih =>
    obtain ⟨hx, hl⟩ := List.nodup_cons.mp hl
    rw [List.foldl_cons]
    by_cases hxr : x = r
    · subst hxr
      rw [State.foldl_unchanged (g := fun s => s.riser x) fun y hy s => State.returnSlot_other p s fun h => hx (h ▸ hy)]
      rcases s.returnSlot_cases p x with ⟨hnone, -⟩ | ⟨w, hw, -, hr⟩ | ⟨w, i, c, hw, hreturn, -⟩
      · rw [hv] at hnone; cases hnone
      · obtain rfl := Option.some_inj.mp (hv.symm.trans hw)
        rw [hr, State.edit_staged, if_pos ⟨rfl, rfl⟩]
      · obtain rfl := Option.some_inj.mp (hv.symm.trans hw)
        exact absurd hreturn (hno i c)
    · exact ih hl ((List.mem_cons.mp hr).resolve_left (Ne.symm hxr)) fun i c h => hno i c (mayReturn_of_returnSlot h)

/-! ## The page returned -/

theorem State.pageReturned_released {s : State} {p : PageRecord} {r : Riser} {v : Served} (hv : vget p.served r = some v)
    (hno : ∀ i c, ¬ MayReturn s v i c) : vget ((s.pageReturned p).riser r).staged v.slot = .idle := by
  refine State.returnSlots_released hv (List.nodup_finRange 8) (List.mem_finRange r) fun i c h => ?_
  obtain ⟨hlender, hc, hs⟩ := h
  exact hno i c ⟨hlender, ((s.pagedOff_orders p).call i).symm.trans hc, hs⟩

section
variable (s : State) (p : PageRecord)

theorem State.pageReturned_members {h : Handset} (hm : h ∈ p.members) (ht : TakesOrders s h) :
    HasOrder (s.pageReturned p) h .pageOff := by
  unfold HasOrder State.pageReturned
  rw [State.foldl_unchanged (g := fun s => (s.riser h.riser).queue) fun r _ s => State.returnSlot_queue p s r h.riser]
  exact State.hasOrder_foldl_same id .pageOff hm ht

theorem State.pageReturned_others {i : Rec} (h : ∀ r v, vget p.served r = some v → v.lender.map Prod.fst ≠ some i) :
    (s.pageReturned p).call i = s.call i :=
  (State.foldl_unchanged (g := fun s => s.call i) (fun r _ s => State.returnSlot_lender p s r (h r)) _).trans
    ((s.pagedOff_orders p).call i)

theorem State.pageReturned_slots {r : Riser} {k : Slot} (h : ∀ v, vget p.served r = some v → v.slot ≠ k) :
    vget ((s.pageReturned p).riser r).staged k = vget (s.riser r).staged k :=
  (State.foldl_unchanged (g := fun s => vget (s.riser r).staged k) (fun r' _ s => State.returnSlot_staged h s r') _).trans
    (congrArg (vget · k) ((s.pagedOff_orders p).staged r))

end

/-! ## The end of the page (R141) -/

theorem State.endPage_over {s : State} {p : PageRecord} (h : s.page = some p) (cause : PageCause) :
    PageOver s (s.endPage cause) p := by
  have hreleased := fun r v (hv : vget p.served r = some v) => State.pageReturned_released (s := s) hv
  have hrestored := fun r v i c (hv : vget p.served r = some v) (hreturn : MayReturn s v i c) =>
    State.pageReturned_lender hv hreturn
  have hmembers := fun x (hx : x ∈ p.members) => s.pageReturned_members p hx
  have hothers := fun i => s.pageReturned_others p (i := i)
  have hslots := fun r k => s.pageReturned_slots p (r := r) (k := k)
  have hstate := (s.pageReturned_returned p).state
  rw [State.endPage_some h]
  generalize s.pageReturned p = t at hreleased hrestored hmembers hothers hslots hstate ⊢
  exact ⟨rfl, rfl, hreleased, hrestored, hmembers, hothers, hslots, by rw [hstate]; rfl⟩

theorem State.endPage_posts {s : State} {p : PageRecord} (h : s.page = some p) (cause : PageCause) :
    (s.endPage cause).clu.reports.getLast? = some (.pageEnded p.group cause) := by
  rw [State.endPage_some h]
  exact ConsoleUnit.posted_getLast ..

/-- Settles O52: both the timer and the request are the event of the page's end, which the scan follows. -/
theorem aPageEndReturnsItsSlots : Obligations.APageEndReturnsItsSlots := by
  refine ⟨fun s p n hrun hp ht => ⟨s.endPage .timeout, ?_, State.endPage_over hp _, State.endPage_posts hp _⟩,
    fun s tag p ha hs hp => ?_, fun s tag ha hs => ?_⟩
  · refine congrArg Host.Outcome.next ((State.whenRunning_running hrun _).trans ?_)
    simp only [hp, ht, Timer.isRunning, if_true]
    rfl
  · have hpage : s.messageArrived.page = some p := hp
    have hover := State.endPage_over hpage .pageEnd
    have htouch := s.messageArrived.endPage_touch .pageEnd
    refine ⟨s.messageArrived.endPage .pageEnd, ?_, { hover with }, State.endPage_posts hpage _, ?_, ?_, htouch.replies⟩
    · refine congrArg Host.Outcome.next ((State.request_finished ha (t := State.settled s _) ?_).trans rfl)
      have hconsole : s.messageArrived.console = .paging := hs
      rw [Request.run, doPageEnd, hconsole, hpage]
      rfl
    · rw [htouch.clu]; rfl
    · rw [htouch.clu]; rfl
  · refine congrArg Host.Outcome.next (State.request_refused ha ?_)
    have hconsole : s.messageArrived.console ≠ .paging := hs
    rw [Request.run, doPageEnd]
    split
    next h => exact absurd h hconsole
    · rfl

end Sys2Proof.Machine
end

