-- ==== Sys2Proof/Proofs/GuardedPages.lean ====
section
/-! PROOFS. What every command of the running part keeps of the pages of the Directory: one relation, `EntriesKept`, which the
Call Controller's steps give by their frames, and of which only WRITE-ENTRIES asks for the guard (R63, R72). -/

namespace Sys2Proof.Machine

open Sys2Proof Sys2Proof.Safety

/-! ## EntriesKept -/

/-- From `s` to `t` the entries of page p keep every field but their call counters. -/
def EntriesKept (p : PageIx) (s t : State) : Prop := SameButCounters (t.dirPage p) (s.dirPage p)

section
variable {p : PageIx} {s t u : State}

namespace EntriesKept

theorem refl (s : State) : EntriesKept p s s := Eq.refl (zeroCounters (s.dirPage p))

theorem trans (h : EntriesKept p s t) (g : EntriesKept p t u) : EntriesKept p s u := Eq.trans g h

theorem of_directory (h : t.directory = s.directory) : EntriesKept p s t :=
  congrArg (fun d => zeroCounters (vget d p)) h

theorem of_touch (h : CallTouch s t) : EntriesKept p s t := h.directory p

/-- Steps taken one after another over a list. -/
theorem foldl {α : Type} {f : State → α → State} (h : ∀ s x, EntriesKept p s (f s x)) (l : List α) (s : State) :
    EntriesKept p s (l.foldl f s) := by
  induction l generalizing s with
  | nil => exact refl s
  | cons x l ih => exact (h s x).trans (ih _)

/-- The scan that an event may start adds no change. -/
theorem event {f : State → State} (h : EntriesKept p s (f s)) : EntriesKept p s (s.event f) :=
  h.trans (of_touch (State.settled_touch s (f s)))

theorem whenRunning {f : State → State} (h : EntriesKept p s (f s)) : EntriesKept p s (s.whenRunning f) := by
  unfold State.whenRunning; split
  · exact h
  · exact refl s

theorem setRiser (r : Riser) (u : RiserUnit) : EntriesKept p s (s.setRiser r u) := of_directory rfl
theorem modRiser (r : Riser) (f : RiserUnit → RiserUnit) : EntriesKept p s (s.modRiser r f) := of_directory rfl
theorem modPanel (q : Panel) (f : PanelUnit → PanelUnit) : EntriesKept p s (s.modPanel q f) := of_directory rfl
theorem modClu (f : ConsoleUnit → ConsoleUnit) : EntriesKept p s (s.modClu f) := of_directory rfl
theorem setSettings (c : Settings) : EntriesKept p s (s.setSettings c) := of_directory rfl

/-- A change made under a condition. -/
theorem ite {c : Prop} [Decidable c] (h : EntriesKept p s t) : EntriesKept p s (if c then t else s) := by
  split
  · exact h
  · exact refl s

end EntriesKept

/-! ## Answers on a riser -/

theorem State.hookEvent_entries (s : State) (h : Handset) (off : Bool) : EntriesKept p s (s.hookEvent h off) := by
  rw [State.hookEvent_eq]; split
  · exact .refl s
  · refine .trans (t := s.hooked h off) (.of_directory rfl) (.event (.of_touch ?_))
    split
    · exact State.offHook_touch ..
    · exact State.onHook_touch ..

theorem State.keyEvent_entries (s : State) (h : Handset) (k : Key) : EntriesKept p s (s.keyEvent h k) := by
  unfold State.keyEvent; split
  · exact .refl s
  · exact .event (.of_touch (State.releaseKey_touch ..))
  · exact .event (.of_touch (State.conciergeKey_touch ..))

theorem State.hit_entries (s : State) (r : Riser) (x : Sent) (w : Answer) : EntriesKept p s (s.hit r x w) := by
  unfold State.hit; dsimp only
  refine .trans (.trans ?_ (State.hookEvent_entries ..)) (State.keyEvent_entries ..)
  split
  · exact .of_directory rfl
  · exact .of_directory rfl

theorem State.miss_entries (s : State) (r : Riser) (x : Sent) : EntriesKept p s (s.miss r x) := by
  unfold State.miss; dsimp only; split
  · split
    · exact .of_directory rfl
    · exact .trans (.of_directory rfl) (.event (.of_touch (State.handsetLost_touch ..)))
  · exact .of_directory rfl

/-! ## Risers -/

theorem State.enableRiser_entries (s : State) (r : Riser) : EntriesKept p s (s.enableRiser r) := by
  unfold State.enableRiser; split
  · exact .of_directory rfl
  · exact .refl s

theorem State.riserOff_entries (s : State) (r : Riser) (e : RiserEvent) : EntriesKept p s (s.riserOff r e) := by
  rw [State.riserOff_state]; exact .of_directory rfl

theorem State.disableRiser_entries (s : State) (r : Riser) : EntriesKept p s (s.disableRiser r) := by
  have hgone : ∀ u, EntriesKept p s ((s.setRiser r u).riserGone r) := fun u =>
    .trans (.setRiser r u) (.of_touch (State.riserGone_touch ..))
  unfold State.disableRiser; split
  · exact hgone _
  · exact (hgone _).trans (State.riserOff_entries ..)
  · exact (hgone _).trans (State.riserOff_entries ..)
  · exact .refl s

theorem State.boundaryState_entries (s : State) (r : Riser) : EntriesKept p s (s.boundaryState r) := by
  unfold State.boundaryState; split
  · split
    · exact .of_directory rfl
    · exact .refl s
  · dsimp only; split
    · exact (State.riserOff_entries ..).trans (State.enableRiser_entries ..)
    · exact State.riserOff_entries ..
  · exact .refl s

theorem State.mixSlot_entries (r : Riser) (s : State) (k : Slot) : EntriesKept p s (State.mixSlot r s k) := by
  unfold State.mixSlot; dsimp only; split
  · exact .of_directory rfl
  · split
    · exact .of_directory rfl
    · exact .of_directory rfl

theorem execRiserFrameBoundary_entries (r : Riser) (voice : List (Addr × Sample))
    (h : execRiserFrameBoundary r voice s = .next t) : EntriesKept p s t := by
  have hevent : EntriesKept p s (s.event fun s => ((s.copied r voice).testClearing).boundaryState r) := by
    refine .event (.trans ?_ (State.boundaryState_entries ..))
    exact .trans (.modRiser ..) (.of_touch (State.testClearing_touch _))
  cases h
  exact .whenRunning (.ite (.trans (hevent.trans (.modRiser ..)) (.foldl (State.mixSlot_entries r) allSlots _)))

/-! ## The links -/

theorem State.panelLost_entries (s : State) (q : Panel) (l : LinkState) (e : LinkEvent) :
    EntriesKept p s (s.panelLost q l e) := by
  rw [(s.panelLost_state q l e).1]; exact .of_directory rfl

theorem State.panelBad_entries (s : State) (q : Panel) : EntriesKept p s (s.panelBad q) := by
  unfold State.panelBad; split
  · exact .refl s
  · exact .of_directory rfl
  · split
    · exact .of_directory rfl
    · exact .event (State.panelLost_entries ..)

theorem State.panelControl_entries (s : State) (q : Panel) (code : Byte) (param : Word) :
    EntriesKept p s (s.panelControl q code param) := by
  unfold State.panelControl; split
  · exact .event (.of_touch (State.panelCall_touch ..))
  · split
    · exact .event (.of_touch (State.panelCancel_touch ..))
    · exact .refl s

theorem State.panelGood_entries (s : State) (q : Panel) (f : PanelFrame) : EntriesKept p s (s.panelGood q f) := by
  unfold State.panelGood; split
  · exact .refl s
  · split
    · exact .of_directory rfl
    · exact .of_directory rfl
  · exact .trans (.modPanel ..) (State.panelControl_entries ..)

theorem State.consoleLost_entries (s : State) : EntriesKept p s s.consoleLost :=
  .trans (.modClu (·.lost))
    (.trans (.of_touch (State.consoleGone_touch _)) (.of_touch (State.post_touch ..)))

theorem State.consoleBad_entries (s : State) : EntriesKept p s s.consoleBad := by
  unfold State.consoleBad; split
  · exact .refl s
  · exact .of_directory rfl
  · split
    · exact .of_directory rfl
    · exact .event s.consoleLost_entries

/-! ## The requests -/

/-- WRITE-ENTRIES that passes its tests writes a page that is not guarded. -/
theorem doWriteEntries_entries (hg : Guarded s p) (h : WriteHead) (items : List WriteItem) :
    EntriesKept p s (doWriteEntries h items s).state := by
  unfold doWriteEntries; split
  · exact .refl s
  · split
    · exact .refl s
    next hfault =>
      split
      · exact .refl s
      next hopen =>
        have hpage : h.page.toNat ≤ 23 := by
          unfold writeFault at hfault
          split at hfault
          · cases hfault
          · omega
        have hother : Fin.ofNat 24 h.page.toNat ≠ p := by
          rintro rfl
          refine hopen ?_
          rw [← hg, Fin.val_ofNat, Nat.mod_eq_of_lt (by omega)]
        refine congrArg zeroCounters ?_
        rw [finished, State.dirPage_setDirPage, if_neg hother]

theorem zeroCounters_idem (q : DirPage) : zeroCounters (zeroCounters q) = zeroCounters q := by
  apply vget_ext; intro i
  simp only [zeroCounters, vget_vmap, Option.map_map]
  rfl

/-- CLEAR-COUNTERS changes counters alone. -/
theorem doClearCounters_entries (page : Byte) (s : State) : EntriesKept p s (doClearCounters page s).state := by
  unfold doClearCounters; split
  · exact .refl s
  · split
    · exact .refl s
    · dsimp only [finished]
      unfold EntriesKept SameButCounters
      rw [State.dirPage_setDirPage]
      split
      next hp => rw [hp, zeroCounters_idem]
      · rfl

theorem doPanelSet_entries (panel installed gain ring : Byte) (talk : Word) (strike : Byte) (s : State) :
    EntriesKept p s (doPanelSet panel installed gain ring talk strike s).state := by
  have hchanged : ∀ (s : State) q old new, EntriesKept p s (s.panelChanged q old new) := fun s q old new => by
    rw [(s.panelChanged_state q old new).1]; exact .of_directory rfl
  unfold doPanelSet; split
  · exact .refl s
  · dsimp only [settledReply]
    exact .trans (.setSettings _) (.event (hchanged ..))

theorem doRiserSet_entries (riser enable quiet reversal mute : Byte) (s : State) :
    EntriesKept p s (doRiserSet riser enable quiet reversal mute s).state := by
  unfold doRiserSet; split
  · exact .refl s
  · dsimp only [settledReply]
    refine .trans (.setSettings _) (.event ?_)
    split
    · exact .trans (.modRiser ..) (State.enableRiser_entries ..)
    · exact .trans (.modRiser ..) (State.disableRiser_entries ..)

/-- The requests that leave the Directory alone, the changes of the Call Controller aside. -/
theorem Request.run_entries (hg : Guarded s p) (q : Request) : EntriesKept p s (q.run s).state := by
  cases q with
  | read =>
    simp only [Request.run, doRead]
    split
    · exact .refl s
    · exact iteInduction (motive := fun t => EntriesKept p s t) (fun _ => .of_directory rfl) fun _ => .refl s
  | status =>
    simp only [Request.run, doStatus]
    split
    · exact .refl s
    · exact iteInduction (motive := fun t => EntriesKept p s t) (fun _ => .of_directory rfl) fun _ => .refl s
  | writeEntries head items => exact doWriteEntries_entries hg head items
  | clearCounters page => exact doClearCounters_entries page s
  | protect =>
    simp only [Request.run, doProtect]
    split
    · exact .refl s
    · split
      · exact .refl s
      · exact .of_directory rfl
  | panelSet => exact doPanelSet_entries ..
  | consoleSet =>
    simp only [Request.run, doConsoleSet, settledReply, State.consoleGained]
    split_ifs <;> exact .of_directory rfl
  | riserSet => exact doRiserSet_entries ..
  | mixSet => exact .of_directory rfl
  | serviceEnter => exact .of_directory rfl
  | serviceLeave => exact .of_directory rfl
  | toneWrite =>
    simp only [Request.run, doToneWrite]
    split
    · exact .refl s
    · split
      · exact .refl s
      · split
        · exact .refl s
        · exact .of_directory rfl
  | store =>
    simp only [Request.run, doStore]
    split
    · exact .refl s
    · split
      · exact .refl s
      · exact .of_directory rfl
  | answerNext => exact .of_touch (doAnswerNext_touch s)
  | callFlat => exact .of_touch (doCallFlat_touch ..)
  | hangUp => exact .of_touch (doHangUp_touch s)
  | listen => exact .of_touch (doListen_touch ..)
  | barge => exact .of_touch (doBarge_touch ..)
  | leave => exact .of_touch (doLeave_touch s)
  | clearCall => exact .of_touch (doClearCall_touch ..)
  | pageStart => exact .of_touch (doPageStart_touch ..)
  | pageEnd => exact .of_touch (doPageEnd_touch s)

/-! ## Messages (R174 to R179) -/

theorem State.execute_entries (hg : Guarded s p) (tag : Byte) (q : Request) : EntriesKept p s (s.execute tag q) :=
  (q.run_entries hg).trans (.of_directory rfl)

theorem State.examine_entries (hg : Guarded s p) (m : MessageParts) : EntriesKept p s (s.examine m) := by
  unfold State.examine; split
  · split
    · split
      · exact .of_directory rfl
      · exact .of_directory rfl
      · exact State.execute_entries hg ..
    · exact .of_directory rfl
  · exact .refl s

/-- What a whole message's arrival starts (R175). -/
theorem State.atReceiver_entries {f : State → State} (h : EntriesKept p s.messageArrived (f s.messageArrived)) :
    EntriesKept p s (s.atReceiver f) := by
  refine .whenRunning ?_
  split
  · exact .trans (.of_directory rfl) h
  · exact .refl s

theorem State.request_entries (hg : Guarded s p) (tag : Byte) (q : Request) : EntriesKept p s (s.request tag q) := by
  refine State.atReceiver_entries ?_
  split
  · exact State.execute_entries (s := s.messageArrived) hg tag q
  · exact .refl _

theorem State.appended_entries (hg : Guarded s p) (b : Byte) : EntriesKept p s (s.appended b) := by
  unfold State.appended; dsimp only; split
  · split
    · split
      · exact .of_directory rfl
      · exact .of_directory rfl
    · exact .of_directory rfl
  · split
    · exact .trans (.of_directory rfl) (State.examine_entries (s := s.messageArrived) hg _)
    · exact .of_directory rfl

theorem State.controlField_entries (hg : Guarded s p) (flags b : Byte) : EntriesKept p s (s.controlField flags b) := by
  unfold State.controlField State.controlByte; split
  · split
    · exact .of_directory rfl
    · split
      · exact State.appended_entries hg b
      · exact .refl s
  · exact .refl s

theorem State.consoleGood_entries (hg : Guarded s p) (f : ConsoleFrame) : EntriesKept p s (s.consoleGood f) := by
  unfold State.consoleGood; split
  · exact .refl s
  · split
    · exact .of_directory rfl
    · unfold State.consoleUp State.postStartup
      split <;> exact .of_directory rfl
  · exact .trans (.of_directory rfl) (State.controlField_entries (s := s.modClu _) hg ..)

end

/-! ## Every command -/

/-- The expiry of a timer of a call, taken or not. -/
theorem expiry_entries {p : PageIx} {s : State} {i : Rec} {q : Call → Prop} [∀ c, Decidable (q c)] {cause : EndCause} :
    EntriesKept p s (match s.call i with
      | some c => if q c then s.event fun s => s.endCall i cause else s
      | none => s) := by
  split
  · split
    · exact .event (.of_touch (State.endCall_touch ..))
    · exact .refl s
  · exact .refl s

/-- A command of the running part that leaves it running keeps the entries of a guarded page. -/
theorem exec_entries {p : PageIx} {s t : State} (hs : Running s) (ht : Running t) (hg : Guarded s p) (c : Instr)
    (h : exec c s = .next t) : EntriesKept p s t := by
  cases c with
  | powerOn => cases h; dsimp only [Running] at ht; split at ht <;> cases ht
  | powerLoss => cases h; cases ht
  | resetAssert =>
    cases h
    split at ht
    · cases ht
    next hp => rw [if_neg hp]; exact .of_directory rfl
  | resetRelease =>
    cases h
    exact iteInduction (motive := fun t => EntriesKept p s t) (fun _ => .of_directory rfl) fun _ => .of_directory rfl
  | unitLoaded =>
    cases h
    split
    next hu => exact nomatch hu.symm.trans hs
    · exact .refl s
  | lockChange asserted => cases h; split <;> exact .of_directory rfl
  | wakePulse r => cases h; exact .whenRunning (.ite (.modRiser ..))
  | orderSelection r => cases h; exact .whenRunning (.ite (.modRiser ..))
  | answerArrival r word =>
    cases h
    refine .whenRunning ?_
    split
    · exact .refl s
    · split
      · exact State.hit_entries ..
      · exact State.miss_entries ..
  | riserFrameBoundary r voice => exact execRiserFrameBoundary_entries r voice h
  | reversalPhaseEnd r => cases h; exact .whenRunning (.ite (.modRiser ..))
  | reversalTimerExpiry r => cases h; exact .whenRunning (.ite (.modRiser ..))
  | quietTimerExpiry r => cases h; exact .whenRunning (.ite (.modRiser ..))
  | wakeTimerExpiry r => cases h; exact .whenRunning (.ite (.modRiser ..))
  | ringTimerExpiry i => cases h; exact .whenRunning expiry_entries
  | talkTimerExpiry i => cases h; exact .whenRunning expiry_entries
  | waitTimerExpiry i => cases h; exact .whenRunning expiry_entries
  | queueTimeoutExpiry i => cases h; exact .whenRunning expiry_entries
  | strikeTimerExpiry i =>
    cases h
    refine .whenRunning ?_
    split
    · split
      · exact .of_directory rfl
      · exact .refl s
    · exact .refl s
  | pageTimerExpiry =>
    cases h
    refine .whenRunning ?_
    split
    · split
      · exact .event (.of_touch (State.endPage_touch ..))
      · exact .refl s
    · exact .refl s
  | endToneExpiry q => cases h; exact .whenRunning (.of_directory rfl)
  | storeCompletion =>
    cases h
    refine .whenRunning ?_
    split
    · exact .of_directory rfl
    · exact .refl s
  | windowEnd o => cases h; exact .whenRunning (by cases o <;> exact .of_directory rfl)
  | noticeEnd =>
    cases h
    refine .whenRunning ?_
    split
    · split
      · exact .of_directory rfl
      · exact .refl s
    · exact .refl s
  | panelFrameArrival q frame =>
    cases h
    refine .whenRunning ?_
    split
    · exact State.panelGood_entries ..
    · split
      · exact State.panelBad_entries ..
      · exact .refl s
  | panelWindowClose q =>
    cases h
    refine .whenRunning ?_
    split
    · exact State.panelBad_entries ..
    · exact .refl s
  | panelTransmitBoundary q =>
    cases h
    refine .whenRunning ?_
    dsimp only; split
    · exact .refl s
    · exact .of_directory rfl
    · exact .of_directory rfl
  | consoleFrameArrival frame =>
    cases h
    refine .whenRunning ?_
    split
    · exact State.consoleGood_entries hg _
    · split
      · exact State.consoleBad_entries ..
      · exact .refl s
  | consoleWindowClose =>
    cases h
    refine .whenRunning ?_
    split
    · exact State.consoleBad_entries ..
    · exact .refl s
  | consoleTransmitBoundary =>
    cases h
    refine .whenRunning ?_
    dsimp only; split
    · exact .refl s
    · exact .of_directory rfl
    · exact .of_directory rfl
  | invalidMessage message =>
    cases h
    split
    · exact State.atReceiver_entries (State.examine_entries (s := s.messageArrived) hg _)
    · exact .refl s
  | read | status | writeEntries | clearCounters | protect | panelSet | consoleSet | riserSet | mixSet | serviceEnter
  | serviceLeave | toneWrite | store | answerNext | callFlat | hangUp | listen | barge | leave | clearCall | pageStart
  | pageEnd => cases h; exact State.request_entries hg ..

/-- Settles O41, through what each command keeps of a guarded page. -/
theorem aGuardedPageKeepsItsEntries : Obligations.AGuardedPageKeepsItsEntries := by
  intro s t p h hs ht hg
  show EntriesKept p s t
  unfold step at h
  split at h
  next c rest _ => exact .trans (t := { s with pending := rest }) (.of_directory rfl) (exec_entries hs ht hg c h)
  · cases h
    exact .whenRunning (.of_directory rfl)

end Sys2Proof.Machine
end

