-- ==== Sys2Proof/Proofs/DirectoryRequests.lean ====
section
/-! PROOFS. The loading of the units and the LOCK line (R74, R200 to R203), and the requests that change the Directory and its
protection: WRITE-ENTRIES, CLEAR-COUNTERS and PROTECT (R64 to R73). -/

namespace Sys2Proof.Machine

open Sys2Proof Sys2Proof.Safety

/-! ## Loading (R202, R203) -/

/-- A directory page takes its unit's content when the unit passes its test, and is EMPTY otherwise. -/
theorem State.loaded_page (s : State) (p : PageIx) : s.loaded ⟨p.val, by omega⟩ =
    if (vget s.store.pages p).passes pageBytes then s.setDirPage p (vget s.store.pages p).content
    else { s.setDirPage p .empty with torn := s.torn ++ [⟨p.val, by omega⟩] } := by
  unfold State.loaded
  rw [dif_pos p.isLt]

/-- The settings take their unit's content when the unit passes its test, and their defaults otherwise. -/
theorem State.loaded_settings (s : State) : s.loaded 24 =
    if s.store.settings.passes settingsBytes then s.setSettings s.store.settings.content
    else { s.setSettings .standard with torn := s.torn ++ [24] } := by
  unfold State.loaded
  rw [dif_neg (by decide), if_pos rfl]

/-- A unit before the last is loaded, and the next is then to be loaded. -/
theorem execUnitLoaded_next {s : State} {u : UnitIx} (hs : s.stage = .loading u) (hu : u.val + 1 < 26) :
    execUnitLoaded s = .next { s.loaded u with stage := .loading ⟨u.val + 1, hu⟩ } := by
  unfold execUnitLoaded
  rw [hs]
  exact congrArg Host.Outcome.next (dif_pos hu)

/-- Settles O4: the branches of the release, of the LOCK line and of the loading of a unit. -/
theorem startUpBeginsAndLoadsTheUnitsInTurn : Obligations.StartUpBeginsAndLoadsTheUnitsInTurn := by
  refine ⟨fun s hp hh => ?_, fun s hn => ?_, fun s asserted => ?_, fun s p hs => ?_, fun s hs => ?_⟩
  · exact congrArg Host.Outcome.next (if_pos ⟨hp, hh⟩)
  · refine congrArg Host.Outcome.next (if_neg ?_)
    rintro ⟨hp, hh⟩
    exact hn.elim (fun h => nomatch h.symm.trans hp) fun h => h hh
  · refine congrArg Host.Outcome.next ?_
    split
    next h => rw [if_pos h]
    next h => rw [if_neg h]
  · refine (execUnitLoaded_next hs (by dsimp only; omega)).trans (congrArg Host.Outcome.next ?_)
    rw [State.loaded_page]
    split <;> rfl
  · refine (execUnitLoaded_next hs (by decide)).trans (congrArg Host.Outcome.next ?_)
    rw [State.loaded_settings]
    split <;> rfl

/-! ## CLEAR-COUNTERS and PROTECT (R71, R73) -/

/-- Settles O40: the tests of both requests in their order, then their one change. -/
theorem countersClearAndPagesAreProtected : Obligations.CountersClearAndPagesAreProtected := by
  refine ⟨fun s tag page ha => congrArg Host.Outcome.next ?_, fun s tag mask ha => congrArg Host.Outcome.next ?_⟩
  · split_ifs with hrange hlocked
    · exact State.request_refused ha (if_pos hrange)
    · exact State.request_refused ha ((if_neg hrange).trans (if_pos hlocked))
    · exact (State.request_finished ha (q := .clearCounters page) ((if_neg hrange).trans (if_neg hlocked))).trans rfl
  · split_ifs with hrange hlocked
    · exact State.request_refused ha (if_pos hrange)
    · exact State.request_refused ha ((if_neg hrange).trans (if_pos hlocked))
    · exact (State.request_finished ha (q := .protect mask) ((if_neg hrange).trans (if_neg hlocked))).trans rfl

/-! ## The order of a write (R67, R68) -/

section
variable (h : WriteHead)

/-- A write depends on its first position up to the wrap from position 15 to position 0. -/
theorem writeRun_wraps {m n : Nat} (hmn : m % 16 = n % 16) (items : List WriteItem) (q : DirPage) :
    writeRun h m items q = writeRun h n items q := by
  induction items generalizing m n q with
  | nil => rfl
  | cons w rest ih =>
    have hpos : Fin.ofNat 16 m = Fin.ofNat 16 n := Fin.ext hmn
    rw [writeRun, writeRun, hpos]
    exact ih (by omega) _

theorem writeRun_append (n : Nat) (a b : List WriteItem) (q : DirPage) :
    writeRun h n (a ++ b) q = writeRun h (n + a.length) b (writeRun h n a q) := by
  induction a generalizing n q with
  | nil => rfl
  | cons w a ih => rw [List.cons_append, writeRun, writeRun, ih, List.length_cons]; congr 1; omega

/-- A position that is written, or on which two pages agree, holds the same entry in both after a write. -/
theorem writeRun_agrees {n : Nat} {items : List WriteItem} {q q' : DirPage} {j : Fin 16}
    (hj : vget q j = vget q' j ∨ ∃ m < items.length, Fin.ofNat 16 (n + m) = j) :
    vget (writeRun h n items q) j = vget (writeRun h n items q') j := by
  induction items generalizing n q q' with
  | nil => exact hj.resolve_right (by simp)
  | cons w rest ih =>
    refine ih ?_
    rw [vget_vset, vget_vset]
    by_cases hn : Fin.ofNat 16 n = j
    · rw [if_pos hn, if_pos hn]; exact .inl rfl
    · rw [if_neg hn, if_neg hn]
      refine hj.imp_right ?_
      rintro ⟨m, hm, hmj⟩
      cases m with
      | zero => exact absurd hmj hn
      | succ m => exact ⟨m, by simpa using hm, by rw [← hmj]; congr 1; omega⟩

/-- Sixteen items write every position, so that nothing of the page before them is left. -/
theorem writeRun_covers (n : Nat) {items : List WriteItem} (hl : items.length = 16) (q q' : DirPage) :
    writeRun h n items q = writeRun h n items q' := by
  refine vget_ext fun j => writeRun_agrees h (.inr ⟨(j.val + 16 - n % 16) % 16, by omega, Fin.ext ?_⟩)
  rw [Fin.val_ofNat]
  omega

/-- The last 16 items of a list leave the page that all of them leave (R68). -/
theorem writeRun_last (items : List WriteItem) (q : DirPage) :
    writeRun h (writeFirst h items) (writeItems items) q = writeRun h h.start.toNat items q := by
  have hwrap : writeRun h (writeFirst h items) (writeItems items) q =
      writeRun h (h.start.toNat + (items.length - 16)) (writeItems items) q :=
    writeRun_wraps h (Nat.mod_mod _ _) _ _
  by_cases hl : items.length ≤ 16
  · rw [hwrap, writeItems, Nat.sub_eq_zero_of_le hl]; rfl
  · have htake : (items.take (items.length - 16)).length = items.length - 16 := by rw [List.length_take]; omega
    calc writeRun h (writeFirst h items) (writeItems items) q
        = writeRun h (h.start.toNat + (items.length - 16)) (writeItems items)
            (writeRun h h.start.toNat (items.take (items.length - 16)) q) :=
          hwrap.trans (writeRun_covers h _ (by rw [writeItems, List.length_drop]; omega) _ _)
      _ = writeRun h h.start.toNat (items.take (items.length - 16) ++ writeItems items) q := by
          rw [writeRun_append, htake]
      _ = writeRun h h.start.toNat items q := by rw [writeItems, List.take_append_drop]

/-- The model's run of writes is the statement's. -/
theorem writtenInOrder_eq (items : List WriteItem) (q : DirPage) :
    writtenInOrder h items q = writeRun h h.start.toNat items q := by
  have hfold : ∀ (items : List WriteItem) (n : Nat) (q : DirPage),
      (items.zipIdx n).foldl (fun q x => vset q (Fin.ofNat 16 (h.start.toNat + x.2)) (entryGiven h x.1)) q =
        writeRun h (h.start.toNat + n) items q := fun items => by
    induction items with
    | nil => exact fun _ _ => rfl
    | cons w rest ih => exact fun n q => ih (n + 1) _
  exact hfold items 0 q

end

/-! ## WRITE-ENTRIES (R64 to R69) -/

theorem writeItemOk_iff {w : WriteItem} :
    WriteItemOk w = true ↔ w.valid = false ∨ (w.code.toNat ≤ 9999 ∧ w.riser.toNat ≤ 7) := by
  simp only [WriteItemOk, Bool.or_eq_true, Bool.not_eq_true', Bool.and_eq_true, decide_eq_true_eq]
  rfl

/-- The items are tested when the page, the start position and the group pass. -/
theorem writeFault_items {h : WriteHead} (hp : ¬ 23 < h.page.toNat) (hs : ¬ 15 < h.start.toNat) (hg : ¬ 15 < h.group.toNat)
    (items : List WriteItem) : writeFault h items = (items.findIdx? fun w => !WriteItemOk w).map byteOf := by
  rw [writeFault, if_neg hp, if_neg hs, if_neg hg]

section
variable {s : State} {h : WriteHead} {items : List WriteItem} (hl : items.length ≤ 20)
include hl

theorem doWriteEntries_fault {detail : Byte} (hf : writeFault h items = some detail) :
    doWriteEntries h items s = refuse s .range [detail] := by
  rw [doWriteEntries, if_neg (by omega), hf]

theorem doWriteEntries_locked (hf : writeFault h items = none) (hg : s.guarded h.page.toNat = true) :
    doWriteEntries h items s = refuse s .locked := by
  rw [doWriteEntries, if_neg (by omega), hf]
  exact if_pos hg

theorem doWriteEntries_written (hf : writeFault h items = none) (hg : ¬ s.guarded h.page.toNat = true) :
    doWriteEntries h items s =
      finished (s.setDirPage (Fin.ofNat 24 h.page.toNat) (writtenInOrder h items (s.dirPage (Fin.ofNat 24 h.page.toNat))))
        [byteOf (Fin.ofNat 24 h.page.toNat).val, byteOf (writeFirst h items), byteOf (writeItems items).length] := by
  rw [doWriteEntries, if_neg (by omega), hf, writtenInOrder_eq, ← writeRun_last]
  exact if_neg hg

end

/-- Settles O39: the tests in their order, then the write, whose last 16 items leave what all of them leave. -/
theorem writeEntriesWritesEveryItemInOrder : Obligations.WriteEntriesWritesEveryItemInOrder := by
  intro s tag h items ha hl
  have hfaulty : ∀ {detail}, writeFault h items = some detail →
      exec (.writeEntries tag h items) s = .next (refusal s tag .range [detail]) := fun hf =>
    congrArg Host.Outcome.next (State.request_refused ha (doWriteEntries_fault hl hf))
  by_cases hp : 23 < h.page.toNat
  · rw [if_pos hp]
    exact hfaulty (if_pos hp)
  by_cases hs : 15 < h.start.toNat
  · rw [if_neg hp, if_pos hs]
    exact hfaulty ((if_neg hp).trans (if_pos hs))
  by_cases hg : 15 < h.group.toNat
  · rw [if_neg hp, if_neg hs, if_pos hg]
    exact hfaulty ((if_neg hp).trans ((if_neg hs).trans (if_pos hg)))
  rw [if_neg hp, if_neg hs, if_neg hg]
  have hitems := writeFault_items hp hs hg items
  refine ⟨fun n w hw hbefore hv hbad => hfaulty ?_, fun hok => ?_⟩
  · obtain ⟨hn, rfl⟩ := List.getElem?_eq_some_iff.mp hw
    rw [hitems, List.findIdx?_eq_some_iff_getElem.mpr ⟨hn, ?_, fun m hm => ?_⟩]
    · rfl
    · rw [Bool.not_eq_true', ← Bool.not_eq_true, writeItemOk_iff, hv]
      simp only [Bool.true_eq_false, false_or]
      omega
    · rw [Bool.not_eq_true, Bool.not_eq_false', writeItemOk_iff]
      exact hbefore m _ hm (List.getElem?_eq_getElem _)
  · have hnone : writeFault h items = none := by
      rw [hitems, List.findIdx?_eq_none_iff.mpr fun w hw => ?_]
      · rfl
      · rw [Bool.not_eq_false', writeItemOk_iff]
        exact hok w hw
    have hpage : (Fin.ofNat 24 h.page.toNat).val = h.page.toNat := Nat.mod_eq_of_lt (by omega)
    split
    next hguard =>
      rw [Guarded, hpage] at hguard
      have hlocked := doWriteEntries_locked (s := s.messageArrived) hl hnone hguard
      exact congrArg Host.Outcome.next (State.request_refused ha hlocked)
    next hguard =>
      rw [Guarded, hpage] at hguard
      have hwritten := doWriteEntries_written (s := s.messageArrived) hl hnone hguard
      have hfirst : writeFirst h items =
          if items.length ≤ 16 then h.start.toNat else (h.start.toNat + (items.length - 16)) % 16 := by
        rw [writeFirst]; split <;> omega
      have hcount : (writeItems items).length = min 16 items.length := by rw [writeItems, List.length_drop]; omega
      rw [hpage, hfirst, hcount] at hwritten
      exact congrArg Host.Outcome.next ((State.request_finished ha (q := .writeEntries h items) hwritten).trans rfl)

end Sys2Proof.Machine
end

