-- ==== Sys2Proof/Proofs/Lookup.lean ====
section
/-! PROOFS. The lookup of a dial code (R57 to R60): the entries it collects, the first of each handset, and the targets that are
left, each said by the entries of the Directory. -/

namespace Sys2Proof.Machine

open Sys2Proof Sys2Proof.Safety

/-! ## Entries in ascending index -/

/-- Entries stand in ascending index. -/
abbrev Ascending (l : List (EntryIx × EntryData)) : Prop := l.Pairwise fun x y => x.1 < y.1

/-- The first n entries of a list in ascending index are those with fewer than n before them. -/
theorem Ascending.mem_take {l : List (EntryIx × EntryData)} (hl : Ascending l) {n : Nat} {x : EntryIx × EntryData} :
    x ∈ l.take n ↔ x ∈ l ∧ l.countP (fun y => y.1 < x.1) < n := by
  induction l generalizing n with
  | nil => simp
  | cons y l ih =>
    obtain ⟨hy, hl⟩ := List.pairwise_cons.mp hl
    cases n with
    | zero => simp
    | succ n =>
      rw [List.take_succ_cons, List.mem_cons, List.mem_cons, ih hl, List.countP_cons]
      by_cases hxl : x ∈ l
      · have hne : x ≠ y := fun h => lt_irrefl _ (h ▸ hy x hxl)
        simp [hxl, hne, hy x hxl]
      · have hfirst : x = y → l.countP (fun z => z.1 < x.1) = 0 := fun h =>
          List.countP_eq_zero.mpr fun z hz => by simpa [h] using (hy z hz).le
        constructor
        · rintro (h | ⟨h, -⟩)
          · refine ⟨.inl h, ?_⟩
            rw [hfirst h, h]; simp
          · exact absurd h hxl
        · exact fun ⟨h, _⟩ => .inl (h.resolve_right hxl)

/-- The entries kept are the first of their handsets (R58). -/
theorem Ascending.mem_distinctHandsets {l : List (EntryIx × EntryData)} (hl : Ascending l) {x : EntryIx × EntryData} :
    x ∈ distinctHandsets l ↔ x ∈ l ∧ ∀ y ∈ l, y.1 < x.1 → y.2.handset ≠ x.2.handset := by
  induction l with
  | nil => simp [distinctHandsets]
  | cons y l ih =>
    obtain ⟨hy, hl⟩ := List.pairwise_cons.mp hl
    rw [distinctHandsets, List.mem_cons, List.mem_filter, ih hl]
    constructor
    · rintro (rfl | ⟨⟨hx, hfirst⟩, hne⟩)
      · refine ⟨List.mem_cons_self .., fun z hz hlt => ?_⟩
        rcases List.mem_cons.mp hz with rfl | hz
        · exact absurd hlt (lt_irrefl _)
        · exact absurd hlt (hy z hz).asymm
      · refine ⟨List.mem_cons_of_mem _ hx, fun z hz hlt => ?_⟩
        rcases List.mem_cons.mp hz with rfl | hz
        · exact Ne.symm (of_decide_eq_true hne)
        · exact hfirst z hz hlt
    · rintro ⟨hx, hfirst⟩
      rcases List.mem_cons.mp hx with rfl | hx
      · exact .inl rfl
      · exact .inr ⟨⟨hx, fun z hz => hfirst z (List.mem_cons_of_mem _ hz)⟩,
          decide_eq_true (Ne.symm (hfirst y (List.mem_cons_self ..) (hy x hx)))⟩

theorem distinctHandsets_sublist (l : List (EntryIx × EntryData)) : List.Sublist (distinctHandsets l) l := by
  induction l with
  | nil => exact .refl _
  | cons x l ih => exact (List.filter_sublist.trans ih).cons_cons x

/-! ## The entries of the Directory that a test picks -/

section
variable (s : State) (pick : EntryData → Bool)

theorem State.validEntries_eq :
    s.validEntries pick = allEntries.filterMap fun e => ((s.entry e).filter pick).map (Prod.mk e) := by
  unfold State.validEntries
  congr 1
  funext e
  cases s.entry e with
  | none => rfl
  | some d => by_cases hp : pick d = true <;> simp [Option.filter, hp]

theorem State.mem_validEntries {x : EntryIx × EntryData} :
    x ∈ s.validEntries pick ↔ s.entry x.1 = some x.2 ∧ pick x.2 = true := by
  obtain ⟨e, d⟩ := x
  simp only [State.validEntries_eq, List.mem_filterMap, Option.map_eq_some_iff, Option.filter_eq_some_iff, Prod.mk.injEq]
  constructor
  · rintro ⟨e', -, d', hd, rfl, rfl⟩
    exact hd
  · exact fun hd => ⟨e, List.mem_finRange e, d, hd, rfl, rfl⟩

theorem State.validEntries_ascending : Ascending (s.validEntries pick) := by
  rw [State.validEntries_eq]
  refine List.Pairwise.filterMap _ (R := (· < ·)) (fun e e' hlt x hx y hy => ?_) (List.pairwise_lt_finRange 384)
  obtain ⟨_, -, rfl⟩ := Option.map_eq_some_iff.mp hx
  obtain ⟨_, -, rfl⟩ := Option.map_eq_some_iff.mp hy
  exact hlt

/-- How many picked entries stand before an index. -/
theorem State.countP_validEntries (e : EntryIx) : (s.validEntries pick).countP (fun y => y.1 < e) =
    allEntries.countP fun e' => e'.val < e.val && (s.entry e').any pick := by
  rw [State.validEntries_eq, List.countP_filterMap]
  refine List.countP_congr fun e' _ => ?_
  cases s.entry e' with
  | none => simp
  | some d => by_cases hp : pick d = true <;> simp [Option.filter, hp]

end

/-! ## The targets (R57 to R59) -/

section
variable (s : State) (code : Nat)

/-- A lookup collects the first four VALID entries with the code (R57). -/
theorem State.mem_collected {e : EntryIx} {d : EntryData} : (e, d) ∈ s.collected code ↔
    (s.entry e = some d ∧ d.code = code) ∧
      (allEntries.countP fun e' => e'.val < e.val && (s.entry e').any fun d' => d'.code = code) < 4 := by
  rw [State.collected, (s.validEntries_ascending _).mem_take, State.mem_validEntries, State.countP_validEntries]
  simp only [beq_iff_eq]
  rfl

theorem State.collected_ascending : Ascending (s.collected code) :=
  (s.validEntries_ascending _).sublist (List.take_sublist ..)

/-- An entry with the code before one of the first four is one of them. -/
theorem State.mem_collected_of_lt {e e' : EntryIx} {d d' : EntryData} (h : (e, d) ∈ s.collected code) (hlt : e' < e)
    (hd : s.entry e' = some d') (hc : d'.code = code) : (e', d') ∈ s.collected code := by
  rw [State.mem_collected] at h ⊢
  refine ⟨⟨hd, hc⟩, lt_of_le_of_lt (List.countP_mono_left fun x _ hx => ?_) h.2⟩
  simp only [Bool.and_eq_true, decide_eq_true_eq] at hx ⊢
  exact ⟨hx.1.trans hlt, hx.2⟩

/-- The tests of R59, said of the handset. -/
theorem State.excluded_eq_false {d : EntryData} : s.excluded d = false ↔
    d.dnd = false ∧ s.liveRecord d.handset = none ∧ s.isMember d.handset = false ∧
      ((s.riser d.handset.riser).inService = true → (s.presence d.handset).present = true) := by
  simp only [State.excluded, Bool.or_eq_false_iff, Bool.and_eq_false_iff, Bool.not_eq_false', Option.isSome_eq_false_iff,
    Option.isNone_iff_eq_none]
  cases (s.riser d.handset.riser).inService <;> simp <;> tauto

/-- What a lookup hands on when it finds a target (R60). -/
def State.ringable : List (EntryIx × EntryData) :=
  (distinctHandsets (s.collected code)).filter fun x => !s.excluded x.2

/-- What a lookup hands on are the targets. -/
theorem State.mem_ringable {e : EntryIx} {d : EntryData} : (e, d) ∈ s.ringable code ↔ Target s code e d := by
  rw [State.ringable, List.mem_filter, Bool.not_eq_true', State.excluded_eq_false,
    (s.collected_ascending code).mem_distinctHandsets]
  constructor
  · rintro ⟨⟨hc, hfirst⟩, htests⟩
    obtain ⟨⟨hd, hcode⟩, hcount⟩ := (s.mem_collected code).mp hc
    exact ⟨hd, hcode, hcount, fun e' d' hlt hd' hcode' =>
      hfirst (e', d') (s.mem_collected_of_lt code hc hlt hd' hcode') hlt, htests⟩
  · rintro ⟨hd, hcode, hcount, hfirst, htests⟩
    refine ⟨⟨(s.mem_collected code).mpr ⟨⟨hd, hcode⟩, hcount⟩, fun y hy hlt => ?_⟩, htests⟩
    obtain ⟨⟨hd', hcode'⟩, -⟩ := (s.mem_collected code).mp hy
    exact hfirst y.1 y.2 hlt hd' hcode'

/-- Targets are among the entries collected, in their order. -/
theorem State.ringable_sublist : List.Sublist (s.ringable code) (s.collected code) :=
  List.filter_sublist.trans (distinctHandsets_sublist _)

/-- A lookup collects nothing exactly when no VALID entry holds the code. -/
theorem State.collected_eq_nil : s.collected code = [] ↔ ∀ e d, s.entry e = some d → d.code ≠ code := by
  rw [State.collected, List.take_eq_nil_iff, or_iff_right (by decide), List.eq_nil_iff_forall_not_mem, Prod.forall]
  simp only [State.mem_validEntries, beq_iff_eq, not_and]

/-! ## The verdict (R60) -/

/-- The three verdicts, each with what was collected and what is left of it. -/
theorem State.lookup_cases :
    (s.lookup code = .unknown ∧ s.collected code = []) ∨
    (s.lookup code = .busy ∧ s.collected code ≠ [] ∧ s.ringable code = []) ∨
    (s.lookup code = .targets (s.ringable code) ∧ s.collected code ≠ [] ∧ s.ringable code ≠ []) := by
  unfold State.lookup
  split
  next hc => exact .inl ⟨rfl, hc⟩
  next hc =>
    split
    next hr => exact .inr (.inl ⟨rfl, hc, hr⟩)
    next hr => exact .inr (.inr ⟨rfl, hc, hr⟩)

end

/-- Settles O16, verdict by verdict. -/
theorem lookupPicksTheRingableTargets : Obligations.LookupPicksTheRingableTargets := by
  intro s code
  have hheld : s.collected code ≠ [] ↔ ∃ e d, s.entry e = some d ∧ d.code = code := by
    simp [State.collected_eq_nil]
  have htarget : s.ringable code ≠ [] ↔ ∃ e d, Target s code e d := by
    simp only [← State.mem_ringable]
    rw [ne_eq, List.eq_nil_iff_forall_not_mem, not_forall_not, Prod.exists]
  rw [← State.collected_eq_nil]
  have hno : (∀ e d, ¬ Target s code e d) ↔ s.ringable code = [] := by
    rw [← not_iff_not, ← ne_eq, htarget]; simp
  rw [← hheld, ← htarget, hno]
  rcases s.lookup_cases code with ⟨hl, hc⟩ | ⟨hl, hc, hr⟩ | ⟨hl, hc, hr⟩
  · have hr : s.ringable code = [] := List.sublist_nil.mp (hc ▸ s.ringable_sublist code)
    simp [hl, hc, hr]
  · simp [hl, hc, hr]
  · refine ⟨by simp [hl, hc], by simp [hl, hr], by simp [hl, hr], fun list hlist => ?_⟩
    obtain rfl : s.ringable code = list := Lookup.targets.inj (hl.symm.trans hlist)
    have hsub := s.ringable_sublist code
    refine ⟨fun e d => s.mem_ringable code, hr, ?_, (State.lookup_targets hl).1, ?_⟩
    · exact hsub.length_le.trans (List.length_take_le ..)
    · exact List.pairwise_map.mpr ((s.collected_ascending code).sublist hsub)

end Sys2Proof.Machine
end

