-- ==== Sys2Proof/Proofs/PageStart.lean ====
section
/-! PROOFS. PAGE-START: the candidates of a group (R134), the call that lends its slot on a riser, what the plan of each riser
makes of it (R135), and the page that begins (R136). -/

namespace Sys2Proof.Machine

open Sys2Proof Sys2Proof.Safety

/-! ## The candidates (R62, R134) -/

/-- Of the entries of a handset one is kept (R58). -/
theorem mem_handsets_distinct {l : List (EntryIx × EntryData)} {h : Handset} :
    h ∈ (distinctHandsets l).map (fun x => x.2.handset) ↔ ∃ x ∈ l, x.2.handset = h := by
  induction l with
  | nil => simp [distinctHandsets]
  | cons y l ih =>
    rw [List.mem_map] at ih
    rw [distinctHandsets, List.map_cons, List.mem_cons, List.exists_mem_cons_iff, ← ih, List.mem_map]
    by_cases hy : y.2.handset = h
    · simp [hy]
    · simp only [List.mem_filter, hy, Ne.symm hy, false_or]
      refine exists_congr fun x => ⟨fun ⟨⟨hx, _⟩, hh⟩ => ⟨hx, hh⟩, fun ⟨hx, hh⟩ => ⟨⟨hx, ?_⟩, hh⟩⟩
      exact decide_eq_true (hh ▸ Ne.symm hy)

theorem State.mem_groupHandsets {s : State} {g : Nat} {h : Handset} :
    h ∈ s.groupHandsets g ↔ ∃ e d, s.entry e = some d ∧ d.group = g ∧ d.handset = h := by
  rw [State.groupHandsets, mem_handsets_distinct, Prod.exists]
  simp only [State.mem_validEntries, beq_iff_eq, and_assoc]

theorem mem_allHandsets (h : Handset) : h ∈ allHandsets :=
  List.mem_flatMap.mpr ⟨h.riser, List.mem_finRange _, List.mem_map.mpr ⟨h.addr, List.mem_finRange _, rfl⟩⟩

theorem State.mem_candidates {s : State} {g : Nat} {h : Handset} :
    h ∈ s.candidates g ↔ (∃ e d, s.entry e = some d ∧ d.group = g ∧ d.handset = h) ∧ TakesOrders s h ∧
      (s.presence h).offHook = false ∧ ∀ i c, s.call i = some c → c.hasLive h = false := by
  rw [State.candidates, List.mem_filter, ← State.mem_groupHandsets, ← State.liveRecord_none]
  simp only [mem_allHandsets, true_and, Bool.and_eq_true, List.contains_iff_mem, State.isCandidate, Bool.not_eq_true',
    Option.isNone_iff_eq_none, and_assoc]

theorem allHandsets_ascending :
    allHandsets.Pairwise fun a b => a.riser < b.riser ∨ a.riser = b.riser ∧ a.addr < b.addr := by
  refine List.pairwise_flatMap.mpr ⟨fun r _ => List.pairwise_map.mpr ?_, ?_⟩
  · exact (List.pairwise_lt_finRange 32).imp fun h => .inr ⟨rfl, h⟩
  · refine (List.pairwise_lt_finRange 8).imp fun h a ha b hb => ?_
    obtain ⟨_, -, rfl⟩ := List.mem_map.mp ha
    obtain ⟨_, -, rfl⟩ := List.mem_map.mp hb
    exact .inl h

/-! ## The CONNECTED call with the highest connect sequence (R135) -/

/-- A slot of a riser carries a CONNECTED call in staged. -/
def State.OnSlot (s : State) (r : Riser) (i : Rec) (c : Call) (k : Slot) : Prop :=
  vget (s.riser r).staged k = .carrying i ∧ s.call i = some c ∧ c.state = .connected

section
variable {s : State} {r : Riser}

theorem State.OnSlot.record {i j : Rec} {d : Call} {k : Slot} (h : s.OnSlot r j d k)
    (hi : vget (s.riser r).staged k = .carrying i) : j = i := by
  obtain ⟨hj, -⟩ := h
  exact SlotEntry.carrying.inj (hj.symm.trans hi)

theorem State.OnSlot.unique {i j : Rec} {c d : Call} {k : Slot} (h : s.OnSlot r i c k) (g : s.OnSlot r j d k) :
    i = j ∧ c = d := by
  obtain rfl := h.record g.1
  exact ⟨rfl, Option.some_inj.mp (h.2.1.symm.trans g.2.1)⟩

/-- What a slot met in the search makes of the best so far. -/
theorem State.younger_onSlot (best : Option (Rec × Call × Slot)) (k : Slot) :
    ((∀ i c, ¬ s.OnSlot r i c k) ∧ s.younger r best k = best) ∨
    ∃ i c, s.OnSlot r i c k ∧
      (s.younger r best k = some (i, c, k) ∧ (∀ b, best = some b → b.2.1.sequence.getD 0 < c.sequence.getD 0) ∨
        s.younger r best k = best ∧ ∃ b, best = some b ∧ ¬ b.2.1.sequence.getD 0 < c.sequence.getD 0) := by
  unfold State.younger
  split
  next i hi =>
    split
    next c hc =>
      split
      next hs =>
        refine .inr ⟨i, c, ⟨hi, hc, hs⟩, ?_⟩
        split
        next j b m =>
          split
          next hlt => exact .inl ⟨rfl, fun x hx => Option.some_inj.mp hx ▸ hlt⟩
          next hge => exact .inr ⟨rfl, _, rfl, hge⟩
        · exact .inl ⟨rfl, fun x hx => by cases hx⟩
      next hs =>
        refine .inl ⟨fun j d hj => hs ?_, rfl⟩
        obtain rfl := hj.record hi
        obtain ⟨-, hd, hstate⟩ := hj
        exact Option.some_inj.mp (hd.symm.trans hc) ▸ hstate
    next hc =>
      refine .inl ⟨fun j d hj => ?_, rfl⟩
      obtain rfl := hj.record hi
      obtain ⟨-, hd, -⟩ := hj
      exact nomatch hc.symm.trans hd
  next hk => exact .inl ⟨fun j d hj => hk j hj.1, rfl⟩

/-- The call found is CONNECTED on its slot. -/
theorem State.youngest_onSlot {i : Rec} {c : Call} {k : Slot} (h : s.youngest r = some (i, c, k)) : s.OnSlot r i c k := by
  have hfold : ∀ (l : List Slot) (best : Option (Rec × Call × Slot)), (∀ x, best = some x → s.OnSlot r x.1 x.2.1 x.2.2) →
      ∀ x, l.foldl (s.younger r) best = some x → s.OnSlot r x.1 x.2.1 x.2.2 := fun l => by
    induction l with
    | nil => exact fun _ hbest => hbest
    | cons k l ih =>
      refine fun best hbest => ih _ fun x hx => ?_
      rcases s.younger_onSlot (r := r) best k with ⟨-, hsame⟩ | ⟨i, c, hon, ⟨hnew, -⟩ | ⟨hsame, -⟩⟩
      · exact hbest x (hsame ▸ hx)
      · obtain rfl := Option.some_inj.mp (hnew.symm.trans hx)
        exact hon
      · exact hbest x (hsame ▸ hx)
  rw [State.youngest_eq] at h
  exact hfold allSlots none (fun x hx => by cases hx) _ h

/-- None is found exactly when no slot carries a CONNECTED call. -/
theorem State.youngest_eq_none : s.youngest r = none ↔ ∀ k i c, ¬ s.OnSlot r i c k := by
  have hfold : ∀ (l : List Slot) (best : Option (Rec × Call × Slot)),
      l.foldl (s.younger r) best = none ↔ best = none ∧ ∀ k ∈ l, ∀ i c, ¬ s.OnSlot r i c k := fun l => by
    induction l with
    | nil => simp
    | cons k l ih =>
      intro best
      rw [List.foldl_cons, ih, List.forall_mem_cons]
      rcases s.younger_onSlot (r := r) best k with ⟨hno, hsame⟩ | ⟨i, c, hon, ⟨hnew, -⟩ | ⟨hsame, b, hb, -⟩⟩
      · simp [hsame, hno]
      · simp only [hnew, reduceCtorEq, false_and, false_iff, not_and]
        exact fun _ hno => absurd hon (hno i c)
      · rw [hsame, hb]; simp
  rw [State.youngest_eq, hfold]
  simp [allSlots]

/-- The call whose connect sequence is above those of the others is found. -/
theorem State.youngest_of_greatest {i : Rec} {c : Call} {k : Slot} (h : s.OnSlot r i c k)
    (hmax : ∀ j d m, s.OnSlot r j d m → m ≠ k → d.sequence.getD 0 < c.sequence.getD 0) : s.youngest r = some (i, c, k) := by
  have hfold : ∀ (l : List Slot) (best : Option (Rec × Call × Slot)),
      (best = some (i, c, k) ∨ k ∈ l ∧ ∀ b, best = some b → b.2.1.sequence.getD 0 < c.sequence.getD 0) →
      l.foldl (s.younger r) best = some (i, c, k) := fun l => by
    induction l with
    | nil => exact fun best hbest => hbest.resolve_right fun hk => nomatch hk.1
    | cons m l ih =>
      refine fun best hbest => ih _ ?_
      rcases s.younger_onSlot (r := r) best m with ⟨hno, hsame⟩ | ⟨j, d, hon, hjd⟩
      · rw [hsame]
        refine hbest.imp_right fun ⟨hk, hlt⟩ => ⟨(List.mem_cons.mp hk).resolve_left ?_, hlt⟩
        rintro rfl
        exact hno i c h
      · by_cases hm : m = k
        · subst hm
          obtain ⟨rfl, rfl⟩ := h.unique hon
          rcases hjd with ⟨hnew, -⟩ | ⟨hsame, b, hb, hge⟩
          · exact .inl hnew
          · refine .inl (hsame.trans (hbest.resolve_right fun ⟨_, hlt⟩ => hge (hlt b hb)))
        · have hlower := hmax j d m hon hm
          rcases hjd with ⟨hnew, hbelow⟩ | ⟨hsame, -⟩
          · rw [hnew]
            rcases hbest with rfl | ⟨hk, -⟩
            · exact absurd (hbelow _ rfl) hlower.asymm
            · exact .inr ⟨(List.mem_cons.mp hk).resolve_left (Ne.symm hm), fun b hb => Option.some_inj.mp hb ▸ hlower⟩
          · rw [hsame]
            exact hbest.imp_right fun ⟨hk, hlt⟩ => ⟨(List.mem_cons.mp hk).resolve_left (Ne.symm hm), hlt⟩
  rw [State.youngest_eq]
  exact hfold allSlots none (.inr ⟨List.mem_finRange k, fun x hx => by cases hx⟩)

/-- The search looks at the riser and at the calls it carries. -/
theorem State.youngest_congr {t : State} (hr : t.riser r = s.riser r)
    (hc : ∀ k i, vget (s.riser r).staged k = .carrying i → t.call i = s.call i) : t.youngest r = s.youngest r := by
  have hstep : t.younger r = s.younger r := by
    funext best k
    unfold State.younger
    rw [hr]
    split
    next i hi => rw [hc k i hi]
    · rfl
  rw [State.youngest_eq, State.youngest_eq, hstep]

end

/-! ## The plan of one riser (R135) -/

theorem State.edit_riser_ne {s : State} {r r' : Riser} (h : r ≠ r') (k : Slot) (e : SlotEntry) :
    (s.edit r k e).riser r' = s.riser r' := by
  rw [State.edit, State.riser_modRiser, if_neg h]

/-- A loan changes of the risers what its edit does. -/
theorem State.lend_riser (s : State) (r : Riser) (i : Rec) (k : Slot) (r' : Riser) :
    (s.lend r i k).riser r' = (s.edit r k .page).riser r' := by
  obtain ⟨nt, cl, h⟩ := s.lend_eq r i k
  rw [h]; rfl

/-- A loan changes the call that lends. -/
theorem State.lend_call (s : State) (r : Riser) (i : Rec) (k : Slot) (j : Rec) :
    (s.lend r i k).call j = if i = j then (s.call i).map Call.lent else s.call j := by
  have hedit := (s.edit_slots r k .page).call
  obtain ⟨nt, cl, h⟩ := s.lend_eq r i k
  rw [h, ← hedit i, ← hedit j]
  exact State.call_modCall ..

section
variable {x : State × PageRecord} {r : Riser}

/-- A riser with a free slot gives its lowest-numbered one. -/
theorem State.planOne_take {k : Slot} (h : (x.1.riser r).lowestFree = some k) : State.planOne x r =
    (x.1.edit r k .page, { x.2 with served := vset x.2.served r (some { slot := k, lender := none }) }) := by
  simp only [State.planOne, State.pagePlan, h]

/-- A riser without one has a slot lent by the call found. -/
theorem State.planOne_lend {i : Rec} {c : Call} {k : Slot} (h : (x.1.riser r).lowestFree = none)
    (hy : x.1.youngest r = some (i, c, k)) : State.planOne x r =
    (x.1.lend r i k, { x.2 with served := vset x.2.served r (some { slot := k, lender := some (i, c.serial) }) }) := by
  simp only [State.planOne, State.pagePlan, h, hy]

/-- A riser with neither is skipped. -/
theorem State.planOne_skip (h : (x.1.riser r).lowestFree = none) (hy : x.1.youngest r = none) :
    State.planOne x r = (x.1, { x.2 with skipped := x.2.skipped ++ [r] }) := by
  simp only [State.planOne, State.pagePlan, h, hy]

/-- The three plans of a riser. -/
theorem State.planOne_cases (x : State × PageRecord) (r : Riser) :
    (∃ k, State.planOne x r =
      (x.1.edit r k .page, { x.2 with served := vset x.2.served r (some { slot := k, lender := none }) })) ∨
    (∃ i c k, x.1.OnSlot r i c k ∧ State.planOne x r =
      (x.1.lend r i k, { x.2 with served := vset x.2.served r (some { slot := k, lender := some (i, c.serial) }) })) ∨
    State.planOne x r = (x.1, { x.2 with skipped := x.2.skipped ++ [r] }) := by
  cases h : (x.1.riser r).lowestFree with
  | some k => exact .inl ⟨k, State.planOne_take h⟩
  | none =>
    cases hy : x.1.youngest r with
    | some y => exact .inr (.inl ⟨y.1, y.2.1, y.2.2, State.youngest_onSlot hy, State.planOne_lend h hy⟩)
    | none => exact .inr (.inr (State.planOne_skip h hy))

/-- Of a riser the plan of a page stands the same in two of its stages. -/
structure PlanSame (r : Riser) (x y : State × PageRecord) : Prop where
  riser   : y.1.riser r = x.1.riser r
  served  : vget y.2.served r = vget x.2.served r
  skipped : r ∈ y.2.skipped ↔ r ∈ x.2.skipped

theorem PlanSame.refl (r : Riser) (x : State × PageRecord) : PlanSame r x x := ⟨rfl, rfl, Iff.rfl⟩

theorem PlanSame.trans {y z : State × PageRecord} (h : PlanSame r x y) (g : PlanSame r y z) : PlanSame r x z :=
  ⟨g.riser.trans h.riser, g.served.trans h.served, g.skipped.trans h.skipped⟩

/-- The plan of one riser is no matter of another. -/
theorem State.planOne_other (x : State × PageRecord) {r' : Riser} (h : r' ≠ r) : PlanSame r x (State.planOne x r') := by
  rcases State.planOne_cases x r' with ⟨k, hp⟩ | ⟨i, c, k, -, hp⟩ | hp <;> rw [hp]
  · exact ⟨State.edit_riser_ne h .., vget_vset_ne _ h _, Iff.rfl⟩
  · exact ⟨(State.lend_riser ..).trans (State.edit_riser_ne h ..), vget_vset_ne _ h _, Iff.rfl⟩
  · exact ⟨rfl, rfl, by simp [Ne.symm h]⟩

/-- A call that the plan of a riser names no lender is what it was. -/
theorem State.planOne_call (x : State × PageRecord) (r : Riser) {i : Rec}
    (h : ∀ v, vget (State.planOne x r).2.served r = some v → v.lender.map Prod.fst ≠ some i) :
    (State.planOne x r).1.call i = x.1.call i := by
  rcases State.planOne_cases x r with ⟨k, hp⟩ | ⟨j, c, k, -, hp⟩ | hp <;> rw [hp] at h ⊢
  · exact (x.1.edit_slots r k .page).call i
  · refine (State.lend_call ..).trans (if_neg ?_)
    rintro rfl
    exact h _ (vget_vset_self ..) rfl

/-- A call that a riser does not carry lends it nothing. -/
theorem State.planOne_call_uncarried (x : State × PageRecord) (r : Riser) {i : Rec}
    (h : ∀ k, vget (x.1.riser r).staged k ≠ .carrying i) : (State.planOne x r).1.call i = x.1.call i := by
  rcases State.planOne_cases x r with ⟨k, hp⟩ | ⟨j, c, k, hon, hp⟩ | hp <;> rw [hp]
  · exact (x.1.edit_slots r k .page).call i
  · refine (State.lend_call ..).trans (if_neg ?_)
    rintro rfl
    exact h k hon.1

/-- A handset that takes orders takes them after the plan of a riser. -/
theorem State.planOne_takesOrders (x : State × PageRecord) (r : Riser) {h : Handset} (ht : TakesOrders x.1 h) :
    TakesOrders (State.planOne x r).1 h := by
  have hedit : ∀ k, TakesOrders (x.1.edit r k .page) h := fun k => ((x.1.edit_slots r k .page).takesOrders h).mpr ht
  rcases State.planOne_cases x r with ⟨k, hp⟩ | ⟨i, c, k, -, hp⟩ | hp <;> rw [hp]
  · exact hedit k
  · obtain ⟨nt, cl, heq⟩ := x.1.lend_eq r i k
    dsimp only
    rw [heq]
    exact hedit k
  · exact ht

/-- A plan fills in the served risers and those skipped. -/
theorem State.planOne_record (x : State × PageRecord) (r : Riser) : (State.planOne x r).2 =
    { x.2 with served := (State.planOne x r).2.served, skipped := (State.planOne x r).2.skipped } := by
  rcases State.planOne_cases x r with ⟨k, hp⟩ | ⟨i, c, k, -, hp⟩ | hp <;> rw [hp]

/-- A riser not yet planned is then served or skipped, and not both. -/
theorem State.planOne_skipped {x : State × PageRecord} (hs : vget x.2.served r = none) (hn : r ∉ x.2.skipped) :
    r ∈ (State.planOne x r).2.skipped ↔ vget (State.planOne x r).2.served r = none := by
  rcases State.planOne_cases x r with ⟨k, hp⟩ | ⟨i, c, k, -, hp⟩ | hp <;> rw [hp]
  · simp [hn]
  · simp [hn]
  · simp [hs]

/-- The slot of a served riser is the page's. -/
theorem State.planOne_served {x : State × PageRecord} (hs : vget x.2.served r = none) {v : Served}
    (hv : vget (State.planOne x r).2.served r = some v) :
    vget ((State.planOne x r).1.riser r).staged v.slot = .page := by
  have hedit : ∀ k, vget ((x.1.edit r k .page).riser r).staged k = .page := fun k => by
    rw [State.edit_staged, if_pos ⟨rfl, rfl⟩]
  rcases State.planOne_cases x r with ⟨k, hp⟩ | ⟨i, c, k, -, hp⟩ | hp <;> rw [hp] at hv ⊢
  · obtain rfl := Option.some_inj.mp ((vget_vset_self ..).symm.trans hv)
    exact hedit k
  · obtain rfl := Option.some_inj.mp ((vget_vset_self ..).symm.trans hv)
    dsimp only
    rw [State.lend_riser]
    exact hedit k
  · exact nomatch hs.symm.trans hv

end

/-! ## The risers planned one by one (R135) -/

section
variable {l : List Riser} {r : Riser}

theorem State.plans_other (hr : r ∉ l) (x : State × PageRecord) : PlanSame r x (l.foldl State.planOne x) := by
  induction l generalizing x with
  | nil => exact .refl r x
  | cons r' l ih =>
    obtain ⟨hne, hr⟩ := not_or.mp (mt List.mem_cons.mpr hr)
    exact (State.planOne_other x (Ne.symm hne)).trans (ih hr _)

theorem State.plans_takesOrders {h : Handset} {x : State × PageRecord} (ht : TakesOrders x.1 h) :
    TakesOrders (l.foldl State.planOne x).1 h := by
  induction l generalizing x with
  | nil => exact ht
  | cons r l ih => exact ih (State.planOne_takesOrders x r ht)

theorem State.plans_record (x : State × PageRecord) : (l.foldl State.planOne x).2 =
    { x.2 with served := (l.foldl State.planOne x).2.served, skipped := (l.foldl State.planOne x).2.skipped } := by
  induction l generalizing x with
  | nil => rfl
  | cons r l ih => rw [List.foldl_cons, ih, State.planOne_record]

variable (hl : l.Nodup)
include hl

/-- A call that no plan names a lender is what it was. -/
theorem State.plans_call {i : Rec} {x : State × PageRecord} (h : ∀ r ∈ l, ∀ v,
    vget (l.foldl State.planOne x).2.served r = some v → v.lender.map Prod.fst ≠ some i) :
    (l.foldl State.planOne x).1.call i = x.1.call i := by
  induction l generalizing x with
  | nil => rfl
  | cons r l ih =>
    obtain ⟨hr, hl⟩ := List.nodup_cons.mp hl
    have hhead := State.planOne_call x r (i := i) fun v hv =>
      h r (List.mem_cons_self ..) v ((State.plans_other hr (State.planOne x r)).served.trans hv)
    exact (ih hl fun r' hr' => h r' (List.mem_cons_of_mem _ hr')).trans hhead

/-- A call that none of the risers carries lends nothing. -/
theorem State.plans_call_uncarried {i : Rec} {x : State × PageRecord}
    (h : ∀ r ∈ l, ∀ k, vget (x.1.riser r).staged k ≠ .carrying i) : (l.foldl State.planOne x).1.call i = x.1.call i := by
  induction l generalizing x with
  | nil => rfl
  | cons r l ih =>
    obtain ⟨hr, hl⟩ := List.nodup_cons.mp hl
    refine (ih hl fun r' hr' k => ?_).trans (State.planOne_call_uncarried x r (h r (List.mem_cons_self ..)))
    rw [(State.planOne_other x fun hrr' : r = r' => hr (hrr' ▸ hr')).riser]
    exact h r' (List.mem_cons_of_mem _ hr') k

/-- The plan of a riser is made from what the riser was, and stands. -/
theorem State.plans_at (hr : r ∈ l) (x : State × PageRecord) :
    ∃ y, PlanSame r x y ∧ PlanSame r (State.planOne y r) (l.foldl State.planOne x) ∧
      ∀ i, (∀ r' ∈ l, r' ≠ r → ∀ k, vget (x.1.riser r').staged k ≠ .carrying i) →
        y.1.call i = x.1.call i ∧ (l.foldl State.planOne x).1.call i = (State.planOne y r).1.call i := by
  obtain ⟨a, b, rfl⟩ := List.append_of_mem hr
  obtain ⟨ha, hb, hab⟩ := List.nodup_append.mp hl
  obtain ⟨hrb, hb⟩ := List.nodup_cons.mp hb
  have hra : r ∉ a := fun h => hab r h r (List.mem_cons_self ..) rfl
  rw [List.foldl_append, List.foldl_cons]
  refine ⟨a.foldl State.planOne x, State.plans_other hra x, State.plans_other hrb _, fun i hi => ⟨?_, ?_⟩⟩
  · exact State.plans_call_uncarried ha fun r' hr' => hi r' (List.mem_append_left _ hr') fun h => hra (h ▸ hr')
  · refine State.plans_call_uncarried hb fun r' hr' k => ?_
    have hne : r' ≠ r := fun h => hrb (h ▸ hr')
    have hra' : r' ∉ a := fun h => hab r' h r' (List.mem_cons_of_mem _ hr') rfl
    rw [(State.planOne_other _ (Ne.symm hne)).riser, (State.plans_other hra' x).riser]
    exact hi r' (List.mem_append_right _ (List.mem_cons_of_mem _ hr')) hne k

end

/-! ## The page that begins (R136) -/

/-- The risers that hold candidates. -/
def pageRisers (cs : List Handset) : List Riser := allRisers.filter fun r => cs.any fun h => h.riser = r

theorem mem_pageRisers {cs : List Handset} {r : Riser} : r ∈ pageRisers cs ↔ ∃ h ∈ cs, h.riser = r := by
  simp [pageRisers, allRisers]

theorem pageRisers_nodup (cs : List Handset) : (pageRisers cs).Nodup := (List.nodup_finRange 8).filter _

/-- The plans of all risers with candidates, from a page record that serves none. -/
@[irreducible] def State.pagePlans (s : State) (g : Nat) (cs : List Handset) : State × PageRecord :=
  (pageRisers cs).foldl State.planOne (s, .blank g (.start s.settings.console.page))

/-- The page record that the plans fill, its members the candidates on the risers served. -/
def State.pagePlannedFor (s : State) (g : Nat) (cs : List Handset) : PageRecord :=
  { (s.pagePlans g cs).2 with members := cs.filter fun h => (s.pagePlans g cs).2.serves h.riser }

theorem State.pagePlanned_eq (s : State) (g : Nat) (cs : List Handset) :
    s.pagePlanned g cs = ((s.pagePlans g cs).1, s.pagePlannedFor g cs) := by
  unfold State.pagePlannedFor State.pagePlans
  rfl

/-- The plans leave the group and the timer of the page record. -/
theorem State.pagePlans_record (s : State) (g : Nat) (cs : List Handset) :
    (s.pagePlans g cs).2.group = g ∧ (s.pagePlans g cs).2.timer = .start s.settings.console.page := by
  have hrecord := State.plans_record (l := pageRisers cs) (s, .blank g (.start s.settings.console.page))
  unfold State.pagePlans
  exact ⟨congrArg PageRecord.group hrecord, congrArg PageRecord.timer hrecord⟩

theorem PageRecord.blank_served (g : Nat) (t : Timer) (r : Riser) : vget (PageRecord.blank g t).served r = none :=
  vget_replicate ..

section
variable {s : State} {g : Nat} {cs : List Handset}

/-- A riser without candidates has no part in the page. -/
theorem State.pagePlans_without {r : Riser} (h : ∀ x ∈ cs, x.riser ≠ r) : vget (s.pagePlans g cs).2.served r = none ∧
    r ∉ (s.pagePlans g cs).2.skipped ∧ ((s.pagePlans g cs).1.riser r).staged = (s.riser r).staged := by
  have hsame : PlanSame r (s, .blank g (.start s.settings.console.page)) (s.pagePlans g cs) := by
    unfold State.pagePlans
    refine State.plans_other (fun hr => ?_) _
    obtain ⟨x, hx, hxr⟩ := mem_pageRisers.mp hr
    exact h x hx hxr
  refine ⟨hsame.served.trans (PageRecord.blank_served ..), fun hr => ?_, by rw [hsame.riser]⟩
  exact nomatch hsame.skipped.mp hr

/-- The riser of a candidate is planned from what it was, and its calls then are what they were, when it alone carries them. -/
theorem State.pagePlans_at {h : Handset} (hh : h ∈ cs) : ∃ y : State × PageRecord,
    y.1.riser h.riser = s.riser h.riser ∧ vget y.2.served h.riser = none ∧ h.riser ∉ y.2.skipped ∧
    PlanSame h.riser (State.planOne y h.riser) (s.pagePlans g cs) ∧
    ∀ i, (∀ r', r' ≠ h.riser → ∀ k, vget (s.riser r').staged k ≠ .carrying i) →
      y.1.call i = s.call i ∧ (s.pagePlans g cs).1.call i = (State.planOne y h.riser).1.call i := by
  unfold State.pagePlans
  obtain ⟨y, hy, hplan, hcalls⟩ := State.plans_at (pageRisers_nodup cs) (mem_pageRisers.mpr ⟨h, hh, rfl⟩)
    (s, .blank g (.start s.settings.console.page))
  exact ⟨y, hy.riser, hy.served.trans (PageRecord.blank_served ..), (fun hr => nomatch hy.skipped.mp hr),
    hplan, fun i hi => hcalls i fun r' _ => hi r'⟩

theorem State.pagePlans_skipped {h : Handset} (hh : h ∈ cs) :
    h.riser ∈ (s.pagePlans g cs).2.skipped ↔ vget (s.pagePlans g cs).2.served h.riser = none := by
  obtain ⟨y, -, hserved, hskipped, hplan, -⟩ := State.pagePlans_at (s := s) (g := g) hh
  rw [hplan.skipped, hplan.served]
  exact State.planOne_skipped hserved hskipped

/-- The slot of a served riser is the page's. -/
theorem State.pagePlans_staged {r : Riser} {v : Served} (hv : vget (s.pagePlans g cs).2.served r = some v) :
    vget ((s.pagePlans g cs).1.riser r).staged v.slot = .page := by
  by_cases hr : ∃ h ∈ cs, h.riser = r
  · obtain ⟨h, hh, rfl⟩ := hr
    obtain ⟨y, -, hserved, -, hplan, -⟩ := State.pagePlans_at (s := s) (g := g) hh
    rw [hplan.riser]
    exact State.planOne_served hserved (hplan.served.symm.trans hv)
  · exact nomatch (State.pagePlans_without fun x hx hxr => hr ⟨x, hx, hxr⟩).1.symm.trans hv

/-- The page takes the lowest free slot of a candidate's riser. -/
theorem State.pagePlans_take {h : Handset} (hh : h ∈ cs) {k : Slot} (hk : (s.riser h.riser).lowestFree = some k) :
    vget (s.pagePlans g cs).2.served h.riser = some { slot := k, lender := none } := by
  obtain ⟨y, hriser, -, -, hplan, -⟩ := State.pagePlans_at (s := s) (g := g) hh
  rw [hplan.served, State.planOne_take (hriser.symm ▸ hk)]
  exact vget_vset_self ..

/-- A call that a riser carries is carried by no other (R33). -/
theorem uncarried_elsewhere (hs : SlotsFollowTheirCalls s) {r : Riser} {k : Slot} {i : Rec}
    (hk : vget (s.riser r).staged k = .carrying i) (r' : Riser) (hne : r' ≠ r) (k' : Slot) :
    vget (s.riser r').staged k' ≠ .carrying i := fun hk' => hne (hs.oneCarries r' k' r k i hk' hk)

/-- Without a free slot the page has that of the call found on the candidate's riser, which becomes HELD. -/
theorem State.pagePlans_lend (hs : SlotsFollowTheirCalls s) {h : Handset} (hh : h ∈ cs)
    (hfull : (s.riser h.riser).lowestFree = none) {i : Rec} {c : Call} {k : Slot}
    (hy : s.youngest h.riser = some (i, c, k)) :
    vget (s.pagePlans g cs).2.served h.riser = some { slot := k, lender := some (i, c.serial) } ∧
      (s.pagePlans g cs).1.call i = some c.lent := by
  obtain ⟨hk, hc, -⟩ := State.youngest_onSlot hy
  obtain ⟨y, hriser, -, -, hplan, hcalls⟩ := State.pagePlans_at (s := s) (g := g) hh
  have hyoungest : y.1.youngest h.riser = some (i, c, k) :=
    (State.youngest_congr hriser fun k' j hj => (hcalls j (uncarried_elsewhere hs hj)).1).trans hy
  obtain ⟨hbefore, hafter⟩ := hcalls i (uncarried_elsewhere hs hk)
  have hlend := State.planOne_lend (hriser.symm ▸ hfull) hyoungest
  refine ⟨?_, ?_⟩
  · rw [hplan.served, hlend]
    exact vget_vset_self ..
  · rw [hafter, hlend, State.lend_call, if_pos rfl, hbefore, hc]
    rfl

/-- A call that lends nothing is what it was. -/
theorem State.pagePlans_call {i : Rec}
    (h : ∀ r v, vget (s.pagePlans g cs).2.served r = some v → v.lender.map Prod.fst ≠ some i) :
    (s.pagePlans g cs).1.call i = s.call i := by
  unfold State.pagePlans at h ⊢
  exact State.plans_call (pageRisers_nodup cs) fun r _ => h r

/-- No riser can serve: none has a free slot, and none carries a CONNECTED call. -/
theorem State.pagePlans_unserved (h : ∀ x ∈ cs, (s.riser x.riser).lowestFree = none ∧
    ∀ k i c, vget (s.riser x.riser).staged k = .carrying i → s.call i = some c → c.state ≠ .connected) (r : Riser) :
    vget (s.pagePlans g cs).2.served r = none := by
  have hskips : ∀ (l : List Riser) (x : State × PageRecord), x.1 = s → (∀ r ∈ l, r ∈ pageRisers cs) →
      (l.foldl State.planOne x).2.served = x.2.served := fun l => by
    induction l with
    | nil => exact fun _ _ _ => rfl
    | cons r l ih =>
      rintro x rfl hl
      obtain ⟨y, hy, rfl⟩ := mem_pageRisers.mp (hl r (List.mem_cons_self ..))
      obtain ⟨hfull, hno⟩ := h y hy
      have hskip := State.planOne_skip hfull
        (State.youngest_eq_none.mpr fun k i c ⟨hk, hc, hs⟩ => hno k i c hk hc hs)
      rw [List.foldl_cons, hskip]
      exact ih _ rfl fun r' hr' => hl r' (List.mem_cons_of_mem _ hr')
  have hserved := hskips (pageRisers cs) (s, .blank g (.start s.settings.console.page)) rfl fun _ => id
  rw [State.pagePlans, hserved]
  exact PageRecord.blank_served ..

/-- A riser can serve: it has a free slot, or carries a call, which is CONNECTED. -/
theorem State.pagePlans_served (h : (∃ x ∈ cs, (s.riser x.riser).lowestFree.isSome = true) ∨
    (SlotsFollowTheirCalls s ∧ ∃ x ∈ cs, ∃ k i, vget (s.riser x.riser).staged k = .carrying i)) :
    ∃ r, (s.pagePlans g cs).2.serves r = true := by
  have htake : ∀ x ∈ cs, (s.riser x.riser).lowestFree ≠ none → (s.pagePlans g cs).2.serves x.riser = true := fun x hx hk => by
    obtain ⟨k, hk⟩ := Option.ne_none_iff_exists'.mp hk
    rw [PageRecord.serves, State.pagePlans_take hx hk]
    rfl
  rcases h with ⟨x, hx, hk⟩ | ⟨hs, x, hx, k, i, hk⟩
  · exact ⟨x.riser, htake x hx (Option.isSome_iff_ne_none.mp hk)⟩
  · refine ⟨x.riser, ?_⟩
    by_cases hfull : (s.riser x.riser).lowestFree = none
    · obtain ⟨c, hc, hstate⟩ := hs.carrying _ k i hk
      cases hy : s.youngest x.riser with
      | none => exact absurd ⟨hk, hc, hstate⟩ (State.youngest_eq_none.mp hy k i c)
      | some y =>
        obtain ⟨served, -⟩ := State.pagePlans_lend (g := g) hs hx hfull hy
        rw [PageRecord.serves, served]
        rfl
    · exact htake x hx hfull

end

/-- The state once the plans are made and PAGE-ON waits for the members. -/
@[irreducible] def State.pageBegun (s : State) (g : Nat) (cs : List Handset) : State :=
  (s.pagePlannedFor g cs).members.foldl (State.pageOn (s.pagePlannedFor g cs)) (s.pagePlans g cs).1

theorem State.pageOn_orders (p : PageRecord) (s : State) (h : Handset) : OrdersTo (· = h) s (State.pageOn p s h) := by
  unfold State.pageOn; split
  · exact State.order_orders ..
  · exact .refl _ s

theorem State.pageBegun_orders (s : State) (g : Nat) (cs : List Handset) :
    OrdersTo (fun _ => True) (s.pagePlans g cs).1 (s.pageBegun g cs) := by
  unfold State.pageBegun
  exact .foldl (fun h _ s => (State.pageOn_orders _ s h).mono fun _ _ => trivial) _

/-- PAGE-ON waits for each member that takes orders. -/
theorem State.pageBegun_hasOrder {s : State} {g : Nat} {cs : List Handset} {h : Handset}
    (hh : h ∈ (s.pagePlannedFor g cs).members) (ht : TakesOrders s h) {v : Served}
    (hv : vget (s.pagePlannedFor g cs).served h.riser = some v) : HasOrder (s.pageBegun g cs) h (.pageOn v.slot) := by
  have htakes : TakesOrders (s.pagePlans g cs).1 h := by
    unfold State.pagePlans
    exact State.plans_takesOrders ht
  unfold State.pageBegun
  refine State.hasOrder_foldl (g := id) (fun s x => State.pageOn_orders _ s x) hh (fun _ _ => id) (fun u _ hu => ?_) htakes
  simp only [State.pageOn, id, hv]
  exact State.hasOrder_order hu _

/-! ## PAGE-START (R134 to R136) -/

section
variable {s : State} {group : Byte} {cs : List Handset} (hc : s.console = .idle) (h1 : 0 < group.toNat)
  (h15 : group.toNat ≤ 15) (hcs : s.candidates group.toNat = cs)
include hc h1 h15 hcs

theorem doPageStart_state (hn : cs = []) : doPageStart group s = refuse s .state := by
  unfold doPageStart
  rw [if_neg (by simp [hc]), if_neg (by omega), hcs, hn]

theorem doPageStart_noSlot (hn : cs ≠ []) (hserve : ∀ r, vget (s.pagePlans group.toNat cs).2.served r = none) :
    doPageStart group s = refuse s .noSlot := by
  unfold doPageStart
  rw [if_neg (by simp [hc]), if_neg (by omega), hcs]
  split
  next => exact absurd rfl hn
  · refine if_neg ?_
    rw [State.pagePlanned_eq]
    simp [State.pagePlannedFor, PageRecord.serves, hserve]

theorem doPageStart_begins (hn : cs ≠ []) (hserve : ∃ r, (s.pagePlans group.toNat cs).2.serves r = true) :
    ∃ data, doPageStart group s = finished
      ((((s.pageBegun group.toNat cs).setPage (some (s.pagePlannedFor group.toNat cs))).setConsole .paging).post
        (.pageStarted (s.pagePlannedFor group.toNat cs).info)) data := by
  unfold doPageStart
  rw [if_neg (by simp [hc]), if_neg (by omega), hcs]
  split
  next => exact absurd rfl hn
  · obtain ⟨r, hr⟩ := hserve
    dsimp only
    rw [State.pagePlanned_eq]
    unfold State.pageBegun
    exact ⟨_, if_pos (List.any_eq_true.mpr ⟨r, List.mem_finRange r, hr⟩)⟩

end

/-- A request that begins a page leaves the page record, the console PAGING, and the risers and calls as the plans and the
orders leave them. -/
theorem pageStart_begins {s : State} (ha : Accepts s) (tag : Byte) {group : Byte} {cs : List Handset}
    (hc : s.console = .idle) (h1 : 0 < group.toNat) (h15 : group.toNat ≤ 15)
    (hcs : s.messageArrived.candidates group.toNat = cs) (hn : cs ≠ [])
    (hserve : ∃ r, (s.messageArrived.pagePlans group.toNat cs).2.serves r = true) :
    ∃ t, exec (.pageStart tag group) s = .next t ∧ t.page = some (s.messageArrived.pagePlannedFor group.toNat cs) ∧
      t.console = .paging ∧ (∀ r, t.riser r = (s.messageArrived.pageBegun group.toNat cs).riser r) ∧
      ∀ i, t.call i = (s.messageArrived.pageBegun group.toNat cs).call i := by
  obtain ⟨data, hrun⟩ := doPageStart_begins (s := s.messageArrived) hc h1 h15 hcs hn hserve
  refine ⟨_, congrArg Host.Outcome.next (State.request_finished ha (q := .pageStart group) hrun), rfl, rfl, fun r => ?_,
    fun i => ?_⟩
  · rw [State.reply_riser, State.post_riser, State.setConsole_riser, State.setPage_riser]
  · rw [State.reply_call, State.post_call, State.setConsole_call, State.setPage_call]

/-- The message's arrival moves no call and no slot. -/
theorem State.messageArrived_slotsFollow {s : State} (h : SlotsFollowTheirCalls s) : SlotsFollowTheirCalls s.messageArrived :=
  ⟨h.reserved, h.carrying, h.oneARiser, h.oneCarries⟩

/-- A call whose connect sequence is above those of the others on its riser is the one that lends. -/
theorem State.youngest_of_highest {s : State} (hs : SlotsFollowTheirCalls s) {r : Riser} {i : Rec} {c : Call} {k : Slot}
    (h : s.OnSlot r i c k) (hmax : ∀ j d m, vget (s.riser r).staged m = .carrying j → s.call j = some d → j ≠ i →
      d.sequence.getD 0 < c.sequence.getD 0) : s.youngest r = some (i, c, k) := by
  refine State.youngest_of_greatest h fun j d m hon hm => hmax j d m hon.1 hon.2.1 ?_
  rintro rfl
  exact hm (hs.oneARiser r m k j (SlotEntry.names_iff.mpr (.inr hon.1)) (SlotEntry.names_iff.mpr (.inr h.1)))

/-- Settles O51: the tests in their order, then the plans of the risers, one by one. -/
theorem pageStartTakesOrBorrowsSlots : Obligations.PageStartTakesOrBorrowsSlots := by
  intro s tag group ha
  have hrefused : ∀ {reason}, doPageStart group s.messageArrived = refuse s.messageArrived reason →
      exec (.pageStart tag group) s = .next (refusal s tag reason []) := fun h =>
    congrArg Host.Outcome.next (State.request_refused ha h)
  refine ⟨fun hn => hrefused (if_pos hn), fun hc hr => hrefused ?_, fun h => State.mem_candidates,
    List.Pairwise.filter _ allHandsets_ascending, fun hc h1 h15 => ?_⟩
  · exact (if_neg (not_not_intro hc)).trans (if_pos (by omega))
  have hcs : s.messageArrived.candidates group.toNat = s.candidates group.toNat := rfl
  have htakes : ∀ h ∈ s.candidates group.toNat, TakesOrders s h := fun h hh => (State.mem_candidates.mp hh).2.1
  generalize s.candidates group.toNat = cs at hcs htakes
  refine ⟨fun hn => hrefused (doPageStart_state (s := s.messageArrived) hc h1 h15 hcs hn), fun hn hno => ?_, fun hserve => ?_⟩
  · exact hrefused (doPageStart_noSlot (s := s.messageArrived) hc h1 h15 hcs hn
      (State.pagePlans_unserved (s := s.messageArrived) hno))
  · have hn : cs ≠ [] := by
      rcases hserve with ⟨h, hh, -⟩ | ⟨-, h, hh, -⟩ <;> exact List.ne_nil_of_mem hh
    obtain ⟨t, ht, hpage, hconsole, hriser, hcall⟩ := pageStart_begins ha tag hc h1 h15 hcs hn
      (State.pagePlans_served (hserve.imp id fun ⟨hs, h⟩ => ⟨State.messageArrived_slotsFollow hs, h⟩))
    obtain ⟨hgroup, htimer⟩ := s.messageArrived.pagePlans_record group.toNat cs
    have horders := s.messageArrived.pageBegun_orders group.toNat cs
    have hstaged : ∀ r, (t.riser r).staged = ((s.messageArrived.pagePlans group.toNat cs).1.riser r).staged := fun r => by
      rw [hriser, horders.staged]
    have hcalls : ∀ i, t.call i = (s.messageArrived.pagePlans group.toNat cs).1.call i := fun i =>
      (hcall i).trans (horders.call i)
    refine ⟨t, _, ht, hpage, hconsole, hgroup, htimer, rfl, fun h hh v hv => ?_, fun r hr => ?_,
      fun h hh => State.pagePlans_skipped hh, fun h hh k hk => ?_, fun h hh hfull hs i c k hk hcall hstate hmax => ?_,
      fun i hi => (hcalls i).trans (State.pagePlans_call hi)⟩
    · unfold HasOrder
      rw [hriser]
      exact State.pageBegun_hasOrder (s := s.messageArrived) hh (htakes h (List.mem_of_mem_filter hh)) hv
    · rw [hstaged]
      exact State.pagePlans_without (s := s.messageArrived) (g := group.toNat) hr
    · have hserved := State.pagePlans_take (s := s.messageArrived) (g := group.toNat) hh hk
      rw [hstaged]
      exact ⟨hserved, State.pagePlans_staged hserved⟩
    · have hslots := State.messageArrived_slotsFollow hs
      obtain ⟨hserved, hlent⟩ := State.pagePlans_lend (g := group.toNat) hslots hh hfull
        (State.youngest_of_highest hslots ⟨hk, hcall, hstate⟩ hmax)
      rw [hstaged, hcalls]
      exact ⟨hserved, State.pagePlans_staged hserved, hlent⟩

end Sys2Proof.Machine
end

