-- ==== Sys2Proof/Proofs/RiserOrders.lean ====
section
/-! PROOFS. The orders of a riser: how they join its queue, how one is selected for a frame, and what a hit makes of it
(sections 4.1 to 4.3); and how messages join a panel's send queue (R110). -/

namespace Sys2Proof.Machine

open Sys2Proof Sys2Proof.Safety

/-! ## Orders and messages join their queues (R81, R82, R110) -/

/-- The order queue after an order joins it: the entry its address has is replaced or marked, or one joins the tail. -/
theorem enqueued_eq (a : Addr) (o : Option Order) (q : List OrderEntry) : enqueued a o q =
    if ∃ e ∈ q, e.addr = a then
      q.map fun e =>
        if e.addr = a then match o with
          | some x => { e with order := some x, changed := true }
          | none => { e with refusal := true, changed := true }
        else e
    else q ++ [{ addr := a, order := o, refusal := o.isNone, inFlight := false, changed := false }] := by
  have hretaken : ∀ e : OrderEntry, e.retaken o = match o with
      | some x => { e with order := some x, changed := true }
      | none => { e with refusal := true, changed := true } := fun e => by cases o <;> rfl
  have hany : (q.any fun e => e.addr == a) = true ↔ ∃ e ∈ q, e.addr = a := by simp
  unfold enqueued
  by_cases h : ∃ e ∈ q, e.addr = a
  · rw [if_pos (hany.mpr h), if_pos h]
    simp only [hretaken]
  · rw [if_neg (mt hany.mp h), if_neg h]

/-- An order for a handset that takes orders changes the order queue of its riser. -/
theorem State.enqueue_takes {s : State} {h : Handset} (ht : TakesOrders s h) (o : Option Order) :
    s.enqueue h o = s.modRiser h.riser fun u => { u with queue := enqueued h.addr o u.queue } := by
  unfold State.enqueue
  exact if_pos (by simp [ht.1, ht.2])

/-- Settles O26: the send queue and the order queue each take one entry, by their own rules. -/
theorem messagesAndOrdersJoinTheirQueues : Obligations.MessagesAndOrdersJoinTheirQueues := by
  refine ⟨fun s p m hu => ?_, fun s h o ht => ⟨_, State.enqueue_takes ht o, ?_, quietTimerFollows_modRiser s _ rfl, ?_⟩⟩
  · exact congrArg (s.setPanel p) (PanelUnit.handed_up hu m)
  · rw [State.modRiser_self]
    exact State.modRiser_eq ..
  · rw [State.modRiser_self]
    exact enqueued_eq ..

/-! ## Order selection (R78) -/

theorem exec_orderSelection {s : State} {r : Riser} (hr : Running s) (hf : (s.riser r).frames = true) :
    exec (.orderSelection r) s = .next (s.modRiser r (·.selected)) := by
  simp only [exec, execOrderSelection, State.whenRunning_running hr, hf, if_true]

theorem RiserUnit.silent_iff (u : RiserUnit) : u.silent = true ↔ u.state ≠ .active ∨ u.reversal.sub = .swap := by
  simp [RiserUnit.silent]

/-- In a silent frame nothing is sent. -/
theorem RiserUnit.selected_silent {u : RiserUnit} (h : u.silent = true) :
    u.selected = { u with sent := none, orderWord := none } := if_pos h

/-- With an order waiting its head is sent. -/
theorem RiserUnit.selected_head {u : RiserUnit} (h : ¬ u.silent = true) {e : OrderEntry} {rest : List OrderEntry}
    (hq : u.queue = e :: rest) : u.selected = { u with
      queue := { e with inFlight := true, changed := false } :: rest, sent := some { addr := e.addr, order := e.order }
      orderWord := some e.word } := by
  rw [RiserUnit.selected, if_neg h, hq]

/-- With no order waiting a POLL is sent. -/
theorem RiserUnit.selected_poll {u : RiserUnit} (h : ¬ u.silent = true) (hq : u.queue = []) : u.selected = { u with
    sent := some { addr := u.pollPointer, order := none }, orderWord := some (pollWord u.pollPointer)
    pollPointer := u.pollPointer + 1 } := by
  rw [RiserUnit.selected, if_neg h, hq]

/-- Settles O6: the three cases of the selection. -/
theorem orderSelectionSendsTheHeadOrPolls : Obligations.OrderSelectionSendsTheHeadOrPolls := by
  intro s r hr hf
  have hself := State.modRiser_self s r (·.selected)
  have hstate := State.modRiser_eq s r (·.selected)
  refine ⟨_, exec_orderSelection hr hf, ?_, quietTimerFollows_modRiser s r (by rw [RiserUnit.selected_fields]), ?_⟩
  · rw [hself]
    refine hstate.trans (congrArg (s.setRiser r) ?_)
    rw [RiserUnit.selected_fields]
  · rw [hself]
    by_cases hsilent : (s.riser r).silent = true
    · rw [if_pos ((RiserUnit.silent_iff _).mp hsilent), RiserUnit.selected_silent hsilent]
      exact ⟨rfl, rfl, rfl⟩
    · rw [if_neg (mt (RiserUnit.silent_iff _).mpr hsilent)]
      split
      next e rest hq =>
        rw [RiserUnit.selected_head hsilent hq]
        exact ⟨rfl, rfl, rfl, rfl⟩
      next hq =>
        rw [RiserUnit.selected_poll hsilent hq]
        exact ⟨rfl, rfl, hq, Fin.val_add ..⟩

/-! ## Hits (R79, R83, R86, R87) -/

/-- An answer that matches its order is a hit. -/
theorem exec_answerArrival_hit {s : State} {r : Riser} {x : Sent} {w : BitVec 12} {a : Answer} (hr : Running s)
    (hx : (s.riser r).sent = some x) (hw : readAnswer x.addr w = some a) :
    exec (.answerArrival r (some w)) s = .next (s.hit r x a) := by
  simp only [exec, execAnswerArrival, State.whenRunning_running hr, hx, Option.bind_some, hw]

/-- What a hit makes of its riser is what Table 4.1 and the rules of presence give. -/
theorem RiserUnit.hit_eq (u : RiserUnit) (x : Sent) :
    (({ u with sent := none, queue := settledByHit x.addr u.queue }).delivered x).withPresence x.addr
      { vget u.presence x.addr with present := true, misses := 0 } = hitUnit u x (vget u.presence x.addr).offHook := by
  obtain ⟨a, o⟩ := x
  cases o with
  | none => rfl
  | some o => cases o <;> rfl

/-- The part after a hit, before its events are handed. -/
def State.answered (s : State) (r : Riser) (x : Sent) : State :=
  let t := s.modRiser r fun u => hitUnit u x (vget u.presence x.addr).offHook
  if (vget (s.riser r).presence x.addr).present then t else t.post (.handset true { riser := r, addr := x.addr })

theorem State.hit_eq (s : State) (r : Riser) (x : Sent) (a : Answer) : s.hit r x a =
    ((s.answered r x).hookEvent { riser := r, addr := x.addr } a.offHook).keyEvent { riser := r, addr := x.addr } a.key := by
  have hmod : (s.modRiser r fun u => (({ u with sent := none, queue := settledByHit x.addr u.queue }).delivered x).withPresence
      x.addr { vget (s.riser r).presence x.addr with present := true, misses := 0 }) =
      s.modRiser r fun u => hitUnit u x (vget u.presence x.addr).offHook :=
    congrArg (fun u => s.setRiser r (.retimed (s.riserProfile r).quiet (s.riser r) u)) (RiserUnit.hit_eq (s.riser r) x)
  unfold State.hit State.answered
  dsimp only [State.presence]
  rw [hmod]

/-- A hit changes its riser, and posts a HANDSET report of a handset that was ABSENT. -/
theorem State.answered_eq (s : State) (r : Riser) (x : Sent) : s.answered r x =
    { s.setRiser r { hitUnit (s.riser r) x (vget (s.riser r).presence x.addr).offHook with
        quietTimer := ((s.answered r x).riser r).quietTimer } with
      clu := if (vget (s.riser r).presence x.addr).present then s.clu
        else s.clu.posted (.handset true { riser := r, addr := x.addr }) } := by
  have hmod := State.modRiser_eq s r fun u => hitUnit u x (vget u.presence x.addr).offHook
  unfold State.answered
  split
  · exact hmod
  · exact congrArg (State.post · _) hmod

theorem State.answered_follows (s : State) (r : Riser) (x : Sent) : QuietTimerFollows s (s.answered r x) r := by
  have hmod : QuietTimerFollows s (s.modRiser r fun u => hitUnit u x (vget u.presence x.addr).offHook) r :=
    quietTimerFollows_modRiser s r rfl
  unfold State.answered
  split
  · exact hmod
  · exact quietTimerFollows_congr hmod rfl rfl

/-- Settles O9: the hit settles its order, then hands its events. -/
theorem aHitHandsHookBeforeKey : Obligations.AHitHandsHookBeforeKey := fun s r x w a hr hx hw =>
  ⟨s.answered r x, by rw [exec_answerArrival_hit hr hx hw, State.hit_eq], s.answered_follows r x, s.answered_eq r x⟩

/-- A hook event that reports the hook the record holds changes nothing. -/
theorem State.hookEvent_same {s : State} {h : Handset} {off : Bool} (hp : (s.presence h).offHook = off) :
    s.hookEvent h off = s := if_pos hp

/-- Settles O8: with the hook unchanged and no key a hit hands no event. -/
theorem aHitDeliversTheOrder : Obligations.AHitDeliversTheOrder := by
  intro s r x w a hr hx hw hkey hpresent hhook
  obtain ⟨t, hexec, hfollows, ht⟩ := aHitHandsHookBeforeKey s r x w a hr hx hw
  rw [hhook, if_pos hpresent] at ht
  have hself : t.riser r = { hitUnit (s.riser r) x a.offHook with quietTimer := (t.riser r).quietTimer } := by
    conv_lhs => rw [ht]
    exact vget_vset_self ..
  have hsame : (t.presence { riser := r, addr := x.addr }).offHook = a.offHook := by
    rw [State.presence, hself]
    simp [hitUnit]
  refine ⟨t, ?_, hfollows, ht⟩
  rw [hexec, State.hookEvent_same hsame, hkey]
  rfl

end Sys2Proof.Machine
end

