-- ==== Sys2Proof/Proofs/Checks.lean ====
section
/-! PROOFS. The check of messages and frames (R176), and the fields of order and answer words (R80, R212). -/

namespace Sys2Proof.Machine

open Sys2Proof Sys2Proof.Safety

/-! ## The check (R176) -/

/-- With the carry added back two sums reach 65535: 65535 itself, and the greatest. -/
theorem sum_eq_of_carried {a b : Nat} (ha : a < 65536) (hb : b < 65536)
    (h : ((a + b) % 65536 + (a + b) / 65536) % 65536 = 65535) : a + b = 65535 ∨ (a = 65535 ∧ b = 65535) := by
  by_cases hcarry : a + b < 65536
  · omega
  · have hone : (a + b) / 65536 = 1 := by omega
    omega

theorem toNat_add_toNat_not (w : Word) : w.toNat + (~~~ w).toNat = 65535 := by
  rw [BitVec.toNat_not]
  have := w.isLt
  omega

/-- Two words add to 0xFFFF when they are complements, and beside that only as 0xFFFF twice. -/
theorem onesAdd_eq_ones {a b : Word} (h : onesAdd a b = 0xFFFF) : b = ~~~ a ∨ (~~~ a = 0 ∧ b = 0xFFFF) := by
  have hsum : ((a.toNat + b.toNat) % 65536 + (a.toNat + b.toNat) / 65536) % 65536 = 65535 := by
    simpa [onesAdd] using congrArg BitVec.toNat h
  rcases sum_eq_of_carried a.isLt b.isLt hsum with hc | ⟨ha, hb⟩
  · refine .inl (BitVec.eq_of_toNat_eq ?_)
    exact Nat.add_left_cancel (hc.trans (toNat_add_toNat_not a).symm)
  · exact .inr ⟨BitVec.eq_of_toNat_eq (by simp [ha]), BitVec.eq_of_toNat_eq (by simp [hb])⟩

/-- The check that passes is the one formed, or 0xFFFF in place of 0. -/
theorem eq_checkOf_of_checkPasses {bytes : List Byte} {check : Word} (h : checkPasses bytes check = true) :
    check = checkOf bytes ∨ (checkOf bytes = 0 ∧ check = 0xFFFF) :=
  onesAdd_eq_ones (beq_iff_eq.mp h)

theorem makePanelFrame_good (x : Sample) (code : Byte) (param : Word) :
    panelFrameGood (makePanelFrame x code param) = true :=
  Bool.and_eq_true_iff.mpr ⟨beq_self_eq_true _, checkPasses_checkOf _⟩

theorem makeConsoleFrame_good (x : Sample) (control : Option (Bool × Byte)) :
    consoleFrameGood (makeConsoleFrame x control) = true := by
  cases control <;> exact Bool.and_eq_true_iff.mpr ⟨beq_self_eq_true _, checkPasses_checkOf _⟩

/-! ## Order words (R212) -/

theorem bit_le (b : Bool) : bit b ≤ 1 := by cases b <;> decide

/-- A check nibble below the other three adds to their sum. -/
theorem nibbleSum_add {head c : Nat} (h : head % 16 = 0) (hc : c < 16) : nibbleSum (head + c) = nibbleSum head + c := by
  have h1 : (head + c) / 16 = head / 16 := by omega
  have h2 : (head + c) / 256 = head / 256 := by omega
  have h3 : (head + c) / 4096 = head / 4096 := by omega
  rw [nibbleSum, nibbleSum, h1, h2, h3]
  omega

/-- The check nibble makes the sum of the nibbles 15 modulo 16. -/
theorem nibbleSum_checked {head : Nat} (h : head % 16 = 0) :
    nibbleSum (head + (31 - nibbleSum head % 16) % 16) % 16 = 15 := by
  rw [nibbleSum_add h (Nat.mod_lt _ (by decide))]
  omega

/-- The number an order word carries: its head and its check nibble. -/
theorem makeOrderWord_toNat (a : Addr) {code slot : Nat} (mark : Bool) (hc : code < 16) (hs : slot < 4) :
    ∃ head, head = a.val * 2048 + code * 128 + slot * 32 + bit mark * 16 ∧
      (makeOrderWord a code slot mark).toNat = head + (31 - nibbleSum head % 16) % 16 := by
  refine ⟨_, rfl, ?_⟩
  have ha := a.isLt
  have hm := bit_le mark
  rw [makeOrderWord, BitVec.toNat_ofNat]
  omega

theorem makeOrderWord_fields (a : Addr) {code slot : Nat} (mark : Bool) (hc : code < 16) (hs : slot < 4) :
    let w := makeOrderWord a code slot mark
    nibbleSum w.toNat % 16 = 15 ∧ w.toNat / 2048 = a.val ∧ w.toNat / 128 % 16 = code ∧ w.toNat / 32 % 4 = slot ∧
      w.getLsbD 4 = mark := by
  obtain ⟨head, hhead, hw⟩ := makeOrderWord_toNat a mark hc hs
  have hm := bit_le mark
  have hmark : (makeOrderWord a code slot mark).toNat / 16 % 2 = bit mark := by rw [hw]; omega
  refine ⟨?_, ?_, ?_, ?_, ?_⟩
  · rw [hw]; exact nibbleSum_checked (by omega)
  · rw [hw]; omega
  · rw [hw]; omega
  · rw [hw]; omega
  · rw [BitVec.getLsbD, Nat.testBit_eq_decide_div_mod_eq, hmark]
    cases mark <;> rfl

/-! ## Answer words (R80) -/

/-- The address field of an answer word. -/
theorem answerAddr_toNat (w : BitVec 12) : (w.extractLsb' 7 5).toNat = w.toNat / 128 := by
  have := w.isLt
  rw [BitVec.extractLsb'_toNat, Nat.shiftRight_eq_div_pow]
  omega

/-- The key field of an answer word. -/
theorem answerKey_toNat (w : BitVec 12) : (w.extractLsb' 4 2).toNat = w.toNat / 16 % 4 := by
  rw [BitVec.extractLsb'_toNat, Nat.shiftRight_eq_div_pow]

/-- The key that a key field names. -/
def keyOf (n : Nat) : Key :=
  match n with
  | 1 => .release
  | 2 => .concierge
  | _ => .none

theorem keyOf_release (n : Nat) : keyOf n = .release ↔ n = 1 := by
  unfold keyOf; split <;> simp_all

theorem keyOf_concierge (n : Nat) : keyOf n = .concierge ↔ n = 2 := by
  unfold keyOf; split <;> simp_all

theorem readAnswer_none {a : Addr} {w : BitVec 12} (h : nibbleSum w.toNat % 16 ≠ 15 ∨ w.toNat / 128 ≠ a.val) :
    readAnswer a w = none := by
  rw [readAnswer, answerAddr_toNat, if_neg (by omega)]

theorem readAnswer_some {a : Addr} {w : BitVec 12} (hn : nibbleSum w.toNat % 16 = 15) (ha : w.toNat / 128 = a.val) :
    readAnswer a w = some { offHook := w.getLsbD 6, key := keyOf (w.toNat / 16 % 4) } := by
  rw [readAnswer, answerAddr_toNat, if_pos ⟨hn, ha⟩, answerKey_toNat]
  rfl

/-- Settles O36: the check and its uniqueness, then the fields of the two words. -/
theorem checksAndOrderWordsAreFormedAndRead : Obligations.ChecksAndOrderWordsAreFormedAndRead :=
  ⟨checkPasses_checkOf, fun _ _ => eq_checkOf_of_checkPasses, makePanelFrame_good, makeConsoleFrame_good,
    fun a _ _ mark hc hs => makeOrderWord_fields a mark hc hs, fun _ _ => readAnswer_none,
    fun _ _ hn ha => ⟨_, readAnswer_some hn ha, rfl, keyOf_release _, keyOf_concierge _⟩⟩

end Sys2Proof.Machine
end

