-- ==== Sys2Proof/Proofs/Reversal.lean ====
section
/-! PROOFS. The polarity reversal of a riser, counted by its boundaries (R96, R97), and the events of a riser's own timers: wake
pulses, the three expiries and the ends of reversal phases (sections 4.1, 4.4 and 4.5). -/

namespace Sys2Proof.Machine

open Sys2Proof Sys2Proof.Safety

/-! ## What a scan leaves to the boundary that follows it (R43) -/

/-- What a boundary's computation reads of a state is the same in another: a riser that is not QUIET keeps its state, and a call
is as it was, or it was QUEUED and rings. -/
structure MixAlike (s t : State) : Prop where
  awake : ∀ r, (s.riser r).state ≠ .quiet → (t.riser r).state = (s.riser r).state
  call  : ∀ i, t.call i = s.call i ∨
    ∃ c n, s.call i = some c ∧ c.state = .queued ∧ t.call i = some (c.rung n)

namespace MixAlike

variable {s t u : State}

theorem refl (s : State) : MixAlike s s := ⟨fun _ _ => rfl, fun _ => .inl rfl⟩

theorem trans (h : MixAlike s t) (g : MixAlike t u) : MixAlike s u where
  awake r hr := (g.awake r (by rw [h.awake r hr]; exact hr)).trans (h.awake r hr)
  call i := by
    rcases g.call i with hg | ⟨d, n, hd, hq, hu⟩
    · rw [hg]; exact h.call i
    · rcases h.call i with hh | ⟨c, k, hc, hq', ht⟩
      · exact .inr ⟨d, n, hh ▸ hd, hq, hu⟩
      · rw [ht] at hd
        cases hd
        cases hq

theorem scanOne (s : State) (i : Rec) : MixAlike s (s.scanOne i) := by
  unfold State.scanOne
  split
  · exact refl s
  next c hc =>
    split
    next hgrant =>
      have hslots := State.reserve_slots ({ s with waitQueue := s.waitQueue.filter (· ≠ i) }) i c.riserSet
      generalize ({ s with waitQueue := s.waitQueue.filter (· ≠ i) } : State).reserve i c.riserSet = v at hslots ⊢
      have hcall : v.call i = some c := (hslots.call i).trans hc
      rw [State.enterRinging_eq hcall]
      refine ⟨fun r hr => ?_, fun j => ?_⟩
      · refine (congrArg RiserUnit.state ((v.rungLegs_orders c).riser r)).trans ?_
        exact (hslots.woken r).resolve_right fun hq => hr hq.1
      · by_cases hj : i = j
        · subst hj
          exact .inr ⟨c, _, hc, hgrant.1, vget_vset_self ..⟩
        · exact .inl ((vget_vset_ne _ hj _).trans (hslots.call j))
    · exact refl s

theorem foldl (l : List Rec) (s : State) : MixAlike s (l.foldl State.scanOne s) := by
  induction l generalizing s with
  | nil => exact refl s
  | cons i l ih => exact (scanOne s i).trans (ih _)

theorem settled (s t : State) : MixAlike t (State.settled s t) := by
  unfold State.settled
  split
  · exact foldl ..
  · exact refl t

end MixAlike

/-! ## The riser at a boundary, up to its reversal sequence (R35, R77, R95) -/

/-- The state at a boundary of riser r in which its reversal sequence and its slot outputs are computed. -/
def State.boundaryScanned (s : State) (r : Riser) (voice : List (Addr × Sample)) : State :=
  State.settled s (s.boundaryCopied r voice)

/-- The riser once the copy is made, a wake has ended and the scan has followed: what of it the computation reads. -/
structure AtBoundary (s v : State) (r : Riser) (voice : List (Addr × Sample)) : Prop where
  live     : (v.riser r).live = (s.riser r).staged
  outputs  : (v.riser r).outputs = (s.copiedUnit voice (s.riser r)).outputs
  uplink   : (v.riser r).uplink = (s.copiedUnit voice (s.riser r)).uplink
  heard    : (v.riser r).heard = (s.riser r).hearing
  reversal : (v.riser r).reversal = (s.riser r).reversal ∨ (v.riser r).reversal = .none
  active   : (s.riser r).state = .active → (v.riser r).state = .active ∧ (v.riser r).reversal = (s.riser r).reversal ∧
    (v.riser r).polarity = (s.riser r).polarity ∧ (v.riser r).reversalTimer = (s.riser r).reversalTimer

section
variable {s : State} {r : Riser}

theorem State.boundaryCopied_at (voice : List (Addr × Sample))
    (hs : (s.riser r).state = .active ∨ (s.riser r).state = .waking) :
    AtBoundary s (s.boundaryCopied r voice) r voice := by
  have hself := s.tested_self r voice
  unfold State.boundaryCopied
  generalize (s.copied r voice).testClearing = b at hself ⊢
  have hstate : (b.riser r).state = (s.riser r).state := by rw [hself]; rfl
  have hreversal : (b.riser r).reversal = (s.riser r).reversal := by rw [hself]; rfl
  rcases hs with hactive | hwaking
  · rw [State.boundaryState_active (hstate.trans hactive)]
    refine ⟨?_, ?_, ?_, ?_, .inl hreversal, fun _ => ⟨hstate.trans hactive, hreversal, ?_, ?_⟩⟩ <;> rw [hself] <;> rfl
  · have hnot : ¬ (s.riser r).state = .active := by rw [hwaking]; decide
    rw [State.boundaryState_waking (hstate.trans hwaking)]
    split
    · refine ⟨?_, ?_, ?_, ?_, .inr ?_, fun h => absurd h hnot⟩ <;> rw [State.modRiser_self]
      case refine_5 => rfl
      all_goals rw [hself]; rfl
    · refine ⟨?_, ?_, ?_, ?_, .inl hreversal, fun h => absurd h hnot⟩ <;> rw [hself] <;> rfl

/-- The scan changes nothing of this. -/
theorem State.boundaryScanned_at (voice : List (Addr × Sample))
    (hs : (s.riser r).state = .active ∨ (s.riser r).state = .waking) :
    AtBoundary s (s.boundaryScanned r voice) r voice := by
  obtain ⟨hlive, houtputs, huplink, hheard, hreversal, hactive⟩ := State.boundaryCopied_at voice hs
  unfold State.boundaryScanned
  have htouch := State.settled_touch s (s.boundaryCopied r voice)
  have halike := MixAlike.settled s (s.boundaryCopied r voice)
  generalize s.boundaryCopied r voice = u at hlive houtputs huplink hheard hreversal hactive htouch halike ⊢
  have hriser := htouch.riser r
  generalize State.settled s u = v at hriser halike ⊢
  refine ⟨?_, ?_, ?_, ?_, ?_, fun h => ?_⟩
  · rw [hriser]; exact hlive
  · rw [hriser]; exact houtputs
  · rw [hriser]; exact huplink
  · rw [hriser]; exact hheard
  · rw [hriser]; exact hreversal
  · obtain ⟨hstate, hsequence, hpolarity, htimer⟩ := hactive h
    refine ⟨(halike.awake r (by rw [hstate]; decide)).trans hstate, ?_, ?_, ?_⟩ <;> rw [hriser]
    · exact hsequence
    · exact hpolarity
    · exact htimer

end

/-- The part after the boundary: the sequence counted, then the slot outputs computed. -/
def State.boundaryMixed (v : State) (r : Riser) : State :=
  allSlots.foldl (State.mixSlot r) (v.modRiser r (·.swapped (v.riserProfile r)))

theorem exec_riserFrameBoundary_mixed {s : State} {r : Riser} (voice : List (Addr × Sample)) (hr : Running s)
    (hs : (s.riser r).state = .active ∨ (s.riser r).state = .waking) :
    exec (.riserFrameBoundary r voice) s = .next ((s.boundaryScanned r voice).boundaryMixed r) := by
  refine exec_riserFrameBoundary hr ?_ rfl
  unfold RiserUnit.frames
  rcases hs with h | h <;> rw [h]

theorem State.boundaryMixed_riser (v : State) (r : Riser) : (v.boundaryMixed r).riser r =
    { (v.riser r).swapped (v.riserProfile r) with
      mixed := ((v.boundaryMixed r).riser r).mixed, outputs := ((v.boundaryMixed r).riser r).outputs
      quietTimer := ((v.boundaryMixed r).riser r).quietTimer } := by
  have hriser := (State.mixSlots_mixed r allSlots (v.modRiser r (·.swapped (v.riserProfile r)))).riser
  unfold State.boundaryMixed
  generalize allSlots.foldl (State.mixSlot r) (v.modRiser r (·.swapped (v.riserProfile r))) = t at hriser ⊢
  rw [hriser, State.modRiser_self]

/-! ## The boundaries of a reversal sequence (R97) -/

/-- An ACTIVE riser after n + 1 boundaries since its sequence was due: in the phase that the count gives, with as many frames of
it counted off; the polarity is flipped from SWAP on, and the reversal timer starts with the return to NORMAL. -/
structure ReversalAt (m : RiserProfile) (u : RiserUnit) (n : Nat) (v : RiserUnit) : Prop where
  active   : v.state = .active
  notDue   : v.reversal.due = false
  preMute  : n < m.mute → v.reversal.sub = .preMute ∧ v.reversal.length = m.mute ∧ v.reversal.done = n
  swap     : m.mute ≤ n → n < m.mute + 8 →
    v.reversal.sub = .swap ∧ v.reversal.length = 8 ∧ v.reversal.done = n - m.mute
  postMute : m.mute + 8 ≤ n → n < 2 * m.mute + 8 →
    v.reversal.sub = .postMute ∧ v.reversal.length = m.mute ∧ v.reversal.done = n - (m.mute + 8)
  normal   : 2 * m.mute + 8 ≤ n → v.reversal.sub = .normal
  polarity : v.polarity = if n < m.mute then u.polarity else u.polarity.flipped
  timer    : v.reversalTimer = if n < 2 * m.mute + 8 then u.reversalTimer else .period m.reversal

section
variable (m : RiserProfile) {u : RiserUnit} (ha : u.state = .active)
include ha

/-- A sequence that is due starts. -/
theorem RiserUnit.reversalCounted_due (hs : u.reversal.sub = .normal) (hd : u.reversal.due = true) :
    u.reversalCounted m = u.beginPreMute m := by
  rw [RiserUnit.reversalCounted, if_pos ha, if_pos hs, if_pos hd]

/-- In NORMAL with no sequence due nothing but the mark of a phase's end changes. -/
theorem RiserUnit.reversalCounted_normal (hs : u.reversal.sub = .normal) (hd : u.reversal.due = false) :
    u.reversalCounted m = { u with reversal := { u.reversal with endTaken := false } } := by
  rw [RiserUnit.reversalCounted, if_pos ha, if_pos hs, if_neg (by simp [hd])]

/-- A frame of the phase is counted off. -/
theorem RiserUnit.reversalCounted_frame (hs : u.reversal.sub ≠ .normal) (hl : u.reversal.done + 1 < u.reversal.length) :
    u.reversalCounted m =
      { u with reversal := { u.reversal with done := u.reversal.done + 1, endTaken := false } } := by
  rw [RiserUnit.reversalCounted, if_pos ha, if_neg hs, if_pos hl]

/-- The last frame of a phase takes its end. -/
theorem RiserUnit.reversalCounted_end (hs : u.reversal.sub ≠ .normal) (hl : u.reversal.length ≤ u.reversal.done + 1) :
    u.reversalCounted m =
      { u.phaseEnded m with reversal := { (u.phaseEnded m).reversal with endTaken := true } } := by
  rw [RiserUnit.reversalCounted, if_pos ha, if_neg hs, if_neg (by omega)]

end

/-- The sequence starts with the boundary at which it is due. -/
theorem reversalAt_start (m : RiserProfile) {u : RiserUnit} (ha : u.state = .active) (hs : u.reversal.sub = .normal)
    (hd : u.reversal.due = true) : ReversalAt m u 0 (u.reversalCounted m) := by
  rw [RiserUnit.reversalCounted_due m ha hs hd, RiserUnit.beginPreMute]
  split
  next hm =>
    constructor <;> simp [RiserUnit.beginSwap, Reversal.phase, Config.swapFrames, hm, ha]
  next hm =>
    have hpos : 0 < m.mute := Nat.pos_of_ne_zero hm
    constructor <;> simp [Reversal.phase, hm, ha, hpos]

/-- One more boundary takes the sequence one frame on. -/
theorem ReversalAt.next {m : RiserProfile} {u v : RiserUnit} {n : Nat} (h : ReversalAt m u n v) :
    ReversalAt m u (n + 1) (v.reversalCounted m) := by
  obtain ⟨ha, hd, hpre, hswap, hpost, hnormal, hpolarity, htimer⟩ := h
  by_cases h1 : n < m.mute
  · obtain ⟨hs, hl, hc⟩ := hpre h1
    have hsub : v.reversal.sub ≠ .normal := by simp [hs]
    by_cases hlast : n + 1 < m.mute
    · rw [RiserUnit.reversalCounted_frame m ha hsub (by omega)]
      constructor <;> grind
    · rw [RiserUnit.reversalCounted_end m ha hsub (by omega)]
      simp only [RiserUnit.phaseEnded, hs, RiserUnit.beginSwap, Reversal.phase, Config.swapFrames]
      constructor <;> grind
  by_cases h2 : n < m.mute + 8
  · obtain ⟨hs, hl, hc⟩ := hswap (by omega) h2
    have hsub : v.reversal.sub ≠ .normal := by simp [hs]
    by_cases hlast : n + 1 < m.mute + 8
    · rw [RiserUnit.reversalCounted_frame m ha hsub (by omega)]
      constructor <;> grind
    · rw [RiserUnit.reversalCounted_end m ha hsub (by omega)]
      simp only [RiserUnit.phaseEnded, hs, RiserUnit.beginPostMute]
      split
      · constructor <;> grind [RiserUnit.reversalOver, Reversal.none]
      · constructor <;> grind [Reversal.phase]
  by_cases h3 : n < 2 * m.mute + 8
  · obtain ⟨hs, hl, hc⟩ := hpost (by omega) h3
    have hsub : v.reversal.sub ≠ .normal := by simp [hs]
    by_cases hlast : n + 1 < 2 * m.mute + 8
    · rw [RiserUnit.reversalCounted_frame m ha hsub (by omega)]
      constructor <;> grind
    · rw [RiserUnit.reversalCounted_end m ha hsub (by omega)]
      simp only [RiserUnit.phaseEnded, hs, RiserUnit.reversalOver, Reversal.none]
      constructor <;> grind
  · rw [RiserUnit.reversalCounted_normal m ha (hnormal (by omega)) hd]
    constructor <;> grind

/-- Every boundary from the due one on stands at its count. -/
theorem reversalAt_iterate (m : RiserProfile) {u : RiserUnit} (ha : u.state = .active) (hs : u.reversal.sub = .normal)
    (hd : u.reversal.due = true) (n : Nat) : ReversalAt m u n ((RiserUnit.reversalCounted m)^[n + 1] u) := by
  induction n with
  | zero => exact reversalAt_start m ha hs hd
  | succ n ih =>
    rw [Function.iterate_succ_apply']
    exact ih.next

/-- The count of a boundary depends on the state, the sequence, the polarity and the reversal timer. -/
theorem RiserUnit.reversalCounted_congr (m : RiserProfile) {u v : RiserUnit} (hs : v.state = u.state)
    (hr : v.reversal = u.reversal) (hp : v.polarity = u.polarity) (ht : v.reversalTimer = u.reversalTimer) :
    (v.reversalCounted m).reversal = (u.reversalCounted m).reversal ∧
    (v.reversalCounted m).polarity = (u.reversalCounted m).polarity ∧
    (v.reversalCounted m).reversalTimer = (u.reversalCounted m).reversalTimer := by
  have hended : (v.phaseEnded m).reversal = (u.phaseEnded m).reversal ∧ (v.phaseEnded m).polarity = (u.phaseEnded m).polarity ∧
      (v.phaseEnded m).reversalTimer = (u.phaseEnded m).reversalTimer := by
    unfold RiserUnit.phaseEnded RiserUnit.beginPostMute
    rw [hr]
    split
    · exact ⟨hr, hp, ht⟩
    · exact ⟨rfl, congrArg Polarity.flipped hp, ht⟩
    · split
      · exact ⟨rfl, hp, rfl⟩
      · exact ⟨rfl, hp, ht⟩
    · exact ⟨rfl, hp, rfl⟩
  obtain ⟨hreversal, hpolarity, htimer⟩ := hended
  unfold RiserUnit.reversalCounted RiserUnit.beginPreMute
  rw [hs, hr]
  split_ifs
  · exact ⟨rfl, congrArg Polarity.flipped hp, ht⟩
  · exact ⟨rfl, hp, ht⟩
  · exact ⟨rfl, hp, ht⟩
  · exact ⟨rfl, hp, ht⟩
  · exact ⟨by dsimp only; rw [hreversal], hpolarity, htimer⟩
  · exact ⟨hr, hp, ht⟩

section
variable (m : RiserProfile) (u : RiserUnit)

theorem RiserUnit.swapped_reversal : (u.swapped m).reversal = (u.reversalCounted m).reversal := by
  unfold RiserUnit.swapped; rw [RiserUnit.muted_fields]
theorem RiserUnit.swapped_polarity : (u.swapped m).polarity = (u.reversalCounted m).polarity := by
  unfold RiserUnit.swapped; rw [RiserUnit.muted_fields]
theorem RiserUnit.swapped_reversalTimer : (u.swapped m).reversalTimer = (u.reversalCounted m).reversalTimer := by
  unfold RiserUnit.swapped; rw [RiserUnit.muted_fields]

end

/-- Settles O12: each boundary counts the sequence, and the count runs through its phases. -/
theorem aReversalLastsTwiceTheMuteAndEightFrames : Obligations.AReversalLastsTwiceTheMuteAndEightFrames := by
  refine ⟨fun s r voice hr ha => ⟨_, exec_riserFrameBoundary_mixed voice hr (.inl ha), ?_⟩, fun m u n ha hs hd => ?_⟩
  · obtain ⟨hstate, hreversal, hpolarity, htimer⟩ := (State.boundaryScanned_at voice (.inl ha)).active ha
    have hprofile : (s.boundaryScanned r voice).riserProfile r = s.riserProfile r :=
      ((State.settled_touch s _).riserProfile r).trans
        (congrArg (fun c : Settings => vget c.risers r)
          (s.boundaryCopied_ongoing r voice (by rw [RiserUnit.frames, ha]) (by rw [ha]; decide)).1.settings)
    have hcounted := RiserUnit.reversalCounted_congr (s.riserProfile r) (hstate.trans ha.symm) hreversal hpolarity htimer
    generalize s.boundaryScanned r voice = v at hprofile hcounted ⊢
    rw [State.boundaryMixed_riser, hprofile]
    dsimp only
    rw [RiserUnit.swapped_reversal, RiserUnit.swapped_polarity, RiserUnit.swapped_reversalTimer]
    exact hcounted
  · obtain ⟨-, -, hpre, hswap, hpost, hnormal, hpolarity, htimer⟩ := reversalAt_iterate m ha hs hd n
    refine ⟨?_, hpolarity, htimer⟩
    split_ifs with h1 h2 h3
    · exact (hpre h1).1
    · exact (hswap (by omega) h2).1
    · exact (hpost (by omega) h3).1
    · exact hnormal (by omega)

/-! ## Wake pulses and the riser's timers (R93 to R97) -/

/-- A change of a riser to a state that is not ACTIVE stops its quiet timer. -/
theorem State.modRiser_asleep {s : State} {r : Riser} {f : RiserUnit → RiserUnit} (h : (f (s.riser r)).state ≠ .active) :
    s.modRiser r f = s.setRiser r { f (s.riser r) with quietTimer := .stopped } :=
  congrArg (s.setRiser r) (RiserUnit.retimed_stopped (RiserUnit.calm_state h))

/-- A change of a riser that moves none of the quiet timer's conditions. -/
theorem State.modRiser_alike {s : State} {r : Riser} {f : RiserUnit → RiserUnit}
    (hc : (f (s.riser r)).calm = (s.riser r).calm) (hq : (f (s.riser r)).quietTimer = (s.riser r).quietTimer) :
    s.modRiser r f = s.setRiser r { f (s.riser r) with
      quietTimer := if (s.riser r).calm then (s.riser r).quietTimer else .stopped } := by
  refine congrArg (s.setRiser r) ?_
  split
  next h => rw [RiserUnit.retimed_same hc h, ← hq]
  next h => exact RiserUnit.retimed_stopped (by rw [hc]; simpa using h)

theorem exec_wakePulse {s : State} (hr : Running s) (r : Riser) : exec (.wakePulse r) s =
    .next (if (s.riser r).state = .quiet then s.modRiser r (·.woken) else s) :=
  congrArg Host.Outcome.next (State.whenRunning_running hr _)

/-- A QUIET riser wakes, its wake timer at 20 ms (R94). -/
theorem State.wake_quiet {s : State} {r : Riser} (h : (s.riser r).state = .quiet) : s.modRiser r (·.woken) =
    s.setRiser r { s.riser r with state := .waking, wakeTimer := .running 160, quietTimer := .stopped } := by
  have hwoken : (s.riser r).woken = { s.riser r with state := .waking, wakeTimer := .running 160 } := if_pos h
  rw [State.modRiser_asleep (by rw [hwoken]; simp), hwoken]

/-- The event of a phase's end, in an ACTIVE riser: what it makes of the riser (R97, log entry 6). -/
def RiserUnit.phaseEndTaken (m : RiserProfile) (u : RiserUnit) : RiserUnit :=
  if u.reversal.endTaken then { u with reversal := { u.reversal with endTaken := false } }
  else if u.reversal.length ≤ u.reversal.done then (u.phaseEnded m).muted
  else u

theorem RiserUnit.phaseEndTaken_fields (m : RiserProfile) (u : RiserUnit) : u.phaseEndTaken m = { u with
    reversal := (u.phaseEndTaken m).reversal, polarity := (u.phaseEndTaken m).polarity
    reversalTimer := (u.phaseEndTaken m).reversalTimer, uplink := (u.phaseEndTaken m).uplink } := by
  unfold RiserUnit.phaseEndTaken
  split_ifs
  · rfl
  · rw [RiserUnit.muted_fields, RiserUnit.phaseEnded_fields]
  · rfl

theorem exec_reversalPhaseEnd {s : State} {r : Riser} (hr : Running s) (ha : (s.riser r).state = .active) :
    exec (.reversalPhaseEnd r) s = .next (s.modRiser r (·.phaseEndTaken (s.riserProfile r))) :=
  congrArg Host.Outcome.next ((State.whenRunning_running hr _).trans (if_pos ha))

/-- What the end of a phase makes of the sequence (R97). -/
theorem RiserUnit.phaseEnded_cases (m : RiserProfile) (u : RiserUnit) :
    (u.phaseEnded m).reversal.sub = (match u.reversal.sub with
      | .normal => .normal
      | .preMute => .swap
      | .swap => if m.mute = 0 then .normal else .postMute
      | .postMute => .normal) ∧
    (u.phaseEnded m).polarity = (if u.reversal.sub = .preMute then u.polarity.flipped else u.polarity) ∧
    ((u.phaseEnded m).reversal.sub = .normal → u.reversal.sub ≠ .normal →
      (u.phaseEnded m).reversalTimer = .period m.reversal) := by
  unfold RiserUnit.phaseEnded
  cases h : u.reversal.sub with
  | normal => exact ⟨h, rfl, fun _ hn => absurd rfl hn⟩
  | preMute => exact ⟨rfl, rfl, fun hn => nomatch hn⟩
  | swap =>
    dsimp only
    unfold RiserUnit.beginPostMute
    split
    · exact ⟨rfl, rfl, fun _ _ => rfl⟩
    · exact ⟨rfl, rfl, fun hn => nomatch hn⟩
  | postMute => exact ⟨rfl, rfl, fun _ _ => rfl⟩

/-- While the sequence mutes the line no uplink comes from it (R77). -/
theorem RiserUnit.muted_uplink {u : RiserUnit} (h : u.reversal.sub ≠ .normal) (k : Slot) : vget u.muted.uplink k = 0 := by
  rw [RiserUnit.muted, if_neg h]
  exact vget_replicate ..

/-- Settles O13: each event of a riser's own timers, and of a phase's end, by its one change of the riser. -/
theorem wakePulsesRiserTimersAndPhaseEnds : Obligations.WakePulsesRiserTimersAndPhaseEnds := by
  refine ⟨fun s r hr => ?_, fun s r n hr ht => ?_, fun s r n hr ht => ?_, fun s r n hr ht => ?_, fun s r hr ha => ?_⟩
  · rw [exec_wakePulse hr]
    split
    next h => rw [State.wake_quiet h]
    · rfl
  · have hexec : exec (.reversalTimerExpiry r) s = .next (s.modRiser r fun u =>
        { u with reversalTimer := .stopped, reversal := { u.reversal with due := true } }) :=
      congrArg Host.Outcome.next ((State.whenRunning_running hr _).trans (if_pos (by rw [ht]; rfl)))
    rw [hexec, State.modRiser_alike rfl rfl]
  · have hexec : exec (.quietTimerExpiry r) s = .next (s.modRiser r (·.quieted)) :=
      congrArg Host.Outcome.next ((State.whenRunning_running hr _).trans (if_pos (by rw [ht]; rfl)))
    rw [hexec, State.modRiser_asleep (by simp [RiserUnit.quieted])]
    rfl
  · have hexec : exec (.wakeTimerExpiry r) s = .next (s.modRiser r fun u => { u with wakeTimer := .stopped }) :=
      congrArg Host.Outcome.next ((State.whenRunning_running hr _).trans (if_pos (by rw [ht]; rfl)))
    rw [hexec, State.modRiser_alike rfl rfl]
  · refine ⟨_, exec_reversalPhaseEnd hr ha, ?_, quietTimerFollows_modRiser s r (by rw [RiserUnit.phaseEndTaken_fields]), ?_⟩
    · rw [State.modRiser_self]
      refine (State.modRiser_eq ..).trans (congrArg (s.setRiser r) ?_)
      rw [RiserUnit.phaseEndTaken_fields]
    · rw [State.modRiser_self]
      dsimp only
      unfold RiserUnit.phaseEndTaken
      by_cases htaken : (s.riser r).reversal.endTaken = true
      · rw [if_pos htaken, if_pos htaken]
        exact ⟨rfl, rfl, rfl, rfl⟩
      · rw [if_neg htaken, if_neg htaken]
        by_cases hlength : (s.riser r).reversal.done < (s.riser r).reversal.length
        · rw [if_pos hlength, if_neg (by omega)]
          exact ⟨rfl, rfl, rfl, rfl⟩
        · obtain ⟨hsub, hpolarity, htimer⟩ := (s.riser r).phaseEnded_cases (s.riserProfile r)
          rw [if_neg hlength, if_pos (by omega)]
          have hmuted := ((s.riser r).phaseEnded (s.riserProfile r)).muted_fields
          refine ⟨?_, ?_, fun h h' => ?_, fun h k => RiserUnit.muted_uplink ?_ k⟩ <;> rw [hmuted] at *
          · exact hsub
          · exact hpolarity
          · exact htimer h h'
          · exact h

end Sys2Proof.Machine
end

