-- ==== Sys2Proof/Proofs/SlotMix.lean ====
section
/-! PROOFS. The computation of a riser's four slot outputs: one output (R151, R152, R157), one slot (R145, R147, R166), and the
slots in their order, none of which changes what another is computed from. -/

namespace Sys2Proof.Machine

open Sys2Proof Sys2Proof.Safety

/-! ## One computation of an output (R151, R152, R157) -/

/-- The sum of an output's contributions, saturated, and the output counted, are one computation of it. -/
theorem Output.counted_computed (clip floor configured : Nat) (voices : List Sample) (tone : Int) (o : Output) :
    Safety.Computed clip floor configured voices tone o
      (o.counted clip floor configured (clips (mixSum voices o.working tone)))
      (saturated (mixSum voices o.working tone)) := by
  have hsum : outputSum voices o.working tone = mixSum voices o.working tone := rfl
  have hwindow : Config.windowLength = 1024 := rfl
  have hbit : (if outputSum voices o.working tone < -8192 ∨ 8191 < outputSum voices o.working tone then 1 else 0) =
      bit (clips (mixSum voices o.working tone)) := by
    simp only [hsum, clips, bit, Bool.or_eq_true, decide_eq_true_eq]
    exact if_congr or_comm rfl rfl
  unfold Output.counted
  refine ⟨?_, fun h => ?_, fun h => ?_⟩
  · rw [saturated_toInt, limited_eq, hsum]
  · rw [hbit]
    exact if_pos (by simpa [hwindow] using h)
  · rw [hbit, if_neg (by simpa [hwindow] using h)]
    obtain ⟨hcounters, htrim, hbetween, hclean, hrecovery⟩ := Output.windowEnded_law clip floor configured
      { o with tally := o.tally + bit (clips (mixSum voices o.working tone)), position := o.position + 1, endTaken := false }
    exact ⟨rfl, hcounters, htrim, hbetween, hclean, hrecovery⟩

/-! ## One slot output (R145, R147, R155, R166) -/

/-- The tone contribution of a slot output: the NOTICE while it plays there. -/
def State.slotTone (s : State) (e : SlotEntry) : Int :=
  match s.slotNotice e with
  | some n => s.toneSample .notice (n.count % 40)
  | none => 0

/-- The NOTICE record after a slot output is computed. -/
def State.noticeAfter (s : State) (e : SlotEntry) : Option Notice :=
  match s.slotNotice e with
  | some n => n.advanced
  | none => s.notice

/-- The sum of a slot output's contributions. -/
def State.slotSum (s : State) (e : SlotEntry) (working : Nat) : Int := mixSum (s.slotVoices e) working (s.slotTone e)

/-- A slot output once computed. -/
def State.slotCounted (s : State) (e : SlotEntry) (o : SlotOutput) : SlotOutput :=
  let gain := s.holderGain o.holder
  { o with out := o.out.counted s.settings.clip s.settings.floor gain (clips (s.slotSum e o.out.working)) }

section
variable {s : State} {r : Riser} {k : Slot}

theorem State.mixSlot_none (h : vget (s.riser r).outputs k = none) :
    State.mixSlot r s k = s.setRiser r { s.riser r with mixed := vset (s.riser r).mixed k 0 } := by
  unfold State.mixSlot
  dsimp only
  rw [h]

theorem State.mixSlot_some {o : SlotOutput} (h : vget (s.riser r).outputs k = some o) : State.mixSlot r s k =
    (s.setRiser r { s.riser r with
      mixed := vset (s.riser r).mixed k (saturated (s.slotSum (vget (s.riser r).live k) o.out.working))
      outputs := vset (s.riser r).outputs k (some (s.slotCounted (vget (s.riser r).live k) o)) }).setNotice
      (s.noticeAfter (vget (s.riser r).live k)) := by
  unfold State.mixSlot State.slotCounted State.slotSum State.slotTone State.noticeAfter
  dsimp only
  rw [h]
  cases s.slotNotice (vget (s.riser r).live k) <;> rfl

end

/-! ## What a computation reads of the rest of the part -/

/-- What slot outputs are computed from, beside their riser, the calls and the NOTICE, is the same. -/
structure SameInputs (s t : State) : Prop where
  settings : t.settings = s.settings
  page     : t.page = s.page
  mixer    : t.mixer = s.mixer
  tones    : t.tones = s.tones
  panel    : ∀ p, (t.panel p).fifo = (s.panel p).fifo
  clu      : t.clu.fifo = s.clu.fifo

theorem SameInputs.trans {s t u : State} (h : SameInputs s t) (g : SameInputs t u) : SameInputs s u :=
  ⟨g.settings.trans h.settings, g.page.trans h.page, g.mixer.trans h.mixer, g.tones.trans h.tones,
    fun p => (g.panel p).trans (h.panel p), g.clu.trans h.clu⟩

/-- The NOTICE plays for a CONNECTED call of its record and serial (R166). -/
theorem State.noticeFor_eq_some {s : State} {i : Rec} {c : Call} {n : Notice} : s.noticeFor i c = some n ↔
    s.notice = some n ∧ n.record = i ∧ n.serial = c.serial ∧ c.state = .connected := by
  unfold State.noticeFor
  cases hm : s.notice with
  | none => simp
  | some m => grind

theorem Notice.advanced_record {n m : Notice} (h : n.advanced = some m) : m.record = n.record := by
  unfold Notice.advanced at h
  split at h
  · cases h; rfl
  · cases h

/-- The NOTICE of a record is the same, and no NOTICE has begun. -/
structure SameNotice (i : Rec) (s t : State) : Prop where
  stays : ∀ n, s.notice = some n → n.record = i → t.notice = some n
  was   : ∀ n, t.notice = some n → n.record = i → s.notice = some n
  none  : s.notice = none → t.notice = none

namespace SameNotice

variable {i : Rec} {s t u : State}

theorem of_eq (h : t.notice = s.notice) : SameNotice i s t :=
  ⟨fun _ hn _ => h.trans hn, fun _ hn _ => h.symm.trans hn, fun hn => h.trans hn⟩

theorem trans (h : SameNotice i s t) (g : SameNotice i t u) : SameNotice i s u :=
  ⟨fun n hn hi => g.stays n (h.stays n hn hi) hi, fun n hn hi => h.was n (g.was n hn hi) hi, fun hn => g.none (h.none hn)⟩

/-- The NOTICE that plays for a call of the record. -/
theorem noticeFor (h : SameNotice i s t) (c : Call) : t.noticeFor i c = s.noticeFor i c := by
  refine Option.ext fun n => ?_
  rw [State.noticeFor_eq_some, State.noticeFor_eq_some]
  exact ⟨fun ⟨hn, hi, hrest⟩ => ⟨h.was n hn hi, hi, hrest⟩, fun ⟨hn, hi, hrest⟩ => ⟨h.stays n hn hi, hi, hrest⟩⟩

end SameNotice

/-- A slot output that plays a NOTICE plays that of its own record. -/
theorem State.slotNotice_some {s : State} {e : SlotEntry} {n : Notice} (h : s.slotNotice e = some n) :
    s.notice = some n ∧ e = .carrying n.record := by
  cases e with
  | carrying i =>
    obtain ⟨c, -, hc⟩ := Option.bind_eq_some_iff.mp h
    obtain ⟨hn, hi, -⟩ := State.noticeFor_eq_some.mp hc
    exact ⟨hn, by rw [hi]⟩
  | idle => cases h
  | reserved i => cases h
  | page => cases h

/-- The NOTICE of a record is moved by the slots that carry the record alone. -/
theorem State.noticeAfter_other {s t : State} {e : SlotEntry} {i : Rec} (he : e ≠ .carrying i)
    (ht : t.notice = s.noticeAfter e) : SameNotice i s t := by
  unfold State.noticeAfter at ht
  split at ht
  next n hn =>
    obtain ⟨hs, hcarries⟩ := State.slotNotice_some hn
    have hi : n.record ≠ i := fun hi => he (by rw [hcarries, hi])
    refine ⟨fun m hm hmi => ?_, fun m hm hmi => ?_, fun hnone => nomatch hs.symm.trans hnone⟩
    · cases hs.symm.trans hm
      exact absurd hmi hi
    · exact absurd ((Notice.advanced_record (ht.symm.trans hm)).symm.trans hmi) hi
  · exact .of_eq ht

/-! ## The slots in their order -/

/-- From one state of the computation to a later one nothing of slot k has changed. -/
structure SlotUntouched (r : Riser) (k : Slot) (s t : State) : Prop where
  live    : (t.riser r).live = (s.riser r).live
  mixed   : vget (t.riser r).mixed k = vget (s.riser r).mixed k
  outputs : vget (t.riser r).outputs k = vget (s.riser r).outputs k
  inputs  : SameInputs s t
  call    : ∀ i, t.call i = s.call i

theorem SlotUntouched.trans {r : Riser} {k : Slot} {s t u : State} (h : SlotUntouched r k s t) (g : SlotUntouched r k t u) :
    SlotUntouched r k s u :=
  ⟨g.live.trans h.live, g.mixed.trans h.mixed, g.outputs.trans h.outputs, h.inputs.trans g.inputs,
    fun i => (g.call i).trans (h.call i)⟩

/-- The computation of another slot. -/
theorem State.mixSlot_untouched (r : Riser) (s : State) {k k' : Slot} (hk : k' ≠ k) :
    SlotUntouched r k s (State.mixSlot r s k') := by
  have hset : ∀ (x : Sample) (o : Option SlotOutput) (n : Option Notice), SlotUntouched r k s
      ((s.setRiser r { s.riser r with mixed := vset (s.riser r).mixed k' x, outputs := vset (s.riser r).outputs k' o }).setNotice
        n) := fun x o n => by
    have hriser : ((s.setRiser r { s.riser r with
        mixed := vset (s.riser r).mixed k' x, outputs := vset (s.riser r).outputs k' o }).setNotice n).riser r =
        { s.riser r with mixed := vset (s.riser r).mixed k' x, outputs := vset (s.riser r).outputs k' o } := vget_vset_self ..
    refine ⟨?_, ?_, ?_, ⟨rfl, rfl, rfl, rfl, fun _ => rfl, rfl⟩, fun _ => rfl⟩ <;> rw [hriser]
    · exact vget_vset_ne _ hk _
    · exact vget_vset_ne _ hk _
  cases h : vget (s.riser r).outputs k' with
  | none =>
    rw [State.mixSlot_none h]
    have := hset 0 none s.notice
    rwa [← h, vset_vget] at this
  | some o =>
    rw [State.mixSlot_some h]
    exact hset ..

theorem State.mixSlot_notice (r : Riser) (s : State) {k : Slot} {i : Rec} (hk : vget (s.riser r).live k ≠ .carrying i) :
    SameNotice i s (State.mixSlot r s k) := by
  cases h : vget (s.riser r).outputs k with
  | none => rw [State.mixSlot_none h]; exact .of_eq rfl
  | some o => rw [State.mixSlot_some h]; exact State.noticeAfter_other hk rfl

/-- The computation of slots other than k. -/
theorem State.mixSlots_untouched (r : Riser) {l : List Slot} {k : Slot} (hk : k ∉ l) (s : State) :
    SlotUntouched r k s (l.foldl (State.mixSlot r) s) ∧
    ∀ i, (∀ k' ∈ l, vget (s.riser r).live k' ≠ .carrying i) → SameNotice i s (l.foldl (State.mixSlot r) s) := by
  induction l generalizing s with
  | nil => exact ⟨⟨rfl, rfl, rfl, ⟨rfl, rfl, rfl, rfl, fun _ => rfl, rfl⟩, fun _ => rfl⟩, fun _ _ => .of_eq rfl⟩
  | cons k' l ih =>
    obtain ⟨hne, hl⟩ : k' ≠ k ∧ k ∉ l := by simpa [eq_comm] using hk
    have hhead := State.mixSlot_untouched r s hne
    obtain ⟨htail, hnotice⟩ := ih hl (State.mixSlot r s k')
    refine ⟨hhead.trans htail, fun i hi => ?_⟩
    exact (State.mixSlot_notice r s (hi k' (List.mem_cons_self ..))).trans
      (hnotice i fun m hm => by rw [hhead.live]; exact hi m (List.mem_cons_of_mem _ hm))

/-- Slot k is computed once, from a state in which nothing of it has changed yet, and stays so afterwards. -/
theorem State.mixSlots_at (r : Riser) (w : State) (k : Slot) : ∃ v, SlotUntouched r k w v ∧
    SlotUntouched r k (State.mixSlot r v k) (allSlots.foldl (State.mixSlot r) w) ∧
    ∀ i, (∀ k', k' ≠ k → vget (w.riser r).live k' ≠ .carrying i) →
      SameNotice i w v ∧ SameNotice i (State.mixSlot r v k) (allSlots.foldl (State.mixSlot r) w) := by
  obtain ⟨before, after, hsplit⟩ := List.append_of_mem (List.mem_finRange k)
  have hnodup : (before ++ k :: after).Nodup := hsplit ▸ List.nodup_finRange 4
  have hbefore : k ∉ before := fun h => List.disjoint_of_nodup_append hnodup h (List.mem_cons_self ..)
  have hafter : k ∉ after := (List.nodup_cons.mp hnodup.of_append_right).1
  have hfold : allSlots.foldl (State.mixSlot r) w =
      after.foldl (State.mixSlot r) (State.mixSlot r (before.foldl (State.mixSlot r) w) k) := by
    rw [allSlots, hsplit, List.foldl_append, List.foldl_cons]
  have hearlier := State.mixSlots_untouched r hbefore w
  rw [hfold]
  generalize before.foldl (State.mixSlot r) w = v at hearlier ⊢
  have hlater := State.mixSlots_untouched r hafter (State.mixSlot r v k)
  have hlive : ((State.mixSlot r v k).riser r).live = (w.riser r).live :=
    (congrArg RiserUnit.live (State.mixSlot_mixed r v k).riser).trans hearlier.1.live
  refine ⟨v, hearlier.1, hlater.1, fun i hi => ⟨hearlier.2 i fun k' hk' => hi k' ?_, hlater.2 i fun k' hk' => ?_⟩⟩
  · rintro rfl; exact hbefore hk'
  · rw [hlive]
    refine hi k' ?_
    rintro rfl; exact hafter hk'

end Sys2Proof.Machine
end

