-- ==== Sys2Proof/Proofs/SlotOutputs.lean ====
section
/-! PROOFS. What a frame boundary makes of each slot: the call, the page or the NOTICE its output carries, from the schedule just
copied on (R145, R147, R153, R155, R166), and its uplink (R77). -/

namespace Sys2Proof.Machine

open Sys2Proof Sys2Proof.Safety

/-! ## From the boundary's copy to the computation -/

theorem SameInputs.of_touch {s t : State} (h : CallTouch s t) (hp : t.page = s.page) : SameInputs s t :=
  ⟨h.settings, hp, h.mixer, h.tones, h.fifo, by rw [h.clu]⟩

theorem SameInputs.modRiser (s : State) (r : Riser) (f : RiserUnit → RiserUnit) : SameInputs s (s.modRiser r f) :=
  ⟨rfl, rfl, rfl, rfl, fun _ => rfl, rfl⟩

theorem SameNotice.modRiser (i : Rec) (s : State) (r : Riser) (f : RiserUnit → RiserUnit) :
    SameNotice i s (s.modRiser r f) := .of_eq rfl

/-- A record that a live entry names keeps its NOTICE through the test of the records (R31, R166). -/
theorem State.freeIfUnnamed_notice {s : State} {i : Rec} (h : s.liveNames i = true) (j : Rec) :
    SameNotice i s (s.freeIfUnnamed j) := by
  unfold State.freeIfUnnamed
  split
  · split
    next hfree =>
      have hne : j ≠ i := by
        rintro rfl
        exact Bool.false_ne_true (hfree.2.symm.trans h)
      rw [State.noticeForget_eq]
      refine ⟨fun n hn hi => ?_, fun n hn _ => ?_, fun hn => ?_⟩
      · simp [hn, hi, hne.symm, Option.filter_some]
      · exact (Option.filter_eq_some_iff.mp hn).1
      · simp [hn]
    · exact .of_eq rfl
  · exact .of_eq rfl

theorem State.freeList_notice {i : Rec} (l : List Rec) {s : State} (h : s.liveNames i = true) :
    SameNotice i s (l.foldl State.freeIfUnnamed s) := by
  induction l generalizing s with
  | nil => exact .of_eq rfl
  | cons j l ih =>
    have hlive : (s.freeIfUnnamed j).liveNames i = true :=
      (State.liveNames_congr (fun r => by rw [s.freeIfUnnamed_state j]; rfl) i).trans h
    exact (State.freeIfUnnamed_notice h j).trans (ih hlive)

section
variable {s : State} {r : Riser}

/-- Up to the scan a boundary of an ACTIVE or WAKING riser changes nothing that slot outputs are computed from. -/
theorem State.boundaryCopied_inputs (voice : List (Addr × Sample))
    (hs : (s.riser r).state = .active ∨ (s.riser r).state = .waking) :
    SameInputs s (s.boundaryCopied r voice) := by
  have htested : SameInputs s (s.copied r voice).testClearing :=
    (SameInputs.modRiser s r (s.copiedUnit voice)).trans
      (.of_touch (State.testClearing_touch _) (by rw [State.testClearing_state]; rfl))
  have hself := s.tested_self r voice
  unfold State.boundaryCopied
  generalize (s.copied r voice).testClearing = b at htested hself ⊢
  have hstate : (b.riser r).state = (s.riser r).state := by rw [hself]; rfl
  rcases hs with hactive | hwaking
  · rw [State.boundaryState_active (hstate.trans hactive)]
    exact htested
  · rw [State.boundaryState_waking (hstate.trans hwaking)]
    split
    · exact htested.trans (.modRiser ..)
    · exact htested

/-- A record that the schedule just copied names keeps its call and its NOTICE. -/
theorem State.boundaryCopied_named (voice : List (Addr × Sample))
    (hs : (s.riser r).state = .active ∨ (s.riser r).state = .waking)
    {i : Rec} {k : Slot} (hk : (vget (s.riser r).staged k).names i = true) :
    (s.boundaryCopied r voice).call i = s.call i ∧ SameNotice i s (s.boundaryCopied r voice) := by
  have hnamed : ∀ t : State, (t.riser r).live = (s.riser r).staged → t.liveNames i = true := fun t ht => by
    rw [← Bool.not_eq_false, State.liveNames_eq_false]
    intro hnone
    have hentry := hnone r k
    rw [ht, hk] at hentry
    cases hentry
  have hframes : (s.riser r).frames = true := by unfold RiserUnit.frames; rcases hs with h | h <;> rw [h]
  have hnot : (s.riser r).state ≠ .draining := by rcases hs with h | h <;> rw [h] <;> decide
  obtain ⟨hboundary, hkept⟩ := s.boundaryCopied_ongoing r voice hframes hnot
  constructor
  · rw [hboundary.call, hnamed (s.boundaryCopied r voice) hkept.live]
    cases s.call i <;> simp
  · have hlive : (s.copied r voice).liveNames i = true := hnamed _ (by rw [State.copied_self]; rfl)
    have htested : SameNotice i s (s.copied r voice).testClearing :=
      (SameNotice.modRiser i s r (s.copiedUnit voice)).trans (State.freeList_notice allRecs hlive)
    refine htested.trans (.of_eq ?_)
    unfold State.boundaryCopied
    have hself := s.tested_self r voice
    generalize (s.copied r voice).testClearing = b at hself ⊢
    have hstate : (b.riser r).state = (s.riser r).state := by rw [hself]; rfl
    rcases hs with hactive | hwaking
    · rw [State.boundaryState_active (hstate.trans hactive)]
    · rw [State.boundaryState_waking (hstate.trans hwaking)]
      split <;> rfl

/-- The scan changes no more of it. -/
theorem State.boundaryScanned_inputs (voice : List (Addr × Sample))
    (hs : (s.riser r).state = .active ∨ (s.riser r).state = .waking) :
    SameInputs s (s.boundaryScanned r voice) := by
  have hcopied := State.boundaryCopied_inputs voice hs
  unfold State.boundaryScanned
  generalize s.boundaryCopied r voice = u at hcopied ⊢
  have htouch := State.settled_touch s u
  have hpage := congrArg State.page (State.settled_scanned s u).state
  generalize State.settled s u = v at htouch hpage ⊢
  exact hcopied.trans (.of_touch htouch hpage)

end

/-! ## A call's part in a slot output (R147, R166) -/

/-- The voices that a call gives the slot output that carries it. -/
def State.callVoices (s : State) (c : Call) : List Sample :=
  match c.state with
  | .connected => s.originUplink c :: s.bargeUplink c
  | .held => [s.originUplink c]
  | _ => []

/-- The NOTICE's contribution to the slot output that carries a call. -/
def State.callTone (s : State) (i : Rec) (c : Call) : Int :=
  match s.notice with
  | some n => if n.record = i ∧ n.serial = c.serial ∧ c.state = .connected then toneAt s 3 n.count else 0
  | none => 0

/-- A call as the slot outputs find it: the same, or one that was QUEUED and rings. -/
structure SameVoice (s : State) (i : Rec) (c d : Call) : Prop where
  serial : d.serial = c.serial
  gain   : d.listenGain = c.listenGain
  voices : s.callVoices d = s.callVoices c
  notice : s.noticeFor i d = s.noticeFor i c

theorem State.noticeFor_notConnected (s : State) (i : Rec) {c : Call} (h : c.state ≠ .connected) : s.noticeFor i c = none := by
  refine Option.eq_none_iff_forall_ne_some.mpr fun n hn => h ?_
  exact (State.noticeFor_eq_some.mp hn).2.2.2

/-- Neither a QUEUED call nor a RINGING one is heard in a slot output. -/
theorem sameVoice_rung (s : State) (i : Rec) {c : Call} (n : Nat) (h : c.state = .queued) : SameVoice s i c (c.rung n) where
  serial := rfl
  gain := rfl
  voices := by unfold State.callVoices; rw [h]; rfl
  notice := by
    rw [s.noticeFor_notConnected i (c := c) (by rw [h]; decide), s.noticeFor_notConnected i (by simp [Call.rung])]

theorem SameVoice.slotNotice {s t : State} {i : Rec} {c d : Call} (hc : SameVoice s i c d) (hd : t.call i = some d)
    (hn : SameNotice i s t) : t.slotNotice (.carrying i) = s.noticeFor i c := by
  unfold State.slotNotice
  simp only [hd, Option.bind_some]
  rw [hn.noticeFor, hc.notice]

section
variable {s t : State} (h : SameInputs s t)
include h

theorem SameInputs.callVoices (c : Call) : t.callVoices c = s.callVoices c := by
  unfold State.callVoices State.bargeUplink State.originUplink
  simp only [h.panel, h.clu]

/-- A tone's sample at a position. -/
theorem SameInputs.toneSample (n : Nat) : t.toneSample .notice (n % 40) = toneAt s 3 n := by
  unfold State.toneSample toneAt
  rw [h.mixer, h.tones]
  cases s.mixer <;> rfl

theorem SameInputs.slotVoices_carrying {i : Rec} {c d : Call} (hd : t.call i = some d) (hc : SameVoice s i c d) :
    t.slotVoices (.carrying i) = s.callVoices c := by
  have hmodel : t.slotVoices (.carrying i) = t.callVoices d := by
    simp only [State.slotVoices, hd]
    rfl
  rw [hmodel, h.callVoices, hc.voices]

theorem SameInputs.slotTone_carrying {i : Rec} {c d : Call} (hd : t.call i = some d) (hc : SameVoice s i c d)
    (hn : SameNotice i s t) : t.slotTone (.carrying i) = s.callTone i c := by
  unfold State.slotTone
  rw [hc.slotNotice hd hn]
  unfold State.noticeFor State.callTone
  cases s.notice with
  | none => rfl
  | some n =>
    dsimp only
    split_ifs
    · exact h.toneSample n.count
    · rfl

end

/-! ## The outputs that the copy assigns (R153, R155) -/

/-- The output of a slot that carries: that of the same holder, or a fresh one. -/
theorem State.assigned_holder {s : State} {e : SlotEntry} {x : Holder} (h : s.holderOf e = some x) (old : Option SlotOutput) :
    s.assigned e old = some { holder := x, out := outputFor old x (s.holderGain x) } := by
  unfold State.assigned outputFor
  rw [h]
  cases old with
  | none => rfl
  | some o =>
    by_cases ho : o.holder = x
    · subst ho
      simp
    · simp only [if_neg ho]
      rfl

/-! ## A slot of the boundary -/

section
variable {v : State} {r : Riser} {k : Slot}

/-- What the computation makes of slot k, read in the state w in which its turn comes. -/
structure SlotComputed (v : State) (r : Riser) (k : Slot) (o : SlotOutput) (w : State) : Prop where
  inputs  : SameInputs v w
  call    : ∀ i, w.call i = v.call i
  output  : vget ((v.boundaryMixed r).riser r).outputs k = some (w.slotCounted (vget (v.riser r).live k) o)
  mixed   : vget ((v.boundaryMixed r).riser r).mixed k = saturated (w.slotSum (vget (v.riser r).live k) o.out.working)
  notice  : ∀ i, (∀ k', k' ≠ k → vget (v.riser r).live k' ≠ .carrying i) → SameNotice i v w ∧
    ∃ u : State, u.notice = w.noticeAfter (vget (v.riser r).live k) ∧ SameNotice i u (v.boundaryMixed r)

theorem State.swapped_self (v : State) (r : Riser) :
    ((v.modRiser r (·.swapped (v.riserProfile r))).riser r).live = (v.riser r).live ∧
    ((v.modRiser r (·.swapped (v.riserProfile r))).riser r).outputs = (v.riser r).outputs := by
  rw [State.modRiser_self]
  dsimp only
  rw [RiserUnit.swapped_fields]
  exact ⟨rfl, rfl⟩

theorem State.boundaryMixed_some {o : SlotOutput} (h : vget (v.riser r).outputs k = some o) : ∃ w, SlotComputed v r k o w := by
  obtain ⟨hlive, houtputs⟩ := v.swapped_self r
  obtain ⟨w, hbefore, hafter, hnotice⟩ := State.mixSlots_at r (v.modRiser r (·.swapped (v.riserProfile r))) k
  have ho : vget (w.riser r).outputs k = some o := by rw [hbefore.outputs, houtputs, h]
  have hl : (w.riser r).live = (v.riser r).live := hbefore.live.trans hlive
  have hself : (State.mixSlot r w k).riser r = { w.riser r with
      mixed := vset (w.riser r).mixed k (saturated (w.slotSum (vget (v.riser r).live k) o.out.working))
      outputs := vset (w.riser r).outputs k (some (w.slotCounted (vget (v.riser r).live k) o)) } := by
    rw [State.mixSlot_some ho, hl]
    exact vget_vset_self ..
  refine ⟨w, (SameInputs.modRiser ..).trans hbefore.inputs, hbefore.call, ?_, ?_, fun i hi => ?_⟩
  · refine hafter.outputs.trans ?_
    rw [hself]
    exact vget_vset_self ..
  · refine hafter.mixed.trans ?_
    rw [hself]
    exact vget_vset_self ..
  · obtain ⟨hfirst, hlast⟩ := hnotice i fun k' hk' => by rw [hlive]; exact hi k' hk'
    refine ⟨(SameNotice.modRiser ..).trans hfirst, _, ?_, hlast⟩
    rw [State.mixSlot_some ho, hl]
    rfl

theorem State.boundaryMixed_none (h : vget (v.riser r).outputs k = none) :
    vget ((v.boundaryMixed r).riser r).outputs k = none ∧ vget ((v.boundaryMixed r).riser r).mixed k = 0 := by
  obtain ⟨w, hbefore, hafter, -⟩ := State.mixSlots_at r (v.modRiser r (·.swapped (v.riserProfile r))) k
  have ho : vget (w.riser r).outputs k = none := by rw [hbefore.outputs, (v.swapped_self r).2, h]
  have hself : (State.mixSlot r w k).riser r = { w.riser r with mixed := vset (w.riser r).mixed k 0 } := by
    rw [State.mixSlot_none ho]
    exact vget_vset_self ..
  refine ⟨hafter.outputs.trans ?_, hafter.mixed.trans ?_⟩ <;> rw [hself]
  · exact ho
  · exact vget_vset_self ..

/-- A slot's turn is one computation of its output. -/
theorem SlotComputed.computed {x : Holder} {old : Output} {w : State} (h : SlotComputed v r k { holder := x, out := old } w) :
    ∃ o, vget ((v.boundaryMixed r).riser r).outputs k = some { holder := x, out := o } ∧
      Safety.Computed w.settings.clip w.settings.floor (w.holderGain x) (w.slotVoices (vget (v.riser r).live k))
        (w.slotTone (vget (v.riser r).live k)) old o (vget ((v.boundaryMixed r).riser r).mixed k) := by
  refine ⟨_, h.output, ?_⟩
  rw [h.mixed]
  exact Output.counted_computed ..

end

/-! ## The uplinks (R77, R79) -/

theorem sampleOf_eq (voice : List (Addr × Sample)) (a : Addr) :
    sampleOf voice a = ((voice.find? fun x => x.1 == a).map Prod.snd).getD 0 := by
  unfold sampleOf
  cases voice.find? fun x => x.1 == a <;> rfl

section
variable {s : State} {r : Riser} {voice : List (Addr × Sample)}
variable (hs : (s.riser r).state = .active ∨ (s.riser r).state = .waking)
include hs

/-- The uplink of a slot: what the riser received on it, while it carried and carries and the line is not muted. -/
theorem State.boundaryMixed_uplink (k : Slot) : vget (((s.boundaryScanned r voice).boundaryMixed r).riser r).uplink k =
    if (vget (s.riser r).live k).carries ∧ (vget (s.riser r).staged k).carries ∧ (s.riser r).reversal.sub = .normal ∧
        (((s.boundaryScanned r voice).boundaryMixed r).riser r).reversal.sub = .normal then
      (s.riser r).received voice k
    else 0 := by
  have huplink := (State.boundaryScanned_at voice hs).uplink
  generalize s.boundaryScanned r voice = v at huplink ⊢
  rw [State.boundaryMixed_riser]
  dsimp only
  rw [RiserUnit.swapped_reversal]
  unfold RiserUnit.swapped RiserUnit.muted
  by_cases hmuted : ((v.riser r).reversalCounted (v.riserProfile r)).reversal.sub = .normal
  · rw [if_pos hmuted, RiserUnit.reversalCounted_fields, huplink]
    simp only [State.copiedUnit, vget_vtab, hmuted, and_true]
    by_cases hlive : (vget (s.riser r).live k).carries = true
    · simp only [hlive, true_and]
    · simp [RiserUnit.received, hlive]
  · rw [if_neg hmuted, if_neg fun h => hmuted h.2.2.2]
    exact vget_replicate ..

/-- The next frame finds the handsets as they are. -/
theorem State.boundaryMixed_heard : (((s.boundaryScanned r voice).boundaryMixed r).riser r).heard = (s.riser r).hearing := by
  have hheard := (State.boundaryScanned_at voice hs).heard
  generalize s.boundaryScanned r voice = v at hheard ⊢
  rw [State.boundaryMixed_riser]
  dsimp only
  rw [RiserUnit.swapped_fields]
  exact hheard

/-! ## The slot outputs -/

/-- A slot whose entry does not carry has no output, and carries 0. -/
theorem State.boundaryMixed_idle {k : Slot} (hk : s.holderOf (vget (s.riser r).staged k) = none) :
    vget (((s.boundaryScanned r voice).boundaryMixed r).riser r).outputs k = none ∧
    vget (((s.boundaryScanned r voice).boundaryMixed r).riser r).mixed k = 0 := by
  refine State.boundaryMixed_none ?_
  rw [(State.boundaryScanned_at voice hs).outputs]
  simp only [State.copiedUnit, vget_vtab]
  unfold State.assigned
  rw [hk]

/-- A slot whose entry carries is computed at the output of the same holder, or at a fresh one. -/
theorem State.boundaryMixed_held {k : Slot} {x : Holder} (hk : s.holderOf (vget (s.riser r).staged k) = some x) :
    ∃ w, SlotComputed (s.boundaryScanned r voice) r k
      { holder := x, out := outputFor (vget (s.riser r).outputs k) x (s.holderGain x) } w := by
  refine State.boundaryMixed_some ?_
  rw [(State.boundaryScanned_at voice hs).outputs]
  simp only [State.copiedUnit, vget_vtab]
  exact State.assigned_holder hk _

/-- The call of a record that the schedule just copied carries, and its NOTICE, after the scan. -/
theorem State.boundaryScanned_carried {k : Slot} {i : Rec} {c : Call} (hk : vget (s.riser r).staged k = .carrying i)
    (hc : s.call i = some c) : SameNotice i s (s.boundaryScanned r voice) ∧
    ∃ d, (s.boundaryScanned r voice).call i = some d ∧ SameVoice s i c d := by
  obtain ⟨hcall, hnotice⟩ := State.boundaryCopied_named voice hs (i := i) (k := k) (by rw [hk]; simp [SlotEntry.names])
  unfold State.boundaryScanned
  generalize s.boundaryCopied r voice = u at hcall hnotice ⊢
  have halike := MixAlike.settled s u
  have hscan := congrArg State.notice (State.settled_scanned s u).state
  generalize State.settled s u = v at halike hscan ⊢
  refine ⟨hnotice.trans (.of_eq hscan), ?_⟩
  rcases halike.call i with hsame | ⟨d, n, hd, hqueued, hrung⟩
  · exact ⟨c, hsame.trans (hcall.trans hc), rfl, rfl, rfl, rfl⟩
  · obtain rfl : c = d := Option.some.inj (hc.symm.trans (hcall.symm.trans hd))
    exact ⟨_, hrung, sameVoice_rung s i n hqueued⟩

/-- The output of the page's slot: the console's sample. -/
theorem State.boundaryMixed_page {k : Slot} (hk : vget (s.riser r).staged k = .page) :
    ∃ o, vget (((s.boundaryScanned r voice).boundaryMixed r).riser r).outputs k = some { holder := .page, out := o } ∧
      Safety.Computed s.settings.clip s.settings.floor s.settings.console.pageGain
        (if s.page.isSome then [s.clu.fifo.uplink] else []) 0
        (outputFor (vget (s.riser r).outputs k) .page s.settings.console.pageGain) o
        (vget (((s.boundaryScanned r voice).boundaryMixed r).riser r).mixed k) := by
  obtain ⟨w, hw⟩ := State.boundaryMixed_held (voice := voice) hs (k := k) (x := .page) (by rw [hk]; rfl)
  obtain ⟨o, houtput, hcomputed⟩ := hw.computed
  have hinputs := (State.boundaryScanned_inputs voice hs).trans hw.inputs
  rw [(State.boundaryScanned_at voice hs).live, hk] at hcomputed
  refine ⟨o, houtput, ?_⟩
  have hgain : w.holderGain .page = s.settings.console.pageGain := by rw [← hinputs.settings]; rfl
  have hvoices : w.slotVoices .page = if s.page.isSome then [s.clu.fifo.uplink] else [] := by
    rw [← hinputs.page, ← hinputs.clu]; rfl
  rwa [hgain, hvoices, hinputs.settings] at hcomputed

/-- The output of a slot that carries a call: its voices, and the NOTICE while it plays for it. -/
theorem State.boundaryMixed_carrying {k : Slot} {i : Rec} {c : Call} (hk : vget (s.riser r).staged k = .carrying i)
    (hc : s.call i = some c) (ho : ∀ k', k' ≠ k → vget (s.riser r).staged k' ≠ .carrying i) :
    ∃ o, vget (((s.boundaryScanned r voice).boundaryMixed r).riser r).outputs k =
        some { holder := .call i c.serial, out := o } ∧
      Safety.Computed s.settings.clip s.settings.floor (c.listenGain.getD 64) (s.callVoices c) (s.callTone i c)
        (outputFor (vget (s.riser r).outputs k) (.call i c.serial) (c.listenGain.getD 64)) o
        (vget (((s.boundaryScanned r voice).boundaryMixed r).riser r).mixed k) ∧
      ∀ n, s.noticeFor i c = some n → ((s.boundaryScanned r voice).boundaryMixed r).notice = n.advanced := by
  obtain ⟨hnotice, d, hd, hvoice⟩ := State.boundaryScanned_carried (voice := voice) hs hk hc
  obtain ⟨w, hw⟩ := State.boundaryMixed_held (voice := voice) hs (k := k) (x := .call i c.serial) (by
    rw [hk]; simp [State.holderOf, hc])
  have hlive := (State.boundaryScanned_at voice hs).live
  have hinputs := (State.boundaryScanned_inputs voice hs).trans hw.inputs
  obtain ⟨hfirst, u, hu, hlast⟩ := hw.notice i fun k' hk' => by rw [hlive]; exact ho k' hk'
  have hturn := hnotice.trans hfirst
  have hdw : w.call i = some d := (hw.call i).trans hd
  obtain ⟨o, houtput, hcomputed⟩ := hw.computed
  rw [hlive, hk] at hcomputed hu
  refine ⟨o, houtput, ?_, fun n hn => ?_⟩
  · have hgain : s.holderGain (.call i c.serial) = c.listenGain.getD 64 := by simp [State.holderGain, hc]
    have hgain' : w.holderGain (.call i c.serial) = c.listenGain.getD 64 := by simp [State.holderGain, hdw, hvoice.gain]
    rwa [hgain, hgain', hinputs.settings, hinputs.slotVoices_carrying hdw hvoice,
      hinputs.slotTone_carrying hdw hvoice hturn] at hcomputed
  · unfold State.noticeAfter at hu
    rw [hvoice.slotNotice hdw hturn, hn] at hu
    cases hadvanced : n.advanced with
    | none => exact hlast.none (hu.trans hadvanced)
    | some m =>
      refine hlast.stays m (hu.trans hadvanced) ?_
      exact (Notice.advanced_record hadvanced).trans (State.noticeFor_eq_some.mp hn).2.1

end

/-- Settles O11: the uplinks, then each slot by its entry in the schedule just copied. -/
theorem aBoundaryTakesUplinksAndMixesTheSlotOutputs : Obligations.ABoundaryTakesUplinksAndMixesTheSlotOutputs := by
  intro s r voice hr hs
  refine ⟨_, exec_riserFrameBoundary_mixed voice hr hs, fun k => ?_, fun a => ?_, fun k => ?_⟩
  · rw [State.boundaryMixed_uplink hs]
    split
    next h =>
      rw [RiserUnit.received, if_pos h.1, show sampleOf voice = _ from funext (sampleOf_eq voice)]
      rfl
    · rfl
  · rw [State.boundaryMixed_heard hs]
    exact vget_vtab ..
  · cases hk : vget (s.riser r).staged k with
    | idle => exact State.boundaryMixed_idle hs (by rw [hk]; rfl)
    | reserved i => exact State.boundaryMixed_idle hs (by rw [hk]; rfl)
    | page => exact State.boundaryMixed_page hs hk
    | carrying i =>
      intro c hc ho
      obtain ⟨o, houtput, hcomputed, hnotice⟩ := State.boundaryMixed_carrying (voice := voice) hs hk hc ho
      refine ⟨o, houtput, hcomputed, fun n hn hi hserial hconnected => hnotice n ?_⟩
      exact State.noticeFor_eq_some.mpr ⟨hn, hi, hserial, hconnected⟩

end Sys2Proof.Machine
end

