-- ==== Sys2Proof/Proofs/StartUp.lean ====
section
/-! PROOFS. The end of start-up (R202 to R205): the tones loaded, the risers enabled, the panels and the console link in HUNT. -/

namespace Sys2Proof.Machine

open Sys2Proof Sys2Proof.Safety

/-! ## The last unit (R202, R203) -/

/-- The tones take their unit's content when the unit passes its test, and the built-in ones otherwise. -/
theorem State.loaded_tones (s : State) : s.loaded 25 = { s with
    tones := if s.store.tones.passes tonesBytes then s.store.tones.content else .builtIn
    torn := if s.store.tones.passes tonesBytes then s.torn else s.torn ++ [25] } := by
  unfold State.loaded
  rw [dif_neg (by decide), if_neg (by decide)]
  split <;> rfl

theorem execUnitLoaded_last {s : State} (hs : s.stage = .loading 25) :
    execUnitLoaded s = .next ((s.loaded 25).event State.started) := by
  unfold execUnitLoaded
  rw [hs]
  exact congrArg Host.Outcome.next (dif_neg (by decide))

/-! ## The risers and the panels start (R89, R101, R103) -/

/-- A report joins a queue that has room at its tail. -/
theorem ConsoleUnit.posted_room {c : ConsoleUnit} (h : c.reports.length < 16) (x : Report) :
    c.posted x = { c with reports := c.reports ++ [x] } := if_pos h

/-- What an enable at start-up makes of a riser in OFF. -/
def RiserUnit.startedUp (m : RiserProfile) (u : RiserUnit) : RiserUnit := if m.enable then .enabled m else u

/-- The reports of the risers that are enabled. -/
def State.enabledReports (s : State) (l : List Riser) : List Report :=
  (l.filter fun r => (s.riserProfile r).enable).map (.riser .enabled)

/-- Between `s` and `t` the risers of a list have started, each with its report in the list's order. -/
structure RisersStarted (s t : State) (l : List Riser) : Prop where
  state   : t = { s with risers := t.risers, clu := t.clu }
  started : ∀ r ∈ l, t.riser r = (s.riser r).startedUp (s.riserProfile r)
  others  : ∀ r, r ∉ l → t.riser r = s.riser r
  clu     : t.clu = { s.clu with reports := s.clu.reports ++ s.enabledReports l }

/-- One riser in OFF starts, with room for its report. -/
theorem State.startRiser_started {s : State} {r : Riser} (hr : (s.riser r).state = .off) (hc : s.clu.reports.length < 16) :
    RisersStarted s (s.startRiser r) [r] := by
  unfold State.startRiser
  by_cases he : (s.riserProfile r).enable = true
  · rw [if_pos he, State.enableRiser_off hr]
    refine ⟨rfl, fun r' hm => ?_, fun r' hm => ?_, (ConsoleUnit.posted_room hc _).trans ?_⟩
    · obtain rfl := List.mem_singleton.mp hm
      exact (vget_vset_self ..).trans (if_pos he).symm
    · exact vget_vset_ne _ (fun h => hm (List.mem_singleton.mpr h.symm)) _
    · simp [State.enabledReports, he]
  · rw [if_neg he]
    refine ⟨rfl, fun r' hm => ?_, fun _ _ => rfl, ?_⟩
    · obtain rfl := List.mem_singleton.mp hm
      exact (if_neg he).symm
    · simp [State.enabledReports, he]

theorem RisersStarted.cons {s t u : State} {r : Riser} {l : List Riser} (h : RisersStarted s t [r]) (g : RisersStarted t u l)
    (hr : r ∉ l) : RisersStarted s u (r :: l) := by
  have hprofile : ∀ x, t.riserProfile x = s.riserProfile x := fun x => by rw [h.state]; rfl
  have hother : ∀ x, x ≠ r → t.riser x = s.riser x := fun x hx => h.others x (mt List.mem_singleton.mp hx)
  refine ⟨by rw [g.state, h.state], fun x hx => ?_, fun x hx => ?_, ?_⟩
  · rcases List.mem_cons.mp hx with rfl | hx
    · rw [g.others x hr, h.started x (List.mem_singleton.mpr rfl)]
    · rw [g.started x hx, hprofile, hother x (ne_of_mem_of_not_mem hx hr)]
  · obtain ⟨hxr, hxl⟩ := not_or.mp (mt List.mem_cons.mpr hx)
    rw [g.others x hxl, hother x hxr]
  · have hreports : t.enabledReports l = s.enabledReports l := by simp only [State.enabledReports, hprofile]
    have hsplit : s.enabledReports (r :: l) = s.enabledReports [r] ++ s.enabledReports l := by
      rw [State.enabledReports, ← List.singleton_append, List.filter_append, List.map_append]
      rfl
    rw [g.clu, h.clu, hreports, hsplit, ← List.append_assoc]

theorem State.enabledReports_length (s : State) (l : List Riser) : (s.enabledReports l).length ≤ l.length := by
  rw [State.enabledReports, List.length_map]
  exact List.length_filter_le ..

/-- Risers in OFF start one after the other, with room for their reports. -/
theorem State.startRisers_started {l : List Riser} (hn : l.Nodup) {s : State} (hr : ∀ r ∈ l, (s.riser r).state = .off)
    (hc : s.clu.reports.length + l.length ≤ 16) : RisersStarted s (l.foldl State.startRiser s) l := by
  induction l generalizing s with
  | nil => exact ⟨rfl, fun _ hm => absurd hm List.not_mem_nil, fun _ _ => rfl, by simp [State.enabledReports]⟩
  | cons x l ih =>
    obtain ⟨hx, hl⟩ := List.nodup_cons.mp hn
    rw [List.length_cons] at hc
    have hhead : RisersStarted s (s.startRiser x) [x] := State.startRiser_started (hr x (List.mem_cons_self ..)) (by omega)
    refine hhead.cons (ih hl (fun r hm => ?_) ?_) hx
    · rw [hhead.others r fun h => hx (List.mem_singleton.mp h ▸ hm)]
      exact hr r (List.mem_cons_of_mem _ hm)
    · have hreport := s.enabledReports_length [x]
      rw [List.length_singleton] at hreport
      rw [hhead.clu, List.length_append]
      omega

/-- A panel at start-up. -/
def PanelUnit.startedUp (m : PanelProfile) (u : PanelUnit) : PanelUnit := if m.installed then u.hunting else u

/-- Between `s` and `t` the panels of a list have started. -/
structure PanelsStarted (s t : State) (l : List Panel) : Prop where
  state   : t = { s with panels := t.panels }
  started : ∀ p ∈ l, t.panel p = (s.panel p).startedUp (s.panelProfile p)
  others  : ∀ p, p ∉ l → t.panel p = s.panel p

theorem State.startPanel_started (s : State) (p : Panel) : PanelsStarted s (s.startPanel p) [p] := by
  unfold State.startPanel
  by_cases hi : (s.panelProfile p).installed = true
  · rw [if_pos hi]
    refine ⟨rfl, fun q hm => ?_, fun q hm => ?_⟩
    · obtain rfl := List.mem_singleton.mp hm
      exact (vget_vset_self ..).trans (if_pos hi).symm
    · exact vget_vset_ne _ (fun h => hm (List.mem_singleton.mpr h.symm)) _
  · rw [if_neg hi]
    refine ⟨rfl, fun q hm => ?_, fun _ _ => rfl⟩
    obtain rfl := List.mem_singleton.mp hm
    exact (if_neg hi).symm

theorem State.startPanels_started {l : List Panel} (hn : l.Nodup) (s : State) :
    PanelsStarted s (l.foldl State.startPanel s) l := by
  induction l generalizing s with
  | nil => exact ⟨rfl, fun _ hm => absurd hm List.not_mem_nil, fun _ _ => rfl⟩
  | cons x l ih =>
    obtain ⟨hx, hl⟩ := List.nodup_cons.mp hn
    have hhead := s.startPanel_started x
    have htail := ih hl (s.startPanel x)
    have hprofile : ∀ p, (s.startPanel x).panelProfile p = s.panelProfile p := fun p => by rw [hhead.state]; rfl
    have hother : ∀ p, p ≠ x → (s.startPanel x).panel p = s.panel p := fun p hp =>
      hhead.others p (mt List.mem_singleton.mp hp)
    rw [List.foldl_cons]
    refine ⟨by rw [htail.state, hhead.state], fun p hp => ?_, fun p hp => ?_⟩
    · rcases List.mem_cons.mp hp with rfl | hp
      · rw [htail.others p hx, hhead.started p (List.mem_singleton.mpr rfl)]
      · rw [htail.started p hp, hprofile, hother p (ne_of_mem_of_not_mem hp hx)]
    · obtain ⟨hpx, hpl⟩ := not_or.mp (mt List.mem_cons.mpr hp)
      rw [htail.others p hpl, hother p hpx]

/-! ## The end of start-up (R204, R205) -/

/-- The part that runs, before its blocks start: its cause and the torn list wait to be reported. -/
def State.begun (s : State) : State := { s with
  stage := .running, powerLost := false, startup := some (if s.powerLost then .powerOn else .resetLine, s.torn) }

theorem State.started_eq (s : State) : s.started =
    (allPanels.foldl State.startPanel (allRisers.foldl State.startRiser s.begun)).modClu fun c =>
      { c with link := { c.link with state := .hunt, good := 0 } } := rfl

/-- What the end of start-up makes of the part. -/
structure StartedUp (s t : State) : Prop where
  riser : ∀ r, t.riser r = (s.riser r).startedUp (s.riserProfile r)
  panel : ∀ p, t.panel p = (s.panel p).startedUp (s.panelProfile p)
  clu   : t.clu = { s.clu with
    reports := s.clu.reports ++ s.enabledReports allRisers, link := { s.clu.link with state := .hunt, good := 0 } }
  state : t = { s.begun with risers := t.risers, panels := t.panels, clu := t.clu }

theorem State.started_startedUp {s : State} (hr : ∀ r, (s.riser r).state = .off) (hc : s.clu.reports = []) :
    StartedUp s s.started := by
  have hrisers : RisersStarted s.begun (allRisers.foldl State.startRiser s.begun) allRisers :=
    State.startRisers_started (List.nodup_finRange 8) (fun r _ => hr r) (by
      rw [show s.begun.clu.reports = [] from hc]; decide)
  rw [State.started_eq]
  generalize allRisers.foldl State.startRiser s.begun = u at hrisers ⊢
  have hpanels : PanelsStarted u (allPanels.foldl State.startPanel u) allPanels :=
    State.startPanels_started (List.nodup_finRange 6) u
  generalize allPanels.foldl State.startPanel u = v at hpanels ⊢
  refine ⟨fun r => ?_, fun p => ?_, ?_, ?_⟩
  · have hriser : v.riser r = u.riser r := by rw [hpanels.state]; rfl
    rw [State.modClu_riser, hriser]
    exact hrisers.started r (List.mem_finRange r)
  · have hprofile : u.panelProfile p = s.panelProfile p := by rw [hrisers.state]; rfl
    have hpanel : u.panel p = s.panel p := by rw [hrisers.state]; rfl
    rw [State.modClu_panel, hpanels.started p (List.mem_finRange p), hprofile, hpanel]
  · have hclu : v.clu = u.clu := by rw [hpanels.state]
    rw [State.modClu_clu, hclu, hrisers.clu]
    rfl
  · rw [hpanels.state, hrisers.state]
    rfl

/-- Settles O5: the last unit is loaded, and the blocks at rest start. -/
theorem startUpEndsWithTheLastUnit : Obligations.StartUpEndsWithTheLastUnit := by
  intro s hs hriser hpanel hclu hnothing
  have hstarted : StartedUp (s.loaded 25) (s.loaded 25).started :=
    State.started_startedUp (fun r => by rw [s.loaded_tones]; exact congrArg RiserUnit.state (hriser r))
      (by rw [s.loaded_tones]; exact congrArg ConsoleUnit.reports hclu)
  have hwait : (s.loaded 25).started.waitQueue = [] := by
    rw [hstarted.state, s.loaded_tones]
    exact hnothing
  refine ⟨(s.loaded 25).started, (execUnitLoaded_last hs).trans (congrArg _ (State.event_nothing hwait)), ?_⟩
  generalize (s.loaded 25).started = t at hstarted ⊢
  rw [s.loaded_tones] at hstarted
  obtain ⟨htriser, htpanel, htclu, htstate⟩ := hstarted
  have hunit : ∀ p, t.panel p = PanelUnit.atRest.startedUp (s.panelProfile p) := fun p =>
    (htpanel p).trans (congrArg (PanelUnit.startedUp (s.panelProfile p)) (hpanel p))
  refine ⟨?_, ?_, ?_, ?_, fun r => ?_, fun p => ?_, fun p hp => ?_, ?_, ?_⟩
  · rw [htstate]; rfl
  · rw [htstate]; rfl
  · rw [htstate]; rfl
  · rw [htstate]; rfl
  · exact (htriser r).trans (congrArg (RiserUnit.startedUp (s.riserProfile r)) (hriser r))
  · rw [hunit, PanelUnit.startedUp]
    split <;> rfl
  · refine ⟨makePanelFrame 0 0x00 0, ?_, makePanelFrame_good .., rfl, rfl⟩
    rw [hunit, PanelUnit.startedUp, if_pos hp]
    rfl
  · exact htclu.trans (congrArg (fun c : ConsoleUnit => { c with
      reports := c.reports ++ s.enabledReports allRisers, link := { c.link with state := .hunt, good := 0 } }) hclu)
  · rw [htstate]
    rfl

end Sys2Proof.Machine
end

