-- ==== Sys2Proof/Proofs/PanelFrames.lean ====
section
/-! PROOFS. The frames a panel link receives short of a loss (R102, R104 to R106). -/

namespace Sys2Proof.Machine

open Sys2Proof Sys2Proof.Safety

/-! ## Good frames (R102, R104, R106, R156) -/

section
variable {s : State} {p : Panel}

theorem State.panelGood_down (h : (s.panel p).link.state = .down) (f : PanelFrame) : s.panelGood p f = s := by
  unfold State.panelGood; rw [h]

theorem State.panelGood_hunt (h : (s.panel p).link.state = .hunt) (f : PanelFrame) : s.panelGood p f =
    if (s.panel p).link.good + 1 < 3 then
      s.setPanel p { s.panel p with link := { (s.panel p).link with good := (s.panel p).link.good + 1 } }
    else (s.modPanel p (·.up (s.panelProfile p).gain)).post (.link .up (some p) none) := by
  unfold State.panelGood; rw [h]; rfl

/-- A control field that carries neither CALL nor CANCEL is no message. -/
theorem State.panelControl_other {code : Byte} (hcall : code ≠ 0x01) (hcancel : code ≠ 0x02) (param : Word) :
    s.panelControl p code param = s := by
  rw [State.panelControl, if_neg hcall, if_neg hcancel]

theorem exec_panelFrame_good (hr : Running s) {f : PanelFrame} (hf : panelFrameGood f = true) :
    exec (.panelFrameArrival p f) s = .next (s.panelGood p f) :=
  congrArg Host.Outcome.next ((State.whenRunning_running hr _).trans (if_pos hf))

/-! ## Bad frames (R102, R104, R105) -/

theorem State.panelBad_hunt (h : (s.panel p).link.state = .hunt) :
    s.panelBad p = s.setPanel p { s.panel p with link := { (s.panel p).link with good := 0 } } := by
  unfold State.panelBad; rw [h]; rfl

/-- A bad frame in UP before the fourth in a row is counted. -/
theorem State.panelBad_counted (h : (s.panel p).link.state = .up) (hb : (s.panel p).link.bad + 1 < 4) : s.panelBad p =
    s.setPanel p { s.panel p with link := { (s.panel p).link with bad := (s.panel p).link.bad + 1 } } := by
  unfold State.panelBad; rw [h]; exact if_pos hb

theorem exec_panelFrame_bad (hr : Running s) {f : PanelFrame} (hf : panelFrameGood f = false) :
    exec (.panelFrameArrival p f) s =
      .next (if (s.panel p).link.state = .hunt ∧ f.sync = 0x5C then s.panelBad p else s) :=
  congrArg Host.Outcome.next ((State.whenRunning_running hr _).trans (if_neg (by rw [hf]; decide)))

theorem exec_panelWindowClose (hr : Running s) :
    exec (.panelWindowClose p) s = .next (if (s.panel p).link.state = .up then s.panelBad p else s) :=
  congrArg Host.Outcome.next (State.whenRunning_running hr _)

end

/-- Settles O27: what a frame and a window's close make of the link in each of its states. -/
theorem aPanelLinkCountsItsFrames : Obligations.APanelLinkCountsItsFrames := by
  refine fun s p f hr => ⟨fun hh hf => ?_, fun hf => ?_, fun hd => ?_, fun hu => ?_, fun hu hf hcall hcancel => ?_,
    fun hu hb => ?_⟩
  · rw [exec_panelFrame_good hr hf, State.panelGood_hunt hh]
    split_ifs
    · rfl
    · refine ⟨_, rfl, ?_⟩
      have hpanel : ((s.modPanel p (·.up (s.panelProfile p).gain)).post (.link .up (some p) none)).panel p =
          (s.panel p).up (s.panelProfile p).gain := vget_vset_self ..
      rw [hpanel]
      exact ⟨rfl, rfl, rfl⟩
  · rw [exec_panelFrame_bad hr hf]
    split_ifs with h
    · rw [State.panelBad_hunt h.1]
    · rfl
  · cases hf : panelFrameGood f with
    | true => rw [exec_panelFrame_good hr hf, State.panelGood_down hd]
    | false => rw [exec_panelFrame_bad hr hf, if_neg (by rw [hd]; exact nofun)]
  · rw [exec_panelWindowClose hr, if_neg hu]
  · rw [exec_panelFrame_up hr hu hf, State.panelControl_other hcall hcancel]
    rfl
  · rw [exec_panelWindowClose hr, if_pos hu, State.panelBad_counted hu hb]

end Sys2Proof.Machine
end

