-- ==== Sys2Proof/Proofs/Transmit.lean ====
section
/-! PROOFS. The transmit boundaries of the panel links and of the console link: the take of a sample (R107), and what the frame
sent carries (R101, R171, R181 to R183). -/

namespace Sys2Proof.Machine

open Sys2Proof Sys2Proof.Safety

/-! ## The take (R107) -/

theorem Fifo.taken_law (f : Fifo) : Taken f f.taken := by
  unfold Fifo.taken
  refine ⟨fun hr x rest hx => ?_, fun hr he => ?_, fun hr => ?_⟩
  · rw [if_pos hr, hx]
    dsimp only
    rw [hr]
  · rw [if_pos hr, he]
    dsimp only
    split_ifs
    · exact ⟨rfl, hr, Nat.one_ne_zero, rfl⟩
    · exact ⟨rfl, hr, Nat.succ_ne_zero 1, rfl⟩
  · exact if_neg (by rw [hr]; decide)

/-! ## The transmit boundary of a panel link (R101, R107, R108) -/

/-- A panel's control field is that of the queue's head, or an empty mark, and the head leaves the queue. -/
theorem PanelUnit.nextControl_eq (u : PanelUnit) : u.nextControl =
    ((u.sendQueue.head?.map (·.control)).getD (0, 0), { u with sendQueue := u.sendQueue.drop 1 }) := by
  unfold PanelUnit.nextControl
  split
  next h => rw [h]; rfl
  next h => cases u; dsimp only at h; rw [h]; rfl

/-- A panel with one sample taken. -/
def PanelUnit.sampled (u : PanelUnit) : PanelUnit :=
  { u with fifo := u.fifo.taken, underrun := u.underrun || u.fifo.underruns }

section
variable {s : State} {p : Panel} (hr : Running s)
include hr

theorem exec_panelTransmit_down (h : (s.panel p).link.state = .down) : exec (.panelTransmitBoundary p) s = .next s := by
  simp only [exec, execPanelTransmitBoundary, State.whenRunning_running hr, h]

theorem exec_panelTransmit_hunt (h : (s.panel p).link.state = .hunt) : exec (.panelTransmitBoundary p) s =
    .next (s.setPanel p { s.panel p with frame := some (makePanelFrame 0 0x00 0) }) := by
  simp only [exec, execPanelTransmitBoundary, State.whenRunning_running hr, h]
  rfl

/-- In UP the boundary takes a sample, computes the output, and sends its sample with the head message. -/
theorem exec_panelTransmit_up (h : (s.panel p).link.state = .up) {mixed : Sample × PanelUnit}
    (hm : mixed = (s.modPanel p (·.sampled)).mixPanel p) {control : Byte × Word}
    (hc : control = ((s.panel p).sendQueue.head?.map (·.control)).getD (0, 0)) :
    exec (.panelTransmitBoundary p) s = .next (s.setPanel p { s.panel p with
      fifo := (s.panel p).fifo.taken, underrun := (s.panel p).underrun || (s.panel p).fifo.underruns
      sendQueue := (s.panel p).sendQueue.drop 1, output := mixed.2.output, cursor := mixed.2.cursor
      frame := some (makePanelFrame mixed.1 control.1 control.2) }) := by
  have hpanel : (s.modPanel p (·.sampled)).panel p = (s.panel p).sampled := by rw [State.panel_modPanel, if_pos rfl]
  have hmixed : mixed.2 = { (s.panel p).sampled with output := mixed.2.output, cursor := mixed.2.cursor } := by
    rw [hm, ← hpanel]; exact State.mixPanel_fields ..
  have hexec : exec (.panelTransmitBoundary p) s = .next ((s.modPanel p (·.sampled)).setPanel p
      { mixed.2.nextControl.2 with
        frame := some (makePanelFrame mixed.1 mixed.2.nextControl.1.1 mixed.2.nextControl.1.2) }) := by
    simp only [exec, execPanelTransmitBoundary, State.whenRunning_running hr, h, hm]
    rfl
  rw [hexec, PanelUnit.nextControl_eq, State.modPanel, State.setPanel_setPanel, hmixed, hc]
  rfl

end

/-- Settles O29: the boundary in each link state; in UP it is the FIFO's take and the choice of the control field. -/
theorem aPanelTransmitTakesOneSample : Obligations.APanelTransmitTakesOneSample := by
  refine fun s p hr => ⟨exec_panelTransmit_down hr, fun hh => ?_, fun hu => ?_⟩
  · exact ⟨_, exec_panelTransmit_hunt hr hh, makePanelFrame_good .., rfl, rfl⟩
  · refine ⟨_, exec_panelTransmit_up hr hu rfl rfl, ?_⟩
    rw [State.panel_setPanel, if_pos rfl]
    exact ⟨rfl, Fifo.taken_law _, rfl, _, rfl, makePanelFrame_good .., rfl⟩

/-! ## The byte of a console frame (R181, R183) -/

section
variable {c : ConsoleUnit}

/-- A message in transmission goes on with its next byte, and is over with its last. -/
theorem ConsoleUnit.nextByte_outgoing {m : Outgoing} {b : Byte} (ho : c.outgoing = some m) (hb : m.bytes[m.sent]? = some b) :
    c.nextByte = (some (false, b),
      { c with outgoing := if m.sent + 1 < m.bytes.length then some { m with sent := m.sent + 1 } else none }) := by
  unfold ConsoleUnit.nextByte
  simp only [ho, hb]

/-- Between messages the oldest reply begins. -/
theorem ConsoleUnit.nextByte_reply {x : Reply} {rest : List Reply} (ho : c.outgoing = none) (hx : c.replies = x :: rest) :
    c.nextByte = (some (true, 0x40),
      { c with replies := rest, outgoing := some { bytes := x.message, sent := 1, isReport := false } }) := by
  unfold ConsoleUnit.nextByte
  simp only [ho, hx]
  rfl

/-- With no reply waiting the oldest report begins, and takes the gap mark with it. -/
theorem ConsoleUnit.nextByte_report {x : Report} {rest : List Report} (ho : c.outgoing = none) (hn : c.replies = [])
    (hx : c.reports = x :: rest) : c.nextByte = (some (true, x.kind),
      { c with
        reports := rest, gap := false
        outgoing := some { bytes := x.message c.gap, sent := 1, isReport := true } }) := by
  unfold ConsoleUnit.nextByte
  simp only [ho, hn, hx]
  rfl

theorem ConsoleUnit.nextByte_nothing (ho : c.outgoing = none) (hn : c.replies = []) (hx : c.reports = []) :
    c.nextByte = (none, c) := by
  unfold ConsoleUnit.nextByte
  simp only [ho, hn, hx]

/-- The choice of the next byte changes the message in transmission, the two queues and the gap mark alone. -/
theorem ConsoleUnit.nextByte_fields (c : ConsoleUnit) : c.nextByte.2 = { c with
    outgoing := c.nextByte.2.outgoing, replies := c.nextByte.2.replies, reports := c.nextByte.2.reports
    gap := c.nextByte.2.gap } := by
  unfold ConsoleUnit.nextByte
  split
  · split <;> rfl
  · split
    · rw [ConsoleUnit.begun_fields]
    · split
      · rw [ConsoleUnit.begun_fields]
      · rfl

end

/-! ## The transmit boundary of the console link (R107, R173, R181) -/

/-- The console unit with one sample taken. -/
def ConsoleUnit.sampled (c : ConsoleUnit) : ConsoleUnit := { c with fifo := c.fifo.taken }

section
variable {s : State} (hr : Running s)
include hr

theorem exec_consoleTransmit_down (h : s.clu.link.state = .down) : exec .consoleTransmitBoundary s = .next s := by
  simp only [exec, execConsoleTransmitBoundary, State.whenRunning_running hr, h]

theorem exec_consoleTransmit_hunt (h : s.clu.link.state = .hunt) : exec .consoleTransmitBoundary s =
    .next { s with clu := { s.clu with frame := some (makeConsoleFrame 0 none) } } := by
  simp only [exec, execConsoleTransmitBoundary, State.whenRunning_running hr, h]
  rfl

/-- In UP the boundary takes a sample, computes the output, and sends its sample with the next byte. -/
theorem exec_consoleTransmit_up (h : s.clu.link.state = .up) {mixed : Sample × ConsoleUnit}
    (hm : mixed = (s.modClu (·.sampled)).mixConsole) : exec .consoleTransmitBoundary s = .next { s with
      clu := { mixed.2.nextByte.2 with frame := some (makeConsoleFrame mixed.1 mixed.2.nextByte.1) } } := by
  simp only [exec, execConsoleTransmitBoundary, State.whenRunning_running hr, h, hm]
  rfl

end

/-- Settles O33: the boundary in each link state; in UP it is the FIFO's take and the choice of the byte. -/
theorem repliesAreSentBeforeReports : Obligations.RepliesAreSentBeforeReports := by
  refine ⟨fun s hr => exec_consoleTransmit_down hr, fun s hr hh => ?_, fun s hr hu => ?_⟩
  · exact ⟨_, exec_consoleTransmit_hunt hr hh, makeConsoleFrame_good .., rfl, rfl⟩
  · have hexec := exec_consoleTransmit_up hr hu rfl
    have hc : (s.modClu (·.sampled)).mixConsole.2 = { s.clu with
        fifo := s.clu.fifo.taken, output := (s.modClu (·.sampled)).mixConsole.2.output
        cursor := (s.modClu (·.sampled)).mixConsole.2.cursor } := State.mixConsole_fields _
    generalize (s.modClu (·.sampled)).mixConsole = mixed at hexec hc
    obtain ⟨x, c⟩ := mixed
    dsimp only at hexec hc
    have houtgoing : c.outgoing = s.clu.outgoing := by rw [hc]
    have hreplies : c.replies = s.clu.replies := by rw [hc]
    have hreports : c.reports = s.clu.reports := by rw [hc]
    have hgap : c.gap = s.clu.gap := by rw [hc]
    have hfields := c.nextByte_fields
    refine ⟨_, _, hexec, rfl, makeConsoleFrame_good .., ?_, ?_, fun m b ho hb => ?_, fun y rest ho hx => ?_,
      fun y rest ho hn hx => ?_, fun ho hn hx => ?_⟩
    · rw [hfields, hc]
    · rw [hfields, hc]
      exact Fifo.taken_law _
    · rw [c.nextByte_outgoing (houtgoing.trans ho) hb]
      exact ⟨rfl, rfl, hreplies, hreports, hgap, rfl⟩
    · rw [c.nextByte_reply (houtgoing.trans ho) (hreplies.trans hx)]
      exact ⟨rfl, rfl, rfl, rfl, hreports, hgap⟩
    · rw [c.nextByte_report (houtgoing.trans ho) (hreplies.trans hn) (hreports.trans hx), hgap]
      exact ⟨rfl, rfl, rfl, hreplies.trans hn, rfl, rfl⟩
    · rw [c.nextByte_nothing (houtgoing.trans ho) (hreplies.trans hn) (hreports.trans hx)]
      exact ⟨rfl, rfl, houtgoing.trans ho, hreplies.trans hn, hreports.trans hx⟩

end Sys2Proof.Machine
end

