-- ==== Sys2Proof/Proofs/ReadStatus.lean ====
section
/-! PROOFS. READ and STATUS: the items of a READ as many as fit its reply (R185 to R187, R210), and the sections of STATUS
(R108, R193). -/

namespace Sys2Proof.Machine

open Sys2Proof Sys2Proof.Safety

/-! ## How many bytes an item takes (R187, R193, R211) -/

/-- A list whose entries take the same number of bytes each. -/
theorem length_flatMap_of_length {α : Type} {k : Nat} {f : α → List Byte} (h : ∀ x, (f x).length = k) (l : List α) :
    (l.flatMap f).length = l.length * k := by
  rw [List.length_flatMap, List.map_congr_left fun x _ => h x, List.map_const', List.sum_replicate, smul_eq_mul]

section
variable (s : State)

theorem State.directoryItem_length (e : EntryIx) : (s.directoryItem e).length = 6 := by
  unfold State.directoryItem; split <;> rfl

theorem State.counterItem_length (e : EntryIx) : (s.counterItem e).length = 2 := by
  unfold State.counterItem; split <;> rfl

/-- Four legs, used or not, take 24 bytes. -/
theorem legsBytes_length (legs : List Leg) : (legsBytes legs).length = 24 := by
  have hleg : ∀ l, (legBytes l).length = 6 := fun _ => rfl
  rw [legsBytes, List.length_append, length_flatMap_of_length hleg, List.length_replicate, List.length_take]
  omega

theorem State.callItem_length (draw : Nat) (i : Rec) : (s.callItem draw i).length = 46 := by
  unfold State.callItem
  split
  · rfl
  · simp only [List.length_append, legsBytes_length, slotsBytes_length]
    rfl

theorem State.presenceItem_length (r : Riser) (a : Addr) : (s.presenceItem r a).length = 2 := rfl

theorem State.queueItem_length (ix : Nat) : (s.queueItem ix).length = 6 := by
  unfold State.queueItem
  dsimp only
  split
  · split
    · rfl
    · split <;> rfl
  · split
    · rfl
    · split <;> rfl

theorem State.profileItem_length_le (ix : Nat) : (s.profileItem ix).length ≤ 9 := by
  unfold State.profileItem
  split_ifs
  · exact (by decide : 6 ≤ 9)
  · exact Nat.le_refl 9
  · exact (by decide : 4 ≤ 9)
  · exact (by decide : 2 ≤ 9)

theorem State.riserItem_length (r : Riser) : (s.riserItem r).length = 26 := by
  have hentry : ∀ e, (entryPair e).length = 2 := fun e => by cases e <;> rfl
  have hgain : ∀ o, (s.gainPair o).length = 2 := fun o => by cases o <;> rfl
  simp only [State.riserItem, List.length_append, length_flatMap_of_length hentry, length_flatMap_of_length hgain,
    Vector.length_toList]
  rfl

theorem State.toneItem_length (ix : Nat) : (s.toneItem ix).length = 2 := by
  unfold State.toneItem
  split
  · rfl
  · split <;> rfl

theorem State.section_length_le (part : Nat) : (s.section_ part).length ≤ 32 := by
  unfold State.section_
  split
  · exact (by decide : 19 ≤ 32)
  · rw [State.panelsSection, length_flatMap_of_length (k := 4) fun _ => rfl, Vector.length_toList]
    decide
  · exact Nat.le_refl 32
  · unfold State.pageSection
    split <;> exact (by decide : 31 ≤ 32)

end

/-- The bytes of an item, for each table but PROFILES and STATUS, whose items differ in length. -/
def itemLength (table : Nat) : Nat := [6, 2, 46, 2, 6, 0, 26, 2][table]?.getD 0

section
variable (s : State) (r : Riser) (ix : Nat)

theorem State.item_length : ∀ {table : Nat}, table ≠ 5 → table < 8 → (s.item table r ix).length = itemLength table
  | 0, _, _ => s.directoryItem_length _
  | 1, _, _ => s.counterItem_length _
  | 2, _, _ => s.callItem_length ..
  | 3, _, _ => s.presenceItem_length ..
  | 4, _, _ => s.queueItem_length _
  | 5, h, _ => absurd rfl h
  | 6, _, _ => s.riserItem_length _
  | 7, _, _ => s.toneItem_length _
  | _ + 8, _, h => absurd h (by omega)

/-- Every item fits the room of a reply. -/
theorem State.item_length_le : ∀ table, (s.item table r ix).length ≤ readRoom
  | 0 | 1 | 2 | 3 | 4 | 6 | 7 => (s.item_length r ix (by decide) (by decide)).trans_le (by decide)
  | 5 => (s.profileItem_length_le _).trans (by decide)
  | _ + 8 => (s.section_length_le _).trans (by decide)

/-- The riser of a READ is that of PRESENCE items alone. -/
theorem State.item_riser (r' : Riser) : ∀ {table : Nat}, table ≠ 3 → s.item table r ix = s.item table r' ix
  | 0, _ | 1, _ | 2, _ | 4, _ | 5, _ | 6, _ | 7, _ | _ + 8, _ => rfl
  | 3, h => absurd rfl h

/-- Items tell nothing of the receiver. -/
theorem State.item_messageArrived : ∀ table, s.messageArrived.item table r ix = s.item table r ix
  | 0 | 1 | 2 | 3 | 4 | 5 | 6 | 7 | _ + 8 => rfl

end

/-! ## The items of a READ (R185, R186, R210) -/

/-- A number of items of a table of a size, from an index on, the index after the last being 0. -/
def State.itemsFrom (s : State) (table : Nat) (r : Riser) (size start m : Nat) : List Byte :=
  (List.range m).flatMap fun j => s.item table r ((start + j) % size)

section
variable (s : State) (table : Nat) (r : Riser) (size start : Nat)

theorem State.itemsFrom_succ (m : Nat) : s.itemsFrom table r size start (m + 1) =
    s.item table r (start % size) ++ s.itemsFrom table r size ((start + 1) % size) m := by
  have hnext : ∀ j, ((start + 1) % size + j) % size = (start + (j + 1)) % size := fun j => by
    rw [Nat.mod_add_mod]; congr 1; omega
  simp only [State.itemsFrom, List.range_succ_eq_map, List.flatMap_cons, List.flatMap_map, hnext]
  rfl

/-- The items of a READ are the first ones of the table from the index on: at most as many as asked, and all that are asked
or all that fit the room. -/
theorem State.items_greedy (hsize : 0 < size) : ∀ n start room, start < size → ∃ m,
    s.items table r size n start room = (m, s.itemsFrom table r size start m) ∧ m ≤ n ∧
    (s.itemsFrom table r size start m).length ≤ room ∧
    (m = n ∨ room < (s.itemsFrom table r size start (m + 1)).length)
  | 0, _, _, _ => ⟨0, rfl, Nat.le_refl _, Nat.zero_le _, .inl rfl⟩
  | n + 1, start, room, hstart => by
    have hfirst := s.itemsFrom_succ table r size start
    rw [Nat.mod_eq_of_lt hstart] at hfirst
    rw [State.items]
    dsimp only
    by_cases hroom : (s.item table r start).length ≤ room
    · obtain ⟨m, hitems, hm, hfits, hlast⟩ := State.items_greedy hsize n ((start + 1) % size)
        (room - (s.item table r start).length) (Nat.mod_lt _ hsize)
      refine ⟨m + 1, ?_, by omega, ?_, ?_⟩
      · rw [if_pos hroom, hitems, hfirst]
      · rw [hfirst, List.length_append]; omega
      · rw [hfirst, List.length_append]; omega
    · refine ⟨0, if_neg hroom, Nat.zero_le _, Nat.zero_le _, .inr ?_⟩
      rw [hfirst, List.length_append]
      omega

/-- The bytes of items of one length. -/
theorem State.itemsFrom_length {table : Nat} (h5 : table ≠ 5) (h8 : table < 8) (m : Nat) :
    (s.itemsFrom table r size start m).length = m * itemLength table := by
  rw [State.itemsFrom, length_flatMap_of_length fun j => s.item_length r _ h5 h8, List.length_range]

end

/-- The items of one length that a reply holds: as many as are asked, and no more than its room divided by the length. -/
theorem items_count {n count length room : Nat} (hlength : 0 < length) (hn : n ≤ count) (hfits : n * length ≤ room)
    (hlast : n = count ∨ room < (n + 1) * length) : n = min (room / length) count := by
  have hle : n ≤ room / length := (Nat.le_div_iff_mul_le hlength).mpr hfits
  rcases hlast with h | h
  · omega
  · have hlt : room / length < n + 1 := (Nat.div_lt_iff_lt_mul hlength).mpr h
    omega

/-- The most items of each table a READ gives, 16 being the most it asks. -/
theorem itemLength_room : ∀ table < 8, table ≠ 5 → 0 < itemLength table ∧
    [9, 16, 1, 16, 9, 0, 2, 16][table]?.getD 0 = min 16 (readRoom / itemLength table) := by decide

/-! ## READ (R185, R186) -/

/-- The number of indices of each table of READ; none of another code. -/
theorem tableSize_eq : ∀ table : Nat, tableSize table =
    if 8 < table then none else some ([384, 384, 16, 32, 16, 16, 8, 164, 4][table]?.getD 0)
  | 0 | 1 | 2 | 3 | 4 | 5 | 6 | 7 | 8 => rfl
  | _ + 9 => (if_pos (by omega)).symm

/-- The riser of a READ: that of its riser byte in PRESENCE, which alone reads it, and 0 otherwise. -/
def readRiser (table riser : Byte) : Riser := if table = 3 then Fin.ofNat 8 riser.toNat else 0

/-- The riser byte of a READ's reply (log entry 15). -/
theorem byteOf_readRiser {table riser : Byte} (h : ¬ (table = 3 ∧ 7 < riser.toNat)) :
    byteOf (readRiser table riser).val = if table = 3 then riser else 0 := by
  unfold readRiser
  split_ifs with h3
  · have hriser : (Fin.ofNat 8 riser.toNat).val = riser.toNat := Nat.mod_eq_of_lt (by have := not_and.mp h h3; omega)
    rw [hriser, byteOf_toNat]
  · rfl

theorem State.item_readRiser (s : State) (table riser : Byte) (ix : Nat) :
    s.item table.toNat (readRiser table riser) ix = s.item table.toNat (Fin.ofNat 8 riser.toNat) ix := by
  unfold readRiser
  split_ifs with h3
  · rfl
  · exact s.item_riser _ _ _ fun h => h3 (BitVec.eq_of_toNat_eq h)

/-- What a READ is refused for (R185). -/
def ReadOutside (table riser : Byte) (start : Word) (count : Byte) (size : Nat) : Prop :=
  8 < table.toNat ∨ (table = 3 ∧ 7 < riser.toNat) ∨ size ≤ start.toNat ∨ count.toNat = 0 ∨ 16 < count.toNat

section
variable {table riser : Byte} {start : Word} {count : Byte} {size : Nat}
  (hsize : size = [384, 384, 16, 32, 16, 16, 8, 164, 4][table.toNat]?.getD 0)
include hsize

theorem readArguments_refused (h : ReadOutside table riser start count size) :
    readArguments table riser start count = none := by
  rw [readArguments, tableSize_eq, ← hsize]
  by_cases htable : 8 < table.toNat
  · rw [if_pos htable]
  · rw [if_neg htable]
    dsimp only
    rw [← ite_or, ← ite_or]
    exact if_pos (by rw [or_assoc, Nat.lt_one_iff]; exact h.resolve_left htable)

theorem readArguments_passed (h : ¬ ReadOutside table riser start count size) :
    readArguments table riser start count = some (readRiser table riser, size) := by
  simp only [ReadOutside, not_or] at h
  obtain ⟨htable, hriser, hstart, hzero, hcount⟩ := h
  rw [readArguments, tableSize_eq, ← hsize, if_neg htable]
  dsimp only
  rw [if_neg hriser, if_neg hstart, if_neg (by omega)]
  rfl

end

section
variable {s : State} {tag table riser : Byte} {start : Word} {count : Byte} {size : Nat} (ha : Accepts s)
include ha

theorem exec_read_refused (h : readArguments table riser start count = none) :
    exec (.read tag table riser start count) s = .next (refusal s tag .range []) := by
  refine congrArg Host.Outcome.next (State.request_refused ha (q := .read table riser start count) ?_)
  rw [Request.run, doRead, h]

/-- A READ that passes its test leaves its reply, whose items are as many as are asked or fit. -/
theorem exec_read_passed (hargs : readArguments table riser start count = some (readRiser table riser, size))
    (hriser : ¬ (table = 3 ∧ 7 < riser.toNat)) (hstart : start.toNat < size) {items : Nat → List Byte}
    (hitems : items = s.itemsFrom table.toNat (Fin.ofNat 8 riser.toNat) size start.toNat) : ∃ n draws,
    exec (.read tag table riser start count) s = .next
      { confirmed s tag ([table, if table = 3 then riser else 0] ++ wordBytes start ++ [byteOf n]
          ++ wordOf ((start.toNat + n) % size) ++ items n) with draws := draws } ∧
    n ≤ count.toNat ∧ (items n).length ≤ readRoom ∧ (n = count.toNat ∨ readRoom < (items (n + 1)).length) := by
  have hfrom : s.messageArrived.itemsFrom table.toNat (readRiser table riser) size start.toNat = items := by
    rw [hitems]
    funext m
    exact List.flatMap_congr fun j _ => (State.item_messageArrived ..).trans (s.item_readRiser ..)
  obtain ⟨n, hgot, hrest⟩ := s.messageArrived.items_greedy table.toNat (readRiser table riser) size
    (Nat.zero_lt_of_lt hstart) count.toNat start.toNat readRoom hstart
  rw [hfrom] at hgot hrest
  refine ⟨n, if table = 2 then s.draws + 1 else s.draws, congrArg Host.Outcome.next ?_, hrest⟩
  have hrun : doRead table riser start count s.messageArrived = finished
      (if table = 2 then s.messageArrived.drawn else s.messageArrived)
      ([table, byteOf (readRiser table riser).val] ++ wordBytes start ++ [byteOf n] ++ wordOf ((start.toNat + n) % size)
        ++ items n) := by
    rw [doRead, hargs]
    dsimp only
    rw [hgot]
  rw [byteOf_readRiser hriser] at hrun
  refine (State.request_finished ha (q := .read table riser start count) hrun).trans ?_
  split_ifs <;> rfl

end

/-! ## STATUS (R108, R193) -/

theorem State.underrunsCleared_panel (s : State) (p : Panel) :
    s.underrunsCleared.panel p = { s.panel p with underrun := false } := vget_vmap ..

theorem exec_status_refused {s : State} {tag part : Byte} (ha : Accepts s) (h : 3 < part.toNat) :
    exec (.status tag part) s = .next (refusal s tag .range []) :=
  congrArg Host.Outcome.next (State.request_refused ha (q := .status part) (if_pos h))

/-- A STATUS tells its section as it stands before the flags of a PANELS section are cleared. -/
theorem exec_status_passed {s : State} {tag part : Byte} (ha : Accepts s) (h : ¬ 3 < part.toNat) :
    exec (.status tag part) s = .next { confirmed s tag (part :: s.section_ part.toNat) with
      panels := if part = 1 then s.underrunsCleared.panels else s.panels } := by
  have hsection : s.messageArrived.section_ part.toNat = s.section_ part.toNat :=
    s.item_messageArrived 0 part.toNat 8
  have hrun : doStatus part s.messageArrived = finished
      (if part = 1 then s.messageArrived.underrunsCleared else s.messageArrived) (part :: s.section_ part.toNat) := by
    rw [doStatus, if_neg h, hsection]
  refine congrArg Host.Outcome.next ((State.request_finished ha (q := .status part) hrun).trans ?_)
  split_ifs <;> rfl

/-- Settles O38: the tests of both requests; then the items of a READ, and the section of a STATUS. -/
theorem readAndStatusTellTheState : Obligations.ReadAndStatusTellTheState := by
  refine ⟨fun s tag table riser start count ha size hsize => ?_, fun s tag part ha => ?_⟩
  · split
    next h => exact exec_read_refused ha (readArguments_refused hsize h)
    next h =>
      have hargs := readArguments_passed hsize h
      simp only [not_or] at h
      obtain ⟨htable, hriser, hstart, hzero, hcount⟩ := h
      obtain ⟨n, draws, hexec, hn, hfits, hlast⟩ :=
        exec_read_passed (tag := tag) ha hargs hriser (Nat.lt_of_not_le hstart) rfl
      refine ⟨n, draws, _, hexec, fun _ => rfl, ?_, hn, hfits, hlast, fun h5 h8 => ?_, fun h0 => ?_⟩
      · refine Nat.pos_of_ne_zero fun hn0 => ?_
        have hone := s.item_length_le (Fin.ofNat 8 riser.toNat) (start.toNat % size) table.toNat
        rw [hn0, State.itemsFrom_succ, List.length_append] at hlast
        exact hlast.elim (fun h => hzero h.symm) fun h => absurd hone (Nat.not_le.mpr h)
      · have h5' : table.toNat ≠ 5 := fun h => h5 (BitVec.eq_of_toNat_eq h)
        have h8' : table.toNat ≠ 8 := fun h => h8 (BitVec.eq_of_toNat_eq h)
        obtain ⟨hlength, hmost⟩ := itemLength_room table.toNat (by omega) h5'
        rw [s.itemsFrom_length _ _ _ h5' (by omega)] at hfits hlast
        have hn' := items_count hlength hn hfits hlast
        omega
      · subst h0
        subst hsize
        exact List.flatMap_congr fun j _ => congrArg s.directoryItem (Fin.ext (Nat.mod_mod ..))
  · split
    next h => exact exec_status_refused ha h
    next h =>
      refine ⟨_, exec_status_passed ha h, rfl, fun p => ?_⟩
      change vget (if part = 1 then s.underrunsCleared.panels else s.panels) p = _
      split_ifs
      · exact s.underrunsCleared_panel p
      · rfl

end Sys2Proof.Machine
end

