-- ==== Sys2Proof/Proofs/ConsoleSet.lean ====
section
/-! PROOFS. CONSOLE-SET: its clamps, its reply, and the outputs that a changed gain resets (R156, R188, R190). -/

namespace Sys2Proof.Machine

open Sys2Proof Sys2Proof.Safety

/-! ## The profile and the reply of CONSOLE-SET -/

section
variable {gain pageGain ring : Byte} {talk queue : Word} {page wait : Byte} {new : ConsoleProfile} {w : Nat}
  (hnew : new =
    { gain := gain.toNat, pageGain := pageGain.toNat, ring := max 5 (min 120 ring.toNat)
      talk := max 10 (min 600 talk.toNat), queue := max 10 (min 300 queue.toNat), page := max 5 (min 120 page.toNat) })
include hnew

theorem consoleFields_written : consoleFields new w =
    [gain, pageGain, byteOf new.ring] ++ wordOf new.talk ++ wordOf new.queue ++ [byteOf new.page, byteOf w] := by
  have hgain : byteOf new.gain = gain := by rw [hnew]; exact byteOf_toNat gain
  have hpage : byteOf new.pageGain = pageGain := by rw [hnew]; exact byteOf_toNat pageGain
  rw [consoleFields, hgain, hpage]

/-- The reply carries what was sent when no value was replaced. -/
theorem consoleFields_sent_iff (hw : w < 256) :
    consoleFields new w = [gain, pageGain, ring] ++ wordBytes talk ++ wordBytes queue ++ [page, wait] ↔
      new.ring = ring.toNat ∧ new.talk = talk.toNat ∧ new.queue = queue.toNat ∧ new.page = page.toNat ∧ w = wait.toNat := by
  have hring : new.ring < 256 := by rw [hnew]; dsimp only; omega
  have htalk : new.talk < 65536 := by rw [hnew]; dsimp only; omega
  have hqueue : new.queue < 65536 := by rw [hnew]; dsimp only; omega
  have hpage : new.page < 256 := by rw [hnew]; dsimp only; omega
  rw [consoleFields_written hnew, ← byteOf_eq_iff hring, ← wordOf_eq_iff htalk, ← wordOf_eq_iff hqueue,
    ← byteOf_eq_iff hpage, ← byteOf_eq_iff hw]
  simp only [wordOf, wordBytes, List.cons_append, List.nil_append, List.cons.injEq, and_true, true_and, and_assoc]

end

/-! ## The outputs of a changed gain (R144, R156) -/

/-- A changed gain touches the console output alone, a changed page gain the risers alone. -/
theorem State.consoleGained_eq (s : State) (old new : ConsoleProfile) : s.consoleGained old new = { s with
    risers := if new.pageGain = old.pageGain then s.risers else vmap (·.pageGained new.pageGain) s.risers
    clu := { s.clu with
      output := if new.gain = old.gain then s.clu.output else s.clu.output.map fun _ => .fresh new.gain } } := by
  unfold State.consoleGained
  split_ifs <;> rfl

/-- Of a riser, a changed page gain resets the page slot outputs. -/
theorem State.consoleGained_riser (s : State) (old new : ConsoleProfile) (r : Riser) :
    (s.consoleGained old new).riser r = { s.riser r with
      outputs := if new.pageGain = old.pageGain then (s.riser r).outputs
        else ((s.riser r).pageGained new.pageGain).outputs } := by
  rw [State.consoleGained_eq, State.riser]
  dsimp only
  split_ifs
  · rfl
  · exact vget_vmap ..

/-! ## CONSOLE-SET (R190) -/

/-- The part with the message taken, and the console profile and the wait timeout written. -/
def State.consoleWritten (s : State) (new : ConsoleProfile) (w : Nat) : State :=
  s.messageArrived.setSettings { s.settings with console := new, wait := w }

/-- A CONSOLE-SET resets the outputs of changed gains and replies; it is followed by no scan. -/
theorem exec_consoleSet {s : State} {tag gain pageGain ring : Byte} {talk queue : Word} {page wait : Byte} (ha : Accepts s)
    {new : ConsoleProfile} {w : Nat} (hnew : new =
      { gain := gain.toNat, pageGain := pageGain.toNat, ring := max 5 (min 120 ring.toNat)
        talk := max 10 (min 600 talk.toNat), queue := max 10 (min 300 queue.toNat), page := max 5 (min 120 page.toNat) })
    (hw : w = max 5 (min 60 wait.toNat)) :
    exec (.consoleSet tag gain pageGain ring talk queue page wait) s = .next
      (((s.consoleWritten new w).consoleGained s.settings.console new).reply {
        tag := tag, reason := .none
        result := if new.ring = ring.toNat ∧ new.talk = talk.toNat ∧ new.queue = queue.toNat ∧ new.page = page.toNat ∧
            w = wait.toNat then .done else .adjusted
        data := [gain, pageGain, byteOf new.ring] ++ wordOf new.talk ++ wordOf new.queue ++ [byteOf new.page, byteOf w] }) := by
  have hrun : doConsoleSet gain pageGain ring talk queue page wait s.messageArrived = settledReply
      ((s.consoleWritten new w).consoleGained s.settings.console new)
      (consoleFields new w = [gain, pageGain, ring] ++ wordBytes talk ++ wordBytes queue ++ [page, wait])
      (consoleFields new w) := by
    rw [hnew, hw]; rfl
  refine congrArg Host.Outcome.next ((State.request_settled ha
    (q := .consoleSet gain pageGain ring talk queue page wait) hrun).trans ?_)
  simp only [decide_eq_true_eq, consoleFields_sent_iff hnew (show w < 256 by omega)]
  rw [consoleFields_written hnew]

/-- Settles O43: the reply, then the outputs by which of the two gains changed. -/
theorem consoleSetTakesEffect : Obligations.ConsoleSetTakesEffect := by
  intro s tag gain pageGain ring talk queue page wait ha new w hnew hw
  have hgain : new.gain = gain.toNat := by rw [hnew]
  have hpageGain : new.pageGain = pageGain.toNat := by rw [hnew]
  refine ⟨_, exec_consoleSet ha hnew hw, ?_, ?_, fun r => ?_⟩
  · rw [State.consoleGained_eq]; rfl
  · rw [State.consoleGained_eq, ← hgain]; rfl
  · rw [State.reply_riser, State.consoleGained_riser, ← hpageGain]; rfl

end Sys2Proof.Machine
end

