-- ==== Sys2Proof/Proofs/LinkOutputs.lean ====
section
/-! PROOFS. The panel outputs and the console output: their voices and tones by the state of the call (R146, R149, R150, R163,
R167), one computation of each (R151, R152, R157), and the frames that carry their samples (R209, R212). -/

namespace Sys2Proof.Machine

open Sys2Proof Sys2Proof.Safety

/-! ## Tones (R151, R163, R167) -/

theorem State.toneSample_eq (s : State) (t : Tone) (n : Nat) : s.toneSample t (n % 40) = toneAt s t.number n := by
  unfold State.toneSample toneAt
  cases s.mixer with
  | normal => rfl
  | service => rfl

/-- A cursor gives its tone in the on part of the cadence. -/
theorem State.cursorTone_eq (s : State) (t : Tone) (n : Nat) : s.cursorTone (some { tone := t, phase := n }) t =
    if n % t.cycle < t.onFrames then toneAt s t.number n else 0 := by
  rw [← State.toneSample_eq, State.cursorTone]
  simp only [true_and]

/-! ## The answered handset (R146) -/

/-- The first slot that passes a test is the one below which none does. -/
theorem find?_allSlots {f : Slot → Bool} {k : Slot} (hk : f k = true) (hlow : ∀ j : Slot, j.val < k.val → f j = false) :
    allSlots.find? f = some k := by
  refine List.find?_eq_some_iff_getElem.mpr ⟨hk, k.val, by simp [allSlots], by simp [allSlots], fun j hj => ?_⟩
  have hj' := hlow ⟨j, by omega⟩ hj
  simpa [allSlots] using hj'

theorem State.handsetUplink_eq {s : State} {i : Rec} {c : Call} {v : Sample} (h : AnsweredVoice s i c v) :
    s.handsetUplink i c = v := by
  obtain ⟨l, hl, hv⟩ := h
  unfold State.handsetUplink
  simp only [hl]
  rcases hv with ⟨k, hk, hlow, rfl⟩ | ⟨hnone, rfl⟩
  · rw [find?_allSlots (k := k) (decide_eq_true hk) fun j hj => decide_eq_false (hlow j hj)]
  · rw [List.find?_eq_none.mpr fun k _ => by simpa using hnone k]

/-! ## The inputs of a panel output (R149) -/

section
variable {s : State} {u : PanelUnit}

section
variable {i : Rec} {c : Call} (hi : u.current = some i) (hc : s.call i = some c)
include hi hc

theorem State.panelInputs_call : s.panelVoices u = (if c.state = .connected then s.handsetUplink i c :: s.bargeUplink c else []) ∧
    s.panelTone u = if c.state = .ringing then s.cursorTone u.cursor .ringback else 0 := by
  simp only [State.panelVoices, State.panelTone, hi, hc, and_self]

theorem State.panelInputs_connected (hs : c.state = .connected) {v : Sample} (hv : AnsweredVoice s i c v) :
    s.panelVoices u = v :: (if c.monitor = .barge then [s.clu.fifo.uplink] else []) ∧ s.panelTone u = 0 := by
  obtain ⟨hvoices, htone⟩ := State.panelInputs_call hi hc
  rw [if_pos hs, State.handsetUplink_eq hv] at hvoices
  rw [hs, if_neg nofun] at htone
  exact ⟨hvoices, htone⟩

theorem State.panelInputs_ringing (hs : c.state = .ringing) {n : Nat} (hn : u.cursor = some { tone := .ringback, phase := n }) :
    s.panelVoices u = [] ∧ s.panelTone u = if n % 32000 < 8000 then toneAt s 0 n else 0 := by
  obtain ⟨hvoices, htone⟩ := State.panelInputs_call hi hc
  rw [hs, if_neg nofun] at hvoices
  rw [if_pos hs, hn] at htone
  exact ⟨hvoices, htone.trans (s.cursorTone_eq .ringback n)⟩

theorem State.panelInputs_otherwise (hs : c.state ≠ .connected) (hs' : c.state ≠ .ringing) :
    s.panelVoices u = [] ∧ s.panelTone u = 0 := by
  have h := State.panelInputs_call hi hc
  rwa [if_neg hs, if_neg hs'] at h

end

/-- A panel with no call plays its end tone's waveform (R113). -/
theorem State.panelInputs_ended {w : EndWave} {tm : Timer} {n : Nat} (hi : u.current = none)
    (he : u.endTone = some { wave := w, timer := tm }) (hn : u.cursor = some { tone := w.tone, phase := n }) :
    s.panelVoices u = [] ∧ s.panelTone u = if n % w.tone.cycle < w.tone.onFrames then toneAt s w.tone.number n else 0 := by
  rw [← State.cursorTone_eq]
  simp only [State.panelVoices, State.panelTone, hi, he, hn, and_self]

theorem State.panelInputs_free (hi : u.current = none) (he : u.endTone = none) :
    s.panelVoices u = [] ∧ s.panelTone u = 0 := by
  simp only [State.panelVoices, State.panelTone, hi, he, and_self]

end

/-! ## The inputs of the console output (R150) -/

section
variable {s : State} {i : Rec} {c : Call}

section
variable (ht : s.console = .talk i) (hc : s.call i = some c)
include ht hc

theorem State.consoleInputs_talk : s.consoleVoices = (if c.state = .connected then [s.handsetUplink i c] else []) ∧
    s.consoleTone = if c.state = .ringing then s.cursorTone s.clu.cursor .ringback else 0 := by
  simp only [State.consoleVoices, State.consoleTone, ht, hc, and_self]

theorem State.consoleInputs_connected (hs : c.state = .connected) {v : Sample} (hv : AnsweredVoice s i c v) :
    s.consoleVoices = [v] ∧ s.consoleTone = 0 := by
  obtain ⟨hvoices, htone⟩ := State.consoleInputs_talk ht hc
  rw [if_pos hs, State.handsetUplink_eq hv] at hvoices
  rw [hs, if_neg nofun] at htone
  exact ⟨hvoices, htone⟩

theorem State.consoleInputs_ringing (hs : c.state = .ringing) {n : Nat}
    (hn : s.clu.cursor = some { tone := .ringback, phase := n }) :
    s.consoleVoices = [] ∧ s.consoleTone = if n % 32000 < 8000 then toneAt s 0 n else 0 := by
  obtain ⟨hvoices, htone⟩ := State.consoleInputs_talk ht hc
  rw [hs, if_neg nofun] at hvoices
  rw [if_pos hs, hn] at htone
  exact ⟨hvoices, htone.trans (s.cursorTone_eq .ringback n)⟩

theorem State.consoleInputs_otherwise (hs : c.state ≠ .connected) (hs' : c.state ≠ .ringing) :
    s.consoleVoices = [] ∧ s.consoleTone = 0 := by
  have h := State.consoleInputs_talk ht hc
  rwa [if_neg hs, if_neg hs'] at h

end

/-- The operator who listens or has joined hears both ends of a panel's call. -/
theorem State.consoleInputs_monitor (hm : s.console = .listen i ∨ s.console = .barge i) (hc : s.call i = some c) {p : Panel}
    (ho : c.origin = .panel p) {v : Sample} (hv : AnsweredVoice s i c v) :
    s.consoleVoices = [(s.panel p).fifo.uplink, v] ∧ s.consoleTone = 0 := by
  rw [← State.handsetUplink_eq hv]
  rcases hm with hm | hm <;> simp only [State.consoleVoices, State.consoleTone, State.originUplink, hm, hc, ho, and_self]

theorem State.consoleInputs_none (hn : s.console = .idle ∨ s.console = .paging) :
    s.consoleVoices = [] ∧ s.consoleTone = 0 := by
  rcases hn with hn | hn <;> simp only [State.consoleVoices, State.consoleTone, hn, and_self]

end

/-! ## The transmit boundary of a panel link (R145, R157, R212) -/

/-- The sum of a panel output's contributions. -/
def State.panelSum (s : State) (p : Panel) (working : Nat) : Int :=
  mixSum (s.panelVoices (s.panel p)) working (s.panelTone (s.panel p))

theorem State.mixPanel_none {s : State} {p : Panel} (h : (s.panel p).output = none) : s.mixPanel p = (0, s.panel p) := by
  unfold State.mixPanel
  dsimp only
  rw [h]

theorem State.mixPanel_some {s : State} {p : Panel} {o : Output} (ho : (s.panel p).output = some o) :
    s.mixPanel p = (saturated (s.panelSum p o.working), { s.panel p with
      output := some (o.counted s.settings.clip s.settings.floor (s.panelProfile p).gain (clips (s.panelSum p o.working)))
      cursor := (s.panel p).cursor.map (·.advanced) }) := by
  unfold State.mixPanel
  dsimp only
  rw [ho]
  rfl

/-- The sample that the boundary takes enters no output of its own panel. -/
theorem State.mixPanel_sampled {s : State} {p : Panel} {o : Output} (ho : (s.panel p).output = some o) :
    (s.modPanel p (·.sampled)).mixPanel p = (saturated (s.panelSum p o.working), { (s.panel p).sampled with
      output := some (o.counted s.settings.clip s.settings.floor (s.panelProfile p).gain (clips (s.panelSum p o.working)))
      cursor := (s.panel p).cursor.map (·.advanced) }) := by
  have hpanel : (s.modPanel p (·.sampled)).panel p = (s.panel p).sampled := by rw [State.panel_modPanel, if_pos rfl]
  rw [State.mixPanel_some (o := o) (by rw [hpanel]; exact ho), State.panelSum, hpanel]
  rfl

/-- In UP the boundary computes the output once, moves the cursor on, and sends the sample. -/
theorem exec_panelTransmit_mixes {s : State} {p : Panel} {o : Output} (hr : Running s) (hu : (s.panel p).link.state = .up)
    (ho : (s.panel p).output = some o) : ∃ t, ∃ control : Byte × Word, exec (.panelTransmitBoundary p) s = .next t ∧
      (t.panel p).frame = some (makePanelFrame (saturated (s.panelSum p o.working)) control.1 control.2) ∧
      (t.panel p).output = some (o.counted s.settings.clip s.settings.floor (s.panelProfile p).gain
        (clips (s.panelSum p o.working))) ∧
      (t.panel p).cursor = (s.panel p).cursor.map (·.advanced) := by
  refine ⟨_, ((s.panel p).sendQueue.head?.map (·.control)).getD (0, 0),
    exec_panelTransmit_up hr hu (State.mixPanel_sampled ho).symm rfl, ?_⟩
  rw [State.panel_setPanel, if_pos rfl]
  exact ⟨rfl, rfl, rfl⟩

/-- Settles O30: the voices and the tone in each state of the panel's call, and one computation with them. -/
theorem aPanelTransmitMixesThePanelOutput : Obligations.APanelTransmitMixesThePanelOutput := by
  intro s p o hr hu ho
  obtain ⟨t, control, hexec, hframe, houtput, hcursor⟩ := exec_panelTransmit_mixes hr hu ho
  refine ⟨t, _, _, _, hexec, hframe, rfl, houtput, hcursor, fun voices tone h => ?_⟩
  suffices hmix : s.panelVoices (s.panel p) = voices ∧ s.panelTone (s.panel p) = tone by
    obtain ⟨hvoices, htone⟩ := hmix
    rw [State.panelSum, hvoices, htone]
    exact Output.counted_computed ..
  rcases h with ⟨i, c, v, hi, hc, hs, hv, rfl, rfl⟩ | ⟨i, c, n, hi, hc, hs, hn, rfl, rfl⟩ | ⟨i, c, hi, hc, hs, hs', rfl, rfl⟩ |
    ⟨n, tm, hi, he, hn, rfl, rfl⟩ | ⟨n, tm, hi, he, hn, rfl, rfl⟩ | ⟨hi, he, rfl, rfl⟩
  · exact State.panelInputs_connected hi hc hs hv
  · exact State.panelInputs_ringing hi hc hs hn
  · exact State.panelInputs_otherwise hi hc hs hs'
  · exact State.panelInputs_ended (w := .busy) hi he hn
  · exact State.panelInputs_ended (w := .unknown) hi he hn
  · exact State.panelInputs_free hi he

/-! ## The transmit boundary of the console link (R145, R157, R209) -/

theorem makeConsoleFrame_sample (x : Sample) (control : Option (Bool × Byte)) :
    (makeConsoleFrame x control).sample = sampleField x := by
  cases control <;> rfl

/-- The sum of the console output's contributions. -/
def State.consoleSum (s : State) (working : Nat) : Int := mixSum s.consoleVoices working s.consoleTone

theorem State.mixConsole_none {s : State} (h : s.clu.output = none) : s.mixConsole = (0, s.clu) := by
  unfold State.mixConsole
  rw [h]

theorem State.mixConsole_some {s : State} {o : Output} (ho : s.clu.output = some o) :
    s.mixConsole = (saturated (s.consoleSum o.working), { s.clu with
      output := some (o.counted s.settings.clip s.settings.floor s.settings.console.gain (clips (s.consoleSum o.working)))
      cursor := s.clu.cursor.map (·.advanced) }) := by
  unfold State.mixConsole
  rw [ho]
  rfl

/-- In UP the boundary computes the output once, moves the cursor on, and sends the sample. -/
theorem exec_consoleTransmit_mixes {s w : State} {o : Output} (hr : Running s) (hu : s.clu.link.state = .up)
    (hw : w = s.modClu (·.sampled)) (ho : s.clu.output = some o) : ∃ t control, exec .consoleTransmitBoundary s = .next t ∧
      t.clu.frame = some (makeConsoleFrame (saturated (w.consoleSum o.working)) control) ∧
      t.clu.output = some (o.counted s.settings.clip s.settings.floor s.settings.console.gain
        (clips (w.consoleSum o.working))) ∧
      t.clu.cursor = s.clu.cursor.map (·.advanced) := by
  subst hw
  refine ⟨_, _, exec_consoleTransmit_up hr hu (State.mixConsole_some (s := s.modClu (·.sampled)) ho).symm, rfl, ?_⟩
  dsimp only
  rw [ConsoleUnit.nextByte_fields]
  exact ⟨rfl, rfl⟩

/-- Settles O34: the voices and the tone in each state of the console, and one computation with them. -/
theorem aConsoleTransmitMixesTheConsoleOutput : Obligations.AConsoleTransmitMixesTheConsoleOutput := by
  intro s o hr hu ho
  obtain ⟨t, control, hexec, hframe, houtput, hcursor⟩ := exec_consoleTransmit_mixes hr hu rfl ho
  refine ⟨t, _, _, _, hexec, hframe, makeConsoleFrame_sample .., houtput, hcursor, fun voices tone h => ?_⟩
  suffices hmix : (s.modClu (·.sampled)).consoleVoices = voices ∧ (s.modClu (·.sampled)).consoleTone = tone by
    obtain ⟨hvoices, htone⟩ := hmix
    rw [State.consoleSum, hvoices, htone]
    exact Output.counted_computed ..
  rcases h with ⟨i, c, v, ht, hc, hs, hv, rfl, rfl⟩ | ⟨i, c, n, ht, hc, hs, hn, rfl, rfl⟩ | ⟨i, c, ht, hc, hs, hs', rfl, rfl⟩ |
    ⟨i, c, v, p, hm, hc, ho, hv, rfl, rfl⟩ | ⟨hn, rfl, rfl⟩
  · exact State.consoleInputs_connected (s := s.modClu _) ht hc hs hv
  · exact State.consoleInputs_ringing (s := s.modClu _) ht hc hs hn
  · exact State.consoleInputs_otherwise (s := s.modClu _) ht hc hs hs'
  · exact State.consoleInputs_monitor (s := s.modClu _) hm hc ho hv
  · exact State.consoleInputs_none (s := s.modClu _) hn

end Sys2Proof.Machine
end

