-- ==== Sys2Proof/Proofs/LinkGains.lean ====
section
/-! PROOFS. What every step keeps of the working gains of the link outputs: one relation, `GainsKept`, one lemma an operation, and
from it the law (R153 to R160). -/

namespace Sys2Proof.Machine

open Sys2Proof Sys2Proof.Safety

/-! ## One output (R156 to R160) -/

section
variable {clip floor configured : Nat} {o : Output}

theorem gainBounded_fresh (floor gain : Nat) : GainBounded floor gain (.fresh gain) := ⟨Nat.min_le_right .., Nat.le_refl _⟩

/-- A trim stops at the floor, a recovery at the configured gain (R158, R159). -/
theorem Output.windowEnded_bounded (h : GainBounded floor configured o) :
    GainBounded floor configured (o.windowEnded clip floor configured) := by
  obtain ⟨hlow, hhigh⟩ := h
  unfold Output.windowEnded
  split_ifs
  · exact ⟨trimmed_ge hlow, (trimmed_le ..).trans hhigh⟩
  · exact ⟨hlow, hhigh⟩
  next hroom => exact ⟨hlow.trans (Nat.le_succ _), hroom⟩
  · exact ⟨hlow, hhigh⟩
  · exact ⟨hlow, hhigh⟩

theorem Output.counted_bounded (h : GainBounded floor configured o) (sat : Bool) :
    GainBounded floor configured (o.counted clip floor configured sat) := by
  unfold Output.counted
  dsimp only
  split
  · exact h
  · exact Output.windowEnded_bounded (o := { o with tally := _, position := _, endTaken := _ }) h

theorem Output.endedOnce_bounded (h : GainBounded floor configured o) :
    GainBounded floor configured (o.endedOnce clip floor configured) := by
  unfold Output.endedOnce
  split_ifs
  · exact h
  · exact Output.windowEnded_bounded h
  · exact h

/-- A new floor raises what lies below it (R160). -/
theorem Output.raised_bounded (h : o.working ≤ configured) : GainBounded floor configured (o.raised floor configured) :=
  ⟨Nat.le_max_right .., Nat.max_le.mpr ⟨h, Nat.min_le_right ..⟩⟩

end

/-! ## GainsKept -/

/-- The bound of a panel output, where the panel has one. -/
def PanelGainBounded (s : State) (p : Panel) : Prop :=
  ∀ o, (s.panel p).output = some o → GainBounded s.settings.floor (s.panelProfile p).gain o

/-- The bound of the console output, where there is one. -/
def ConsoleGainBounded (s : State) : Prop := ∀ o, s.clu.output = some o → GainBounded s.settings.floor s.settings.console.gain o

/-- From `s` to `t` the part stays in its stage, and every link output that keeps to its bound goes on doing so. -/
structure GainsKept (s t : State) : Prop where
  stage   : t.stage = s.stage
  panels  : ∀ p, PanelGainBounded s p → PanelGainBounded t p
  console : ConsoleGainBounded s → ConsoleGainBounded t

/-- Where no link has an output there is none to bound. -/
theorem linkGainsBounded_of_none {s : State} (hp : ∀ p, (s.panel p).output = none) (hc : s.clu.output = none) :
    LinkGainsBounded s where
  panels p _ ho := nomatch (hp p).symm.trans ho
  console _ ho := nomatch hc.symm.trans ho
  atRest _ := ⟨hp, hc⟩

section
variable {s t u : State}

namespace GainsKept

theorem refl (s : State) : GainsKept s s := ⟨rfl, fun _ => id, id⟩

theorem trans (h : GainsKept s t) (g : GainsKept t u) : GainsKept s u :=
  ⟨g.stage.trans h.stage, fun p => g.panels p ∘ h.panels p, g.console ∘ h.console⟩

/-- The law of a running part. -/
theorem bounded (h : GainsKept s t) (hr : Running s) (hs : LinkGainsBounded s) : LinkGainsBounded t where
  panels p := h.panels p (hs.panels p)
  console := h.console hs.console
  atRest hn := absurd (h.stage.trans hr) hn

/-- Neither the outputs nor what bounds them changed. -/
theorem of_same (hstage : t.stage = s.stage) (hsettings : t.settings = s.settings)
    (hp : ∀ p, (t.panel p).output = (s.panel p).output) (hc : t.clu.output = s.clu.output) : GainsKept s t where
  stage := hstage
  panels p h o ho := by
    rw [State.panelProfile, hsettings]
    exact h o ((hp p).symm.trans ho)
  console h o ho := by
    rw [hsettings]
    exact h o (hc.symm.trans ho)

/-- Nothing changed but blocks that hold no link output. -/
theorem of_rest (hstage : t.stage = s.stage) (hsettings : t.settings = s.settings) (hp : t.panels = s.panels)
    (hc : t.clu.output = s.clu.output) : GainsKept s t :=
  of_same hstage hsettings (fun p => congrArg (fun ps => (vget ps p).output) hp) hc

/-- The Call Controller's steps change no output. -/
theorem of_touch (h : CallTouch s t) : GainsKept s t := of_same h.stage h.settings h.output h.cluOutput

/-- Steps taken one after another over a list. -/
theorem foldl {α : Type} {f : State → α → State} (h : ∀ s x, GainsKept s (f s x)) (l : List α) (s : State) :
    GainsKept s (l.foldl f s) := by
  induction l generalizing s with
  | nil => exact refl s
  | cons x l ih => exact (h s x).trans (ih _)

/-- The scan that an event may start adds no change. -/
theorem settled (h : GainsKept s u) : GainsKept s (State.settled t u) := h.trans (of_touch (State.settled_touch t u))

theorem event {f : State → State} (h : GainsKept s (f s)) : GainsKept s (s.event f) := h.settled

theorem setRiser (r : Riser) (x : RiserUnit) : GainsKept s (s.setRiser r x) := of_rest rfl rfl rfl rfl

theorem modRiser (r : Riser) (f : RiserUnit → RiserUnit) : GainsKept s (s.modRiser r f) := of_rest rfl rfl rfl rfl

theorem post (x : Report) : GainsKept s (s.post x) := of_touch (State.post_touch s x)

/-- One panel changed, its output keeping to the bound. -/
theorem setPanel {p : Panel} {x : PanelUnit} (h : PanelGainBounded s p → ∀ o, x.output = some o →
    GainBounded s.settings.floor (s.panelProfile p).gain o) : GainsKept s (s.setPanel p x) where
  stage := rfl
  panels q hq o ho := by
    rw [State.panel_setPanel] at ho
    split at ho
    next hpq => subst hpq; exact h hq o ho
    next => exact hq o ho
  console := id

theorem setPanel_rest {p : Panel} {x : PanelUnit} (h : x.output = (s.panel p).output) : GainsKept s (s.setPanel p x) :=
  setPanel fun hs o ho => hs o (h.symm.trans ho)

theorem modPanel_rest {p : Panel} {f : PanelUnit → PanelUnit} (h : (f (s.panel p)).output = (s.panel p).output) :
    GainsKept s (s.modPanel p f) := setPanel_rest h

/-- The console unit changed, its output keeping to the bound. -/
theorem setClu {c : ConsoleUnit} (h : ConsoleGainBounded s → ∀ o, c.output = some o →
    GainBounded s.settings.floor s.settings.console.gain o) : GainsKept s (s.setClu c) :=
  ⟨rfl, fun _ => id, h⟩

theorem modClu_rest {f : ConsoleUnit → ConsoleUnit} (h : (f s.clu).output = s.clu.output) : GainsKept s (s.modClu f) :=
  setClu fun hs o ho => hs o (h.symm.trans ho)

/-- A change made under a condition. -/
theorem ite {c : Prop} [Decidable c] (h : GainsKept s t) : GainsKept s (if c then t else s) := by
  split
  · exact h
  · exact refl s

end GainsKept

/-- A command that the running part alone takes. -/
theorem State.whenRunning_gains {f : State → State} (h : GainsKept s (f s)) (hs : LinkGainsBounded s) :
    LinkGainsBounded (s.whenRunning f) := by
  by_cases hr : Running s
  · rw [State.whenRunning_running hr]; exact h.bounded hr hs
  · rwa [State.whenRunning_quiescent hr]

/-! ## Answers on a riser -/

theorem State.hookEvent_gains (s : State) (h : Handset) (off : Bool) : GainsKept s (s.hookEvent h off) := by
  rw [State.hookEvent_eq]; split
  · exact .refl s
  · refine .trans (t := s.hooked h off) (.of_rest rfl rfl rfl rfl) (.event (.of_touch ?_))
    split
    · exact State.offHook_touch ..
    · exact State.onHook_touch ..

theorem State.keyEvent_gains (s : State) (h : Handset) (k : Key) : GainsKept s (s.keyEvent h k) := by
  unfold State.keyEvent; split
  · exact .refl s
  · exact .event (.of_touch (State.releaseKey_touch ..))
  · exact .event (.of_touch (State.conciergeKey_touch ..))

theorem State.hit_gains (s : State) (r : Riser) (x : Sent) (w : Answer) : GainsKept s (s.hit r x w) := by
  unfold State.hit; dsimp only
  refine .trans (.trans ?_ (State.hookEvent_gains ..)) (State.keyEvent_gains ..)
  split
  · exact .modRiser ..
  · exact .trans (.modRiser ..) (.post _)

theorem State.miss_gains (s : State) (r : Riser) (x : Sent) : GainsKept s (s.miss r x) := by
  unfold State.miss; dsimp only; split
  · split
    · exact .modRiser ..
    · exact .trans (.trans (.modRiser ..) (.post _)) (.event (.of_touch (State.handsetLost_touch ..)))
  · exact .modRiser ..

/-! ## Risers -/

theorem State.enableRiser_gains (s : State) (r : Riser) : GainsKept s (s.enableRiser r) := by
  unfold State.enableRiser
  exact .ite (.trans (.setRiser ..) (.post _))

theorem State.riserOff_gains (s : State) (r : Riser) (e : RiserEvent) : GainsKept s (s.riserOff r e) :=
  .trans (.trans (.setRiser ..) (.of_touch (State.testClearing_touch _))) (.post _)

theorem State.disableRiser_gains (s : State) (r : Riser) : GainsKept s (s.disableRiser r) := by
  have hgone : ∀ u, GainsKept s ((s.setRiser r u).riserGone r) := fun u =>
    .trans (.setRiser r u) (.of_touch (State.riserGone_touch ..))
  unfold State.disableRiser; split
  · exact hgone _
  · exact (hgone _).trans (State.riserOff_gains ..)
  · exact (hgone _).trans (State.riserOff_gains ..)
  · exact .refl s

theorem State.boundaryState_gains (s : State) (r : Riser) : GainsKept s (s.boundaryState r) := by
  unfold State.boundaryState; split
  · exact .ite (.modRiser ..)
  · dsimp only; split
    · exact (State.riserOff_gains ..).trans (State.enableRiser_gains ..)
    · exact State.riserOff_gains ..
  · exact .refl s

/-- A slot output is no link output. -/
theorem State.mixSlot_gains (r : Riser) (s : State) (k : Slot) : GainsKept s (State.mixSlot r s k) := by
  cases h : vget (s.riser r).outputs k with
  | none => rw [State.mixSlot_none h]; exact .setRiser ..
  | some o => rw [State.mixSlot_some h]; exact .of_rest rfl rfl rfl rfl

theorem execRiserFrameBoundary_gains (r : Riser) (voice : List (Addr × Sample)) (hs : LinkGainsBounded s)
    (h : execRiserFrameBoundary r voice s = .next t) : LinkGainsBounded t := by
  have hevent : GainsKept s (s.event fun s => ((s.copied r voice).testClearing).boundaryState r) :=
    .event (.trans (.trans (.modRiser ..) (.of_touch (State.testClearing_touch _))) (State.boundaryState_gains ..))
  cases h
  exact State.whenRunning_gains (.ite (.trans (hevent.trans (.modRiser ..)) (.foldl (State.mixSlot_gains r) allSlots _))) hs

/-! ## Panel links (R102 to R105, R153, R156) -/

/-- A link that is lost has no output. -/
theorem State.panelLost_gains (s : State) (p : Panel) (l : LinkState) (e : LinkEvent) : GainsKept s (s.panelLost p l e) := by
  have hleaving : GainsKept s (s.modPanel p (·.leaving l)) := .setPanel fun _ o ho => by
    dsimp only at ho
    rw [PanelUnit.leaving_eq] at ho
    cases ho
  have hleft : GainsKept s (s.panelLeft p l) := by
    unfold State.panelLeft; split
    · exact hleaving.trans (.of_touch (State.endCall_touch ..))
    · exact hleaving
  rw [State.panelLost_eq]
  exact (hleft.trans (.modPanel_rest rfl)).trans (.post _)

theorem State.panelBad_gains (s : State) (p : Panel) : GainsKept s (s.panelBad p) := by
  unfold State.panelBad; split
  · exact .refl s
  · exact .modPanel_rest rfl
  · split
    · exact .modPanel_rest rfl
    · exact .event (State.panelLost_gains ..)

theorem State.panelControl_gains (s : State) (p : Panel) (code : Byte) (param : Word) :
    GainsKept s (s.panelControl p code param) := by
  unfold State.panelControl; split
  · exact .event (.of_touch (State.panelCall_touch ..))
  · exact .ite (.event (.of_touch (State.panelCancel_touch ..)))

/-- The entry to UP creates the output at its configured gain. -/
theorem State.panelGood_gains (s : State) (p : Panel) (f : PanelFrame) : GainsKept s (s.panelGood p f) := by
  unfold State.panelGood; split
  · exact .refl s
  · split
    · exact .modPanel_rest rfl
    · refine .trans (.setPanel fun _ o ho => ?_) (.post _)
      cases ho
      exact gainBounded_fresh ..
  · exact .trans (.modPanel_rest rfl) (State.panelControl_gains ..)

/-- The computation of a panel output keeps it within its bound (R152, R157). -/
theorem State.mixPanel_gains {p : Panel} (h : PanelGainBounded s p) {o : Output} (ho : (s.mixPanel p).2.output = some o) :
    GainBounded s.settings.floor (s.panelProfile p).gain o := by
  cases hold : (s.panel p).output with
  | none => rw [State.mixPanel_none hold] at ho; exact h o ho
  | some old =>
    rw [State.mixPanel_some hold] at ho
    cases ho
    exact Output.counted_bounded (h old hold) _

theorem execPanelTransmitBoundary_gains (p : Panel) (hs : LinkGainsBounded s) (h : execPanelTransmitBoundary p s = .next t) :
    LinkGainsBounded t := by
  cases h
  refine State.whenRunning_gains ?_ hs
  dsimp only; split
  · exact .refl s
  · exact .modPanel_rest rfl
  · refine .trans (.modPanel_rest rfl) (.setPanel fun hb o ho => State.mixPanel_gains hb ?_)
    rwa [PanelUnit.nextControl_eq] at ho

/-! ## The console link (R153, R156, R171, R172) -/

theorem State.consoleLost_gains (s : State) : GainsKept s s.consoleLost := by
  have hlost : GainsKept s (s.modClu (·.lost)) := .setClu fun _ o ho => nomatch ho
  exact (hlost.trans (.of_touch (State.consoleGone_touch _))).trans (.post _)

theorem State.consoleBad_gains (s : State) : GainsKept s s.consoleBad := by
  unfold State.consoleBad; split
  · exact .refl s
  · exact .of_rest rfl rfl rfl rfl
  · split
    · exact .of_rest rfl rfl rfl rfl
    · exact .event s.consoleLost_gains

theorem State.consoleUp_gains (s : State) : GainsKept s s.consoleUp := by
  have hup : GainsKept s (s.modClu (·.up s.settings.console.gain)) := .setClu fun _ o ho => by
    cases ho; exact gainBounded_fresh ..
  have hstartup : ∀ v : State, GainsKept v v.postStartup := fun v => by
    unfold State.postStartup; split
    · exact .trans (.post _) (.of_rest rfl rfl rfl rfl)
    · exact .refl v
  exact (hup.trans (.post _)).trans (hstartup _)

theorem State.mixConsole_gains (h : ConsoleGainBounded s) {o : Output} (ho : s.mixConsole.2.output = some o) :
    GainBounded s.settings.floor s.settings.console.gain o := by
  cases hold : s.clu.output with
  | none => rw [State.mixConsole_none hold] at ho; exact h o ho
  | some old =>
    rw [State.mixConsole_some hold] at ho
    cases ho
    exact Output.counted_bounded (h old hold) _

theorem execConsoleTransmitBoundary_gains (hs : LinkGainsBounded s) (h : execConsoleTransmitBoundary s = .next t) :
    LinkGainsBounded t := by
  cases h
  refine State.whenRunning_gains ?_ hs
  dsimp only; split
  · exact .refl s
  · exact .of_rest rfl rfl rfl rfl
  · refine .trans (t := s.modClu (·.sampled)) (.of_rest rfl rfl rfl rfl) (.setClu fun hb o ho => State.mixConsole_gains hb ?_)
    rw [ConsoleUnit.nextByte_fields] at ho
    exact ho

/-! ## The settings requests (R144, R156, R160, R189 to R192) -/

/-- A changed gain of a panel resets its output to it. -/
theorem doPanelSet_gains (panel installed gain ring : Byte) (talk : Word) (strike : Byte) (s : State) :
    GainsKept s (doPanelSet panel installed gain ring talk strike s).state := by
  unfold doPanelSet; split
  · exact .refl s
  dsimp only [settledReply]
  generalize Fin.ofNat 6 panel.toNat = p
  generalize clampedPanel installed gain ring talk strike = new
  refine .settled ?_
  have hgained : GainsKept s (State.panelGained (s.setSettings { s.settings with panels := vset s.settings.panels p new }) p
      (s.panelProfile p) new) := by
    refine ⟨by rw [State.panelGained_eq]; rfl, fun q hq o ho => ?_, by rw [State.panelGained_eq]; exact id⟩
    rw [State.panelGained_eq] at ho ⊢
    rw [State.panel_setPanel] at ho
    have hprofile : (vget (vset s.settings.panels p new) q) = if p = q then new else s.panelProfile q := vget_vset ..
    show GainBounded s.settings.floor (vget (vset s.settings.panels p new) q).gain o
    rw [hprofile]
    split at ho
    next hpq =>
      subst hpq
      rw [if_pos rfl]
      dsimp only at ho
      split at ho
      next hsame => rw [hsame]; exact hq o ho
      next =>
        obtain ⟨-, -, rfl⟩ := Option.map_eq_some_iff.mp ho
        exact gainBounded_fresh ..
    next hpq => rw [if_neg hpq]; exact hq o ho
  dsimp only
  rw [State.panelChanged_eq _ p _ new rfl]
  refine hgained.trans ?_
  split
  · exact .refl _
  · split
    · exact .ite (.modPanel_rest rfl)
    · split
      · exact .refl _
      · exact State.panelLost_gains ..

/-- A changed gain of the console resets its output to it. -/
theorem doConsoleSet_gains (gain pageGain ring : Byte) (talk queue : Word) (page wait : Byte) (s : State) :
    GainsKept s (doConsoleSet gain pageGain ring talk queue page wait s).state := by
  unfold doConsoleSet
  dsimp only [settledReply]
  generalize clampedConsole gain pageGain ring talk queue page = new
  rw [State.consoleGained_eq]
  refine ⟨rfl, fun _ => id, fun h o ho => ?_⟩
  dsimp only [State.setSettings] at ho ⊢
  split at ho
  next hsame => rw [hsame]; exact h o ho
  next =>
    obtain ⟨-, -, rfl⟩ := Option.map_eq_some_iff.mp ho
    exact gainBounded_fresh ..

theorem doRiserSet_gains (riser enable quiet reversal mute : Byte) (s : State) :
    GainsKept s (doRiserSet riser enable quiet reversal mute s).state := by
  unfold doRiserSet; split
  · exact .refl s
  · dsimp only [settledReply]
    have hsettings : ∀ rs, GainsKept s (s.setSettings { s.settings with risers := rs }) := fun rs => ⟨rfl, fun _ => id, id⟩
    refine .trans (hsettings _) (.event ?_)
    split
    · exact .trans (.modRiser ..) (State.enableRiser_gains ..)
    · exact .trans (.modRiser ..) (State.disableRiser_gains ..)

/-- A new floor raises every output to its bound. -/
theorem doMixSet_gains (clip floor : Byte) (s : State) : GainsKept s (doMixSet clip floor s).state where
  stage := rfl
  panels p h o' ho := by
    dsimp only [doMixSet, settledReply] at ho ⊢
    rw [State.panel, State.raisedAll, vget_vtab] at ho
    obtain ⟨o, hold, rfl⟩ := Option.map_eq_some_iff.mp ho
    exact Output.raised_bounded (h o hold).2
  console h o' ho := by
    obtain ⟨o, hold, rfl⟩ := Option.map_eq_some_iff.mp ho
    exact Output.raised_bounded (h o hold).2

/-! ## Every request -/

theorem Request.run_gains (q : Request) (s : State) : GainsKept s (q.run s).state := by
  cases q with
  | read =>
    simp only [Request.run, doRead]
    split
    · exact .refl s
    · exact .ite (.of_rest rfl rfl rfl rfl)
  | status =>
    simp only [Request.run, doStatus]
    split
    · exact .refl s
    · refine .ite (.of_same rfl rfl (fun p => ?_) rfl)
      rw [State.underrunsCleared_panel]
  | writeEntries =>
    simp only [Request.run, doWriteEntries]
    split
    · exact .refl s
    · split
      · exact .refl s
      · split
        · exact .refl s
        · exact .of_rest rfl rfl rfl rfl
  | clearCounters =>
    simp only [Request.run, doClearCounters]
    split
    · exact .refl s
    · split
      · exact .refl s
      · exact .of_rest rfl rfl rfl rfl
  | protect =>
    simp only [Request.run, doProtect]
    split
    · exact .refl s
    · split
      · exact .refl s
      · exact ⟨rfl, fun _ => id, id⟩
  | panelSet => exact doPanelSet_gains ..
  | consoleSet => exact doConsoleSet_gains ..
  | riserSet => exact doRiserSet_gains ..
  | mixSet => exact doMixSet_gains ..
  | serviceEnter => exact .of_rest rfl rfl rfl rfl
  | serviceLeave => exact .of_rest rfl rfl rfl rfl
  | toneWrite =>
    simp only [Request.run, doToneWrite]
    split
    · exact .refl s
    · split
      · exact .refl s
      · split
        · exact .refl s
        · exact .of_rest rfl rfl rfl rfl
  | store =>
    simp only [Request.run, doStore]
    split
    · exact .refl s
    · split
      · exact .refl s
      · exact .of_rest rfl rfl rfl rfl
  | answerNext => exact .of_touch (doAnswerNext_touch s)
  | callFlat => exact .of_touch (doCallFlat_touch ..)
  | hangUp => exact .of_touch (doHangUp_touch s)
  | listen => exact .of_touch (doListen_touch ..)
  | barge => exact .of_touch (doBarge_touch ..)
  | leave => exact .of_touch (doLeave_touch s)
  | clearCall => exact .of_touch (doClearCall_touch ..)
  | pageStart => exact .of_touch (doPageStart_touch ..)
  | pageEnd => exact .of_touch (doPageEnd_touch s)

/-! ## Messages (R174 to R179) -/

theorem State.messageArrived_gains (s : State) : GainsKept s s.messageArrived := .of_rest rfl rfl rfl rfl

theorem State.reply_gains (s : State) (x : Reply) : GainsKept s (s.reply x) := .of_rest rfl rfl rfl rfl

theorem State.execute_gains (s : State) (tag : Byte) (q : Request) : GainsKept s (s.execute tag q) :=
  (q.run_gains s).trans (State.reply_gains ..)

theorem State.examine_gains (s : State) (m : MessageParts) : GainsKept s (s.examine m) := by
  unfold State.examine
  refine .ite ?_
  split
  · split
    · exact State.reply_gains ..
    · exact State.reply_gains ..
    · exact State.execute_gains ..
  · exact State.reply_gains ..

/-- What a whole message's arrival starts (R175). -/
theorem State.atReceiver_gains {f : State → State} (h : ∀ s, GainsKept s (f s)) (hs : LinkGainsBounded s) :
    LinkGainsBounded (s.atReceiver f) :=
  State.whenRunning_gains (.ite (s.messageArrived_gains.trans (h _))) hs

theorem State.request_gains (tag : Byte) (q : Request) (hs : LinkGainsBounded s) : LinkGainsBounded (s.request tag q) :=
  State.atReceiver_gains (fun s => .ite (s.execute_gains tag q)) hs

theorem State.appended_gains (s : State) (b : Byte) : GainsKept s (s.appended b) := by
  unfold State.appended; dsimp only; split
  · split
    · split
      · exact .of_rest rfl rfl rfl rfl
      · exact .of_rest rfl rfl rfl rfl
    · exact .of_rest rfl rfl rfl rfl
  · split
    · exact s.messageArrived_gains.trans (State.examine_gains ..)
    · exact .of_rest rfl rfl rfl rfl

theorem State.controlField_gains (s : State) (flags b : Byte) : GainsKept s (s.controlField flags b) := by
  unfold State.controlField State.controlByte
  refine .ite ?_
  split
  · exact .of_rest rfl rfl rfl rfl
  · exact .ite (s.appended_gains b)

theorem State.consoleGood_gains (s : State) (f : ConsoleFrame) : GainsKept s (s.consoleGood f) := by
  unfold State.consoleGood; split
  · exact .refl s
  · split
    · exact .of_rest rfl rfl rfl rfl
    · exact s.consoleUp_gains
  · exact .trans (.modClu_rest rfl) (State.controlField_gains ..)

/-! ## Windows (R157 to R159) -/

theorem execWindowEnd_gains (x : OutputId) (hs : LinkGainsBounded s) (h : execWindowEnd x s = .next t) :
    LinkGainsBounded t := by
  cases h
  refine State.whenRunning_gains ?_ hs
  cases x with
  | slot r k => exact .setRiser ..
  | panel p =>
    refine .setPanel fun hb o' ho => ?_
    obtain ⟨o, hold, rfl⟩ := Option.map_eq_some_iff.mp ho
    exact Output.endedOnce_bounded (hb o hold)
  | console =>
    refine .setClu fun hb o' ho => ?_
    obtain ⟨o, hold, rfl⟩ := Option.map_eq_some_iff.mp ho
    exact Output.endedOnce_bounded (hb o hold)

/-! ## Power, reset and start-up (R153, R200, R205) -/

theorem QuietBlocks.gains (h : QuietBlocks s t) : LinkGainsBounded t :=
  linkGainsBounded_of_none (fun p => by rw [h.panels]; rfl) (by rw [h.clu]; rfl)

/-- Changes of the lines and of the stages in which the part does not run. -/
theorem linkGainsBounded_congr (hs : LinkGainsBounded s) (hstage : t.stage ≠ .running → s.stage ≠ .running)
    (hsettings : t.settings = s.settings) (hp : t.panels = s.panels) (hc : t.clu = s.clu) : LinkGainsBounded t := by
  obtain ⟨hpanels, hconsole, hrest⟩ := hs
  refine ⟨fun p o ho => ?_, fun o ho => ?_, fun hn => ?_⟩
  · rw [State.panelProfile, hsettings]
    rw [State.panel, hp] at ho
    exact hpanels p o ho
  · rw [hsettings]
    rw [hc] at ho
    exact hconsole o ho
  · simp only [State.panel, hp, hc]
    exact hrest (hstage hn)

theorem State.loaded_links (s : State) (u : UnitIx) : (s.loaded u).panels = s.panels ∧ (s.loaded u).clu = s.clu := by
  unfold State.loaded
  dsimp only
  split_ifs <;> exact ⟨rfl, rfl⟩

/-- The blocks that start-up ends for have no output yet. -/
theorem State.started_gains (s : State) : GainsKept s.begun s.started := by
  have hriser : ∀ (v : State) r, GainsKept v (v.startRiser r) := fun v r => .ite (v.enableRiser_gains r)
  have hpanel : ∀ (v : State) p, GainsKept v (v.startPanel p) := fun _ _ => .ite (.modPanel_rest rfl)
  have hclu : ∀ v : State, GainsKept v (v.modClu fun c => { c with link := { c.link with state := .hunt, good := 0 } }) :=
    fun _ => .modClu_rest rfl
  exact .trans (.trans (.foldl hriser allRisers _) (.foldl hpanel allPanels _)) (hclu _)

theorem execUnitLoaded_gains (hs : LinkGainsBounded s) (h : execUnitLoaded s = .next t) : LinkGainsBounded t := by
  cases h
  split
  next u hu =>
    obtain ⟨hp, hc⟩ := hs.atRest (by rw [hu]; exact nofun)
    obtain ⟨hpanels, hclu⟩ := s.loaded_links u
    have hp' : ∀ p, ((s.loaded u).panel p).output = none := fun p => by rw [State.panel, hpanels]; exact hp p
    have hc' : (s.loaded u).clu.output = none := by rw [hclu]; exact hc
    split
    · exact linkGainsBounded_of_none hp' hc'
    · exact (State.started_gains (s.loaded u)).settled.bounded rfl (linkGainsBounded_of_none hp' hc')
  · exact hs

/-! ## Every command -/

/-- The expiry of a timer of a call, taken or not. -/
theorem expiry_gains {i : Rec} {q : Call → Prop} [∀ c, Decidable (q c)] {cause : EndCause} :
    GainsKept s (match s.call i with
      | some c => if q c then s.event fun s => s.endCall i cause else s
      | none => s) := by
  split
  · exact .ite (.event (.of_touch (State.endCall_touch ..)))
  · exact .refl s

/-- Every command keeps the link outputs within their bounds. -/
theorem exec_gains (c : Instr) (hs : LinkGainsBounded s) (h : exec c s = .next t) : LinkGainsBounded t := by
  cases c with
  | powerOn =>
    obtain ⟨u, hu, hquiet, -⟩ := powerAndReset_quiesce (s := s) (c := .powerOn) (by simp) nofun
    cases hu.symm.trans h
    exact hquiet.gains
  | powerLoss =>
    obtain ⟨u, hu, hquiet, -⟩ := powerAndReset_quiesce (s := s) (c := .powerLoss) (by simp) nofun
    cases hu.symm.trans h
    exact hquiet.gains
  | resetAssert =>
    by_cases hp : s.power = true
    · obtain ⟨u, hu, hquiet, -⟩ := powerAndReset_quiesce (s := s) (c := .resetAssert) (by simp) fun _ => hp
      cases hu.symm.trans h
      exact hquiet.gains
    · cases h
      rw [if_neg hp]
      exact linkGainsBounded_congr hs id rfl rfl rfl
  | resetRelease =>
    cases h
    split
    next hheld => exact linkGainsBounded_congr hs (fun _ => by rw [hheld.2]; exact nofun) rfl rfl rfl
    · exact linkGainsBounded_congr hs id rfl rfl rfl
  | unitLoaded => exact execUnitLoaded_gains hs h
  | lockChange asserted => cases h; split <;> exact linkGainsBounded_congr hs id rfl rfl rfl
  | wakePulse r => cases h; exact State.whenRunning_gains (.ite (.modRiser ..)) hs
  | orderSelection r => cases h; exact State.whenRunning_gains (.ite (.modRiser ..)) hs
  | answerArrival r word =>
    cases h
    refine State.whenRunning_gains ?_ hs
    split
    · exact .refl s
    · split
      · exact State.hit_gains ..
      · exact State.miss_gains ..
  | riserFrameBoundary r voice => exact execRiserFrameBoundary_gains r voice hs h
  | reversalPhaseEnd r => cases h; exact State.whenRunning_gains (.ite (.modRiser ..)) hs
  | reversalTimerExpiry r => cases h; exact State.whenRunning_gains (.ite (.modRiser ..)) hs
  | quietTimerExpiry r => cases h; exact State.whenRunning_gains (.ite (.modRiser ..)) hs
  | wakeTimerExpiry r => cases h; exact State.whenRunning_gains (.ite (.modRiser ..)) hs
  | ringTimerExpiry i => cases h; exact State.whenRunning_gains expiry_gains hs
  | talkTimerExpiry i => cases h; exact State.whenRunning_gains expiry_gains hs
  | waitTimerExpiry i => cases h; exact State.whenRunning_gains expiry_gains hs
  | queueTimeoutExpiry i => cases h; exact State.whenRunning_gains expiry_gains hs
  | strikeTimerExpiry i =>
    cases h
    refine State.whenRunning_gains ?_ hs
    split
    · exact .ite (.of_touch (setCall_touch ..))
    · exact .refl s
  | pageTimerExpiry =>
    cases h
    refine State.whenRunning_gains ?_ hs
    split
    · exact .ite (.event (.of_touch (State.endPage_touch ..)))
    · exact .refl s
  | endToneExpiry p => cases h; exact State.whenRunning_gains (.modPanel_rest (by rw [endToneStopped_fields])) hs
  | storeCompletion =>
    cases h
    refine State.whenRunning_gains ?_ hs
    split
    next w _ =>
      exact .trans (t := { s with store := s.store.written w, writing := none }) (.of_rest rfl rfl rfl rfl) (.post _)
    · exact .refl s
  | windowEnd x => exact execWindowEnd_gains x hs h
  | noticeEnd =>
    cases h
    refine State.whenRunning_gains ?_ hs
    split
    · exact .ite (.of_touch (setNotice_touch ..))
    · exact .refl s
  | panelFrameArrival p frame =>
    cases h
    refine State.whenRunning_gains ?_ hs
    split
    · exact State.panelGood_gains ..
    · exact .ite (State.panelBad_gains ..)
  | panelWindowClose p => cases h; exact State.whenRunning_gains (.ite (State.panelBad_gains ..)) hs
  | panelTransmitBoundary p => exact execPanelTransmitBoundary_gains p hs h
  | consoleFrameArrival frame =>
    cases h
    refine State.whenRunning_gains ?_ hs
    split
    · exact State.consoleGood_gains ..
    · exact .ite s.consoleBad_gains
  | consoleWindowClose => cases h; exact State.whenRunning_gains (.ite s.consoleBad_gains) hs
  | consoleTransmitBoundary => exact execConsoleTransmitBoundary_gains hs h
  | invalidMessage message =>
    cases h
    split
    · exact State.atReceiver_gains (fun s => s.examine_gains _) hs
    · exact hs
  | read | status | writeEntries | clearCounters | protect | panelSet | consoleSet | riserSet | mixSet | serviceEnter
  | serviceLeave | toneWrite | store | answerNext | callFlat | hangUp | listen | barge | leave | clearCall | pageStart
  | pageEnd => cases h; exact State.request_gains _ _ hs

theorem State.tick_gains (hs : LinkGainsBounded s) : LinkGainsBounded s.tick := by
  refine State.whenRunning_gains (.of_same rfl rfl (fun p => ?_) rfl) hs
  exact (congrArg PanelUnit.output (vget_vmap PanelUnit.ticked s.panels p)).trans rfl

end

/-- Settles O59, through what each command keeps of the link outputs. -/
theorem stepsKeepTheLinkGainsBounded : Obligations.StepsKeepTheLinkGainsBounded := by
  intro s t hs h
  unfold step at h
  split at h
  next c rest _ => exact exec_gains c (linkGainsBounded_congr (t := { s with pending := rest }) hs id rfl rfl rfl) h
  · cases h
    exact State.tick_gains hs

end Sys2Proof.Machine
end

