-- ==== Sys2Proof/Proofs/MixerRequests.lean ====
section
/-! PROOFS. The Mixer's requests: MIX-SET with the outputs it raises (R160, R192), SERVICE-ENTER and SERVICE-LEAVE (R167), and
TONE-WRITE with the samples it writes (R168). -/

namespace Sys2Proof.Machine

open Sys2Proof Sys2Proof.Safety

/-! ## MIX-SET (R160, R188, R192) -/

/-- The part with the message taken, the clip limit and the trim floor written, and every output raised. -/
def State.mixWritten (s : State) (clip floor : Byte) : State :=
  (s.messageArrived.setSettings { s.settings with clip := max 1 clip.toNat, floor := floor.toNat }).raisedAll floor.toNat

/-- A clip limit of 0 is the one value replaced. -/
theorem exec_mixSet {s : State} {tag clip floor : Byte} (ha : Accepts s) : exec (.mixSet tag clip floor) s =
    .next ((s.mixWritten clip floor).reply {
      tag := tag, result := if clip = 0 then .adjusted else .done, reason := .none
      data := [if clip = 0 then 1 else clip, floor] }) := by
  have hclip : clamped 1 255 clip.toNat = max 1 clip.toNat := by have := clip.isLt; unfold clamped; omega
  have hrun : doMixSet clip floor s.messageArrived = settledReply (s.mixWritten clip floor)
      (decide (max 1 clip.toNat = clip.toNat)) [byteOf (max 1 clip.toNat), byteOf floor.toNat] := by
    rw [← hclip, State.mixWritten, ← hclip]; rfl
  refine congrArg Host.Outcome.next ((State.request_settled ha (q := .mixSet clip floor) hrun).trans ?_)
  have hzero := byte_eq_zero_iff clip
  rw [byteOf_toNat]
  by_cases hc : clip = 0
  · subst hc; rfl
  · have hmax : max 1 clip.toNat = clip.toNat := Nat.max_eq_right (Nat.pos_of_ne_zero (mt hzero.mpr hc))
    rw [if_neg hc, if_neg hc, hmax, byteOf_toNat, decide_eq_true rfl, if_pos rfl]

/-! ## SERVICE-ENTER and SERVICE-LEAVE (R167) -/

theorem exec_service {s : State} (ha : Accepts s) (tag : Byte) :
    exec (.serviceEnter tag) s = .next (confirmed { s with mixer := .service } tag [1]) ∧
    exec (.serviceLeave tag) s = .next (confirmed { s with mixer := .normal } tag [0]) :=
  ⟨congrArg Host.Outcome.next ((State.request_finished ha (q := .serviceEnter) rfl).trans rfl),
    congrArg Host.Outcome.next ((State.request_finished ha (q := .serviceLeave) rfl).trans rfl)⟩

/-! ## The samples of a TONE-WRITE (R168) -/

/-- A position that no sample is written at keeps its sample. -/
theorem toneRun_untouched {n : Nat} {samples : List Word} {v : Vector Sample 40} {j : Fin 40}
    (hj : ∀ m, m < samples.length → j.val ≠ (n + m) % 40) : vget (toneRun n samples v) j = vget v j := by
  induction samples generalizing n v with
  | nil => rfl
  | cons w rest ih =>
    have hhead : Fin.ofNat 40 n ≠ j := fun h => hj 0 (Nat.succ_pos _) (by rw [← h]; rfl)
    rw [toneRun, ih fun m hm => ?_, vget_vset_ne _ hhead]
    rw [Nat.add_assoc, Nat.add_comm 1 m]
    exact hj (m + 1) (Nat.succ_lt_succ hm)

/-- A run no longer than the waveform leaves each of its samples at its position. -/
theorem toneRun_written {n m : Nat} {samples : List Word} {v : Vector Sample 40} {w : Word} (hl : samples.length ≤ 40)
    (hw : samples[m]? = some w) : vget (toneRun n samples v) (Fin.ofNat 40 (n + m)) = toneLimited w := by
  induction samples generalizing n m v with
  | nil => cases hw
  | cons x rest ih =>
    rw [List.length_cons] at hl
    cases m with
    | zero =>
      cases hw
      rw [toneRun, toneRun_untouched fun k hk => ?_, Nat.add_zero, vget_vset_self]
      rw [Fin.val_ofNat]
      omega
    | succ m =>
      rw [toneRun, show n + (m + 1) = n + 1 + m by omega]
      exact ih (by omega) hw

theorem toneLimited_toInt (w : Word) : (toneLimited w).toInt = max (-8192) (min 8191 w.toInt) := by
  rw [toneLimited, saturated_toInt, limited_eq]

theorem toneInRange_iff (w : Word) : toneInRange w = true ↔ -8192 ≤ w.toInt ∧ w.toInt ≤ 8191 := by
  simp only [toneInRange, clips, Bool.not_eq_true', Bool.or_eq_false_iff, decide_eq_false_iff_not]
  omega

/-! ## TONE-WRITE (R168) -/

section
variable {s : State} {tag wave start level : Byte} {samples : List Word} (ha : Accepts s) (hl : samples.length ≤ 30)
include ha hl

theorem exec_toneWrite_range (hw : 3 < wave.toNat ∨ 39 < start.toNat) :
    exec (.toneWrite tag wave start level samples) s = .next (refusal s tag .range []) :=
  congrArg Host.Outcome.next (State.request_refused ha ((if_neg (Nat.not_lt.mpr hl)).trans (if_pos hw)))

theorem exec_toneWrite_normal (hw : ¬ (3 < wave.toNat ∨ 39 < start.toNat)) (hm : s.mixer = .normal) :
    exec (.toneWrite tag wave start level samples) s = .next (refusal s tag .mode []) := by
  refine congrArg Host.Outcome.next (State.request_refused ha ((if_neg (Nat.not_lt.mpr hl)).trans ((if_neg hw).trans ?_)))
  rw [show s.messageArrived.mixer = .normal from hm]

/-- In SERVICE the write is carried out, and ADJUSTED when a sample was limited. -/
theorem exec_toneWrite_service (hw : ¬ (3 < wave.toNat ∨ 39 < start.toNat)) (hm : s.mixer ≠ .normal) :
    exec (.toneWrite tag wave start level samples) s = .next { s with
      tones := s.tones.written (Fin.ofNat 4 wave.toNat) start.toNat level.toNat samples
      clu := replied s.clu tag (if ∀ w ∈ samples, -8192 ≤ w.toInt ∧ w.toInt ≤ 8191 then .done else .adjusted) .none
        [wave, start, byteOf samples.length] } := by
  have hservice : s.messageArrived.mixer = .service := by
    cases hmode : s.mixer with
    | normal => exact absurd hmode hm
    | service => exact hmode
  have hrun : doToneWrite wave start level samples s.messageArrived = settledReply
      { s.messageArrived with tones := s.tones.written (Fin.ofNat 4 wave.toNat) start.toNat level.toNat samples }
      (samples.all toneInRange) [wave, start, byteOf samples.length] := by
    rw [doToneWrite, if_neg (Nat.not_lt.mpr hl), if_neg hw]
    split
    next hnormal => exact nomatch hnormal.symm.trans hservice
    · rfl
  have hrange : (samples.all toneInRange = true) ↔ ∀ w ∈ samples, -8192 ≤ w.toInt ∧ w.toInt ≤ 8191 := by
    simp only [List.all_eq_true, toneInRange_iff]
  refine congrArg Host.Outcome.next ((State.request_settled ha (q := .toneWrite wave start level samples) hrun).trans ?_)
  rw [if_congr hrange rfl rfl]
  rfl

end

/-- Settles O45: MIX-SET block by block, the two modes, and TONE-WRITE by its tests and then by waveform and position. -/
theorem mixerRequestsTakeEffect : Obligations.MixerRequestsTakeEffect := by
  refine ⟨fun s tag clip floor ha => ⟨_, exec_mixSet ha, rfl, rfl, fun p => ?_, fun r => ?_⟩,
    fun s tag ha => exec_service ha tag, fun s tag wave start level samples ha hl => ?_⟩
  · exact vget_vtab ..
  · exact vget_vmap ..
  by_cases hw : 3 < wave.toNat ∨ 39 < start.toNat
  · rw [if_pos hw]; exact exec_toneWrite_range ha hl hw
  rw [if_neg hw]
  by_cases hm : s.mixer = .normal
  · rw [if_pos hm]; exact exec_toneWrite_normal ha hl hw hm
  rw [if_neg hm]
  have hwave : ∀ v : Fin 4, Fin.ofNat 4 wave.toNat = v ↔ v.val = wave.toNat := fun v => by
    rw [Fin.ext_iff, Fin.val_ofNat]
    omega
  refine ⟨_, exec_toneWrite_service ha hl hw hm, rfl, fun v => ?_, fun v hv => ?_, fun v hv n w hn => ?_, fun v hv j hj => ?_⟩
  · exact (vget_vset ..).trans (if_congr (hwave v) rfl rfl)
  · exact vget_vset_ne _ (mt (hwave v).mp hv) _
  · obtain rfl := (hwave v).mpr hv
    rw [Tones.written, vget_vset_self, toneRun_written (by omega) hn, toneLimited_toInt]
  · obtain rfl := (hwave v).mpr hv
    rw [Tones.written, vget_vset_self, toneRun_untouched hj]

end Sys2Proof.Machine
end

