-- ==== Sys2Proof/Proofs/ConsoleMessages.lean ====
section
/-! PROOFS. A console message at the receiver: its parts, the tests of its kind and body length, and its examination
(R175 to R179). -/

namespace Sys2Proof.Machine

open Sys2Proof Sys2Proof.Safety

/-! ## The parts of a message (R175, R209) -/

/-- A word is read back from its two bytes. -/
theorem wordFrom_bytes (w : Word) : wordFrom (w.extractLsb' 8 8) (w.extractLsb' 0 8) = w :=
  (BitVec.extractLsb'_append_extractLsb'_eq_extractLsb' (by decide)).trans BitVec.extractLsb'_eq_self

/-- A body of at most 64 bytes between its head and its check is read back with them. -/
theorem messageParts_message (kind tag : Byte) {body : List Byte} (check : Word) (hn : body.length ≤ 64) :
    messageParts (kind :: tag :: BitVec.ofNat 8 body.length :: body ++ [check.extractLsb' 8 8, check.extractLsb' 0 8]) =
      some { kind := kind, tag := tag, body := body, check := check
             head := kind :: tag :: BitVec.ofNat 8 body.length :: body } := by
  have hlen : (BitVec.ofNat 8 body.length).toNat = body.length := by
    rw [BitVec.toNat_ofNat]
    omega
  have hfits : body.length ≤ Config.maxBody := hn
  simp [messageParts, hlen, hfits, wordFrom_bytes]

/-- A complete message has at least its head and its check. -/
theorem messageParts_length {bytes : List Byte} {m : MessageParts} (h : messageParts bytes = some m) : 5 ≤ bytes.length := by
  unfold messageParts at h
  split at h
  · split at h
    next hn => simp only [List.length_cons]; omega
    · cases h
  · cases h

/-! ## The tests of kind and body length (R177) -/

/-- The codes that are the kind of no request (Tables 10.2 and 10.3). -/
abbrev NoRequestKind (kind : Byte) : Prop := kind.toNat = 0 ∨ (0x0D < kind.toNat ∧ kind.toNat < 0x10) ∨ 0x18 < kind.toNat

/-- The bodies whose length no request of their kind has, whatever they hold (Tables 10.2 and 10.3). -/
abbrev WrongLength (kind : Byte) (body : List Byte) : Prop :=
  (kind = 0x02 ∨ kind = 0x04 ∨ kind = 0x0D ∨ kind = 0x17) ∧ body.length ≠ 1 ∨
  (kind = 0x09 ∨ kind = 0x12) ∧ body.length ≠ 2 ∨ (kind = 0x13 ∨ kind = 0x14 ∨ kind = 0x16) ∧ body.length ≠ 3 ∨
  kind = 0x05 ∧ body.length ≠ 4 ∨ (kind = 0x01 ∨ kind = 0x08) ∧ body.length ≠ 5 ∨ kind = 0x06 ∧ body.length ≠ 7 ∨
  kind = 0x07 ∧ body.length ≠ 9 ∨
  (kind = 0x0A ∨ kind = 0x0B ∨ kind = 0x10 ∨ kind = 0x11 ∨ kind = 0x15 ∨ kind = 0x18) ∧ body ≠ [] ∨
  (kind = 0x03 ∨ kind = 0x0C) ∧ body.length < 4

section
variable {kind : Byte} {body : List Byte}

theorem parseRequest_unknownKind (h : NoRequestKind kind) : parseRequest kind body = .unknownKind := by
  unfold parseRequest
  split
  case h_23 => rfl
  all_goals omega

theorem parseWrite_known (gain b1 b2 b3 : Byte) (rest : List Byte) : parseWrite gain b1 b2 b3 rest ≠ .unknownKind := by
  unfold parseWrite; dsimp only; split <;> exact nofun

theorem parseTone_known (wave start level n : Byte) (rest : List Byte) : parseTone wave start level n rest ≠ .unknownKind := by
  unfold parseTone; split <;> exact nofun

theorem parseRequest_known (h : ¬ NoRequestKind kind) : parseRequest kind body ≠ .unknownKind := by
  unfold NoRequestKind at h
  unfold parseRequest
  split
  case h_3 =>
    split
    · apply parseWrite_known
    · exact nofun
  case h_12 =>
    split
    · apply parseTone_known
    · exact nofun
  case h_23 =>
    exfalso
    simp only [imp_false] at *
    omega
  all_goals
    split
    · exact nofun
    · exact nofun

theorem parseRequest_badLength (h : WrongLength kind body) : parseRequest kind body = .badLength := by
  have hempty : body ≠ [] ↔ body.length ≠ 0 := not_congr List.length_eq_zero_iff.symm
  rw [WrongLength, hempty] at h
  rcases h with ⟨rfl | rfl | rfl | rfl, hl⟩ | ⟨rfl | rfl, hl⟩ | ⟨rfl | rfl | rfl, hl⟩ | ⟨rfl, hl⟩ | ⟨rfl | rfl, hl⟩ |
    ⟨rfl, hl⟩ | ⟨rfl, hl⟩ | ⟨rfl | rfl | rfl | rfl | rfl | rfl, hl⟩ | ⟨rfl | rfl, hl⟩
  all_goals
    simp only [parseRequest, BitVec.reduceToNat]
    split
    · exact absurd hl (by simp)
    · rfl

end

/-! ## The examination (R176, R177, R179) -/

section
variable {s : State} {m : MessageParts}

theorem State.examine_full (h : 4 ≤ s.clu.replies.length) : s.messageArrived.examine m =
    { s with clu := { s.clu with receiver := .waiting, buffer := [] } } :=
  if_neg (mt of_decide_eq_true (Nat.not_lt.mpr h))

/-- With room for a reply a message that is not executed leaves its refusal and nothing else. -/
theorem State.examine_room (h : ¬ 4 ≤ s.clu.replies.length) : s.messageArrived.examine m =
    if checkPasses m.head m.check then
      match parseRequest m.kind m.body with
      | .unknownKind => refusal s m.tag .unknownKind []
      | .badLength => refusal s m.tag .length []
      | .request q => s.messageArrived.execute m.tag q
    else refusal s m.tag .check [] :=
  if_pos (decide_eq_true (Nat.lt_of_not_le h))

/-- A complete message that arrives on an UP link is examined. -/
theorem exec_invalidMessage (hr : Running s) (hu : s.clu.link.state = .up) {bytes : List Byte}
    (hm : messageParts bytes = some m) : exec (.invalidMessage bytes) s = .next (s.messageArrived.examine m) := by
  simp only [exec, execInvalidMessage, hm, State.atReceiver, State.whenRunning_running hr, if_pos hu]

end

/-- Settles O35: the tests of the examination in their order. -/
theorem anInvalidMessageIsRefusedOrDiscarded : Obligations.AnInvalidMessageIsRefusedOrDiscarded := by
  intro s kind tag body check hr hu hn head e
  have hexec := exec_invalidMessage hr hu (messageParts_message kind tag check hn)
  split_ifs with hfull hcheck hkind hlength
  · rw [hexec, State.examine_full hfull]
  all_goals rw [State.examine_room hfull] at hexec
  · rw [hexec, if_neg (by rw [hcheck]; decide)]
  all_goals rw [if_pos (by simpa using hcheck)] at hexec
  · rw [hexec, parseRequest_unknownKind hkind]
  · rw [hexec, parseRequest_badLength hlength]
  · have hknown := parseRequest_known (body := body) hkind
    dsimp only at hexec
    generalize parseRequest kind body = x at hexec hknown ⊢
    cases x with
    | unknownKind => exact absurd rfl hknown
    | badLength => exact hexec
    | request q => exact hexec

end Sys2Proof.Machine
end

