-- ==== Sys2Proof/Proofs/ConsoleFrames.lean ====
section
/-! PROOFS. A good frame on the console link: the run that brings the link UP (R171, R204), and the control byte that the receiver
takes, to the last byte of a message (R173 to R175). -/

namespace Sys2Proof.Machine

open Sys2Proof Sys2Proof.Safety

/-! ## The entry to UP (R171, R204) -/

/-- A report posted follows the last of those before it, also where a full queue has lost its oldest. -/
theorem ConsoleUnit.posted_before_last (c : ConsoleUnit) (x : Report) :
    (c.posted x).reports.dropLast.getLast? = c.reports.getLast? := by
  unfold ConsoleUnit.posted
  split
  · simp
  next hfull =>
    have hlong : ¬ c.reports.length ≤ 1 := by
      simp only [Config.reportPlaces] at hfull
      omega
    rw [List.dropLast_concat, List.getLast?_drop, if_neg hlong]

section
variable (c : ConsoleUnit) (x : Report)

@[simp] theorem ConsoleUnit.posted_receiver : (c.posted x).receiver = c.receiver := by rw [posted_fields]
@[simp] theorem ConsoleUnit.posted_buffer : (c.posted x).buffer = c.buffer := by rw [posted_fields]
@[simp] theorem ConsoleUnit.posted_output : (c.posted x).output = c.output := by rw [posted_fields]

end

section
variable {s : State} {f : ConsoleFrame}

/-- Without a pending STARTUP report the entry to UP posts its LINK report alone. -/
theorem State.consoleUp_none (h : s.startup = none) : s.consoleUp =
    { s with clu := (s.clu.up s.settings.console.gain).posted (.link .up none none), startup := none } := by
  unfold State.consoleUp State.postStartup
  rw [show ((s.modClu (·.up s.settings.console.gain)).post (.link .up none none)).startup = none from h]
  exact congrArg (fun x => { (s.modClu (·.up s.settings.console.gain)).post (.link .up none none) with startup := x }) h

/-- A pending STARTUP report follows the LINK report. -/
theorem State.consoleUp_some {x : StartCause × List UnitIx} (h : s.startup = some x) : s.consoleUp =
    { s with
      clu := ((s.clu.up s.settings.console.gain).posted (.link .up none none)).posted (.startup x.1 x.2)
      startup := none } := by
  unfold State.consoleUp State.postStartup
  rw [show ((s.modClu (·.up s.settings.console.gain)).post (.link .up none none)).startup = some x from h]
  rfl

/-! ## Bytes at the receiver (R174, R175) -/

/-- The three bytes of a head are no complete message. -/
theorem messageParts_three (a b c : Byte) : messageParts [a, b, c] = none := by
  cases h : messageParts [a, b, c] with
  | none => rfl
  | some m => exact absurd (messageParts_length h) (by simp)

/-- A byte that leaves the message incomplete, and is no length over 64, joins it. -/
theorem State.appended_partial {b : Byte} (hm : messageParts (s.clu.buffer ++ [b]) = none)
    (hl : s.clu.buffer.length = 2 → b.toNat ≤ 64) :
    s.appended b = { s with clu := { s.clu with buffer := s.clu.buffer ++ [b] } } := by
  unfold State.appended
  dsimp only
  split
  next k tag n hbuffer =>
    have hlen : s.clu.buffer.length = 2 := by simpa using congrArg List.length hbuffer
    have hb : b = n := by simpa using congrArg List.getLast? hbuffer
    rw [if_neg (show ¬ Config.maxBody < n.toNat from hb ▸ Nat.not_lt.mpr (hl hlen))]
    rfl
  · rw [hm]; rfl

/-- The byte that completes a message has it examined. -/
theorem State.appended_complete {b : Byte} {m : MessageParts} (hm : messageParts (s.clu.buffer ++ [b]) = some m) :
    s.appended b = s.messageArrived.examine m := by
  unfold State.appended
  dsimp only
  split
  next hbuffer =>
    rw [hbuffer, messageParts_three] at hm
    cases hm
  · rw [hm]

/-- A length byte over 64 has the rest of its message skipped, and is refused while there is room for a reply. -/
theorem State.appended_overlong {kind tag b : Byte} (hbuffer : s.clu.buffer = [kind, tag]) (hb : 64 < b.toNat) :
    s.appended b = { s with clu := { s.clu with
      receiver := .skipping, buffer := []
      replies := if s.clu.replies.length < 4 then
          s.clu.replies ++ [{ tag := tag, result := .refused, reason := .length, data := [] }]
        else s.clu.replies } } := by
  unfold State.appended
  rw [hbuffer]
  refine (if_pos (show Config.maxBody < b.toNat from hb)).trans ?_
  by_cases hroom : s.clu.replies.length < 4
  · rw [if_pos hroom]; exact if_pos (decide_eq_true hroom)
  · rw [if_neg hroom]; exact if_neg (mt of_decide_eq_true hroom)

/-! ## Good frames (R171, R173) -/

theorem exec_consoleFrame_good (hr : Running s) (hf : consoleFrameGood f = true) :
    exec (.consoleFrameArrival f) s = .next (s.consoleGood f) :=
  congrArg Host.Outcome.next ((State.whenRunning_running hr _).trans (if_pos hf))

theorem State.consoleGood_hunt (h : s.clu.link.state = .hunt) (f : ConsoleFrame) : s.consoleGood f =
    if s.clu.link.good + 1 < 3 then
      { s with clu := { s.clu with link := { s.clu.link with good := s.clu.link.good + 1 } } }
    else s.consoleUp := by
  unfold State.consoleGood; rw [h]; rfl

/-- The part once a good frame in UP has ended the bad run and given the FIFO its sample. -/
def State.consoleFed (s : State) (f : ConsoleFrame) : State :=
  { s with clu := { s.clu with link := { s.clu.link with bad := 0 }, fifo := s.clu.fifo.arrived (sampleFrom f.sample) } }

theorem State.consoleGood_up (h : s.clu.link.state = .up) (f : ConsoleFrame) :
    s.consoleGood f = (s.consoleFed f).controlField f.flags f.byte := by
  unfold State.consoleGood; rw [h]; rfl

theorem exec_consoleFrame_up (hr : Running s) (hf : consoleFrameGood f = true) (hu : s.clu.link.state = .up) :
    exec (.consoleFrameArrival f) s = .next ((s.consoleFed f).controlField f.flags f.byte) := by
  rw [exec_consoleFrame_good hr hf, State.consoleGood_up hu]

/-- A byte with the first flag begins a message; one without it is the receiver's, or is dropped. -/
theorem State.controlField_eq (s : State) (flags b : Byte) : s.controlField flags b =
    if flags.getLsbD 7 then
      if flags.getLsbD 6 then { s with clu := { s.clu with receiver := .assembling, buffer := [b] } }
      else if s.clu.receiver = .assembling then s.appended b else s
    else s := rfl

/-- A control field whose byte does not end the receiver's message begins one, joins it, or is dropped. -/
theorem State.controlField_partial {flags b : Byte}
    (h : flags.getLsbD 7 = true → flags.getLsbD 6 = false → s.clu.receiver = .assembling →
      messageParts (s.clu.buffer ++ [b]) = none ∧ (s.clu.buffer.length = 2 → b.toNat ≤ 64)) :
    s.controlField flags b = { s with clu := { s.clu with
      receiver := if flags.getLsbD 7 && flags.getLsbD 6 then .assembling else s.clu.receiver
      buffer := if flags.getLsbD 7 then
          if flags.getLsbD 6 then [b] else if s.clu.receiver = .assembling then s.clu.buffer ++ [b] else s.clu.buffer
        else s.clu.buffer } } := by
  rw [State.controlField_eq]
  cases hb : flags.getLsbD 7 with
  | false => rfl
  | true =>
    cases hfirst : flags.getLsbD 6 with
    | true => rfl
    | false =>
      by_cases ha : s.clu.receiver = .assembling
      · obtain ⟨hm, hl⟩ := h hb hfirst ha
        simp [ha, State.appended_partial hm hl]
      · simp [ha]

/-- A byte without the first flag is the receiver's, while it is ASSEMBLING. -/
theorem State.controlField_appended {flags b : Byte} (hb : flags.getLsbD 7 = true) (hfirst : flags.getLsbD 6 = false)
    (ha : s.clu.receiver = .assembling) : s.controlField flags b = s.appended b := by
  rw [State.controlField_eq, hb, hfirst, if_pos rfl, if_neg Bool.false_ne_true, if_pos ha]

end

/-- Settles O31: the run and the entry to UP in HUNT; in UP the byte begins a message, is dropped, or joins the partial message,
which it may complete or have skipped. -/
theorem aConsoleFrameFeedsTheReceiver : Obligations.AConsoleFrameFeedsTheReceiver := by
  refine fun s f hr hf => ⟨fun hh hg => ?_, fun hh hg => ?_, fun fed hfed hu => ?_⟩
  · rw [exec_consoleFrame_good hr hf, State.consoleGood_hunt hh, if_pos hg]
  · rw [exec_consoleFrame_good hr hf, State.consoleGood_hunt hh, if_neg (Nat.not_lt.mpr hg)]
    refine ⟨_, rfl, ?_⟩
    cases hstart : s.startup with
    | none =>
      rw [State.consoleUp_none hstart]
      simp [ConsoleUnit.up, Fifo.primed, Output.fresh, ConsoleUnit.posted_getLast]
    | some x =>
      rw [State.consoleUp_some hstart]
      simp [ConsoleUnit.up, Fifo.primed, Output.fresh, ConsoleUnit.posted_getLast, ConsoleUnit.posted_before_last]
  have hexec := exec_consoleFrame_up hr hf hu
  obtain rfl : fed = (s.consoleFed f).clu := hfed
  refine ⟨fun hpart => ?_, fun hb hfirst ha => ?_⟩
  · rw [hexec, State.controlField_partial (s := s.consoleFed f) hpart]
    rfl
  rw [State.controlField_appended (s := s.consoleFed f) hb hfirst ha] at hexec
  refine ⟨fun hm => ?_, fun kind tag hbuffer hover => ?_⟩
  · obtain ⟨m, hm⟩ := Option.isSome_iff_exists.mp hm
    rw [hexec, State.appended_complete (s := s.consoleFed f) hm]
    exact (exec_invalidMessage (s := s.consoleFed f) hr hu hm).symm
  · rw [hexec, State.appended_overlong (s := s.consoleFed f) hbuffer hover]
    rfl

end Sys2Proof.Machine
end

