-- ==== Sys2Proof/Proofs/StoreSteps.lean ====
section
/-! PROOFS. The Settings Store: what a writing that begins and one that completes make of the stored units (R195 to R199), and what
every step keeps of them: one relation, `StoreKept`, which STORE, its completion and a reset give by their effects on the store, and
every other operation by leaving it alone. -/

namespace Sys2Proof.Machine

open Sys2Proof Sys2Proof.Safety

/-! ## The stored units (R194, R195) -/

section
variable {α : Type} {bytes : α → List Byte}

theorem Stored.passes_whole (content : α) : (Stored.whole bytes content).passes bytes = true := checkPasses_checkOf _

theorem Stored.passes_erased (u : Stored α) : u.erased.passes bytes = false := rfl

theorem unitSound_erased (u : Stored α) : UnitSound bytes u.erased := .inl rfl

/-- One unit of a table is replaced by a sound one. -/
theorem unitSound_vset {n : Nat} {v : Vector (Stored α) n} {x : Stored α} (hv : ∀ i, UnitSound bytes (vget v i))
    (hx : UnitSound bytes x) (i j : Fin n) : UnitSound bytes (vget (vset v i x) j) := by
  rw [vget_vset]
  split
  · exact hx
  · exact hv j

end

/-- Every unit of a store passes its test or has its check erased. -/
structure UnitsSound (x : Store) : Prop where
  pages    : ∀ p, UnitSound pageBytes (vget x.pages p)
  settings : UnitSound settingsBytes x.settings
  tones    : UnitSound tonesBytes x.tones

theorem storeSound_iff {s : State} :
    StoreSound s ↔ UnitsSound s.store ∧ ∀ w, s.writing = some w → erasedInStore s.store w :=
  ⟨fun ⟨hp, hs, ht, hw⟩ => ⟨⟨hp, hs, ht⟩, hw⟩, fun ⟨⟨hp, hs, ht⟩, hw⟩ => ⟨hp, hs, ht, hw⟩⟩

theorem UnitsSound.begun {x : Store} (h : UnitsSound x) (w : Writing) : UnitsSound (x.begun w) := by
  cases w with
  | page p content => exact { h with pages := unitSound_vset h.pages (unitSound_erased _) p }
  | settings content => exact { h with settings := unitSound_erased _ }
  | tones content => exact { h with tones := unitSound_erased _ }

theorem UnitsSound.written {x : Store} (h : UnitsSound x) (w : Writing) : UnitsSound (x.written w) := by
  cases w with
  | page p content => exact { h with pages := unitSound_vset h.pages (unitSound_whole ..) p }
  | settings content => exact { h with settings := unitSound_whole .. }
  | tones content => exact { h with tones := unitSound_whole .. }

theorem Store.begun_erases (x : Store) (w : Writing) : erasedInStore (x.begun w) w := by
  cases w with
  | page p content => exact congrArg Stored.check (vget_vset_self ..)
  | settings content => rfl
  | tones content => rfl

/-! ## STORE and its completion (R195, R197, R199) -/

section
variable {s : State} {tag unit : Byte}

/-- The snapshot is of the unit that the number names (Table 9.1). -/
theorem State.snapshot_cases (s : State) {n : Nat} (hn : n ≤ 25) :
    (∃ p : PageIx, p.val = n ∧ s.snapshot (Fin.ofNat 26 n) = .page p (vget s.directory p)) ∨
      (n = 24 ∧ s.snapshot (Fin.ofNat 26 n) = .settings s.settings) ∨
      (n = 25 ∧ s.snapshot (Fin.ofNat 26 n) = .tones s.tones) := by
  by_cases hpage : n < 24
  · have hval : (Fin.ofNat 26 n).val = n := Nat.mod_eq_of_lt (by omega)
    have hix : (⟨(Fin.ofNat 26 n).val, by omega⟩ : PageIx) = ⟨n, hpage⟩ := Fin.ext hval
    refine .inl ⟨⟨n, hpage⟩, rfl, ?_⟩
    rw [State.snapshot, dif_pos (by omega), hix]
    rfl
  · obtain rfl | rfl : n = 24 ∨ n = 25 := by omega
    · exact .inr (.inl ⟨rfl, rfl⟩)
    · exact .inr (.inr ⟨rfl, rfl⟩)

theorem exec_store_range (ha : Accepts s) (hu : 25 < unit.toNat) :
    exec (.store tag unit) s = .next (refusal s tag .range []) :=
  congrArg Host.Outcome.next (State.request_refused ha (if_pos hu))

theorem exec_store_busy (ha : Accepts s) (hu : ¬ 25 < unit.toNat) (hw : s.writing.isSome = true) :
    exec (.store tag unit) s = .next (refusal s tag .busy []) := by
  obtain ⟨w, hw⟩ := Option.isSome_iff_exists.mp hw
  refine congrArg Host.Outcome.next (State.request_refused ha ((if_neg hu).trans ?_))
  rw [show s.messageArrived.writing = some w from hw]

theorem exec_store_idle (ha : Accepts s) (hu : ¬ 25 < unit.toNat) (hw : s.writing = none) :
    exec (.store tag unit) s = .next { confirmed s tag [unit] with
      writing := some (s.snapshot (Fin.ofNat 26 unit.toNat))
      store := s.store.begun (s.snapshot (Fin.ofNat 26 unit.toNat)) } := by
  have hrun : doStore unit s.messageArrived = finished { s.messageArrived with
      writing := some (s.snapshot (Fin.ofNat 26 unit.toNat))
      store := s.store.begun (s.snapshot (Fin.ofNat 26 unit.toNat)) } [unit] := by
    rw [doStore, if_neg hu, show s.messageArrived.writing = none from hw]
    rfl
  exact congrArg Host.Outcome.next (State.request_finished ha (q := .store unit) hrun)

theorem exec_storeCompletion_writing {w : Writing} (hr : Running s) (hw : s.writing = some w) :
    exec .storeCompletion s =
      .next { s with store := s.store.written w, writing := none, clu := s.clu.posted (.store w.unit) } := by
  refine congrArg Host.Outcome.next ((State.whenRunning_running hr _).trans ?_)
  rw [hw]
  rfl

end

/-- Settles O46: the refusals, then the writing that begins and the one that completes, unit by unit. -/
theorem aStoreTakesAndWritesASnapshot : Obligations.AStoreTakesAndWritesASnapshot := by
  refine ⟨fun s tag unit ha => ?_, fun s w hr hw => ⟨_, exec_storeCompletion_writing hr hw, ?_, rfl, rfl⟩⟩
  · by_cases hu : 25 < unit.toNat
    · rw [if_pos hu]; exact exec_store_range ha hu
    rw [if_neg hu]
    by_cases hbusy : s.writing.isSome = true
    · rw [if_pos hbusy]; exact exec_store_busy ha hu hbusy
    rw [if_neg hbusy]
    refine ⟨_, exec_store_idle ha hu (by simpa using hbusy), rfl, ?_⟩
    have hsnapshot := s.snapshot_cases (n := unit.toNat) (by omega)
    generalize s.snapshot (Fin.ofNat 26 unit.toNat) = w at hsnapshot ⊢
    obtain ⟨p, hp, rfl⟩ | ⟨hn, rfl⟩ | ⟨hn, rfl⟩ := hsnapshot
    · refine ⟨fun q hq => ?_, fun q hq => vget_vset_ne _ (by rintro rfl; exact hq hp) _, ?_, ?_⟩
      · obtain rfl : q = p := Fin.ext (hq.trans hp.symm)
        exact ⟨rfl, (congrArg (Stored.passes pageBytes) (vget_vset_self ..)).trans (Stored.passes_erased _)⟩
      · rw [if_neg (by omega)]; rfl
      · rw [if_neg (by omega)]; rfl
    · refine ⟨fun q hq => absurd q.isLt (by omega), fun q hq => rfl, ?_, ?_⟩
      · rw [if_pos hn]; exact ⟨rfl, Stored.passes_erased _⟩
      · rw [if_neg (by omega)]; rfl
    · refine ⟨fun q hq => absurd q.isLt (by omega), fun q hq => rfl, ?_, ?_⟩
      · rw [if_neg (by omega)]; rfl
      · rw [if_pos hn]; exact ⟨rfl, Stored.passes_erased _⟩
  · cases w with
    | page p content =>
      refine ⟨congrArg Stored.content (vget_vset_self ..), ?_, fun q hq => vget_vset_ne _ hq.symm _, rfl, rfl⟩
      exact (congrArg (Stored.passes pageBytes) (vget_vset_self ..)).trans (Stored.passes_whole _)
    | settings content => exact ⟨rfl, Stored.passes_whole _, rfl, rfl⟩
    | tones content => exact ⟨rfl, Stored.passes_whole _, rfl, rfl⟩

/-! ## StoreKept -/

/-- From `s` to `t` the soundness of the store is kept. -/
structure StoreKept (s t : State) : Prop where
  sound : StoreSound s → StoreSound t

section
variable {s t u : State}

namespace StoreKept

theorem refl (s : State) : StoreKept s s := ⟨id⟩

theorem trans (h : StoreKept s t) (g : StoreKept t u) : StoreKept s u := ⟨g.sound ∘ h.sound⟩

/-- Neither the stored units nor the unit being written changed. -/
theorem of_same (hx : t.store = s.store) (hw : t.writing = s.writing) : StoreKept s t := by
  refine ⟨fun hs => ?_⟩
  rw [storeSound_iff, hx, hw]
  exact storeSound_iff.mp hs

/-- A reset leaves the stored units, and nothing is being written (R196, R200). -/
theorem of_idle (hx : t.store = s.store) (hw : t.writing = none) : StoreKept s t := by
  refine ⟨fun hs => ?_⟩
  rw [storeSound_iff, hx, hw]
  exact ⟨(storeSound_iff.mp hs).1, nofun⟩

/-- The writing of a unit begins with the erasure of its check (R195). -/
theorem begun (s : State) (w : Writing) : StoreKept s { s with writing := some w, store := s.store.begun w } := by
  refine ⟨fun hs => storeSound_iff.mpr ⟨(storeSound_iff.mp hs).1.begun w, fun w' hw => ?_⟩⟩
  obtain rfl := Option.some_inj.mp hw
  exact Store.begun_erases ..

/-- A unit is written whole, with its check (R199). -/
theorem written (s : State) (w : Writing) : StoreKept s { s with store := s.store.written w, writing := none } :=
  ⟨fun hs => storeSound_iff.mpr ⟨(storeSound_iff.mp hs).1.written w, nofun⟩⟩

/-- The Call Controller's steps do not touch the store. -/
theorem of_touch (h : CallTouch s t) : StoreKept s t := of_same h.store h.writing

/-- Steps taken one after another over a list. -/
theorem foldl {α : Type} {f : State → α → State} (h : ∀ s x, StoreKept s (f s x)) (l : List α) (s : State) :
    StoreKept s (l.foldl f s) := by
  induction l generalizing s with
  | nil => exact refl s
  | cons x l ih => exact (h s x).trans (ih _)

/-- The scan that an event may start adds no change. -/
theorem event {f : State → State} (h : StoreKept s (f s)) : StoreKept s (s.event f) :=
  h.trans (of_touch (State.settled_touch s (f s)))

theorem whenRunning {f : State → State} (h : StoreKept s (f s)) : StoreKept s (s.whenRunning f) := by
  unfold State.whenRunning; split
  · exact h
  · exact refl s

/-- A change made under a condition. -/
theorem ite {c : Prop} [Decidable c] (h : StoreKept s t) : StoreKept s (if c then t else s) := by
  split
  · exact h
  · exact refl s

theorem setRiser (r : Riser) (x : RiserUnit) : StoreKept s (s.setRiser r x) := of_same rfl rfl
theorem modRiser (r : Riser) (f : RiserUnit → RiserUnit) : StoreKept s (s.modRiser r f) := of_same rfl rfl
theorem setPanel (p : Panel) (x : PanelUnit) : StoreKept s (s.setPanel p x) := of_same rfl rfl
theorem modPanel (p : Panel) (f : PanelUnit → PanelUnit) : StoreKept s (s.modPanel p f) := of_same rfl rfl
theorem setClu (c : ConsoleUnit) : StoreKept s (s.setClu c) := of_same rfl rfl
theorem modClu (f : ConsoleUnit → ConsoleUnit) : StoreKept s (s.modClu f) := of_same rfl rfl
theorem setSettings (c : Settings) : StoreKept s (s.setSettings c) := of_same rfl rfl
theorem setDirPage (p : PageIx) (q : DirPage) : StoreKept s (s.setDirPage p q) := of_same rfl rfl
theorem post (x : Report) : StoreKept s (s.post x) := of_same rfl rfl
theorem reply (x : Reply) : StoreKept s (s.reply x) := of_same rfl rfl

end StoreKept

/-! ## Answers on a riser -/

theorem State.hookEvent_store (s : State) (h : Handset) (off : Bool) : StoreKept s (s.hookEvent h off) := by
  rw [State.hookEvent_eq]; split
  · exact .refl s
  · refine .trans (t := s.hooked h off) (.modRiser ..) (.event (.of_touch ?_))
    split
    · exact State.offHook_touch ..
    · exact State.onHook_touch ..

theorem State.keyEvent_store (s : State) (h : Handset) (k : Key) : StoreKept s (s.keyEvent h k) := by
  unfold State.keyEvent; split
  · exact .refl s
  · exact .event (.of_touch (State.releaseKey_touch ..))
  · exact .event (.of_touch (State.conciergeKey_touch ..))

theorem State.hit_store (s : State) (r : Riser) (x : Sent) (w : Answer) : StoreKept s (s.hit r x w) := by
  unfold State.hit; dsimp only
  refine .trans (.trans ?_ (State.hookEvent_store ..)) (State.keyEvent_store ..)
  split
  · exact .modRiser ..
  · exact .trans (.modRiser ..) (.post _)

theorem State.miss_store (s : State) (r : Riser) (x : Sent) : StoreKept s (s.miss r x) := by
  unfold State.miss; dsimp only; split
  · split
    · exact .modRiser ..
    · exact .trans (.trans (.modRiser ..) (.post _)) (.event (.of_touch (State.handsetLost_touch ..)))
  · exact .modRiser ..

/-! ## Risers -/

theorem State.enableRiser_store (s : State) (r : Riser) : StoreKept s (s.enableRiser r) := by
  unfold State.enableRiser
  exact .ite (.trans (.setRiser ..) (.post _))

theorem State.riserOff_store (s : State) (r : Riser) (e : RiserEvent) : StoreKept s (s.riserOff r e) := by
  rw [State.riserOff_state]; exact .of_same rfl rfl

theorem State.disableRiser_store (s : State) (r : Riser) : StoreKept s (s.disableRiser r) := by
  have hgone : ∀ u, StoreKept s ((s.setRiser r u).riserGone r) := fun u =>
    .trans (.setRiser r u) (.of_touch (State.riserGone_touch ..))
  unfold State.disableRiser; split
  · exact hgone _
  · exact (hgone _).trans (State.riserOff_store ..)
  · exact (hgone _).trans (State.riserOff_store ..)
  · exact .refl s

theorem State.boundaryState_store (s : State) (r : Riser) : StoreKept s (s.boundaryState r) := by
  unfold State.boundaryState; split
  · exact .ite (.modRiser ..)
  · dsimp only; split
    · exact (State.riserOff_store ..).trans (State.enableRiser_store ..)
    · exact State.riserOff_store ..
  · exact .refl s

theorem State.mixSlot_store (r : Riser) (s : State) (k : Slot) : StoreKept s (State.mixSlot r s k) := by
  cases h : vget (s.riser r).outputs k with
  | none => rw [State.mixSlot_none h]; exact .setRiser ..
  | some o => rw [State.mixSlot_some h]; exact .of_same rfl rfl

theorem execRiserFrameBoundary_store (r : Riser) (voice : List (Addr × Sample))
    (h : execRiserFrameBoundary r voice s = .next t) : StoreKept s t := by
  have hevent : StoreKept s (s.event fun s => ((s.copied r voice).testClearing).boundaryState r) :=
    .event (.trans (.trans (.modRiser ..) (.of_touch (State.testClearing_touch _))) (State.boundaryState_store ..))
  cases h
  exact .whenRunning (.ite (.trans (hevent.trans (.modRiser ..)) (.foldl (State.mixSlot_store r) allSlots _)))

/-! ## The links -/

theorem State.panelLost_store (s : State) (p : Panel) (l : LinkState) (e : LinkEvent) : StoreKept s (s.panelLost p l e) := by
  rw [(s.panelLost_state p l e).1]; exact .of_same rfl rfl

theorem State.panelBad_store (s : State) (p : Panel) : StoreKept s (s.panelBad p) := by
  unfold State.panelBad; split
  · exact .refl s
  · exact .modPanel ..
  · split
    · exact .modPanel ..
    · exact .event (State.panelLost_store ..)

theorem State.panelControl_store (s : State) (p : Panel) (code : Byte) (param : Word) :
    StoreKept s (s.panelControl p code param) := by
  unfold State.panelControl; split
  · exact .event (.of_touch (State.panelCall_touch ..))
  · exact .ite (.event (.of_touch (State.panelCancel_touch ..)))

theorem State.panelGood_store (s : State) (p : Panel) (f : PanelFrame) : StoreKept s (s.panelGood p f) := by
  unfold State.panelGood; split
  · exact .refl s
  · split
    · exact .modPanel ..
    · exact .trans (.modPanel ..) (.post _)
  · exact .trans (.modPanel ..) (State.panelControl_store ..)

theorem State.consoleLost_store (s : State) : StoreKept s s.consoleLost :=
  .trans (.modClu (·.lost)) (.trans (.of_touch (State.consoleGone_touch _)) (.post _))

theorem State.consoleBad_store (s : State) : StoreKept s s.consoleBad := by
  unfold State.consoleBad; split
  · exact .refl s
  · exact .modClu _
  · split
    · exact .modClu _
    · exact .event s.consoleLost_store

theorem State.consoleUp_store (s : State) : StoreKept s s.consoleUp := by
  cases h : s.startup with
  | none => rw [State.consoleUp_none h]; exact .of_same rfl rfl
  | some x => rw [State.consoleUp_some h]; exact .of_same rfl rfl

/-! ## The requests -/

theorem doPanelSet_store (panel installed gain ring : Byte) (talk : Word) (strike : Byte) (s : State) :
    StoreKept s (doPanelSet panel installed gain ring talk strike s).state := by
  have hchanged : ∀ (s : State) p old new, StoreKept s (s.panelChanged p old new) := fun s p old new => by
    rw [(s.panelChanged_state p old new).1]; exact .of_same rfl rfl
  unfold doPanelSet; split
  · exact .refl s
  · dsimp only [settledReply]
    exact .trans (.setSettings _) (.event (hchanged ..))

theorem doRiserSet_store (riser enable quiet reversal mute : Byte) (s : State) :
    StoreKept s (doRiserSet riser enable quiet reversal mute s).state := by
  unfold doRiserSet; split
  · exact .refl s
  · dsimp only [settledReply]
    refine .trans (.setSettings _) (.event ?_)
    split
    · exact .trans (.modRiser ..) (State.enableRiser_store ..)
    · exact .trans (.modRiser ..) (State.disableRiser_store ..)

/-- STORE begins a writing, and no other request touches the store. -/
theorem Request.run_store (q : Request) (s : State) : StoreKept s (q.run s).state := by
  cases q with
  | read =>
    simp only [Request.run, doRead]
    split
    · exact .refl s
    · exact .ite (.of_same rfl rfl)
  | status =>
    simp only [Request.run, doStatus]
    split
    · exact .refl s
    · exact .ite (.of_same rfl rfl)
  | writeEntries =>
    simp only [Request.run, doWriteEntries]
    split
    · exact .refl s
    · split
      · exact .refl s
      · split
        · exact .refl s
        · exact .setDirPage ..
  | clearCounters =>
    simp only [Request.run, doClearCounters]
    split
    · exact .refl s
    · split
      · exact .refl s
      · exact .setDirPage ..
  | protect =>
    simp only [Request.run, doProtect]
    split
    · exact .refl s
    · split
      · exact .refl s
      · exact .setSettings _
  | panelSet => exact doPanelSet_store ..
  | consoleSet =>
    simp only [Request.run, doConsoleSet, settledReply, State.consoleGained_eq]
    exact .of_same rfl rfl
  | riserSet => exact doRiserSet_store ..
  | mixSet => exact .of_same rfl rfl
  | serviceEnter => exact .of_same rfl rfl
  | serviceLeave => exact .of_same rfl rfl
  | toneWrite =>
    simp only [Request.run, doToneWrite]
    split
    · exact .refl s
    · split
      · exact .refl s
      · split
        · exact .refl s
        · exact .of_same rfl rfl
  | store =>
    simp only [Request.run, doStore]
    split
    · exact .refl s
    · split
      · exact .refl s
      · exact .begun s _
  | answerNext => exact .of_touch (doAnswerNext_touch s)
  | callFlat => exact .of_touch (doCallFlat_touch ..)
  | hangUp => exact .of_touch (doHangUp_touch s)
  | listen => exact .of_touch (doListen_touch ..)
  | barge => exact .of_touch (doBarge_touch ..)
  | leave => exact .of_touch (doLeave_touch s)
  | clearCall => exact .of_touch (doClearCall_touch ..)
  | pageStart => exact .of_touch (doPageStart_touch ..)
  | pageEnd => exact .of_touch (doPageEnd_touch s)

/-! ## Messages (R174 to R179) -/

theorem State.execute_store (s : State) (tag : Byte) (q : Request) : StoreKept s (s.execute tag q) :=
  (q.run_store s).trans (.reply _)

theorem State.examine_store (s : State) (m : MessageParts) : StoreKept s (s.examine m) := by
  unfold State.examine
  refine .ite ?_
  split
  · split
    · exact .reply _
    · exact .reply _
    · exact State.execute_store ..
  · exact .reply _

/-- What a whole message's arrival starts (R175). -/
theorem State.atReceiver_store {f : State → State} (h : ∀ s, StoreKept s (f s)) : StoreKept s (s.atReceiver f) :=
  .whenRunning (.ite (.trans (t := s.messageArrived) (.modClu _) (h _)))

theorem State.request_store (tag : Byte) (q : Request) : StoreKept s (s.request tag q) :=
  State.atReceiver_store fun s => .ite (s.execute_store tag q)

theorem State.appended_store (s : State) (b : Byte) : StoreKept s (s.appended b) := by
  unfold State.appended; dsimp only; split
  · split
    · split
      · exact .trans (.modClu _) (.reply _)
      · exact .modClu _
    · exact .modClu _
  · split
    · exact .trans (t := s.messageArrived) (.modClu _) (State.examine_store ..)
    · exact .modClu _

theorem State.controlField_store (s : State) (flags b : Byte) : StoreKept s (s.controlField flags b) := by
  unfold State.controlField State.controlByte
  refine .ite ?_
  split
  · exact .modClu _
  · exact .ite (s.appended_store b)

theorem State.consoleGood_store (s : State) (f : ConsoleFrame) : StoreKept s (s.consoleGood f) := by
  unfold State.consoleGood; split
  · exact .refl s
  · split
    · exact .modClu _
    · exact s.consoleUp_store
  · exact .trans (.modClu _) (State.controlField_store ..)

/-! ## Start-up (R202 to R205) -/

theorem State.loaded_store (s : State) (u : UnitIx) : StoreKept s (s.loaded u) := by
  unfold State.loaded; dsimp only
  split_ifs <;> exact .of_same rfl rfl

theorem State.started_store (s : State) : StoreKept s s.started := by
  have hriser : ∀ (v : State) r, StoreKept v (v.startRiser r) := fun v r => .ite (v.enableRiser_store r)
  have hpanel : ∀ (v : State) p, StoreKept v (v.startPanel p) := fun _ _ => .ite (.modPanel ..)
  have hbegun : StoreKept s s.begun := .of_same rfl rfl
  have hclu : ∀ v : State, StoreKept v (v.modClu fun c => { c with link := { c.link with state := .hunt, good := 0 } }) :=
    fun _ => .modClu _
  exact hbegun.trans (.trans (.trans (.foldl hriser allRisers _) (.foldl hpanel allPanels _)) (hclu _))

/-! ## Every command -/

/-- The expiry of a timer of a call, taken or not. -/
theorem expiry_store {i : Rec} {q : Call → Prop} [∀ c, Decidable (q c)] {cause : EndCause} :
    StoreKept s (match s.call i with
      | some c => if q c then s.event fun s => s.endCall i cause else s
      | none => s) := by
  split
  · exact .ite (.event (.of_touch (State.endCall_touch ..)))
  · exact .refl s

/-- Every command keeps the store sound. -/
theorem exec_storeKept (c : Instr) (h : exec c s = .next t) : StoreKept s t := by
  cases c with
  | powerOn =>
    cases h
    exact iteInduction (motive := StoreKept s) (fun _ => .of_idle rfl rfl) fun _ => .of_idle rfl rfl
  | powerLoss => cases h; exact .of_idle rfl rfl
  | resetAssert =>
    cases h
    exact iteInduction (motive := StoreKept s) (fun _ => .of_idle rfl rfl) fun _ => .of_same rfl rfl
  | resetRelease =>
    cases h
    exact iteInduction (motive := StoreKept s) (fun _ => .of_same rfl rfl) fun _ => .of_same rfl rfl
  | unitLoaded =>
    cases h
    split
    next u _ =>
      split
      · exact (s.loaded_store u).trans (.of_same rfl rfl)
      · exact (s.loaded_store u).trans (.event (State.started_store _))
    · exact .refl s
  | lockChange asserted => cases h; split <;> exact .of_same rfl rfl
  | wakePulse r => cases h; exact .whenRunning (.ite (.modRiser ..))
  | orderSelection r => cases h; exact .whenRunning (.ite (.modRiser ..))
  | answerArrival r word =>
    cases h
    refine .whenRunning ?_
    split
    · exact .refl s
    · split
      · exact State.hit_store ..
      · exact State.miss_store ..
  | riserFrameBoundary r voice => exact execRiserFrameBoundary_store r voice h
  | reversalPhaseEnd r => cases h; exact .whenRunning (.ite (.modRiser ..))
  | reversalTimerExpiry r => cases h; exact .whenRunning (.ite (.modRiser ..))
  | quietTimerExpiry r => cases h; exact .whenRunning (.ite (.modRiser ..))
  | wakeTimerExpiry r => cases h; exact .whenRunning (.ite (.modRiser ..))
  | ringTimerExpiry i => cases h; exact .whenRunning expiry_store
  | talkTimerExpiry i => cases h; exact .whenRunning expiry_store
  | waitTimerExpiry i => cases h; exact .whenRunning expiry_store
  | queueTimeoutExpiry i => cases h; exact .whenRunning expiry_store
  | strikeTimerExpiry i =>
    cases h
    refine .whenRunning ?_
    split
    · exact .ite (.of_touch (setCall_touch ..))
    · exact .refl s
  | pageTimerExpiry =>
    cases h
    refine .whenRunning ?_
    split
    · exact .ite (.event (.of_touch (State.endPage_touch ..)))
    · exact .refl s
  | endToneExpiry p => cases h; exact .whenRunning (.modPanel ..)
  | storeCompletion =>
    cases h
    refine .whenRunning ?_
    split
    · exact (StoreKept.written s _).trans (.post _)
    · exact .refl s
  | windowEnd o =>
    cases h
    refine .whenRunning ?_
    split
    · exact .setRiser ..
    · exact .modPanel ..
    · exact .modClu _
  | noticeEnd =>
    cases h
    refine .whenRunning ?_
    split
    · exact .ite (.of_touch (setNotice_touch ..))
    · exact .refl s
  | panelFrameArrival p frame =>
    cases h
    refine .whenRunning ?_
    split
    · exact State.panelGood_store ..
    · exact .ite (State.panelBad_store ..)
  | panelWindowClose p => cases h; exact .whenRunning (.ite (State.panelBad_store ..))
  | panelTransmitBoundary p =>
    cases h
    refine .whenRunning ?_
    dsimp only; split
    · exact .refl s
    · exact .modPanel ..
    · exact .trans (.modPanel ..) (.setPanel ..)
  | consoleFrameArrival frame =>
    cases h
    refine .whenRunning ?_
    split
    · exact State.consoleGood_store ..
    · exact .ite s.consoleBad_store
  | consoleWindowClose => cases h; exact .whenRunning (.ite s.consoleBad_store)
  | consoleTransmitBoundary =>
    cases h
    refine .whenRunning ?_
    dsimp only; split
    · exact .refl s
    · exact .modClu _
    · exact .trans (.modClu _) (.setClu _)
  | invalidMessage message =>
    cases h
    split
    · exact State.atReceiver_store fun s => s.examine_store _
    · exact .refl s
  | read | status | writeEntries | clearCounters | protect | panelSet | consoleSet | riserSet | mixSet | serviceEnter
  | serviceLeave | toneWrite | store | answerNext | callFlat | hangUp | listen | barge | leave | clearCall | pageStart
  | pageEnd => cases h; exact State.request_store ..

end

/-- Settles O58, through what each command keeps of the store; the passing of time leaves it alone. -/
theorem stepsKeepTheStoreSound : Obligations.StepsKeepTheStoreSound := by
  intro s t hs h
  unfold step at h
  split at h
  next c rest _ =>
    exact (StoreKept.trans (s := s) (t := { s with pending := rest }) (.of_same rfl rfl) (exec_storeKept c h)).sound hs
  · cases h
    exact (StoreKept.whenRunning (.of_same rfl rfl)).sound hs

end Sys2Proof.Machine
end

