-- ==== Sys2Proof/Proofs/RequestRoundTrip.lean ====
section
/-! PROOFS. What Tables 10.2 and 10.3 write of a request is what the receiver reads (R177, R209, R210): the fields that share bytes,
the lists of items and samples, then the body of each kind and the whole message. -/

namespace Sys2Proof.Machine

open Sys2Proof Sys2Proof.Safety

/-! ## Fields that share bytes (R208, R210) -/

/-- A protection mask is read back from its four bytes. -/
theorem longBytes_append (w : BitVec 32) :
    w.extractLsb' 24 8 ++ w.extractLsb' 16 8 ++ w.extractLsb' 8 8 ++ w.extractLsb' 0 8 = w := by
  rw [BitVec.extractLsb'_append_extractLsb'_eq_extractLsb' (by decide),
    BitVec.extractLsb'_append_extractLsb'_eq_extractLsb' (by decide),
    BitVec.extractLsb'_append_extractLsb'_eq_extractLsb' (by decide), BitVec.extractLsb'_eq_self]

/-- The three bytes of an item carry its 24 bits. -/
theorem threeBytes_append (v : BitVec 24) : v.extractLsb' 16 8 ++ v.extractLsb' 8 8 ++ v.extractLsb' 0 8 = v := by
  rw [BitVec.extractLsb'_append_extractLsb'_eq_extractLsb' (by decide),
    BitVec.extractLsb'_append_extractLsb'_eq_extractLsb' (by decide), BitVec.extractLsb'_eq_self]

section
variable {v m n start i : Nat} {hi : BitVec v} {lo : BitVec m} {x : BitVec n} {b : Bool}

/-- A field is read past the bits below it. -/
theorem extractLsb'_append_above (h : hi.extractLsb' start n = x) : (hi ++ lo).extractLsb' (start + m) n = x := by
  rw [BitVec.extractLsb'_append_eq_of_le (Nat.le_add_left ..), Nat.add_sub_cancel, h]

/-- A flag is read past the bits below it. -/
theorem getLsbD_append_above (h : hi.getLsbD i = b) : (hi ++ lo).getLsbD (i + m) = b := by
  rw [BitVec.getLsbD_append, if_neg (Nat.not_lt.mpr (Nat.le_add_left ..)), Nat.add_sub_cancel, h]

theorem getLsbD_ofBool_zero : (BitVec.ofBool b).getLsbD 0 = b := by simp

/-- The lowest flag is read past nothing. -/
theorem getLsbD_append_ofBool : (hi ++ BitVec.ofBool b).getLsbD 0 = b := by
  rw [BitVec.getLsbD_append, if_pos Nat.one_pos, getLsbD_ofBool_zero]

end

/-! ## The items and samples of a body (R210) -/

/-- The 24 bits of an item: state, dial code, riser, address from the top bit down. -/
def itemBits (w : WriteItem) : BitVec 24 := BitVec.ofBool w.valid ++ w.code ++ w.riser ++ w.addr

section
variable (w : WriteItem)

theorem itemBytes_eq :
    itemBytes w = [(itemBits w).extractLsb' 16 8, (itemBits w).extractLsb' 8 8, (itemBits w).extractLsb' 0 8] := rfl

theorem itemBits_valid : (itemBits w).getLsbD 23 = w.valid :=
  getLsbD_append_above (getLsbD_append_above (getLsbD_append_above getLsbD_ofBool_zero))

theorem itemBits_code : (itemBits w).extractLsb' 9 14 = w.code :=
  extractLsb'_append_above (extractLsb'_append_above BitVec.extractLsb'_append_eq_right)

theorem itemBits_riser : (itemBits w).extractLsb' 5 4 = w.riser :=
  extractLsb'_append_above BitVec.extractLsb'_append_eq_right

theorem itemBits_addr : (itemBits w).extractLsb' 0 5 = w.addr := BitVec.extractLsb'_append_eq_right

/-- The first item is read back from its three bytes, whatever follows them. -/
theorem itemsFrom_itemBytes (rest : List Byte) : itemsFrom (itemBytes w ++ rest) = w :: itemsFrom rest := by
  simp only [itemBytes_eq, List.cons_append, List.nil_append, itemsFrom, itemFrom, threeBytes_append, itemBits_valid,
    itemBits_code, itemBits_riser, itemBits_addr]

end

theorem itemsFrom_flatMap (items : List WriteItem) : itemsFrom (items.flatMap itemBytes) = items := by
  induction items with
  | nil => rfl
  | cons w items ih => rw [List.flatMap_cons, itemsFrom_itemBytes, ih]

theorem wordsFrom_flatMap (samples : List Word) : wordsFrom (samples.flatMap wordBytes) = samples := by
  induction samples with
  | nil => rfl
  | cons x samples ih =>
    rw [List.flatMap_cons]
    exact congrArg₂ List.cons (wordFrom_bytes x) ih

theorem length_flatMap_itemBytes (items : List WriteItem) : (items.flatMap itemBytes).length = 3 * items.length := by
  rw [length_flatMap_of_length (k := 3) fun _ => rfl, Nat.mul_comm]

theorem length_flatMap_wordBytes (samples : List Word) : (samples.flatMap wordBytes).length = 2 * samples.length := by
  rw [length_flatMap_of_length (k := 2) fun _ => rfl, Nat.mul_comm]

/-! ## The body of each kind (R177, Tables 10.2 and 10.3) -/

/-- The page and flags of a WRITE-ENTRIES head. -/
def headFlags (h : WriteHead) : Byte := h.page ++ BitVec.ofBool h.release ++ BitVec.ofBool h.monitor ++ BitVec.ofBool h.dnd

/-- The start, group and item count of a WRITE-ENTRIES head. -/
def headCounts (h : WriteHead) (n : BitVec 5) : Word := h.start ++ h.group ++ n ++ (0 : BitVec 1)

section
variable (h : WriteHead) (n : BitVec 5)

theorem headBytes_eq : headBytes h n =
    [h.gain, headFlags h, (headCounts h n).extractLsb' 8 8, (headCounts h n).extractLsb' 0 8] := rfl

theorem headFlags_page : (headFlags h).extractLsb' 3 5 = h.page :=
  extractLsb'_append_above (extractLsb'_append_above BitVec.extractLsb'_append_eq_left)

theorem headFlags_release : (headFlags h).getLsbD 2 = h.release :=
  getLsbD_append_above (getLsbD_append_above getLsbD_append_ofBool)

theorem headFlags_monitor : (headFlags h).getLsbD 1 = h.monitor := getLsbD_append_above getLsbD_append_ofBool

theorem headFlags_dnd : (headFlags h).getLsbD 0 = h.dnd := getLsbD_append_ofBool

theorem headCounts_start : (headCounts h n).extractLsb' 11 5 = h.start :=
  extractLsb'_append_above (extractLsb'_append_above BitVec.extractLsb'_append_eq_left)

theorem headCounts_group : (headCounts h n).extractLsb' 6 5 = h.group :=
  extractLsb'_append_above (extractLsb'_append_above BitVec.extractLsb'_append_eq_right)

theorem headCounts_count : (headCounts h n).extractLsb' 1 5 = n :=
  extractLsb'_append_above BitVec.extractLsb'_append_eq_right

/-- The head of a WRITE-ENTRIES body is read back field by field, and its count decides over the bytes after it. -/
theorem parseRequest_headBytes (rest : List Byte) :
    parseRequest 0x03 (headBytes h n ++ rest) =
      if n.toNat ≤ 20 ∧ rest.length = 3 * n.toNat then .request (.writeEntries h (itemsFrom rest)) else .badLength := by
  have hread : parseRequest 0x03 (headBytes h n ++ rest) = parseWrite h.gain (headFlags h)
      ((headCounts h n).extractLsb' 8 8) ((headCounts h n).extractLsb' 0 8) rest := rfl
  simp only [hread, parseWrite, wordFrom_bytes, headFlags_page, headFlags_release, headFlags_monitor, headFlags_dnd,
    headCounts_start, headCounts_group, headCounts_count]

end

theorem parseRequest_writeEntries (head : WriteHead) {items : List WriteItem} (h : items.length ≤ 20) :
    parseRequest 0x03 (Request.writeEntries head items).body = .request (.writeEntries head items) := by
  have hcount : (BitVec.ofNat 5 items.length).toNat = items.length := by rw [BitVec.toNat_ofNat]; omega
  rw [Request.body, parseRequest_headBytes, hcount, if_pos ⟨h, length_flatMap_itemBytes items⟩, itemsFrom_flatMap]

theorem parseRequest_toneWrite (wave start level : Byte) {samples : List Word} (h : samples.length ≤ 30) :
    parseRequest 0x0C (Request.toneWrite wave start level samples).body = .request (.toneWrite wave start level samples) := by
  have hcount : (byteOf samples.length).toNat = samples.length := by rw [byteOf, BitVec.toNat_ofNat]; omega
  have hread : parseRequest 0x0C (Request.toneWrite wave start level samples).body =
      parseTone wave start level (byteOf samples.length) (samples.flatMap wordBytes) := rfl
  rw [hread, parseTone, hcount, if_pos ⟨h, length_flatMap_wordBytes samples⟩, wordsFrom_flatMap]

/-- A body is read back under its kind: only the two lists can be too long. -/
theorem parseRequest_body (q : Request) (h : q.fits = true) : parseRequest q.kind q.body = .request q := by
  cases q with
  | writeEntries head items => exact parseRequest_writeEntries head (of_decide_eq_true h)
  | toneWrite wave start level samples => exact parseRequest_toneWrite wave start level (of_decide_eq_true h)
  | protect mask => exact congrArg (fun m => Parsed.request (.protect m)) (longBytes_append mask)
  | read | panelSet | consoleSet | callFlat | listen | barge | clearCall =>
    simp [Request.kind, Request.body, parseRequest, wordBytes, wordFrom_bytes]
  | status | clearCounters | riserSet | mixSet | serviceEnter | serviceLeave | store | answerNext | hangUp | leave | pageStart
  | pageEnd => rfl

/-- 20 items or 30 samples after their four bytes fill the 64 bytes a body may have. -/
theorem Request.body_length_le (q : Request) (h : q.fits = true) : q.body.length ≤ 64 := by
  cases q with
  | writeEntries head items =>
    have hitems : items.length ≤ 20 := of_decide_eq_true h
    rw [Request.body, List.length_append, length_flatMap_itemBytes]
    simp only [headBytes, wordBytes, List.length_append, List.length_cons, List.length_nil]
    omega
  | toneWrite wave start level samples =>
    have hsamples : samples.length ≤ 30 := of_decide_eq_true h
    rw [Request.body, List.length_append, length_flatMap_wordBytes]
    simp only [List.length_cons, List.length_nil]
    omega
  | _ => simp [Request.body, wordBytes, longBytes]

/-! ## The whole message (R176, R209) -/

/-- The parts of a message the part itself forms. -/
theorem messageParts_makeMessage (kind tag : Byte) {body : List Byte} (hn : body.length ≤ 64) :
    messageParts (makeMessage kind tag body) =
      some { kind := kind, tag := tag, body := body, check := checkOf (kind :: tag :: byteOf body.length :: body)
             head := kind :: tag :: byteOf body.length :: body } :=
  messageParts_message kind tag (checkOf _) hn

/-- Settles O37: the parts of the message are those it was made of, so its check is the formed one and its body that of the
request. -/
theorem everyRequestIsReadBackAsWritten : Obligations.EveryRequestIsReadBackAsWritten :=
  fun q tag h =>
    ⟨_, messageParts_makeMessage q.kind tag (q.body_length_le h), rfl, checkPasses_checkOf _, parseRequest_body q h⟩

end Sys2Proof.Machine
end
